-- ==== Sys2Proof/Word.lean ====
section
/-! DEFINITION. The word types of PNGD-CORE: a byte of a memory and a host register. -/

namespace Sys2Proof

/-- A byte of `IN`, `INF` or `PIX` (10_state.md R33). -/
abbrev Byte := BitVec 8

/-- A host register as one aligned access sees it (10_state.md R15). -/
abbrev Word := BitVec 32

end Sys2Proof
end

