-- ==== Sys2Proof/Config.lean ====
section
/-! DEFINITION. The names the spec fixes (memory spaces, error codes, stages, stream formats), what an
implementation fixes (capacities), and the free values of the model. -/

namespace Sys2Proof

/-- The three address spaces (10_state.md R33). -/
inductive Space where
  | input  -- `IN`
  | inf    -- `INF`
  | pix    -- `PIX`
  deriving DecidableEq, Repr

/-- The error codes 1 to 12 (60_exceptions.md R300). -/
inductive ErrCode where
  | bounds | btype | emptyTable | noLeaf | symbol | codeLen | dist | filter | color | overflow | geom | cmd
  deriving DecidableEq, Repr

/-- The stage codes 0 to 11 (60_exceptions.md R301); `matching` is the spec's `MATCH`. -/
inductive Stage where
  | none | cmd | envelope | blockHeader | stored | dynHeader | dynLengths | tableBuild | symbol | matching
  | unfCfg | unfRow
  deriving DecidableEq, Repr

/-- The formats the control state can expect (30_encoding.md R89); format Z is two elements, header and trailer. -/
inductive Format where
  | zHdr | zTrl | bh | st | dh | cl | ll | d | row
  deriving DecidableEq, Repr

/-- One triple of a Huffman table (10_state.md R30, R31). -/
structure Entry where
  code : Nat
  len : Nat
  sym : Nat
  deriving DecidableEq, Repr

/-- A Huffman table, held as the list of its triples (10_state.md R31, 41_huffman.md R122). -/
abbrev Table := List Entry

/-- The capacity of each memory at `State.reset`: the one concrete machine that 00_scope.md R4 names
(DESIGN CHOICE, entry 2; the capacities themselves are fields of `State`). -/
def Config.capMax : Nat := 4294967295

/-- FREE VALUE (entry 4): the unspecified byte at an address of a space, in the given generation of that
space's contents (10_state.md R33, R36; 93_implementation_defined.md U1, U5). -/
opaque Config.freeByte : Space → Nat → Nat → Byte

/-- FREE VALUE (entry 9): the unspecified word that the host's `n`-th unspecified read returns
(20_memory.md R52, 93_implementation_defined.md U2). -/
opaque Config.freeWord : Nat → Word

end Sys2Proof
end

