-- ==== Sys2Proof/Machine/Huffman.lean ====
section
/-! DEFINITION. Huffman tables: construction from code lengths and the two constant tables (41_huffman.md). -/

namespace Sys2Proof

/-- `blCount[len]`: how many symbols have that length; 0 for length 0 (41_huffman.md R111). -/
def blCount (lengths : List Nat) (len : Nat) : Nat :=
  if len = 0 then 0 else lengths.count len

/-- `code[0], code[1], ...` from one length on: `n` starting codes, the first of which is `c` (R112). -/
def startCodesFrom (lengths : List Nat) : Nat → Nat → Nat → List Nat
  | 0, _, _ => []
  | n + 1, len, c => c :: startCodesFrom lengths n (len + 1) ((c + blCount lengths len) * 2)

/-- `code[0 .. 15]` (R112). -/
def startCodes (lengths : List Nat) : List Nat :=
  startCodesFrom lengths 16 0 0

/-- The build check (R113): for every length the codes of that length fit. -/
def lengthsFit (lengths : List Nat) : Bool :=
  (List.range 16).all fun len => decide ((startCodes lengths).getD len 0 + blCount lengths len ≤ 2 ^ len)

/-- The insertions of R112: symbols in index order, each with a non-zero length taking the next code of its length. -/
def assignCodes : List Nat → Nat → List Nat → Table
  | [], _, _ => []
  | len :: rest, sym, next =>
    if len = 0 then assignCodes rest (sym + 1) next
    else { code := next.getD len 0, len := len, sym := sym } ::
      assignCodes rest (sym + 1) (next.set len (next.getD len 0 + 1))

/-- `build(lengths, n)` with `n` the length of the list (R110, R112): the table, or `none` where R113 raises. -/
def build (lengths : List Nat) : Option Table :=
  if lengthsFit lengths then some (assignCodes lengths 0 (startCodes lengths)) else none

/-- The fixed literal/length code lengths (30_encoding.md R80). -/
def fixLLLengths : List Nat :=
  List.replicate 144 8 ++ List.replicate 112 9 ++ List.replicate 24 7 ++ List.replicate 8 8

/-- The fixed distance code lengths (30_encoding.md R80). -/
def fixDLengths : List Nat := List.replicate 32 5

/-- `FIX_LL` (41_huffman.md R120). -/
def fixLL : Table := (build fixLLLengths).getD []

/-- `FIX_D` (41_huffman.md R121). -/
def fixD : Table := (build fixDLengths).getD []

end Sys2Proof
end

