-- ==== Sys2Proof/Syntax.lean ====
section
/-! DEFINITION. The stream elements: one constructor per mnemonic of spec/opcode_table.json, with its operands.
A table row's selecting value is the constructor; what the element carries besides is its argument. `FT.ILL` fills
seven rows of the table and is one element (30_encoding.md R89; entry 15). -/

namespace Sys2Proof

/-- A stream element (30_encoding.md R89). -/
inductive Instr where
  | blkStored (final : Bool)  -- BLK.STORED, R133
  | blkFixed (final : Bool)  -- BLK.FIXED, R132
  | blkDyn (final : Bool)  -- BLK.DYN, R135
  | blkRsvd (final : Bool)  -- BLK.RSVD, R134
  | stBody (len : BitVec 16) (nlen : BitVec 16)  -- ST.BODY, R133
  | dynHdr (hlit : BitVec 5) (hdist : BitVec 5) (hclen : BitVec 4) (cls : List (BitVec 3))  -- DYN.HDR, R136
  | clLen (v : BitVec 4)  -- CL.LEN, R141
  | clRep (x : BitVec 2)  -- CL.REP, R142
  | clZ3 (x : BitVec 3)  -- CL.Z3, R143
  | clZ11 (x : BitVec 7)  -- CL.Z11, R144
  | lit (b : BitVec 8)  -- LIT, R162
  | eob  -- EOB, R163
  | len257  -- LEN257, R170
  | len258  -- LEN258, R171
  | len259  -- LEN259, R172
  | len260  -- LEN260, R173
  | len261  -- LEN261, R174
  | len262  -- LEN262, R175
  | len263  -- LEN263, R176
  | len264  -- LEN264, R177
  | len265 (x : BitVec 1)  -- LEN265, R178
  | len266 (x : BitVec 1)  -- LEN266, R179
  | len267 (x : BitVec 1)  -- LEN267, R180
  | len268 (x : BitVec 1)  -- LEN268, R181
  | len269 (x : BitVec 2)  -- LEN269, R182
  | len270 (x : BitVec 2)  -- LEN270, R183
  | len271 (x : BitVec 2)  -- LEN271, R184
  | len272 (x : BitVec 2)  -- LEN272, R185
  | len273 (x : BitVec 3)  -- LEN273, R186
  | len274 (x : BitVec 3)  -- LEN274, R187
  | len275 (x : BitVec 3)  -- LEN275, R188
  | len276 (x : BitVec 3)  -- LEN276, R189
  | len277 (x : BitVec 4)  -- LEN277, R190
  | len278 (x : BitVec 4)  -- LEN278, R191
  | len279 (x : BitVec 4)  -- LEN279, R192
  | len280 (x : BitVec 4)  -- LEN280, R193
  | len281 (x : BitVec 5)  -- LEN281, R194
  | len282 (x : BitVec 5)  -- LEN282, R195
  | len283 (x : BitVec 5)  -- LEN283, R196
  | len284 (x : BitVec 5)  -- LEN284, R197
  | len285  -- LEN285, R198
  | llIll (k : BitVec 1)  -- LL.ILL, R164
  | dist0  -- DIST0, R205
  | dist1  -- DIST1, R206
  | dist2  -- DIST2, R207
  | dist3  -- DIST3, R208
  | dist4 (x : BitVec 1)  -- DIST4, R209
  | dist5 (x : BitVec 1)  -- DIST5, R210
  | dist6 (x : BitVec 2)  -- DIST6, R211
  | dist7 (x : BitVec 2)  -- DIST7, R212
  | dist8 (x : BitVec 3)  -- DIST8, R213
  | dist9 (x : BitVec 3)  -- DIST9, R214
  | dist10 (x : BitVec 4)  -- DIST10, R215
  | dist11 (x : BitVec 4)  -- DIST11, R216
  | dist12 (x : BitVec 5)  -- DIST12, R217
  | dist13 (x : BitVec 5)  -- DIST13, R218
  | dist14 (x : BitVec 6)  -- DIST14, R219
  | dist15 (x : BitVec 6)  -- DIST15, R220
  | dist16 (x : BitVec 7)  -- DIST16, R221
  | dist17 (x : BitVec 7)  -- DIST17, R222
  | dist18 (x : BitVec 8)  -- DIST18, R223
  | dist19 (x : BitVec 8)  -- DIST19, R224
  | dist20 (x : BitVec 9)  -- DIST20, R225
  | dist21 (x : BitVec 9)  -- DIST21, R226
  | dist22 (x : BitVec 10)  -- DIST22, R227
  | dist23 (x : BitVec 10)  -- DIST23, R228
  | dist24 (x : BitVec 11)  -- DIST24, R229
  | dist25 (x : BitVec 11)  -- DIST25, R230
  | dist26 (x : BitVec 12)  -- DIST26, R231
  | dist27 (x : BitVec 12)  -- DIST27, R232
  | dist28 (x : BitVec 13)  -- DIST28, R233
  | dist29 (x : BitVec 13)  -- DIST29, R234
  | dIll (k : BitVec 1)  -- D.ILL, R203
  | ftNone  -- FT.NONE, R276
  | ftSub  -- FT.SUB, R277
  | ftUp  -- FT.UP, R278
  | ftAvg  -- FT.AVG, R279
  | ftPaeth  -- FT.PAETH, R280
  | ftIll (ft : BitVec 8)  -- FT.ILL, R283
  | zHdr (cmf : BitVec 8) (flg : BitVec 8)  -- Z.HDR, R248
  | zTrl (adler : BitVec 32)  -- Z.TRL, R248
  deriving DecidableEq, Repr

end Sys2Proof
end

