-- ==== Sys2Proof/WellFormed.lean ====
section
/-! DEFINITION. Which terms of `Instr` are elements that a stream can hold. The operand types carry every range
but two: how many code-length-code lengths a dynamic header has, and which filter bytes are illegal. -/

namespace Sys2Proof

/-- A term of `Instr` is an element of the stream: `DYN.HDR` carries `HCLEN + 4` lengths (30_encoding.md R74),
`FT.ILL` a byte 5 to 255 (R85); every other operand is any value of its field. -/
def Instr.wf : Instr → Bool
  | .blkStored _ => true
  | .blkFixed _ => true
  | .blkDyn _ => true
  | .blkRsvd _ => true
  | .stBody _ _ => true
  | .dynHdr _ _ hclen cls => cls.length == hclen.toNat + 4
  | .clLen _ => true
  | .clRep _ => true
  | .clZ3 _ => true
  | .clZ11 _ => true
  | .lit _ => true
  | .eob => true
  | .len257 => true
  | .len258 => true
  | .len259 => true
  | .len260 => true
  | .len261 => true
  | .len262 => true
  | .len263 => true
  | .len264 => true
  | .len265 _ => true
  | .len266 _ => true
  | .len267 _ => true
  | .len268 _ => true
  | .len269 _ => true
  | .len270 _ => true
  | .len271 _ => true
  | .len272 _ => true
  | .len273 _ => true
  | .len274 _ => true
  | .len275 _ => true
  | .len276 _ => true
  | .len277 _ => true
  | .len278 _ => true
  | .len279 _ => true
  | .len280 _ => true
  | .len281 _ => true
  | .len282 _ => true
  | .len283 _ => true
  | .len284 _ => true
  | .len285 => true
  | .llIll _ => true
  | .dist0 => true
  | .dist1 => true
  | .dist2 => true
  | .dist3 => true
  | .dist4 _ => true
  | .dist5 _ => true
  | .dist6 _ => true
  | .dist7 _ => true
  | .dist8 _ => true
  | .dist9 _ => true
  | .dist10 _ => true
  | .dist11 _ => true
  | .dist12 _ => true
  | .dist13 _ => true
  | .dist14 _ => true
  | .dist15 _ => true
  | .dist16 _ => true
  | .dist17 _ => true
  | .dist18 _ => true
  | .dist19 _ => true
  | .dist20 _ => true
  | .dist21 _ => true
  | .dist22 _ => true
  | .dist23 _ => true
  | .dist24 _ => true
  | .dist25 _ => true
  | .dist26 _ => true
  | .dist27 _ => true
  | .dist28 _ => true
  | .dist29 _ => true
  | .dIll _ => true
  | .ftNone => true
  | .ftSub => true
  | .ftUp => true
  | .ftAvg => true
  | .ftPaeth => true
  | .ftIll ft => decide (4 < ft.toNat)
  | .zHdr _ _ => true
  | .zTrl _ => true

end Sys2Proof
end

