-- ==== Sys2Proof/Decode.lean ====
section
/-! DEFINITION. The decoder: the BitReader's three reads over a source of bits, the table walk, and the reading of
one element of each format; then the encoder, written from the same encodings (30_encoding.md). -/

namespace Sys2Proof

/-- A source of bits: the bit at a position counted from bit 0 of byte 0, least significant bit of each byte first
(20_memory.md R40); `none` at and after the end of what may be read. -/
abbrev Src := Nat → Option Bool

/-- Why the decoder finds no element: no row of the table has this selecting value (30_encoding.md R89). -/
inductive Reject where
  | noElement (f : Format) (v : Nat)
  deriving DecidableEq, Repr

/-- The answer of a read: a value and the position after it; or a fatal error with its stage, the position where
it was raised, and the fields of the element already read; or a rejection by name. -/
inductive Read (α : Type) where
  | ok (v : α) (p : Nat)
  | stop (e : ErrCode) (st : Stage) (p : Nat) (got : List Nat)
  | reject (r : Reject)
  deriving DecidableEq, Repr

/-- Carry on with the value read and the position after it. -/
@[inline] def Read.bind {α β : Type} (r : Read α) (k : α → Nat → Read β) : Read β :=
  match r with
  | .ok v p => k v p
  | .stop e st p got => .stop e st p got
  | .reject w => .reject w

/-- `bind` for a field that a register latches as soon as it is read: a later error remembers it. -/
@[inline] def Read.field {β : Type} (r : Read Nat) (k : Nat → Nat → Read β) : Read β :=
  match r with
  | .ok v p =>
    match k v p with
    | .ok w q => .ok w q
    | .stop e st q got => .stop e st q (v :: got)
    | .reject w => .reject w
  | .stop e st p got => .stop e st p got
  | .reject w => .reject w

/-! ## The BitReader's reads (40_bitreader.md) -/

/-- `nextBit()` (R101): `E_BOUNDS` where no bit is left (R104). -/
def readBit (st : Stage) (get : Src) (p : Nat) : Read Bool :=
  match get p with
  | some b => .ok b (p + 1)
  | none => .stop .bounds st p []

/-- `nextBits(n)` (R102): the first bit read is bit 0 of the value. -/
def readBits (st : Stage) (get : Src) : Nat → Nat → Read Nat
  | 0, p => .ok 0 p
  | n + 1, p =>
    (readBit st get p).bind fun b q =>
      (readBits st get n q).bind fun v r => .ok (b.toNat + 2 * v) r

/-- The next byte boundary at or after a bit position (R103, 20_memory.md R44). -/
def alignUp (p : Nat) : Nat := (p + 7) / 8 * 8

/-- `nextByte()` (R103): the unread bits of the current byte are discarded, then a whole byte is read. -/
def readByte (st : Stage) (get : Src) (p : Nat) : Read Nat :=
  readBits st get 8 (alignUp p)

/-! ## The table walk (41_huffman.md) -/

/-- The triple reached by the first `n` bits, of value `c` most significant bit first (R118). -/
def leafAt (T : Table) (c n : Nat) : Option Entry :=
  T.find? fun e => e.len == n && e.code == c

/-- The bits `c` of number `n` lead to an inner node: some longer code begins with them (R114, R118). -/
def innerAt (T : Table) (c n : Nat) : Bool :=
  T.any fun e => decide (n < e.len) && e.code / 2 ^ (e.len - n) == c

/-- The loop of `walk` (R118), at most `fuel` more bits: `E_NOLEAF` at the bit that leaves the trie (R119). -/
def walkFrom (st : Stage) (T : Table) (get : Src) : Nat → Nat → Nat → Nat → Read Nat
  | 0, _, _, p => .stop .noLeaf st p []
  | fuel + 1, c, n, p =>
    (readBit st get p).bind fun b q =>
      match leafAt T (2 * c + b.toNat) (n + 1) with
      | some e => .ok e.sym q
      | none =>
        if innerAt T (2 * c + b.toNat) (n + 1) then walkFrom st T get fuel (2 * c + b.toNat) (n + 1) q
        else .stop .noLeaf st q []

/-- `MAXBITS` (00_scope.md R4). -/
def maxBits : Nat := 15

/-- `walk(T)` (R118): an empty table is `E_EMPTY_TABLE` before any bit is read. -/
def walk (st : Stage) (T : Table) (get : Src) (p : Nat) : Read Nat :=
  if T.isEmpty then .stop .emptyTable st p [] else walkFrom st T get maxBits 0 0 p

/-! ## Constant tables (30_encoding.md) -/

/-- `CLORD`, the transmission order of the code-length-code lengths (R77). -/
def clOrd : List Nat := [16, 17, 18, 0, 8, 7, 9, 6, 10, 5, 11, 4, 12, 3, 13, 2, 14, 1, 15]

/-- `LBASE[257 ..]` (R83). -/
def lBase : List Nat :=
  [3, 4, 5, 6, 7, 8, 9, 10, 11, 13, 15, 17, 19, 23, 27, 31, 35, 43, 51, 59, 67, 83, 99, 115, 131, 163, 195, 227, 258]

/-- `LEXT[257 ..]` (R83). -/
def lExt : List Nat := [0, 0, 0, 0, 0, 0, 0, 0, 1, 1, 1, 1, 2, 2, 2, 2, 3, 3, 3, 3, 4, 4, 4, 4, 5, 5, 5, 5, 0]

/-- `DBASE` (R84). -/
def dBase : List Nat :=
  [1, 2, 3, 4, 5, 7, 9, 13, 17, 25, 33, 49, 65, 97, 129, 193, 257, 385] ++
  [513, 769, 1025, 1537, 2049, 3073, 4097, 6145, 8193, 12289, 16385, 24577]

/-- `DEXT` (R84). -/
def dExt : List Nat := [0, 0, 0, 0, 1, 1, 2, 2, 3, 3, 4, 4, 5, 5, 6, 6, 7, 7, 8, 8, 9, 9, 10, 10, 11, 11, 12, 12, 13, 13]

/-! ## The elements of each format (30_encoding.md R89) -/

/-- Format BH: `BFINAL` and the value of `BTYPE` (R72). -/
def blockInstr (final : Bool) (t : Nat) : Instr :=
  match t with
  | 0 => .blkStored final
  | 1 => .blkFixed final
  | 2 => .blkDyn final
  | _ => .blkRsvd final

/-- The length element of a symbol with its extra bits (R78, R83). -/
def lengthInstr (v x : Nat) : Option Instr :=
  match v with
  | 257 => some (.len257)
  | 258 => some (.len258)
  | 259 => some (.len259)
  | 260 => some (.len260)
  | 261 => some (.len261)
  | 262 => some (.len262)
  | 263 => some (.len263)
  | 264 => some (.len264)
  | 265 => some (.len265 (BitVec.ofNat 1 x))
  | 266 => some (.len266 (BitVec.ofNat 1 x))
  | 267 => some (.len267 (BitVec.ofNat 1 x))
  | 268 => some (.len268 (BitVec.ofNat 1 x))
  | 269 => some (.len269 (BitVec.ofNat 2 x))
  | 270 => some (.len270 (BitVec.ofNat 2 x))
  | 271 => some (.len271 (BitVec.ofNat 2 x))
  | 272 => some (.len272 (BitVec.ofNat 2 x))
  | 273 => some (.len273 (BitVec.ofNat 3 x))
  | 274 => some (.len274 (BitVec.ofNat 3 x))
  | 275 => some (.len275 (BitVec.ofNat 3 x))
  | 276 => some (.len276 (BitVec.ofNat 3 x))
  | 277 => some (.len277 (BitVec.ofNat 4 x))
  | 278 => some (.len278 (BitVec.ofNat 4 x))
  | 279 => some (.len279 (BitVec.ofNat 4 x))
  | 280 => some (.len280 (BitVec.ofNat 4 x))
  | 281 => some (.len281 (BitVec.ofNat 5 x))
  | 282 => some (.len282 (BitVec.ofNat 5 x))
  | 283 => some (.len283 (BitVec.ofNat 5 x))
  | 284 => some (.len284 (BitVec.ofNat 5 x))
  | 285 => some (.len285)
  | _ => none

/-- The distance element of a symbol with its extra bits (R79, R84). -/
def distanceInstr (v x : Nat) : Option Instr :=
  match v with
  | 0 => some (.dist0)
  | 1 => some (.dist1)
  | 2 => some (.dist2)
  | 3 => some (.dist3)
  | 4 => some (.dist4 (BitVec.ofNat 1 x))
  | 5 => some (.dist5 (BitVec.ofNat 1 x))
  | 6 => some (.dist6 (BitVec.ofNat 2 x))
  | 7 => some (.dist7 (BitVec.ofNat 2 x))
  | 8 => some (.dist8 (BitVec.ofNat 3 x))
  | 9 => some (.dist9 (BitVec.ofNat 3 x))
  | 10 => some (.dist10 (BitVec.ofNat 4 x))
  | 11 => some (.dist11 (BitVec.ofNat 4 x))
  | 12 => some (.dist12 (BitVec.ofNat 5 x))
  | 13 => some (.dist13 (BitVec.ofNat 5 x))
  | 14 => some (.dist14 (BitVec.ofNat 6 x))
  | 15 => some (.dist15 (BitVec.ofNat 6 x))
  | 16 => some (.dist16 (BitVec.ofNat 7 x))
  | 17 => some (.dist17 (BitVec.ofNat 7 x))
  | 18 => some (.dist18 (BitVec.ofNat 8 x))
  | 19 => some (.dist19 (BitVec.ofNat 8 x))
  | 20 => some (.dist20 (BitVec.ofNat 9 x))
  | 21 => some (.dist21 (BitVec.ofNat 9 x))
  | 22 => some (.dist22 (BitVec.ofNat 10 x))
  | 23 => some (.dist23 (BitVec.ofNat 10 x))
  | 24 => some (.dist24 (BitVec.ofNat 11 x))
  | 25 => some (.dist25 (BitVec.ofNat 11 x))
  | 26 => some (.dist26 (BitVec.ofNat 12 x))
  | 27 => some (.dist27 (BitVec.ofNat 12 x))
  | 28 => some (.dist28 (BitVec.ofNat 13 x))
  | 29 => some (.dist29 (BitVec.ofNat 13 x))
  | _ => none

/-- The row element of a filter byte (R85). -/
def filterInstr (v : Nat) : Instr :=
  match v with
  | 0 => .ftNone
  | 1 => .ftSub
  | 2 => .ftUp
  | 3 => .ftAvg
  | 4 => .ftPaeth
  | _ => .ftIll (BitVec.ofNat 8 v)

/-- An element, or the rejection of a selecting value that no row of the table has. -/
def orReject (f : Format) (v : Nat) (i : Option Instr) (p : Nat) : Read Instr :=
  match i with
  | some i => .ok i p
  | none => .reject (.noElement f v)

/-- Format CL after its code (R76): the decoded symbol selects, then come the extra bits. -/
def readCL (get : Src) (v p : Nat) : Read Instr :=
  if v < 16 then .ok (.clLen (BitVec.ofNat 4 v)) p
  else if v = 16 then (readBits .dynLengths get 2 p).bind fun x q => .ok (.clRep (BitVec.ofNat 2 x)) q
  else if v = 17 then (readBits .dynLengths get 3 p).bind fun x q => .ok (.clZ3 (BitVec.ofNat 3 x)) q
  else if v = 18 then (readBits .dynLengths get 7 p).bind fun x q => .ok (.clZ11 (BitVec.ofNat 7 x)) q
  else .reject (.noElement .cl v)

/-- Format LL after its code (R78): extra bits only for the length symbols, read at stage `MATCH` (60_exceptions.md R301). -/
def readLL (get : Src) (v p : Nat) : Read Instr :=
  if v < 256 then .ok (.lit (BitVec.ofNat 8 v)) p
  else if v = 256 then .ok .eob p
  else if v = 286 ∨ v = 287 then .ok (.llIll (BitVec.ofNat 1 v)) p
  else (readBits .matching get (lExt.getD (v - 257) 0) p).bind fun x q => orReject .ll v (lengthInstr v x) q

/-- Format D after its code (R79): symbols 30 and 31 have no extra bits. -/
def readD (get : Src) (v p : Nat) : Read Instr :=
  if v = 30 ∨ v = 31 then .ok (.dIll (BitVec.ofNat 1 v)) p
  else (readBits .matching get (dExt.getD v 0) p).bind fun x q => orReject .d v (distanceInstr v x) q

/-- `n` fields of three bits (R74). -/
def readLens (get : Src) : Nat → Nat → Read (List Nat)
  | 0, p => .ok [] p
  | n + 1, p =>
    (readBits .dynHeader get 3 p).field fun v q =>
      (readLens get n q).bind fun vs r => .ok (v :: vs) r

/-- Format Z, header: `CMF`, `FLG` (R71). -/
def readZHdr (get : Src) (p : Nat) : Read Instr :=
  (readByte .envelope get p).field fun a q =>
  (readByte .envelope get q).field fun b r =>
  .ok (.zHdr (BitVec.ofNat 8 a) (BitVec.ofNat 8 b)) r

/-- Format Z, trailer: four bytes, first byte most significant (R71, 20_memory.md R43). -/
def readZTrl (get : Src) (p : Nat) : Read Instr :=
  (readByte .envelope get p).field fun a q =>
  (readByte .envelope get q).field fun b r =>
  (readByte .envelope get r).field fun c t =>
  (readByte .envelope get t).field fun d u =>
  .ok (.zTrl (BitVec.ofNat 32 (a * 16777216 + b * 65536 + c * 256 + d))) u

/-- Format BH: one bit, then `nextBits(2)` (R72). -/
def readBH (get : Src) (p : Nat) : Read Instr :=
  (readBits .blockHeader get 1 p).field fun b q =>
  (readBits .blockHeader get 2 q).field fun t r =>
  .ok (blockInstr (b == 1) t) r

/-- Format ST up to the data bytes: `LEN` and `NLEN`, low byte first (R73). -/
def readST (get : Src) (p : Nat) : Read Instr :=
  (readByte .stored get p).field fun a q =>
  (readByte .stored get q).field fun b r =>
  (readByte .stored get r).field fun c t =>
  (readByte .stored get t).field fun d u =>
  .ok (.stBody (BitVec.ofNat 16 (a + 256 * b)) (BitVec.ofNat 16 (c + 256 * d))) u

/-- Format DH: the three counts, then `HCLEN + 4` lengths (R74). -/
def readDH (get : Src) (p : Nat) : Read Instr :=
  (readBits .dynHeader get 5 p).field fun h q =>
  (readBits .dynHeader get 5 q).field fun d r =>
  (readBits .dynHeader get 4 r).field fun c t =>
  (readLens get (c + 4) t).bind fun vs u =>
  .ok (.dynHdr (BitVec.ofNat 5 h) (BitVec.ofNat 5 d) (BitVec.ofNat 4 c) (vs.map (BitVec.ofNat 3))) u

/-- Format ROW up to the data bytes: the filter byte (R85). -/
def readRow (get : Src) (p : Nat) : Read Instr :=
  (readByte .unfRow get p).field fun v q => .ok (filterInstr v) q

/-- Read one element of the expected format at a position; `T` is the table in force for a Huffman-coded format
(R89, R93). Total on any bits. -/
def decode (f : Format) (T : Table) (get : Src) (p : Nat) : Read Instr :=
  match f with
  | .zHdr => readZHdr get p
  | .zTrl => readZTrl get p
  | .bh => readBH get p
  | .st => readST get p
  | .dh => readDH get p
  | .cl => (walk .dynLengths T get p).field fun v q => readCL get v q
  | .ll => (walk .symbol T get p).field fun v q => readLL get v q
  | .d => (walk .matching T get p).field fun v q => readD get v q
  | .row => readRow get p

/-! ## The rows of spec/opcode_table.json -/

/-- The format a table word is taken in (entry 14): the table numbers the SELECTING VALUE of a row and says nothing of
the control state that picks the format, so one word can stand in rows of several formats; this is the choice made. -/
def tableFormat (nbits w : Nat) : Format :=
  if nbits = 0 then .zHdr
  else if nbits ≤ 8 then
    if w < 4 then .bh else if w = 4 then .row else if w = 16 ∨ w = 17 then .cl else .d
  else if nbits ≤ 16 then
    if w = 6 ∨ w = 8 ∨ w = 16 ∨ w = 32 ∨ w = 64 ∨ w = 128 then .row else .ll
  else if w % 32 = 18 then .cl
  else .d

/-- The value of a read that succeeded. -/
def Read.value? {α : Type} (r : Read α) : Option α :=
  match r with
  | .ok v _ => some v
  | _ => none

/-- The element that a table word selects, every operand bit 0 (entry 14). -/
def decodeTableWord (nbits w : Nat) : Option Instr :=
  match tableFormat nbits w with
  | .bh => (readBH (fun k => some ((2 * (w % 4)).testBit k)) 0).value?
  | .row => (readRow (fun k => some ((w % 256).testBit k)) 0).value?
  | .cl => (readCL (fun _ => some false) (w % 32) 0).value?
  | .ll => (readLL (fun _ => some false) (w % 512) 0).value?
  | .d => (readD (fun _ => some false) (w % 32) 0).value?
  | .zHdr => (readZHdr (fun _ => some false) 0).value?
  | .zTrl => (readZTrl (fun _ => some false) 0).value?
  | .st => (readST (fun _ => some false) 0).value?
  | .dh => (readDH (fun _ => some false) 0).value?

/-! ## The encoder -/

/-- The `n` low bits of a field in read order, bit 0 first (20_memory.md R41). -/
def bitsLSB (n v : Nat) : List Bool := (List.range n).map v.testBit

/-- A Huffman code in read order, most significant bit first (20_memory.md R42). -/
def bitsMSB (n v : Nat) : List Bool := (bitsLSB n v).reverse

/-- The format an element belongs to (30_encoding.md R89). -/
def Instr.format : Instr → Format
  | .blkStored _ => .bh
  | .blkFixed _ => .bh
  | .blkDyn _ => .bh
  | .blkRsvd _ => .bh
  | .stBody _ _ => .st
  | .dynHdr _ _ _ _ => .dh
  | .clLen _ => .cl
  | .clRep _ => .cl
  | .clZ3 _ => .cl
  | .clZ11 _ => .cl
  | .lit _ => .ll
  | .eob => .ll
  | .len257 => .ll
  | .len258 => .ll
  | .len259 => .ll
  | .len260 => .ll
  | .len261 => .ll
  | .len262 => .ll
  | .len263 => .ll
  | .len264 => .ll
  | .len265 _ => .ll
  | .len266 _ => .ll
  | .len267 _ => .ll
  | .len268 _ => .ll
  | .len269 _ => .ll
  | .len270 _ => .ll
  | .len271 _ => .ll
  | .len272 _ => .ll
  | .len273 _ => .ll
  | .len274 _ => .ll
  | .len275 _ => .ll
  | .len276 _ => .ll
  | .len277 _ => .ll
  | .len278 _ => .ll
  | .len279 _ => .ll
  | .len280 _ => .ll
  | .len281 _ => .ll
  | .len282 _ => .ll
  | .len283 _ => .ll
  | .len284 _ => .ll
  | .len285 => .ll
  | .llIll _ => .ll
  | .dist0 => .d
  | .dist1 => .d
  | .dist2 => .d
  | .dist3 => .d
  | .dist4 _ => .d
  | .dist5 _ => .d
  | .dist6 _ => .d
  | .dist7 _ => .d
  | .dist8 _ => .d
  | .dist9 _ => .d
  | .dist10 _ => .d
  | .dist11 _ => .d
  | .dist12 _ => .d
  | .dist13 _ => .d
  | .dist14 _ => .d
  | .dist15 _ => .d
  | .dist16 _ => .d
  | .dist17 _ => .d
  | .dist18 _ => .d
  | .dist19 _ => .d
  | .dist20 _ => .d
  | .dist21 _ => .d
  | .dist22 _ => .d
  | .dist23 _ => .d
  | .dist24 _ => .d
  | .dist25 _ => .d
  | .dist26 _ => .d
  | .dist27 _ => .d
  | .dist28 _ => .d
  | .dist29 _ => .d
  | .dIll _ => .d
  | .ftNone => .row
  | .ftSub => .row
  | .ftUp => .row
  | .ftAvg => .row
  | .ftPaeth => .row
  | .ftIll _ => .row
  | .zHdr _ _ => .zHdr
  | .zTrl _ => .zTrl

/-- The selecting value of an element within its format (30_encoding.md R89); 0 where the format has none. -/
def Instr.selector : Instr → Nat
  | .blkStored _ => 0
  | .blkFixed _ => 1
  | .blkDyn _ => 2
  | .blkRsvd _ => 3
  | .stBody _ _ => 0
  | .dynHdr _ _ _ _ => 0
  | .clLen v => v.toNat
  | .clRep _ => 16
  | .clZ3 _ => 17
  | .clZ11 _ => 18
  | .lit b => b.toNat
  | .eob => 256
  | .len257 => 257
  | .len258 => 258
  | .len259 => 259
  | .len260 => 260
  | .len261 => 261
  | .len262 => 262
  | .len263 => 263
  | .len264 => 264
  | .len265 _ => 265
  | .len266 _ => 266
  | .len267 _ => 267
  | .len268 _ => 268
  | .len269 _ => 269
  | .len270 _ => 270
  | .len271 _ => 271
  | .len272 _ => 272
  | .len273 _ => 273
  | .len274 _ => 274
  | .len275 _ => 275
  | .len276 _ => 276
  | .len277 _ => 277
  | .len278 _ => 278
  | .len279 _ => 279
  | .len280 _ => 280
  | .len281 _ => 281
  | .len282 _ => 282
  | .len283 _ => 283
  | .len284 _ => 284
  | .len285 => 285
  | .llIll k => 286 + k.toNat
  | .dist0 => 0
  | .dist1 => 1
  | .dist2 => 2
  | .dist3 => 3
  | .dist4 _ => 4
  | .dist5 _ => 5
  | .dist6 _ => 6
  | .dist7 _ => 7
  | .dist8 _ => 8
  | .dist9 _ => 9
  | .dist10 _ => 10
  | .dist11 _ => 11
  | .dist12 _ => 12
  | .dist13 _ => 13
  | .dist14 _ => 14
  | .dist15 _ => 15
  | .dist16 _ => 16
  | .dist17 _ => 17
  | .dist18 _ => 18
  | .dist19 _ => 19
  | .dist20 _ => 20
  | .dist21 _ => 21
  | .dist22 _ => 22
  | .dist23 _ => 23
  | .dist24 _ => 24
  | .dist25 _ => 25
  | .dist26 _ => 26
  | .dist27 _ => 27
  | .dist28 _ => 28
  | .dist29 _ => 29
  | .dIll k => 30 + k.toNat
  | .ftNone => 0
  | .ftSub => 1
  | .ftUp => 2
  | .ftAvg => 3
  | .ftPaeth => 4
  | .ftIll ft => ft.toNat
  | .zHdr _ _ => 0
  | .zTrl _ => 0

/-- The bits of an element besides its selecting value, in read order: extra bits after a code, or the fields of a
format without one (30_encoding.md R71 to R79). -/
def Instr.operandBits : Instr → List Bool
  | .blkStored final => [final]
  | .blkFixed final => [final]
  | .blkDyn final => [final]
  | .blkRsvd final => [final]
  | .stBody len nlen => bitsLSB 16 len.toNat ++ bitsLSB 16 nlen.toNat
  | .dynHdr hlit hdist hclen cls =>
    bitsLSB 5 hlit.toNat ++ bitsLSB 5 hdist.toNat ++ bitsLSB 4 hclen.toNat ++ cls.flatMap fun x => bitsLSB 3 x.toNat
  | .clLen _ => []
  | .clRep x => bitsLSB 2 x.toNat
  | .clZ3 x => bitsLSB 3 x.toNat
  | .clZ11 x => bitsLSB 7 x.toNat
  | .lit _ => []
  | .eob => []
  | .len257 => []
  | .len258 => []
  | .len259 => []
  | .len260 => []
  | .len261 => []
  | .len262 => []
  | .len263 => []
  | .len264 => []
  | .len265 x => bitsLSB 1 x.toNat
  | .len266 x => bitsLSB 1 x.toNat
  | .len267 x => bitsLSB 1 x.toNat
  | .len268 x => bitsLSB 1 x.toNat
  | .len269 x => bitsLSB 2 x.toNat
  | .len270 x => bitsLSB 2 x.toNat
  | .len271 x => bitsLSB 2 x.toNat
  | .len272 x => bitsLSB 2 x.toNat
  | .len273 x => bitsLSB 3 x.toNat
  | .len274 x => bitsLSB 3 x.toNat
  | .len275 x => bitsLSB 3 x.toNat
  | .len276 x => bitsLSB 3 x.toNat
  | .len277 x => bitsLSB 4 x.toNat
  | .len278 x => bitsLSB 4 x.toNat
  | .len279 x => bitsLSB 4 x.toNat
  | .len280 x => bitsLSB 4 x.toNat
  | .len281 x => bitsLSB 5 x.toNat
  | .len282 x => bitsLSB 5 x.toNat
  | .len283 x => bitsLSB 5 x.toNat
  | .len284 x => bitsLSB 5 x.toNat
  | .len285 => []
  | .llIll _ => []
  | .dist0 => []
  | .dist1 => []
  | .dist2 => []
  | .dist3 => []
  | .dist4 x => bitsLSB 1 x.toNat
  | .dist5 x => bitsLSB 1 x.toNat
  | .dist6 x => bitsLSB 2 x.toNat
  | .dist7 x => bitsLSB 2 x.toNat
  | .dist8 x => bitsLSB 3 x.toNat
  | .dist9 x => bitsLSB 3 x.toNat
  | .dist10 x => bitsLSB 4 x.toNat
  | .dist11 x => bitsLSB 4 x.toNat
  | .dist12 x => bitsLSB 5 x.toNat
  | .dist13 x => bitsLSB 5 x.toNat
  | .dist14 x => bitsLSB 6 x.toNat
  | .dist15 x => bitsLSB 6 x.toNat
  | .dist16 x => bitsLSB 7 x.toNat
  | .dist17 x => bitsLSB 7 x.toNat
  | .dist18 x => bitsLSB 8 x.toNat
  | .dist19 x => bitsLSB 8 x.toNat
  | .dist20 x => bitsLSB 9 x.toNat
  | .dist21 x => bitsLSB 9 x.toNat
  | .dist22 x => bitsLSB 10 x.toNat
  | .dist23 x => bitsLSB 10 x.toNat
  | .dist24 x => bitsLSB 11 x.toNat
  | .dist25 x => bitsLSB 11 x.toNat
  | .dist26 x => bitsLSB 12 x.toNat
  | .dist27 x => bitsLSB 12 x.toNat
  | .dist28 x => bitsLSB 13 x.toNat
  | .dist29 x => bitsLSB 13 x.toNat
  | .dIll _ => []
  | .ftNone => []
  | .ftSub => []
  | .ftUp => []
  | .ftAvg => []
  | .ftPaeth => []
  | .ftIll _ => []
  | .zHdr cmf flg => bitsLSB 8 cmf.toNat ++ bitsLSB 8 flg.toNat
  | .zTrl adler =>
    bitsLSB 8 (adler.toNat / 16777216) ++ bitsLSB 8 (adler.toNat / 65536) ++ bitsLSB 8 (adler.toNat / 256) ++
      bitsLSB 8 adler.toNat

/-- The code of a symbol in a table, in read order (41_huffman.md R114); `none` where the table gives it no code. -/
def codeBits (T : Table) (v : Nat) : Option (List Bool) :=
  (T.find? fun e => e.sym == v).map fun e => bitsMSB e.len e.code

/-- The bits of an element that starts at bit position `p`, in read order: what the stream notation of R94 emits
(padding bits 0). A stored body and a row are followed by their data bytes, which are no operand of the element. `none` where the
table in force has no code for the element. -/
def encode (T : Table) (p : Nat) (i : Instr) : Option (List Bool) :=
  match i.format with
  | .bh => some (i.operandBits ++ bitsLSB 2 i.selector)
  | .st | .zHdr | .zTrl => some (List.replicate (alignUp p - p) false ++ i.operandBits)
  | .row => some (List.replicate (alignUp p - p) false ++ bitsLSB 8 i.selector)
  | .dh => some i.operandBits
  | .cl | .ll | .d => (codeBits T i.selector).map (· ++ i.operandBits)

/-- A list of bits as a source that begins at bit position `p`. -/
def srcOf (bits : List Bool) (p : Nat) : Src := fun k => if k < p then none else bits[k - p]?

/-- Bits packed into bytes, bit 0 of byte 0 first, the last byte filled with zeros (20_memory.md R40, 30_encoding.md R95). -/
def packBytes : Nat → List Bool → List Byte
  | 0, _ => []
  | n + 1, bits =>
    BitVec.ofNat 8 ((List.range 8).foldl (fun v k => v + (bits.getD k false).toNat * 2 ^ k) 0) ::
      packBytes n (bits.drop 8)

end Sys2Proof
end

