-- ==== Sys2Proof/Machine/State.lean ====
section
/-! DEFINITION. The state of the machine (10_state.md) with its value at reset, the host's moves, and the reasons a step can
stop. -/

namespace Sys2Proof.Machine

/-- The control state of the core (10_state.md R34). -/
inductive Phase where
  | idle | envelope | blockHeader | stored | dynHeader | dynLengths | dynBuild | symbol | blockEnd | unfCfg | unfRow
  | done | error
  deriving DecidableEq, Repr

/-- What `LL_SEL` and `D_SEL` refer to (10_state.md R11): the constant pair of tables or the dynamic pair. -/
inductive TableSel where
  | fixed | dyn
  deriving DecidableEq, Repr

/-- The sixteen host registers (10_state.md R15). -/
inductive HostReg where
  | cmd | ctrl | status | err | errPos | curBp | curBb | inLen | infLen | pixLen | width | height | fmt | bpp | zhdr
  | zadler
  deriving DecidableEq, Repr

/-- A move of the host (00_scope.md R5, 20_memory.md R52, 70_reset_and_hazards.md R340, R345): an access to a register or to
a byte of a memory, the reset input, letting the core take one step, or waiting until `STATUS.BUSY = 0` (entry 7). -/
inductive HostMove where
  | writeReg (r : HostReg) (v : Word)
  | readReg (r : HostReg)
  | writeMem (sp : Space) (a : Nat) (v : Byte)
  | readMem (sp : Space) (a : Nat)
  | rst
  | pass
  | wait
  deriving DecidableEq, Repr

/-- Why a step stops with a fault. The fatal errors of the spec are NOT here: they are next states in phase
`ERROR` (entry 1). -/
inductive Fault where
  /-- Raised by a host access to a byte that its memory does not have (10_state.md R33, 00_scope.md R4). Safe: the spec gives
  such an access no meaning. -/
  | noSuchAddress (sp : Space) (a : Nat)
  /-- Raised by the fetch of an element when a table decodes a symbol that no row of the opcode table has (30_encoding.md R89
  and 42_block_decoder.md R140 say this cannot occur). Safe: no table that `build` makes has such a symbol. -/
  | noSuchElement (f : Format) (v : Nat)
  deriving DecidableEq, Repr

/-- Why a step is refused. -/
inductive Refusal where
  /-- An element without a meaning, raised by `exec`'s arm alone; no arm of this model raises it. Safe. -/
  | notModelled (mnemonic : String)
  /-- Raised by a host write to a memory while `STATUS.BUSY = 1`: forbidden, and the spec gives it no meaning
  (20_memory.md R52, 93_implementation_defined.md U6; entry 8). Safe. -/
  | hostMemoryWriteWhileBusy (sp : Space) (a : Nat)
  deriving DecidableEq, Repr

/-- A memory: the bytes that have been written since its contents were last unspecified, in rising order of their
addresses. An unlisted address has no value of its own; what a read of it gives is a free value (entry 4). -/
abbrev Memory := List Host.Cell

/-- The whole state: host registers, cursor, datapath registers, tables, memories (10_state.md), the capacities
(00_scope.md R4), and the model's own fields. -/
structure State where
  /-- `CMD.OP` (R16). -/
  op : BitVec 3
  /-- `STATUS.BUSY` (R18). -/
  busy : Bool
  /-- `STATUS.DONE` (R18). -/
  done : Bool
  /-- `STATUS.ERR` (R18). -/
  err : Bool
  /-- `PHASE` (R34). -/
  phase : Phase
  /-- `ERR.CODE`, none where it reads 0 (R19). -/
  errCode : Option ErrCode
  /-- `ERR.STAGE` (R19). -/
  errStage : Stage
  /-- `ERR_POS` (R20). -/
  errPos : Nat
  /-- `BP`, the byte cursor (R12). -/
  bp : Nat
  /-- `BB`, the bit cursor (R12). -/
  bb : BitVec 3
  /-- `LO`, the start of the window (R13). -/
  winLo : Nat
  /-- `END`, the end of the window (R13). -/
  winEnd : Nat
  /-- `IN_LEN` (R22). -/
  inLen : Nat
  /-- `INF_LEN` (R22). -/
  infLen : Nat
  /-- `PIX_LEN` (R22). -/
  pixLen : Nat
  /-- `WIDTH` (R23). -/
  width : Word
  /-- `HEIGHT` (R23). -/
  height : Word
  /-- `FMT.BIT_DEPTH` (R23). -/
  bitDepth : Byte
  /-- `FMT.COLOR_TYPE` (R23). -/
  colorType : Byte
  /-- `BPP` (R24). -/
  bpp : Nat
  /-- `ZHDR.CMF` (R25). -/
  cmf : Byte
  /-- `ZHDR.FLG` (R25). -/
  flg : Byte
  /-- `ZADLER` (R25). -/
  adler : Word
  /-- `BFINAL` (R11). -/
  bfinal : Bool
  /-- `BTYPE` (R11). -/
  btype : BitVec 2
  /-- `STLEN` (R11). -/
  stlen : BitVec 16
  /-- `STNLEN` (R11). -/
  stnlen : BitVec 16
  /-- `HLIT` (R11). -/
  hlit : BitVec 5
  /-- `HDIST` (R11). -/
  hdist : BitVec 5
  /-- `HCLEN` (R11). -/
  hclen : BitVec 4
  /-- `CLLEN[0..18]` (R11). -/
  cllen : Vector (BitVec 3) 19
  /-- `LENS[0..319]` (R11). -/
  lens : Vector (BitVec 4) 320
  /-- `NLENS` (R11). -/
  nlens : Nat
  /-- `SYM` (R11). -/
  sym : Nat
  /-- `MLEN` (R11). -/
  mlen : Nat
  /-- `DSYM` (R11). -/
  dsym : Nat
  /-- `MDIST` (R11). -/
  mdist : Nat
  /-- `COLS` (R11). -/
  cols : Nat
  /-- `ROW` (R11). -/
  row : Nat
  /-- `FT` (R11). -/
  ft : Byte
  /-- `LL_SEL` (R11). -/
  llSel : TableSel
  /-- `D_SEL` (R11). -/
  dSel : TableSel
  /-- `CL_T` (R30). -/
  clT : Table
  /-- `DYN_LL` (R30). -/
  dynLL : Table
  /-- `DYN_D` (R30). -/
  dynD : Table
  /-- `IN` (R33). -/
  inMem : Memory
  /-- `INF` (R33). -/
  infMem : Memory
  /-- `PIX` (R33). -/
  pixMem : Memory
  /-- `IN_CAP` (00_scope.md R4; entry 2). -/
  inCap : Nat
  /-- `INF_CAP` (00_scope.md R4; entry 2). -/
  infCap : Nat
  /-- `PIX_CAP` (00_scope.md R4; entry 2). -/
  pixCap : Nat
  /-- Model's own: in phase `ENVELOPE`, `Z.HDR` is done and `Z.TRL` is next (entry 12). -/
  hdrSeen : Bool
  /-- Model's own: in phase `SYMBOL`, a distance element is next (30_encoding.md R93; entry 12). -/
  distNext : Bool
  /-- Model's own: the generation of `IN`'s unspecified bytes (entry 4). -/
  inGen : Nat
  /-- Model's own: the generation of `INF`'s unspecified bytes (entry 4). -/
  infGen : Nat
  /-- Model's own: the generation of `PIX`'s unspecified bytes (entry 4). -/
  pixGen : Nat
  /-- Model's own: how many free words host reads have been given (entry 9). -/
  freeCtr : Nat
  /-- Model's own: the host's moves to come (entry 7). -/
  host : List HostMove
  /-- Model's own: what the host's last read returned (entry 7). -/
  rdata : Word
  deriving DecidableEq, Repr

/-- The machine right after a power-on reset (10_state.md R36, 70_reset_and_hazards.md R340). The datapath registers that R36
leaves unspecified are 0 and the two selectors name the fixed tables (entry 3); the capacities are those of entry 2; nothing is
listed in a memory; the host has no move to make (entry 7). -/
def State.reset : State where
  op := 0
  busy := false
  done := false
  err := false
  phase := .idle
  errCode := none
  errStage := .none
  errPos := 0
  bp := 0
  bb := 0
  winLo := 0
  winEnd := 0
  inLen := 0
  infLen := 0
  pixLen := 0
  width := 0
  height := 0
  bitDepth := 0
  colorType := 0
  bpp := 0
  cmf := 0
  flg := 0
  adler := 0
  bfinal := false
  btype := 0
  stlen := 0
  stnlen := 0
  hlit := 0
  hdist := 0
  hclen := 0
  cllen := Vector.replicate 19 0
  lens := Vector.replicate 320 0
  nlens := 0
  sym := 0
  mlen := 0
  dsym := 0
  mdist := 0
  cols := 0
  row := 0
  ft := 0
  llSel := .fixed
  dSel := .fixed
  clT := []
  dynLL := []
  dynD := []
  inMem := []
  infMem := []
  pixMem := []
  inCap := Config.capMax
  infCap := Config.capMax
  pixCap := Config.capMax
  hdrSeen := false
  distNext := false
  inGen := 0
  infGen := 0
  pixGen := 0
  freeCtr := 0
  host := []
  rdata := 0

end Sys2Proof.Machine
end

