-- ==== Sys2Proof/Machine/Ops.lean ====
section
/-! DEFINITION. The named operations: bytes of the memories, the cursor, the error entry and what leaves it (CLEAR, START,
reset), and the answer of an operation that may raise. -/

namespace Sys2Proof.Machine

/-! ## Memories -/

/-- The byte listed at an address. -/
def Memory.read : Memory → Nat → Option Byte
  | [], _ => none
  | (b, v) :: m, a => if a = b then some v else Memory.read m a

/-- Write a byte, keeping the addresses rising. -/
def Memory.write : Memory → Nat → Byte → Memory
  | [], a, v => [(a, v)]
  | (b, w) :: m, a, v =>
    if a < b then (a, v) :: (b, w) :: m
    else if a = b then (a, v) :: m
    else (b, w) :: Memory.write m a v

/-- The canonical form: addresses strictly rising. An unlisted address has no value, so no entry can equal it. -/
def Memory.wf : Memory → Bool
  | [] => true
  | [_] => true
  | (a, _) :: (b, v) :: m => decide (a < b) && Memory.wf ((b, v) :: m)

/-- What a read gives: the byte listed, or a free value (entry 4). -/
def Memory.byte (sp : Space) (gen : Nat) (m : Memory) (a : Nat) : Byte :=
  match Memory.read m a with
  | some v => v
  | none => Config.freeByte sp gen a

/-- `IN[a]` (20_memory.md R46). -/
def State.inByte (s : State) (a : Nat) : Byte := Memory.byte .input s.inGen s.inMem a

/-- `INF[a]`. -/
def State.infByte (s : State) (a : Nat) : Byte := Memory.byte .inf s.infGen s.infMem a

/-- `PIX[a]`. -/
def State.pixByte (s : State) (a : Nat) : Byte := Memory.byte .pix s.pixGen s.pixMem a

/-- The capacity of a space (00_scope.md R4). -/
def State.cap (s : State) : Space → Nat
  | .input => s.inCap
  | .inf => s.infCap
  | .pix => s.pixCap

/-- The length register of a space (10_state.md R33). -/
def State.len (s : State) : Space → Nat
  | .input => s.inLen
  | .inf => s.infLen
  | .pix => s.pixLen

/-- A byte of any space. -/
def State.byte (s : State) : Space → Nat → Byte
  | .input, a => s.inByte a
  | .inf, a => s.infByte a
  | .pix, a => s.pixByte a

/-- Write a byte of any space. -/
def State.writeByte (s : State) (sp : Space) (a : Nat) (v : Byte) : State :=
  match sp with
  | .input => { s with inMem := Memory.write s.inMem a v }
  | .inf => { s with infMem := Memory.write s.infMem a v }
  | .pix => { s with pixMem := Memory.write s.pixMem a v }

/-! ## The cursor -/

/-- The cursor `(BP, BB)` as a bit position (10_state.md R12). -/
def State.pos (s : State) : Nat := 8 * s.bp + s.bb.toNat

/-- Set the cursor to a bit position, in the normal form of 40_bitreader.md R100. -/
def State.setPos (s : State) (p : Nat) : State :=
  { s with bp := p / 8, bb := BitVec.ofNat 3 p }

/-! ## Error entry and what leaves it -/

/-- Error entry, `raise E(stage)` (60_exceptions.md R310), with the position that R302 gives for the raise site. The contents of
`INF` and `PIX` become unspecified (R312; entry 5). -/
def raise (e : ErrCode) (st : Stage) (errPos : Nat) (s : State) : State :=
  { s with
    errCode := some e, errStage := st, errPos := errPos
    infLen := 0, pixLen := 0
    infMem := [], infGen := s.infGen + 1, pixMem := [], pixGen := s.pixGen + 1
    busy := false, done := false, err := true, phase := .error }

/-- CLEAR (44_inflate_engine.md R243). There is no return from an error (60_exceptions.md R313): CLEAR, START and reset are all
that leave phase `ERROR`. -/
def clear (s : State) : State :=
  { s with
    done := false, err := false, phase := .idle
    errCode := none, errStage := .none, errPos := 0
    bp := 0, bb := 0, winLo := 0, winEnd := 0
    infLen := 0, pixLen := 0
    cmf := 0, flg := 0, adler := 0
    bfinal := false, btype := 0 }

/-- `CMD.OP` is one of the inflating operations 1, 2, 4 (10_state.md R16). -/
def State.inflates (s : State) : Bool := s.op == 1 || s.op == 2 || s.op == 4

/-- START up to its checks (44_inflate_engine.md R242): the previous outcome, the cursor and the results are cleared. -/
def startClear (s : State) : State :=
  { s with
    done := false, err := false, busy := true
    errCode := none, errStage := .none, errPos := 0
    bp := 0, bb := 0, winLo := 0, winEnd := 0
    bfinal := false, btype := 0
    cmf := 0, flg := 0, adler := 0
    pixLen := 0
    infLen := if s.inflates then 0 else s.infLen
    hdrSeen := false, distNext := false }

/-- START (44_inflate_engine.md R242): after the clearing, the checks on `CMD.OP` and on the length register, then the first
phase. -/
def start (s : State) : State :=
  if !(s.inflates || s.op == 3) then raise .cmd .cmd 0 (startClear s)
  else if s.inflates && decide (s.inCap < s.inLen) then raise .cmd .cmd 0 (startClear s)
  else if s.op == 3 && decide (s.infCap < s.infLen) then raise .cmd .cmd 0 (startClear s)
  else { startClear s with phase := if s.op == 3 then .unfCfg else .envelope }

/-- Hardware reset (70_reset_and_hazards.md R340): the reset state, with all memory contents unspecified (R341; entry 6). The
capacities are the machine's, and what belongs to the host stays. -/
def hardReset (s : State) : State :=
  { State.reset with
    inCap := s.inCap, infCap := s.infCap, pixCap := s.pixCap
    inGen := s.inGen + 1, infGen := s.infGen + 1, pixGen := s.pixGen + 1
    freeCtr := s.freeCtr, host := s.host, rdata := s.rdata }

/-! ## Operations that may raise -/

/-- The answer of an operation inside an element: it went on, or it raised and the error entry has been performed. -/
inductive Run (α : Type) where
  | ok (v : α) (s : State)
  | trap (s : State)

/-- Carry on with the value and the state. -/
@[inline] def Run.bind {α β : Type} (r : Run α) (k : α → State → Run β) : Run β :=
  match r with
  | .ok v s => k v s
  | .trap s => .trap s

/-- What the step makes of the answer: either way a next state, since an error is entered, not stopped at (entry 1). -/
def Run.outcome (r : Run Unit) : Host.Outcome State Fault Refusal :=
  match r with
  | .ok _ s => .next s
  | .trap s => .next s

end Sys2Proof.Machine
end

