-- ==== Sys2Proof/Machine/Flags.lean ====
section
/-! DEFINITION. The flags: there are no condition codes (10_state.md R14), so these are the status bits, the registers read
through them, the entry to `DONE`, and the `irq` output. -/

namespace Sys2Proof.Machine

/-- The value of `PHASE` (10_state.md R34). -/
def Phase.code : Phase → Nat
  | .idle => 0
  | .envelope => 1
  | .blockHeader => 2
  | .stored => 3
  | .dynHeader => 4
  | .dynLengths => 5
  | .dynBuild => 6
  | .symbol => 7
  | .blockEnd => 8
  | .unfCfg => 9
  | .unfRow => 10
  | .done => 11
  | .error => 12

/-- The value of `ERR.CODE` for an error (60_exceptions.md R300). -/
def errCodeValue : ErrCode → Nat
  | .bounds => 1
  | .btype => 2
  | .emptyTable => 3
  | .noLeaf => 4
  | .symbol => 5
  | .codeLen => 6
  | .dist => 7
  | .filter => 8
  | .color => 9
  | .overflow => 10
  | .geom => 11
  | .cmd => 12

/-- The value of `ERR.STAGE` (60_exceptions.md R301). -/
def stageValue : Stage → Nat
  | .none => 0
  | .cmd => 1
  | .envelope => 2
  | .blockHeader => 3
  | .stored => 4
  | .dynHeader => 5
  | .dynLengths => 6
  | .tableBuild => 7
  | .symbol => 8
  | .matching => 9
  | .unfCfg => 10
  | .unfRow => 11

/-- `STATUS[2:0]`: `BUSY`, `DONE`, `ERR` (10_state.md R18). -/
def statusBits (s : State) : Nat := s.busy.toNat + 2 * s.done.toNat + 4 * s.err.toNat

/-- `STATUS` as it reads while `BUSY = 0` (10_state.md R18). -/
def statusWord (s : State) : Word := BitVec.ofNat 32 (statusBits s + 256 * s.phase.code)

/-- `ERR` (10_state.md R19). -/
def errWord (s : State) : Word :=
  BitVec.ofNat 32 ((match s.errCode with | some e => errCodeValue e | none => 0) + 256 * stageValue s.errStage)

/-- `FMT` (10_state.md R23). -/
def fmtWord (s : State) : Word := BitVec.ofNat 32 (s.bitDepth.toNat + 256 * s.colorType.toNat)

/-- `ZHDR` (10_state.md R25). -/
def zhdrWord (s : State) : Word := BitVec.ofNat 32 (s.cmf.toNat + 256 * s.flg.toNat)

/-- The `irq` output: a level equal to `STATUS.DONE OR STATUS.ERR` (60_exceptions.md R325). -/
def irq (s : State) : Bool := s.done || s.err

/-- Entry to `DONE` (44_inflate_engine.md R251). -/
def enterDone (s : State) : State :=
  { s with busy := false, done := true, phase := .done }

end Sys2Proof.Machine
end

