-- ==== Sys2Proof/Machine/Operands.lean ====
section
/-! DEFINITION. The addressing forms (46_arithmetic_control_access.md R264): the sources of bits, the cursor's reads, the appends to
`INF` and `PIX`, the back-reference copy, and the unfilter's reads. -/

namespace Sys2Proof.Machine

/-! ## Sources of bits -/

/-- The bits of `IN` up to a limit: bit `p % 8` of byte `p / 8` (20_memory.md R40). -/
def inputSrc (s : State) (limit : Nat) : Src := fun p =>
  if p / 8 < limit then some ((s.inByte (p / 8)).getLsbD (p % 8)) else none

/-- The BitReader's window `IN[LO .. END)` (40_bitreader.md R100, R104). -/
def windowSrc (s : State) : Src := inputSrc s s.winEnd

/-- The valid bytes of `INF` as the unfilter reads them (45_unfilter.md R274). -/
def infSrc (s : State) : Src := fun p =>
  if p / 8 < s.infLen then some ((s.infByte (p / 8)).getLsbD (p % 8)) else none

/-! ## The BitReader on the state (40_bitreader.md) -/

/-- Run a read of the window at the cursor: the cursor moves to where the read ended, and an error is entered with `ERR_POS` the
byte cursor (60_exceptions.md R302). A read of the window rejects nothing; that case keeps the state. -/
def readWindow {α : Type} (r : Src → Nat → Read α) (s : State) : Run α :=
  match r (windowSrc s) s.pos with
  | .ok v p => .ok v (s.setPos p)
  | .stop e st p _ => .trap (raise e st (p / 8) (s.setPos p))
  | .reject _ => .trap s

/-- `nextBit()` (R101). -/
def nextBit (st : Stage) (s : State) : Run Bool := readWindow (readBit st) s

/-- `nextBits(n)` (R102). -/
def nextBits (st : Stage) (n : Nat) (s : State) : Run Nat := readWindow (fun get p => readBits st get n p) s

/-- `nextByte()` (R103). -/
def nextByte (st : Stage) (s : State) : Run Nat := readWindow (readByte st) s

/-! ## Appending to INF -/

/-- The append itself (43_symbols_lz77.md R160). -/
def appendInf (b : Byte) (s : State) : State :=
  { s with infMem := Memory.write s.infMem s.infLen b, infLen := s.infLen + 1 }

/-- `put(b)` (43_symbols_lz77.md R160). -/
def put (st : Stage) (b : Byte) (s : State) : Run Unit :=
  if s.infCap ≤ s.infLen then .trap (raise .overflow st s.bp s) else .ok () (appendInf b s)

/-- The stored body's loop (42_block_decoder.md R133): `n` times `put(nextByte())`. -/
def copyStored : Nat → State → Run Unit
  | 0, s => .ok () s
  | n + 1, s =>
    (nextByte .stored s).bind fun b t =>
      (put .stored (BitVec.ofNat 8 b) t).bind fun _ u => copyStored n u

/-- The match copy (43_symbols_lz77.md R202): `n` times `put(INF[INF_LEN - MDIST])`, in forward order. -/
def copyMatch : Nat → State → Run Unit
  | 0, s => .ok () s
  | n + 1, s => (put .matching (s.infByte (s.infLen - s.mdist)) s).bind fun _ t => copyMatch n t

/-! ## Code lengths -/

/-- `LENS` with `n` entries written from index `k` on. -/
def fillLens (v : BitVec 4) : Nat → Nat → Vector (BitVec 4) 320 → Vector (BitVec 4) 320
  | 0, _, lens => lens
  | n + 1, k, lens => fillLens v n (k + 1) (lens.setIfInBounds k v)

/-- Append `n` copies of a code length (42_block_decoder.md R141 to R144). -/
def appendLens (n : Nat) (v : BitVec 4) (s : State) : State :=
  { s with lens := fillLens v n s.nlens s.lens, nlens := s.nlens + n }

/-- `TOTAL` (42_block_decoder.md R139). -/
def State.total (s : State) : Nat := (s.hlit.toNat + 257) + (s.hdist.toNat + 1)

/-- `CLLEN` from the transmitted lengths: all 0, then each length to the symbol at its place in `CLORD` (R137). -/
def cllenOf (cls : List (BitVec 3)) : Vector (BitVec 3) 19 :=
  (clOrd.zip cls).foldl (fun t e => t.setIfInBounds e.1 e.2) (Vector.replicate 19 0)

/-! ## The unfilter's reads and writes (45_unfilter.md) -/

/-- Where the current row begins in `INF`: `ROW * (COLS + 1)` (R273). -/
def State.rowBase (s : State) : Nat := s.row * (s.cols + 1)

/-- `read_inf(k)` (R274). -/
def readInf (k : Nat) (s : State) : Run Byte :=
  if s.infLen ≤ k then .trap (raise .bounds .unfRow k s) else .ok (s.infByte k) s

/-- The left neighbour `a` of byte `j` of the current row (R275). -/
def neighbourA (s : State) (j : Nat) : Byte :=
  if s.bpp ≤ j then s.pixByte (s.row * s.cols + j - s.bpp) else 0

/-- The upper neighbour `b` (R275). -/
def neighbourB (s : State) (j : Nat) : Byte :=
  if 1 ≤ s.row then s.pixByte ((s.row - 1) * s.cols + j) else 0

/-- The upper left neighbour `c` (R275). -/
def neighbourC (s : State) (j : Nat) : Byte :=
  if 1 ≤ s.row ∧ s.bpp ≤ j then s.pixByte ((s.row - 1) * s.cols + j - s.bpp) else 0

/-- The append of `write_pix` (R282). -/
def appendPix (v : Byte) (s : State) : State :=
  { s with pixMem := Memory.write s.pixMem s.pixLen v, pixLen := s.pixLen + 1 }

/-- `write_pix(v)` (R282); `k` is the `INF` index of the byte being processed, which is `ERR_POS` on overflow. -/
def writePix (k : Nat) (v : Byte) (s : State) : Run Unit :=
  if s.pixCap ≤ s.pixLen then .trap (raise .overflow .unfRow k s) else .ok () (appendPix v s)

/-- `PaethPredictor(a, b, c)` (R281), in integers. -/
def paeth (a b c : Byte) : Byte :=
  let p : Int := (a.toNat : Int) + (b.toNat : Int) - (c.toNat : Int)
  let pa := (p - a.toNat).natAbs
  let pb := (p - b.toNat).natAbs
  let pc := (p - c.toNat).natAbs
  if pa ≤ pb ∧ pa ≤ pc then a else if pb ≤ pc then b else c

/-- `floor((a + b) / 2)` of the 9-bit sum (R279). -/
def average (a b : Byte) : Byte := BitVec.ofNat 8 ((a.toNat + b.toNat) / 2)

/-- The bytes of a row from byte `j` on, `n` of them (R273); `f` is the filter function of `x`, `a`, `b`, `c`. -/
def rowBytes (f : Byte → Byte → Byte → Byte → Byte) : Nat → Nat → State → Run Unit
  | 0, _, s => .ok () s
  | n + 1, j, s =>
    (readInf (s.rowBase + 1 + j) s).bind fun x t =>
      (writePix (s.rowBase + 1 + j) (f x (neighbourA t j) (neighbourB t j) (neighbourC t j)) t).bind fun _ u =>
        rowBytes f n (j + 1) u

end Sys2Proof.Machine
end

