-- ==== Sys2Proof/Machine/Blocks.lean ====
section
/-! DEFINITION. Block headers, the stored body, the dynamic header and the table build, and the end of a block
(42_block_decoder.md, 44_inflate_engine.md R244). -/

namespace Sys2Proof.Machine

/-- The header's two registers (R130). -/
def latchHeader (final : Bool) (t : BitVec 2) (s : State) : State :=
  { s with bfinal := final, btype := t }

/-- `BLK.STORED` (R131, R133): the body follows. -/
def execBlkStored (final : Bool) (s : State) : Host.Outcome State Fault Refusal :=
  .next { latchHeader final 0 s with phase := .stored }

/-- `BLK.FIXED` (R132): the constant tables are selected and the symbol loop is entered. -/
def execBlkFixed (final : Bool) (s : State) : Host.Outcome State Fault Refusal :=
  .next { latchHeader final 1 s with llSel := .fixed, dSel := .fixed, phase := .symbol }

/-- `BLK.DYN` (R135): the dynamic header follows. -/
def execBlkDyn (final : Bool) (s : State) : Host.Outcome State Fault Refusal :=
  .next { latchHeader final 2 s with phase := .dynHeader }

/-- `BLK.RSVD` (R134). -/
def execBlkRsvd (final : Bool) (s : State) : Host.Outcome State Fault Refusal :=
  .next (raise .btype .blockHeader s.bp (latchHeader final 3 s))

/-- The end of a stored body: the block is complete (R133, 44_inflate_engine.md R240). -/
def endStored (_ : Unit) (s : State) : Run Unit := .ok () { s with phase := .blockEnd }

/-- `ST.BODY` (R133): the lengths are latched, `LEN` bytes are copied, `NLEN` is compared with nothing. -/
def execStBody (len nlen : BitVec 16) (s : State) : Host.Outcome State Fault Refusal :=
  ((copyStored len.toNat { s with stlen := len, stnlen := nlen }).bind endStored).outcome

/-- The registers of a dynamic header (R136, R137). -/
def latchDyn (hlit hdist : BitVec 5) (hclen : BitVec 4) (cls : List (BitVec 3)) (s : State) : State :=
  { s with hlit := hlit, hdist := hdist, hclen := hclen, cllen := cllenOf cls }

/-- Build `CL_T` and start the length sequence (R138, R139). -/
def buildCL (s : State) : State :=
  match build (s.cllen.toList.map BitVec.toNat) with
  | some t => { s with clT := t, nlens := 0, phase := .dynLengths }
  | none => raise .codeLen .tableBuild s.bp s

/-- `DYN.HDR` (R136 to R139). -/
def execDynHdr (hlit hdist : BitVec 5) (hclen : BitVec 4) (cls : List (BitVec 3)) (s : State) :
    Host.Outcome State Fault Refusal :=
  .next (buildCL (latchDyn hlit hdist hclen cls s))

/-- The decoded code lengths from index `k`, `n` of them (R147). -/
def lensSlice (k n : Nat) (s : State) : List Nat :=
  ((s.lens.toList.drop k).take n).map BitVec.toNat

/-- The literal/length code lengths of the block (R147). -/
def llLengths (s : State) : List Nat := lensSlice 0 (s.hlit.toNat + 257) s

/-- The distance code lengths of the block (R147). -/
def dLengths (s : State) : List Nat := lensSlice (s.hlit.toNat + 257) (s.hdist.toNat + 1) s

/-- `DYN_D` is built after `DYN_LL` (R147). -/
def buildD (s : State) : State :=
  match build (dLengths s) with
  | some t => { s with dynD := t, llSel := .dyn, dSel := .dyn, phase := .symbol }
  | none => raise .codeLen .tableBuild s.bp s

/-- Phase `DYN_BUILD` (R147): split the lengths and build the block's two tables. -/
def dynBuild (s : State) : State :=
  match build (llLengths s) with
  | some t => buildD { s with dynLL := t }
  | none => raise .codeLen .tableBuild s.bp s

/-- Phase `BLOCK_END` (44_inflate_engine.md R244). -/
def blockEnd (s : State) : State :=
  if !s.bfinal then { s with phase := .blockHeader }
  else if s.op == 4 then { s with phase := .unfCfg }
  else enterDone s

end Sys2Proof.Machine
end

