-- ==== Sys2Proof/Machine/CodeLengths.lean ====
section
/-! DEFINITION. The code-length elements (42_block_decoder.md R140 to R146). -/

namespace Sys2Proof.Machine

/-- The length loop goes on while `NLENS < TOTAL` (R140); at `TOTAL` the tables are built (44_inflate_engine.md R240). -/
def nextLength (s : State) : State :=
  { s with phase := if s.nlens = s.total then .dynBuild else .dynLengths }

/-- A run of `r` equal lengths, which must fit (R145). -/
def lengthRun (r : Nat) (v : BitVec 4) (s : State) : State :=
  if s.total < s.nlens + r then raise .codeLen .dynLengths s.bp s else nextLength (appendLens r v s)

/-- The previous length, `LENS[NLENS - 1]` (R146). -/
def prevLength (s : State) : BitVec 4 := s.lens.toList.getD (s.nlens - 1) 0

/-- `CL.LEN v` (R141): one length of that value. -/
def execClLen (v : BitVec 4) (s : State) : Host.Outcome State Fault Refusal :=
  .next (nextLength (appendLens 1 v s))

/-- `CL.REP x` (R142): the previous length `3 + x` times; without a previous length it raises. -/
def execClRep (x : BitVec 2) (s : State) : Host.Outcome State Fault Refusal :=
  .next (if s.nlens = 0 then raise .codeLen .dynLengths s.bp s else lengthRun (3 + x.toNat) (prevLength s) s)

/-- `CL.Z3 x` (R143): `3 + x` zeros. -/
def execClZ3 (x : BitVec 3) (s : State) : Host.Outcome State Fault Refusal :=
  .next (lengthRun (3 + x.toNat) 0 s)

/-- `CL.Z11 x` (R144): `11 + x` zeros. -/
def execClZ11 (x : BitVec 7) (s : State) : Host.Outcome State Fault Refusal :=
  .next (lengthRun (11 + x.toNat) 0 s)

end Sys2Proof.Machine
end

