-- ==== Sys2Proof/Machine/Distances.lean ====
section
/-! DEFINITION. The distance elements, the distance check and the copy (43_symbols_lz77.md R200 to R203, R205 to R234). -/

namespace Sys2Proof.Machine

/-- The registers of a distance element (R200); the match ends with it, so a literal/length element is next. -/
def latchDistance (v dist : Nat) (s : State) : State :=
  { s with dsym := v, mdist := dist, distNext := false }

/-- A distance element of symbol `v` (R200 to R202): the check, once, then the copy of `MLEN` bytes. -/
def distanceElement (v dist : Nat) (s : State) : Host.Outcome State Fault Refusal :=
  if s.infLen < dist then .next (raise .dist .matching s.bp (latchDistance v dist s))
  else (copyMatch s.mlen (latchDistance v dist s)).outcome

/-- `D.ILL`, symbols 30 and 31 (R203). -/
def execDIll (k : BitVec 1) (s : State) : Host.Outcome State Fault Refusal :=
  .next (raise .symbol .matching s.bp { s with dsym := 30 + k.toNat })

/-- `DIST0` (R205). -/
def execDist0 (s : State) : Host.Outcome State Fault Refusal :=
  distanceElement 0 1 s

/-- `DIST1` (R206). -/
def execDist1 (s : State) : Host.Outcome State Fault Refusal :=
  distanceElement 1 2 s

/-- `DIST2` (R207). -/
def execDist2 (s : State) : Host.Outcome State Fault Refusal :=
  distanceElement 2 3 s

/-- `DIST3` (R208). -/
def execDist3 (s : State) : Host.Outcome State Fault Refusal :=
  distanceElement 3 4 s

/-- `DIST4` (R209). -/
def execDist4 (x : BitVec 1) (s : State) : Host.Outcome State Fault Refusal :=
  distanceElement 4 (5 + x.toNat) s

/-- `DIST5` (R210). -/
def execDist5 (x : BitVec 1) (s : State) : Host.Outcome State Fault Refusal :=
  distanceElement 5 (7 + x.toNat) s

/-- `DIST6` (R211). -/
def execDist6 (x : BitVec 2) (s : State) : Host.Outcome State Fault Refusal :=
  distanceElement 6 (9 + x.toNat) s

/-- `DIST7` (R212). -/
def execDist7 (x : BitVec 2) (s : State) : Host.Outcome State Fault Refusal :=
  distanceElement 7 (13 + x.toNat) s

/-- `DIST8` (R213). -/
def execDist8 (x : BitVec 3) (s : State) : Host.Outcome State Fault Refusal :=
  distanceElement 8 (17 + x.toNat) s

/-- `DIST9` (R214). -/
def execDist9 (x : BitVec 3) (s : State) : Host.Outcome State Fault Refusal :=
  distanceElement 9 (25 + x.toNat) s

/-- `DIST10` (R215). -/
def execDist10 (x : BitVec 4) (s : State) : Host.Outcome State Fault Refusal :=
  distanceElement 10 (33 + x.toNat) s

/-- `DIST11` (R216). -/
def execDist11 (x : BitVec 4) (s : State) : Host.Outcome State Fault Refusal :=
  distanceElement 11 (49 + x.toNat) s

/-- `DIST12` (R217). -/
def execDist12 (x : BitVec 5) (s : State) : Host.Outcome State Fault Refusal :=
  distanceElement 12 (65 + x.toNat) s

/-- `DIST13` (R218). -/
def execDist13 (x : BitVec 5) (s : State) : Host.Outcome State Fault Refusal :=
  distanceElement 13 (97 + x.toNat) s

/-- `DIST14` (R219). -/
def execDist14 (x : BitVec 6) (s : State) : Host.Outcome State Fault Refusal :=
  distanceElement 14 (129 + x.toNat) s

/-- `DIST15` (R220). -/
def execDist15 (x : BitVec 6) (s : State) : Host.Outcome State Fault Refusal :=
  distanceElement 15 (193 + x.toNat) s

/-- `DIST16` (R221). -/
def execDist16 (x : BitVec 7) (s : State) : Host.Outcome State Fault Refusal :=
  distanceElement 16 (257 + x.toNat) s

/-- `DIST17` (R222). -/
def execDist17 (x : BitVec 7) (s : State) : Host.Outcome State Fault Refusal :=
  distanceElement 17 (385 + x.toNat) s

/-- `DIST18` (R223). -/
def execDist18 (x : BitVec 8) (s : State) : Host.Outcome State Fault Refusal :=
  distanceElement 18 (513 + x.toNat) s

/-- `DIST19` (R224). -/
def execDist19 (x : BitVec 8) (s : State) : Host.Outcome State Fault Refusal :=
  distanceElement 19 (769 + x.toNat) s

/-- `DIST20` (R225). -/
def execDist20 (x : BitVec 9) (s : State) : Host.Outcome State Fault Refusal :=
  distanceElement 20 (1025 + x.toNat) s

/-- `DIST21` (R226). -/
def execDist21 (x : BitVec 9) (s : State) : Host.Outcome State Fault Refusal :=
  distanceElement 21 (1537 + x.toNat) s

/-- `DIST22` (R227). -/
def execDist22 (x : BitVec 10) (s : State) : Host.Outcome State Fault Refusal :=
  distanceElement 22 (2049 + x.toNat) s

/-- `DIST23` (R228). -/
def execDist23 (x : BitVec 10) (s : State) : Host.Outcome State Fault Refusal :=
  distanceElement 23 (3073 + x.toNat) s

/-- `DIST24` (R229). -/
def execDist24 (x : BitVec 11) (s : State) : Host.Outcome State Fault Refusal :=
  distanceElement 24 (4097 + x.toNat) s

/-- `DIST25` (R230). -/
def execDist25 (x : BitVec 11) (s : State) : Host.Outcome State Fault Refusal :=
  distanceElement 25 (6145 + x.toNat) s

/-- `DIST26` (R231). -/
def execDist26 (x : BitVec 12) (s : State) : Host.Outcome State Fault Refusal :=
  distanceElement 26 (8193 + x.toNat) s

/-- `DIST27` (R232). -/
def execDist27 (x : BitVec 12) (s : State) : Host.Outcome State Fault Refusal :=
  distanceElement 27 (12289 + x.toNat) s

/-- `DIST28` (R233). -/
def execDist28 (x : BitVec 13) (s : State) : Host.Outcome State Fault Refusal :=
  distanceElement 28 (16385 + x.toNat) s

/-- `DIST29` (R234). -/
def execDist29 (x : BitVec 13) (s : State) : Host.Outcome State Fault Refusal :=
  distanceElement 29 (24577 + x.toNat) s

end Sys2Proof.Machine
end

