-- ==== Sys2Proof/Machine/Envelope.lean ====
section
/-! DEFINITION. The zlib envelope, elements `Z.HDR` and `Z.TRL`, and the raw window (44_inflate_engine.md R246, R248). -/

namespace Sys2Proof.Machine

/-- The raw window, `OP = 1` (R246). -/
def rawWindow (s : State) : State :=
  { s with winLo := 0, winEnd := s.inLen, bp := 0, bb := 0, phase := .blockHeader }

/-- `Z.HDR` (R248): the two header bytes are latched; the trailer is next. -/
def execZHdr (cmf flg : BitVec 8) (s : State) : Host.Outcome State Fault Refusal :=
  .next { s with cmf := cmf, flg := flg, hdrSeen := true }

/-- `Z.TRL` (R248): the trailer is latched and the window is set between header and trailer. -/
def execZTrl (adler : BitVec 32) (s : State) : Host.Outcome State Fault Refusal :=
  .next { s with
    adler := adler, hdrSeen := false
    winLo := 2, winEnd := s.inLen - 4, bp := 2, bb := 0, phase := .blockHeader }

end Sys2Proof.Machine
end

