-- ==== Sys2Proof/Machine/Rows.lean ====
section
/-! DEFINITION. The unfilter: its configuration and the row elements (45_unfilter.md R271 to R283). -/

namespace Sys2Proof.Machine

/-- The channel count of a colour type (30_encoding.md R86, R88); `none` for a type that is refused. -/
def channels (colorType : Byte) : Option Nat :=
  if colorType = 0 then some 1
  else if colorType = 2 then some 3
  else if colorType = 4 then some 2
  else if colorType = 6 then some 4
  else none

/-- The geometry registers (R271). -/
def latchGeometry (bpp : Nat) (s : State) : State :=
  { s with bpp := bpp, cols := s.width.toNat * bpp, row := 0 }

/-- Phase `UNF_CFG` (R271, R272): the colour type is checked first, then the bit depth; an image of no rows is done. -/
def unfConfig (s : State) : State :=
  match channels s.colorType with
  | none => raise .color .unfCfg 0 s
  | some ch =>
    if s.bitDepth = 0 then raise .geom .unfCfg 0 s
    else if s.height = 0 then enterDone (latchGeometry (ch * ((s.bitDepth.toNat + 7) / 8)) s)
    else { latchGeometry (ch * ((s.bitDepth.toNat + 7) / 8)) s with phase := .unfRow }

/-- The end of a row (R273, 44_inflate_engine.md R240): the next row, or `DONE` when `ROW = HEIGHT`. -/
def endRow (_ : Unit) (s : State) : Run Unit :=
  .ok () (if s.row + 1 = s.height.toNat then enterDone { s with row := s.row + 1 } else { s with row := s.row + 1 })

/-- A row whose filter byte is `ft` and whose filter function is `f` (R273). -/
def rowElement (ft : Byte) (f : Byte → Byte → Byte → Byte → Byte) (s : State) : Host.Outcome State Fault Refusal :=
  ((rowBytes f s.cols 0 { s with ft := ft }).bind endRow).outcome

/-- The filter functions of `x`, `a`, `b`, `c`; the sum is modulo 256 (R276). -/
def filterNone (x _ _ _ : Byte) : Byte := x

/-- R277. -/
def filterSub (x a _ _ : Byte) : Byte := x + a

/-- R278. -/
def filterUp (x _ b _ : Byte) : Byte := x + b

/-- R279. -/
def filterAvg (x a b _ : Byte) : Byte := x + average a b

/-- R280. -/
def filterPaeth (x a b c : Byte) : Byte := x + paeth a b c

/-- `FT.NONE` (R276). -/
def execFtNone (s : State) : Host.Outcome State Fault Refusal := rowElement 0 filterNone s

/-- `FT.SUB` (R277). -/
def execFtSub (s : State) : Host.Outcome State Fault Refusal := rowElement 1 filterSub s

/-- `FT.UP` (R278). -/
def execFtUp (s : State) : Host.Outcome State Fault Refusal := rowElement 2 filterUp s

/-- `FT.AVG` (R279). -/
def execFtAvg (s : State) : Host.Outcome State Fault Refusal := rowElement 3 filterAvg s

/-- `FT.PAETH` (R280). -/
def execFtPaeth (s : State) : Host.Outcome State Fault Refusal := rowElement 4 filterPaeth s

/-- `FT.ILL`, filter bytes 5 to 255 (R283). -/
def execFtIll (ft : BitVec 8) (s : State) : Host.Outcome State Fault Refusal :=
  .next (raise .filter .unfRow s.rowBase { s with ft := ft })

end Sys2Proof.Machine
end

