-- ==== Sys2Proof/Machine/Symbols.lean ====
section
/-! DEFINITION. The literal/length elements (43_symbols_lz77.md R161 to R165, R170 to R198). -/

namespace Sys2Proof.Machine

/-- `LIT b` (R162): the byte is appended. -/
def execLit (b : BitVec 8) (s : State) : Host.Outcome State Fault Refusal :=
  (put .symbol b { s with sym := b.toNat }).outcome

/-- `EOB` (R163): the block is complete. -/
def execEob (s : State) : Host.Outcome State Fault Refusal :=
  .next { s with sym := 256, phase := .blockEnd }

/-- `LL.ILL`, symbols 286 and 287 (R164). -/
def execLlIll (k : BitVec 1) (s : State) : Host.Outcome State Fault Refusal :=
  .next (raise .symbol .symbol s.bp { s with sym := 286 + k.toNat })

/-- A length element of symbol `v` (R165): `MLEN` is the base plus the extra value; a distance element is next. -/
def lengthElement (v len : Nat) (s : State) : Host.Outcome State Fault Refusal :=
  .next { s with sym := v, mlen := len, distNext := true }

/-- `LEN257` (R170). -/
def execLen257 (s : State) : Host.Outcome State Fault Refusal :=
  lengthElement 257 3 s

/-- `LEN258` (R171). -/
def execLen258 (s : State) : Host.Outcome State Fault Refusal :=
  lengthElement 258 4 s

/-- `LEN259` (R172). -/
def execLen259 (s : State) : Host.Outcome State Fault Refusal :=
  lengthElement 259 5 s

/-- `LEN260` (R173). -/
def execLen260 (s : State) : Host.Outcome State Fault Refusal :=
  lengthElement 260 6 s

/-- `LEN261` (R174). -/
def execLen261 (s : State) : Host.Outcome State Fault Refusal :=
  lengthElement 261 7 s

/-- `LEN262` (R175). -/
def execLen262 (s : State) : Host.Outcome State Fault Refusal :=
  lengthElement 262 8 s

/-- `LEN263` (R176). -/
def execLen263 (s : State) : Host.Outcome State Fault Refusal :=
  lengthElement 263 9 s

/-- `LEN264` (R177). -/
def execLen264 (s : State) : Host.Outcome State Fault Refusal :=
  lengthElement 264 10 s

/-- `LEN265` (R178). -/
def execLen265 (x : BitVec 1) (s : State) : Host.Outcome State Fault Refusal :=
  lengthElement 265 (11 + x.toNat) s

/-- `LEN266` (R179). -/
def execLen266 (x : BitVec 1) (s : State) : Host.Outcome State Fault Refusal :=
  lengthElement 266 (13 + x.toNat) s

/-- `LEN267` (R180). -/
def execLen267 (x : BitVec 1) (s : State) : Host.Outcome State Fault Refusal :=
  lengthElement 267 (15 + x.toNat) s

/-- `LEN268` (R181). -/
def execLen268 (x : BitVec 1) (s : State) : Host.Outcome State Fault Refusal :=
  lengthElement 268 (17 + x.toNat) s

/-- `LEN269` (R182). -/
def execLen269 (x : BitVec 2) (s : State) : Host.Outcome State Fault Refusal :=
  lengthElement 269 (19 + x.toNat) s

/-- `LEN270` (R183). -/
def execLen270 (x : BitVec 2) (s : State) : Host.Outcome State Fault Refusal :=
  lengthElement 270 (23 + x.toNat) s

/-- `LEN271` (R184). -/
def execLen271 (x : BitVec 2) (s : State) : Host.Outcome State Fault Refusal :=
  lengthElement 271 (27 + x.toNat) s

/-- `LEN272` (R185). -/
def execLen272 (x : BitVec 2) (s : State) : Host.Outcome State Fault Refusal :=
  lengthElement 272 (31 + x.toNat) s

/-- `LEN273` (R186). -/
def execLen273 (x : BitVec 3) (s : State) : Host.Outcome State Fault Refusal :=
  lengthElement 273 (35 + x.toNat) s

/-- `LEN274` (R187). -/
def execLen274 (x : BitVec 3) (s : State) : Host.Outcome State Fault Refusal :=
  lengthElement 274 (43 + x.toNat) s

/-- `LEN275` (R188). -/
def execLen275 (x : BitVec 3) (s : State) : Host.Outcome State Fault Refusal :=
  lengthElement 275 (51 + x.toNat) s

/-- `LEN276` (R189). -/
def execLen276 (x : BitVec 3) (s : State) : Host.Outcome State Fault Refusal :=
  lengthElement 276 (59 + x.toNat) s

/-- `LEN277` (R190). -/
def execLen277 (x : BitVec 4) (s : State) : Host.Outcome State Fault Refusal :=
  lengthElement 277 (67 + x.toNat) s

/-- `LEN278` (R191). -/
def execLen278 (x : BitVec 4) (s : State) : Host.Outcome State Fault Refusal :=
  lengthElement 278 (83 + x.toNat) s

/-- `LEN279` (R192). -/
def execLen279 (x : BitVec 4) (s : State) : Host.Outcome State Fault Refusal :=
  lengthElement 279 (99 + x.toNat) s

/-- `LEN280` (R193). -/
def execLen280 (x : BitVec 4) (s : State) : Host.Outcome State Fault Refusal :=
  lengthElement 280 (115 + x.toNat) s

/-- `LEN281` (R194). -/
def execLen281 (x : BitVec 5) (s : State) : Host.Outcome State Fault Refusal :=
  lengthElement 281 (131 + x.toNat) s

/-- `LEN282` (R195). -/
def execLen282 (x : BitVec 5) (s : State) : Host.Outcome State Fault Refusal :=
  lengthElement 282 (163 + x.toNat) s

/-- `LEN283` (R196). -/
def execLen283 (x : BitVec 5) (s : State) : Host.Outcome State Fault Refusal :=
  lengthElement 283 (195 + x.toNat) s

/-- `LEN284` (R197). -/
def execLen284 (x : BitVec 5) (s : State) : Host.Outcome State Fault Refusal :=
  lengthElement 284 (227 + x.toNat) s

/-- `LEN285` (R198). -/
def execLen285 (s : State) : Host.Outcome State Fault Refusal :=
  lengthElement 285 258 s

end Sys2Proof.Machine
end

