-- ==== Sys2Proof/Machine/Fetch.lean ====
section
/-! DEFINITION. Fetching an element: which format the control state expects, where its bits are, and what a read error
does (30_encoding.md R89, 60_exceptions.md R302). -/

namespace Sys2Proof.Machine

/-- The answer of a fetch: an element and the state with the cursor after it; an error, entered; or a selecting value without
an element. -/
inductive Fetched where
  | got (i : Instr) (s : State)
  | trap (s : State)
  | reject (f : Format) (v : Nat)

/-- The format expected at the cursor (30_encoding.md R89), `none` where the phase performs no element (44_inflate_engine.md R240):
the raw window of `OP = 1`, table build, block end, unfilter configuration, and the phases outside a run. -/
def expected (s : State) : Option Format :=
  match s.phase with
  | .envelope => if s.op == 1 then none else if s.hdrSeen then some .zTrl else some .zHdr
  | .blockHeader => some .bh
  | .stored => some .st
  | .dynHeader => some .dh
  | .dynLengths => some .cl
  | .symbol => if s.distNext then some .d else some .ll
  | .unfRow => some .row
  | .idle | .dynBuild | .blockEnd | .unfCfg | .done | .error => none

/-- The literal/length table in force (10_state.md R11). -/
def State.llTable (s : State) : Table :=
  match s.llSel with
  | .fixed => fixLL
  | .dyn => s.dynLL

/-- The distance table in force (10_state.md R11). -/
def State.dTable (s : State) : Table :=
  match s.dSel with
  | .fixed => fixD
  | .dyn => s.dynD

/-- The table a format is decoded with. -/
def tableFor (f : Format) (s : State) : Table :=
  match f with
  | .cl => s.clT
  | .ll => s.llTable
  | .d => s.dTable
  | .zHdr | .zTrl | .bh | .st | .dh | .row => []

/-- Where a format's bits are: the whole of `IN` for the envelope (44_inflate_engine.md R248), `INF` for a row, else the window. -/
def sourceFor (f : Format) (s : State) : Src :=
  match f with
  | .zHdr | .zTrl => inputSrc s s.inLen
  | .row => infSrc s
  | .bh | .st | .dh | .cl | .ll | .d => windowSrc s

/-- The bit position an element is read at. -/
def startOf (f : Format) (s : State) : Nat :=
  match f with
  | .zHdr => 0
  | .zTrl => 8 * (s.inLen - 4)
  | .row => 8 * s.rowBase
  | .bh | .st | .dh | .cl | .ll | .d => s.pos

/-- The cursor after a read that ended at `p`; the envelope and the rows do not move it (46_arithmetic_control_access.md R264). -/
def advance (f : Format) (p : Nat) (s : State) : State :=
  match f with
  | .zHdr | .zTrl | .row => s
  | .bh | .st | .dh | .cl | .ll | .d => s.setPos p

/-- The registers already written when a read error stops an element: `BFINAL` (42_block_decoder.md R130), the fields of a
dynamic header (R136, R137), `SYM` (43_symbols_lz77.md R161), `DSYM` (R200). -/
def latch (f : Format) (got : List Nat) (s : State) : State :=
  match f, got with
  | .bh, b :: _ => { s with bfinal := b == 1 }
  | .dh, [h] => { s with hlit := BitVec.ofNat 5 h }
  | .dh, [h, d] => { s with hlit := BitVec.ofNat 5 h, hdist := BitVec.ofNat 5 d }
  | .dh, h :: d :: c :: ls =>
    { s with
      hlit := BitVec.ofNat 5 h, hdist := BitVec.ofNat 5 d, hclen := BitVec.ofNat 4 c
      cllen := cllenOf (ls.map (BitVec.ofNat 3)) }
  | .ll, v :: _ => { s with sym := v }
  | .d, v :: _ => { s with dsym := v }
  | _, _ => s

/-- Fetch one element of a format. The envelope's length check comes first (44_inflate_engine.md R248). `ERR_POS` is the byte the
read stopped at: the byte cursor, or for a row the index into `INF` (60_exceptions.md R302). -/
def fetchElement (f : Format) (s : State) : Fetched :=
  if f = .zHdr ∧ s.inLen < 6 then .trap (raise .bounds .envelope s.bp s)
  else
    match decode f (tableFor f s) (sourceFor f s) (startOf f s) with
    | .ok i p => .got i (advance f p s)
    | .stop e st p got => .trap (raise e st (p / 8) (latch f got (advance f p s)))
    | .reject (.noElement g v) => .reject g v

/-- Store bytes from an address on. -/
def storeBytes : List Byte → Nat → Memory → Memory
  | [], _, m => m
  | b :: bs, a, m => storeBytes bs (a + 1) (Memory.write m a b)

/-- A table with the one code `0` for a symbol. -/
def oneCode (v : Nat) : Table := [{ code := 0, len := 1, sym := v }]

/-- The control state, the tables and the lengths under which the next step fetches element `i` from the bytes at the start of
`IN`, or for a row from where the current row begins in `INF` (entry 13). -/
def placeElement (i : Instr) (s : State) : State :=
  let bits := (encode (oneCode i.selector) 0 i).getD []
  let n := (bits.length + 7) / 8
  let run : State := { s with host := [], busy := true, done := false, err := false, hdrSeen := false, distNext := false }
  let loaded : State :=
    { run with
      inMem := storeBytes (packBytes n bits) 0 run.inMem, inLen := n
      winLo := 0, winEnd := n, bp := 0, bb := 0 }
  match i.format with
  | .bh => { loaded with phase := .blockHeader }
  | .st => { loaded with phase := .stored }
  | .dh => { loaded with phase := .dynHeader }
  | .cl => { loaded with phase := .dynLengths, clT := oneCode i.selector }
  | .ll => { loaded with phase := .symbol, llSel := .dyn, dynLL := oneCode i.selector }
  | .d => { loaded with phase := .symbol, distNext := true, dSel := .dyn, dynD := oneCode i.selector }
  | .zHdr =>
    { run with
      inMem := storeBytes (packBytes 6 bits) 0 run.inMem, inLen := 6, op := 2, phase := .envelope }
  | .zTrl =>
    { run with
      inMem := storeBytes (packBytes 6 (bitsLSB 16 0 ++ bits)) 0 run.inMem, inLen := 6, op := 2, phase := .envelope
      hdrSeen := true }
  | .row =>
    { run with
      infMem := storeBytes (packBytes n bits) run.rowBase run.infMem
      infLen := max run.infLen (run.rowBase + 1), phase := .unfRow }

end Sys2Proof.Machine
end

