-- ==== Sys2Proof/Machine/Host.lean ====
section
/-! DEFINITION. The host's side: register and memory accesses (10_state.md R15 to R25, 20_memory.md R52) and the answer to one
move of the host. -/

namespace Sys2Proof.Machine

/-- The byte offset of a host register (10_state.md R15). -/
def HostReg.offset : HostReg → Nat
  | .cmd => 0x00
  | .ctrl => 0x04
  | .status => 0x08
  | .err => 0x0C
  | .errPos => 0x10
  | .curBp => 0x14
  | .curBb => 0x18
  | .inLen => 0x1C
  | .infLen => 0x20
  | .pixLen => 0x24
  | .width => 0x28
  | .height => 0x2C
  | .fmt => 0x30
  | .bpp => 0x34
  | .zhdr => 0x38
  | .zadler => 0x3C

/-- A write to `CTRL` while not busy (10_state.md R17): CLEAR wins over START; a write of neither does nothing. -/
def writeCtrl (v : Word) (s : State) : State :=
  if v.getLsbD 1 then clear s else if v.getLsbD 0 then start s else s

/-- A write to a host register (10_state.md R15 to R25): ignored while busy; reserved bits and read-only registers ignore it. -/
def hostWrite (r : HostReg) (v : Word) (s : State) : State :=
  if s.busy then s
  else
    match r with
    | .cmd => { s with op := v.extractLsb' 0 3 }
    | .ctrl => writeCtrl v s
    | .inLen => { s with inLen := v.toNat }
    | .infLen => { s with infLen := v.toNat }
    | .width => { s with width := v }
    | .height => { s with height := v }
    | .fmt => { s with bitDepth := v.extractLsb' 0 8, colorType := v.extractLsb' 8 8 }
    | .status | .err | .errPos | .curBp | .curBb | .pixLen | .bpp | .zhdr | .zadler => s

/-- What a register reads as while not busy (10_state.md R15 to R25). -/
def regValue (r : HostReg) (s : State) : Word :=
  match r with
  | .cmd => s.op.setWidth 32
  | .ctrl => 0
  | .status => statusWord s
  | .err => errWord s
  | .errPos => BitVec.ofNat 32 s.errPos
  | .curBp => BitVec.ofNat 32 s.bp
  | .curBb => s.bb.setWidth 32
  | .inLen => BitVec.ofNat 32 s.inLen
  | .infLen => BitVec.ofNat 32 s.infLen
  | .pixLen => BitVec.ofNat 32 s.pixLen
  | .width => s.width
  | .height => s.height
  | .fmt => fmtWord s
  | .bpp => BitVec.ofNat 32 s.bpp
  | .zhdr => zhdrWord s
  | .zadler => s.adler

/-- `STATUS` while busy: bits [2:0] are the status bits, `PHASE` (bits [11:8]) is free, and the reserved bits [7:3] and [31:12]
read 0 (10_state.md R15, R18; entry 9). -/
def busyStatus (free : Word) (s : State) : Word :=
  (0 : BitVec 20) ++ free.extractLsb' 8 4 ++ (0 : BitVec 5) ++ BitVec.ofNat 3 (statusBits s)

/-- A host read of a register (10_state.md R15, 20_memory.md R52): while busy only `STATUS` is specified, but for its `PHASE` (entry 9). -/
def hostRead (r : HostReg) (s : State) : State :=
  if s.busy then
    { s with
      rdata := if r = .status then busyStatus (Config.freeWord s.freeCtr) s else Config.freeWord s.freeCtr
      freeCtr := s.freeCtr + 1 }
  else { s with rdata := regValue r s }

/-- A host read of a byte of a memory: unspecified while busy (20_memory.md R52) and at or beyond the length register
(10_state.md R33; entries 9, 10). -/
def hostReadMem (sp : Space) (a : Nat) (s : State) : State :=
  if s.busy || decide (s.len sp ≤ a) then
    { s with rdata := ((Config.freeWord s.freeCtr).setWidth 8).setWidth 32, freeCtr := s.freeCtr + 1 }
  else { s with rdata := (s.byte sp a).setWidth 32 }

/-- One move of the host other than `pass` and `wait` (entry 7): a byte that does not exist is a fault, a memory write while busy
is refused (entry 8). -/
def hostMove (m : HostMove) (s : State) : Host.Outcome State Fault Refusal :=
  match m with
  | .writeReg r v => .next (hostWrite r v s)
  | .readReg r => .next (hostRead r s)
  | .writeMem sp a v =>
    if s.cap sp ≤ a then .fault (.noSuchAddress sp a)
    else if s.busy then .refused (.hostMemoryWriteWhileBusy sp a)
    else .next (s.writeByte sp a v)
  | .readMem sp a => if s.cap sp ≤ a then .fault (.noSuchAddress sp a) else .next (hostReadMem sp a s)
  | .rst => .next (hardReset s)
  | .pass => .next s
  | .wait => .next s

end Sys2Proof.Machine
end

