-- ==== Sys2Proof/Machine/Step.lean ====
section
/-! DEFINITION. One step: a move of the host if it has one, else one step of the core (44_inflate_engine.md R240). -/

namespace Sys2Proof.Machine

/-- Fetch an element of the expected format and run it. -/
def runElement (f : Format) (s : State) : Host.Outcome State Fault Refusal :=
  match fetchElement f s with
  | .got i t => exec i t
  | .trap t => .next t
  | .reject g v => .fault (.noSuchElement g v)

/-- The phases that perform no stream element (44_inflate_engine.md R240). The core rests in the phases outside a run. -/
def phaseStep (s : State) : State :=
  match s.phase with
  | .envelope => rawWindow s
  | .dynBuild => dynBuild s
  | .blockEnd => blockEnd s
  | .unfCfg => unfConfig s
  | .idle | .done | .error | .blockHeader | .stored | .dynHeader | .dynLengths | .symbol | .unfRow => s

/-- One step of the core, which steps only while `STATUS.BUSY = 1` (00_scope.md R5). -/
def coreStep (s : State) : Host.Outcome State Fault Refusal :=
  if !s.busy then .next s
  else
    match expected s with
    | some f => runElement f s
    | none => .next (phaseStep s)

/-- One step. While the host has moves to make, the first of them says who moves: the host itself, or on `pass` the core; on
`wait` the core while it is busy, then the host goes on (entry 7). -/
def step (s : State) : Host.Outcome State Fault Refusal :=
  match s.host with
  | [] => coreStep s
  | .pass :: q => coreStep { s with host := q }
  | .wait :: q => if s.busy then coreStep s else .next { s with host := q }
  | m :: q => hostMove m { s with host := q }

/-- The state in which the next step fetches the element that a table word selects (entry 13). -/
def State.withFetchWord (s : State) (nbits w : Nat) : State :=
  match decodeTableWord nbits w with
  | some i => placeElement i s
  | none => s

end Sys2Proof.Machine
end

