-- ==== Sys2Proof/Safety.lean ====
section
/-! DEFINITION. What holds in every state of a run, in the terms the statements use. Each predicate is decidable. -/

namespace Sys2Proof

/-- The source holds these bits, in read order, from a position on (20_memory.md R40). -/
def Holds (get : Src) (p : Nat) (bits : List Bool) : Prop :=
  ∀ k, k < bits.length → get (p + k) = bits[k]?

/-- The value of a field from its bits in read order, the first of weight 1 (20_memory.md R41). -/
def fieldValue : List Bool → Nat
  | [] => 0
  | b :: bs => b.toNat + 2 * fieldValue bs

/-- The bits of a triple's code, in read order (20_memory.md R42). -/
def Entry.bits (e : Entry) : List Bool := bitsMSB e.len e.code

end Sys2Proof

namespace Sys2Proof.Machine

/-- The phases in which a run is in progress (10_state.md R18, R34). -/
def Phase.running (p : Phase) : Bool := decide (1 ≤ p.code ∧ p.code ≤ 10)

/-- `STATUS` shows one of the combinations of 10_state.md R18, and `ERR`, `ERR_POS` are 0 unless `STATUS.ERR` (R19, R20). -/
abbrev StatusOk (s : State) : Prop :=
  ((s.busy = true ∧ s.done = false ∧ s.err = false ∧ s.phase.running = true) ∨
    (s.busy = false ∧ s.done = false ∧ s.err = false ∧ s.phase = .idle) ∨
    (s.busy = false ∧ s.done = true ∧ s.err = false ∧ s.phase = .done) ∨
    (s.busy = false ∧ s.done = false ∧ s.err = true ∧ s.phase = .error)) ∧
  (s.err = false → s.errCode = none ∧ s.errStage = .none ∧ s.errPos = 0) ∧
  (s.err = true → s.errCode ≠ none ∧ s.errStage ≠ .none)

/-- The cursor is in its window and in normal form (10_state.md R12, 40_bitreader.md R100); during a run the window lies in the
valid bytes of `IN`, and those in `IN`; until the envelope is read the cursor is 0 (R13). -/
abbrev CursorOk (s : State) : Prop :=
  s.winLo ≤ s.bp ∧ s.bp ≤ s.winEnd ∧ (s.bp = s.winEnd → s.bb = 0) ∧
  (s.busy = true → s.winEnd ≤ s.inLen ∧ (s.inflates = true → s.inLen ≤ s.inCap) ∧ (s.hdrSeen = true → 6 ≤ s.inLen)) ∧
  (s.busy = true → s.phase = .envelope → s.bp = 0 ∧ s.bb = 0)

/-- During a run the bytes of `INF` are within its capacity, and those of `PIX` always (10_state.md R22). -/
abbrev LengthsOk (s : State) : Prop :=
  (s.busy = true → s.infLen ≤ s.infCap) ∧ s.pixLen ≤ s.pixCap

/-- `NLENS` is below `TOTAL` while code lengths are decoded, and equal to it at the table build (42_block_decoder.md R140). -/
abbrev CountOk (s : State) : Prop :=
  (s.busy = true → s.phase = .dynLengths → s.nlens < s.total) ∧
  (s.busy = true → s.phase = .dynBuild → s.nlens = s.total)

/-- Where the unfilter stands (45_unfilter.md R270, R275): before the rows nothing is in `PIX`; at row `ROW`, `ROW * COLS` bytes are, and the
`ROW * (COLS + 1)` bytes of `INF` already read were there. -/
abbrev RowOk (s : State) : Prop :=
  (s.busy = true → s.phase ≠ .unfRow → s.pixLen = 0) ∧
  (s.busy = true → s.phase = .unfRow →
    s.pixLen = s.row * s.cols ∧ s.row < s.height.toNat ∧ 1 ≤ s.bpp ∧ s.bpp ≤ 128 ∧ s.cols = s.width.toNat * s.bpp ∧
    s.rowBase ≤ s.infLen)

/-- One code begins with the other, or they are equal (10_state.md R30). -/
abbrev codesClash (e f : Entry) : Prop :=
  (e.len ≤ f.len ∧ f.code / 2 ^ (f.len - e.len) = e.code) ∨ (f.len ≤ e.len ∧ e.code / 2 ^ (e.len - f.len) = f.code)

/-- A table as 10_state.md R30 describes it: lengths 1 to 15, codes that fit, symbols below `n`, no code a prefix of another. -/
abbrev TableOk (n : Nat) (T : Table) : Prop :=
  (∀ e ∈ T, 1 ≤ e.len ∧ e.len ≤ 15 ∧ e.code < 2 ^ e.len ∧ e.sym < n) ∧ T.Pairwise (fun e f => ¬ codesClash e f)

/-- The tables held in the state (10_state.md R30, 41_huffman.md R110). -/
abbrev TablesOk (s : State) : Prop :=
  TableOk 19 s.clT ∧ TableOk 288 s.dynLL ∧ TableOk 32 s.dynD

/-- The three memories are in canonical form. -/
abbrev MemoriesOk (s : State) : Prop :=
  Memory.wf s.inMem = true ∧ Memory.wf s.infMem = true ∧ Memory.wf s.pixMem = true

/-- Every register that the model holds as a natural number is within the width that 10_state.md R11, R13, R15 give it, and the
capacities are at most `2^32 - 1` (92_eei_decisions.md D4). -/
abbrev WidthsOk (s : State) : Prop :=
  (s.inCap ≤ Config.capMax ∧ s.infCap ≤ Config.capMax ∧ s.pixCap ≤ Config.capMax) ∧
  (s.inLen < 2 ^ 32 ∧ s.infLen < 2 ^ 32 ∧ s.pixLen < 2 ^ 32 ∧ s.errPos < 2 ^ 32) ∧
  (s.bp < 2 ^ 32 ∧ s.winLo < 2 ^ 32 ∧ s.winEnd < 2 ^ 32) ∧
  (s.bpp < 2 ^ 8 ∧ s.nlens < 2 ^ 9 ∧ s.sym < 2 ^ 9 ∧ s.mlen < 2 ^ 9 ∧ s.dsym < 2 ^ 5 ∧ s.mdist < 2 ^ 16) ∧
  (s.cols < 2 ^ 40 ∧ s.row < 2 ^ 32)

/-- Bit `p` of `IN`, counted from bit 0 of byte 0 (20_memory.md R40). -/
def State.inBit (s : State) (p : Nat) : Bool := (s.inByte (p / 8)).getLsbD (p % 8)

/-- The byte boundary at or after the cursor, as a byte index (40_bitreader.md R103). -/
def State.byteCursor (s : State) : Nat := if s.bb = 0 then s.bp else s.bp + 1

/-- A distance element `i` of symbol `v` and distance `d` copies `MLEN` bytes from `d` bytes back (43_symbols_lz77.md R200, R202): its
registers are latched, the bytes are appended, the distance pattern repeated where it overlaps, and nothing else changes (`distNext`
is the model's own mark, log entry 12). -/
def CopiesMatch (i : Instr) (v d : Nat) : Prop :=
  ∀ s : State, d ≤ s.infLen → s.infLen + s.mlen ≤ s.infCap →
    ∃ m : Memory,
      exec i s = .next { s with
        dsym := v, mdist := d, distNext := false, infMem := m, infLen := s.infLen + s.mlen } ∧
      (∀ k, k < s.mlen → Memory.byte .inf s.infGen m (s.infLen + k) = s.infByte (s.infLen - d + k % d)) ∧
      (∀ a, a < s.infLen ∨ s.infLen + s.mlen ≤ a → Memory.byte .inf s.infGen m a = s.infByte a)

/-- A code-length element `i` appends `r` copies of `v` where they fit (42_block_decoder.md R141 to R144): the entries
from `NLENS` on are written, the count grows, the tables are built when it is `TOTAL`, and nothing else changes. -/
def AppendsLengths (i : Instr) (r : Nat) (v : BitVec 4) (s : State) : Prop :=
  ∃ l : Vector (BitVec 4) 320,
    exec i s = .next { s with
      lens := l, nlens := s.nlens + r
      phase := if s.nlens + r = s.total then .dynBuild else .dynLengths } ∧
    ∀ j, (h : j < 320) → l[j] = if s.nlens ≤ j ∧ j < s.nlens + r then v else s.lens[j]

/-- A row element `i` of filter byte `ft` unfilters its row by `f` of `x`, `a`, `b`, `c` (45_unfilter.md R273 to R282): where the row
is in `INF` and fits in `PIX`, its `COLS` bytes are appended, `ROW` moves on, the run is done after the last row, and nothing else changes.
That `ROW` is `HEIGHT` after the last row is the model's deduction (log entry 22). -/
def Unfilters (i : Instr) (ft : Byte) (f : Byte → Byte → Byte → Byte → Byte) : Prop :=
  ∀ s : State, s.row * (s.cols + 1) + 1 + s.cols ≤ s.infLen → s.pixLen = s.row * s.cols → s.pixLen + s.cols ≤ s.pixCap →
    1 ≤ s.bpp →
    ∃ m : Memory,
      exec i s = .next { s with
        ft := ft, pixMem := m, pixLen := s.pixLen + s.cols, row := s.row + 1
        busy := if s.row + 1 = s.height.toNat then false else s.busy
        done := if s.row + 1 = s.height.toNat then true else s.done
        phase := if s.row + 1 = s.height.toNat then .done else s.phase } ∧
      (∀ j, j < s.cols → Memory.byte .pix s.pixGen m (s.row * s.cols + j) =
        f (s.infByte (s.row * (s.cols + 1) + 1 + j))
          (if s.bpp ≤ j then Memory.byte .pix s.pixGen m (s.row * s.cols + j - s.bpp) else 0)
          (if 1 ≤ s.row then s.pixByte ((s.row - 1) * s.cols + j) else 0)
          (if 1 ≤ s.row ∧ s.bpp ≤ j then s.pixByte ((s.row - 1) * s.cols + j - s.bpp) else 0)) ∧
      (∀ a, a < s.pixLen ∨ s.pixLen + s.cols ≤ a → Memory.byte .pix s.pixGen m a = s.pixByte a)

/-- The raise sites: which code can appear with which stage (60_exceptions.md R302). -/
def errorPair (e : ErrCode) (st : Stage) : Bool :=
  match e, st with
  | .cmd, .cmd => true
  | .bounds, .envelope => true
  | .bounds, .blockHeader => true
  | .btype, .blockHeader => true
  | .bounds, .stored => true
  | .overflow, .stored => true
  | .bounds, .dynHeader => true
  | .codeLen, .tableBuild => true
  | .emptyTable, .dynLengths => true
  | .noLeaf, .dynLengths => true
  | .bounds, .dynLengths => true
  | .codeLen, .dynLengths => true
  | .emptyTable, .symbol => true
  | .noLeaf, .symbol => true
  | .bounds, .symbol => true
  | .symbol, .symbol => true
  | .overflow, .symbol => true
  | .bounds, .matching => true
  | .emptyTable, .matching => true
  | .noLeaf, .matching => true
  | .symbol, .matching => true
  | .dist, .matching => true
  | .overflow, .matching => true
  | .color, .unfCfg => true
  | .geom, .unfCfg => true
  | .bounds, .unfRow => true
  | .filter, .unfRow => true
  | .overflow, .unfRow => true
  | _, _ => false

end Sys2Proof.Machine
end

