-- ==== Sys2Proof/Certificates/Slice0/Obligations.lean ====
section
/-! DEFINITION. The statements for the provers. Each says which rule of spec/ it formalises; what rests on a choice of the model's own
names the log entry (notes/assumptions/<n>.md). "Everything else unchanged" is written as an update of the state before, with
each byte of memory spoken for. -/

section

open Sys2Proof Sys2Proof.Machine

/-! ## Encoding -/

/-- For every well-formed element of every format, decoding the bits that the encoder writes gives the element back and ends after them
(30_encoding.md R71 to R79, R85; 41_huffman.md R114). In a table in which no code begins another, an element may carry any operand. -/
def Obligations.DecodeEncodeRoundTrip : Prop :=
  ∀ (n : Nat) (T : Table) (i : Instr) (p : Nat) (bits : List Bool) (get : Src),
    TableOk n T → i.wf = true → encode T p i = some bits → Holds get p bits →
      decode i.format T get p = .ok i (p + bits.length)

/-- Where the bits at the cursor decode to an element, a step is that element's meaning on the state with the cursor after it
(30_encoding.md R89); where the read stops, the step is the error entry at the byte it stopped at, the cursor there too
(60_exceptions.md R302, R310), and with the fields already read latched (log entry 23). What stops a read of each format, and at which
stage, is said with the elements below. A `pass` of the host is taken off its queue, a `wait` stays while the core is busy (log entry 7). -/
def Obligations.StepRunsDecodedElement : Prop :=
  ∀ (s : State) (q : List HostMove) (f : Format),
    s.busy = true → expected s = some f → ¬ (f = .zHdr ∧ s.inLen < 6) →
    (∀ (i : Instr) (p : Nat), decode f (tableFor f s) (sourceFor f s) (startOf f s) = .ok i p →
      (s.host = [] → step s = exec i (advance f p s)) ∧
      (s.host = .pass :: q → step s = exec i (advance f p { s with host := q })) ∧
      (s.host = .wait :: q → step s = exec i (advance f p s))) ∧
    (∀ (e : ErrCode) (st : Stage) (p : Nat) (got : List Nat),
      decode f (tableFor f s) (sourceFor f s) (startOf f s) = .stop e st p got →
      (s.host = [] → step s = .next (raise e st (p / 8) (latch f got (advance f p s)))) ∧
      (s.host = .pass :: q → step s = .next (raise e st (p / 8) (latch f got (advance f p { s with host := q })))) ∧
      (s.host = .wait :: q → step s = .next (raise e st (p / 8) (latch f got (advance f p s)))))

/-- Some words written out from the spec: the stored header of 30_encoding.md R72, a stored body (R73), `HLIT = 4, HDIST = 0, HCLEN = 0`
and four lengths (R74), the fixed codes of 65, 256, 257 and 284 with 31, and of distance 29 with 8191 (R81), a filter byte (R85). -/
def Obligations.SampleWordsDecode : Prop :=
  decode .bh [] (srcOf [true, false, false] 0) 0 = .ok (.blkStored true) 3 ∧
  decode .bh [] (srcOf [false, true, false] 5) 5 = .ok (.blkFixed false) 8 ∧
  decode .bh [] (srcOf [true, false, true] 0) 0 = .ok (.blkDyn true) 3 ∧
  decode .st [] (srcOf (bitsLSB 32 0xFFFB0004) 8) 8 = .ok (.stBody 4 0xFFFB) 40 ∧
  decode .dh [] (srcOf ([false, false, true, false, false] ++ [false, false, false, false, false] ++ [false, false, false, false] ++
    [false, false, true] ++ [false, true, false] ++ [false, true, false] ++ [true, false, false]) 0) 0 =
      .ok (.dynHdr 4 0 0 [4, 2, 2, 1]) 26 ∧
  decode .ll fixLL (srcOf [false, true, true, true, false, false, false, true] 3) 3 = .ok (.lit 65) 11 ∧
  decode .ll fixLL (srcOf [false, false, false, false, false, false, false] 0) 0 = .ok .eob 7 ∧
  decode .ll fixLL (srcOf [false, false, false, false, false, false, true] 0) 0 = .ok .len257 7 ∧
  decode .ll fixLL (srcOf ([true, true, false, false, false, true, false, false] ++ [true, true, true, true, true]) 0) 0 =
    .ok (.len284 31) 13 ∧
  decode .d fixD (srcOf ([true, true, true, false, true] ++ List.replicate 13 true) 0) 0 = .ok (.dist29 8191) 18 ∧
  decode .row [] (srcOf (bitsLSB 8 4) 16) 16 = .ok .ftPaeth 24

/-! ## Huffman tables -/

/-- The fixed codes in closed form (30_encoding.md R81). -/
def Obligations.FixedCodes : Prop :=
  (∀ v, v < 144 → codeBits fixLL v = some (bitsMSB 8 (48 + v))) ∧
  (∀ v, 144 ≤ v → v < 256 → codeBits fixLL v = some (bitsMSB 9 (400 + (v - 144)))) ∧
  (∀ v, 256 ≤ v → v < 280 → codeBits fixLL v = some (bitsMSB 7 (v - 256))) ∧
  (∀ v, 280 ≤ v → v < 288 → codeBits fixLL v = some (bitsMSB 8 (192 + (v - 280)))) ∧
  (∀ v, v < 32 → codeBits fixD v = some (bitsMSB 5 v)) ∧
  (∀ v, 288 ≤ v → codeBits fixLL v = none) ∧ (∀ v, 32 ≤ v → codeBits fixD v = none)

/-- Which codes `build` assigns (41_huffman.md R111, R112): exactly the symbols with a non-zero length get one, of that length, and the
code is the first code of its length plus the number of earlier symbols of that length. The first codes are R112's own: 0 for length 0,
and for each next length twice the sum of the one before and its number of symbols, which for length 0 is taken as 0. -/
def Obligations.BuildAssignsCodes : Prop :=
  ∀ (lengths : List Nat) (T : Table) (count code : Nat → Nat), (∀ l ∈ lengths, l ≤ 15) → build lengths = some T →
    (∀ n, count n = if n = 0 then 0 else lengths.count n) →
    code 0 = 0 → (∀ n, code (n + 1) = 2 * (code n + count n)) →
    ∀ e : Entry, e ∈ T ↔
      e.len ≠ 0 ∧ lengths[e.sym]? = some e.len ∧ e.code = code e.len + (lengths.take e.sym).count e.len

/-- A built table is a canonical prefix code (41_huffman.md R113, R115): codes fit, none begins another, symbols are below the
number of lengths, and in one length codes rise with the symbol, shorter codes preceding longer ones. -/
def Obligations.BuildGivesPrefixCode : Prop :=
  ∀ (lengths : List Nat) (T : Table), (∀ l ∈ lengths, l ≤ 15) → build lengths = some T →
    TableOk lengths.length T ∧
    ∀ e ∈ T, ∀ f ∈ T,
      (e.len = f.len → e.sym < f.sym → e.code < f.code) ∧
      (e.len < f.len → (e.code + 1) * 2 ^ (f.len - e.len) ≤ f.code)

/-- `build` refuses exactly the over-subscribed lengths, those whose Kraft sum exceeds 1 (41_huffman.md R113). -/
def Obligations.BuildRefusesOverSubscribed : Prop :=
  ∀ lengths : List Nat, (∀ l ∈ lengths, l ≤ 15) →
    (build lengths = none ↔ 2 ^ 15 < (lengths.map fun l => if l = 0 then 0 else 2 ^ (15 - l)).sum)

/-- A walk returns a symbol exactly where the bits read are that symbol's code, and ends after them (41_huffman.md R118). -/
def Obligations.WalkDecodesCodes : Prop :=
  ∀ (n : Nat) (T : Table) (st : Stage) (get : Src) (p v q : Nat), TableOk n T →
    (walk st T get p = .ok v q ↔ ∃ e ∈ T, e.sym = v ∧ q = p + e.len ∧ Holds get p e.bits)

/-- A walk raises `E_NOLEAF` exactly at the bit that leaves the trie: the bits read begin no code, those before the last properly
began one (41_huffman.md R118, R119); a walk of an empty table raises `E_EMPTY_TABLE` before any bit is read. -/
def Obligations.WalkLeavesTheTrie : Prop :=
  (∀ (n : Nat) (T : Table) (st : Stage) (get : Src) (p q : Nat), TableOk n T → T ≠ [] →
    (walk st T get p = .stop .noLeaf st q [] ↔
      ∃ bits : List Bool, bits ≠ [] ∧ q = p + bits.length ∧ Holds get p bits ∧
        (∃ e ∈ T, bits.length ≤ e.len ∧ bits.dropLast <+: e.bits) ∧ (∀ e ∈ T, ¬ bits <+: e.bits) ∧ ∀ e ∈ T, ¬ e.bits <+: bits)) ∧
  (∀ (st : Stage) (get : Src) (p : Nat), walk st [] get p = .stop .emptyTable st p [])

/-- The fixed tables are complete: a walk of one either returns a symbol or runs out of bits (41_huffman.md R120, R121). -/
def Obligations.FixedTablesComplete : Prop :=
  ∀ (T : Table) (st : Stage) (get : Src) (p : Nat), T = fixLL ∨ T = fixD →
    (∃ v q, walk st T get p = .ok v q) ∨ (∃ k, k < 9 ∧ get (p + k) = none ∧ walk st T get p = .stop .bounds st (p + k) [])

/-! ## The BitReader -/

/-- `nextBit` (40_bitreader.md R101): the bit under the cursor, and the cursor one bit on in normal form; `E_BOUNDS` at `BP >= END`,
with nothing moved. -/
def Obligations.NextBitReads : Prop :=
  ∀ (st : Stage) (s : State),
    (s.bp < s.winEnd →
      nextBit st s = .ok ((s.inByte s.bp).getLsbD s.bb.toNat)
        (if s.bb = 7 then { s with bp := s.bp + 1, bb := 0 } else { s with bb := s.bb + 1 })) ∧
    (s.winEnd ≤ s.bp → nextBit st s = .trap (raise .bounds st s.bp s))

/-- `nextBits` (40_bitreader.md R102): the first bit read is bit 0 of the value; a field that the window cuts off raises `E_BOUNDS` with
the cursor at the window's end; no bit is read for `n = 0`, wherever the cursor is. -/
def Obligations.NextBitsReads : Prop :=
  ∀ (st : Stage) (n : Nat) (s : State),
    (s.pos + n ≤ 8 * s.winEnd →
      ∃ v, v < 2 ^ n ∧ (∀ k, k < n → v.testBit k = s.inBit (s.pos + k)) ∧ nextBits st n s = .ok v (s.setPos (s.pos + n))) ∧
    (s.pos ≤ 8 * s.winEnd → 8 * s.winEnd < s.pos + n →
      nextBits st n s = .trap (raise .bounds st s.winEnd { s with bp := s.winEnd, bb := 0 })) ∧
    nextBits st 0 s = .ok 0 s

/-- `nextByte` (40_bitreader.md R103): unread bits of the current byte are discarded, then a whole byte is read; `E_BOUNDS` where
there is none. -/
def Obligations.NextByteReads : Prop :=
  ∀ (st : Stage) (s : State),
    (s.byteCursor < s.winEnd →
      nextByte st s = .ok (s.inByte s.byteCursor).toNat { s with bp := s.byteCursor + 1, bb := 0 }) ∧
    (s.winEnd ≤ s.byteCursor →
      nextByte st s = .trap (raise .bounds st s.byteCursor { s with bp := s.byteCursor, bb := 0 }))

/-! ## Blocks -/

/-- A step in phase `BLOCK_HEADER` (42_block_decoder.md R130, R131, R132, R134): the final flag, then the type, low bit first, latched, and
the switch on the type; with fewer than three bits left `E_BOUNDS`. That the flag is latched where the window cuts the type off after it
is the model's deduction (log entry 23). -/
def Obligations.BlockHeaderStep : Prop :=
  ∀ s : State, s.host = [] → s.busy = true → s.phase = .blockHeader →
    (s.pos + 3 ≤ 8 * s.winEnd → ∀ t : State,
      t = { s.setPos (s.pos + 3) with
        bfinal := s.inBit s.pos, btype := BitVec.ofNat 2 ((s.inBit (s.pos + 1)).toNat + 2 * (s.inBit (s.pos + 2)).toNat) } →
      (t.btype = 0 → step s = .next { t with phase := .stored }) ∧
      (t.btype = 1 → step s = .next { t with llSel := .fixed, dSel := .fixed, phase := .symbol }) ∧
      (t.btype = 2 → step s = .next { t with phase := .dynHeader }) ∧
      (t.btype = 3 → step s = .next (raise .btype .blockHeader t.bp t))) ∧
    (s.pos ≤ 8 * s.winEnd → 8 * s.winEnd < s.pos + 3 →
      step s = .next (raise .bounds .blockHeader s.winEnd { s with
        bfinal := if s.pos < 8 * s.winEnd then s.inBit s.pos else s.bfinal, bp := s.winEnd, bb := 0 }))

/-- The block elements latch the flag and their type, and enter the phase of their body; a fixed block selects the constant tables
(42_block_decoder.md R131, R132, R135). Nothing else changes. -/
def Obligations.BlockHeaderElements : Prop :=
  ∀ (final : Bool) (s : State),
    exec (.blkStored final) s = .next { s with bfinal := final, btype := 0, phase := .stored } ∧
    exec (.blkFixed final) s = .next { s with
      bfinal := final, btype := 1, llSel := .fixed, dSel := .fixed, phase := .symbol } ∧
    exec (.blkDyn final) s = .next { s with bfinal := final, btype := 2, phase := .dynHeader }

/-- The illegal elements enter their error, with what the element had latched (30_encoding.md R90; R134, R164, R203, R283). -/
def Obligations.IllegalElementsRaise : Prop :=
  ∀ s : State,
    (∀ final, exec (.blkRsvd final) s = .next (raise .btype .blockHeader s.bp { s with bfinal := final, btype := 3 })) ∧
    (∀ k, exec (.llIll k) s = .next (raise .symbol .symbol s.bp { s with sym := 286 + k.toNat })) ∧
    (∀ k, exec (.dIll k) s = .next (raise .symbol .matching s.bp { s with dsym := 30 + k.toNat })) ∧
    (∀ ft, exec (.ftIll ft) s = .next (raise .filter .unfRow (s.row * (s.cols + 1)) { s with ft := ft }))

/-- `ST.BODY` (42_block_decoder.md R133): where `LEN` bytes are left and fit, they are appended in order, the cursor stands after them, the
block is complete, `NLEN` is latched and compared with nothing, and nothing else changes; `LEN = 0` is legal and moves nothing. -/
def Obligations.StoredBodyCopies : Prop :=
  ∀ (len nlen : BitVec 16) (s : State),
    s.byteCursor + len.toNat ≤ s.winEnd ∨ len = 0 → s.infLen + len.toNat ≤ s.infCap ∨ len = 0 →
    ∃ m : Memory,
      exec (.stBody len nlen) s = .next { s with
        stlen := len, stnlen := nlen, infMem := m, infLen := s.infLen + len.toNat, phase := .blockEnd
        bp := if len = 0 then s.bp else s.byteCursor + len.toNat, bb := if len = 0 then s.bb else 0 } ∧
      (∀ k, k < len.toNat → Memory.byte .inf s.infGen m (s.infLen + k) = s.inByte (s.byteCursor + k)) ∧
      (∀ a, a < s.infLen ∨ s.infLen + len.toNat ≤ a → Memory.byte .inf s.infGen m a = s.infByte a)

/-- `ST.BODY` where the window or the capacity is too small (42_block_decoder.md R133, 60_exceptions.md R302): a missing data byte is
`E_BOUNDS` at the boundary where it is missing; a byte that does not fit is `E_OVERFLOW` after it has been read; the first of
the two is the one reported. A step in phase `STORED` with fewer than the four length bytes left is `E_BOUNDS(STORED)` at the window's
end; that it latches neither length is the model's deduction (log entry 23). -/
def Obligations.StoredBodyRaises : Prop :=
  (∀ (len nlen : BitVec 16) (s : State) (left room : Nat),
    left = s.winEnd - s.byteCursor → room = s.infCap - s.infLen →
    (left ≤ room → left < len.toNat →
      exec (.stBody len nlen) s = .next (raise .bounds .stored (s.byteCursor + left) { s with
        stlen := len, stnlen := nlen, bp := s.byteCursor + left, bb := 0 })) ∧
    (room < left → room < len.toNat →
      exec (.stBody len nlen) s = .next (raise .overflow .stored (s.byteCursor + room + 1) { s with
        stlen := len, stnlen := nlen, bp := s.byteCursor + room + 1, bb := 0 }))) ∧
  (∀ s : State, s.host = [] → s.busy = true → s.phase = .stored →
    s.pos ≤ 8 * s.winEnd → s.winEnd < s.byteCursor + 4 →
      step s = .next (raise .bounds .stored s.winEnd { s with bp := s.winEnd, bb := 0 }))

/-- `DYN.HDR` (42_block_decoder.md R136 to R139): the counts are latched, the i-th transmitted length goes to the i-th symbol of the order of
30_encoding.md R77, a symbol not transmitted gets 0, `CL_T` is built and the length sequence starts; over-subscribed lengths are
`E_CODELEN(TABLE_BUILD)`. A header that the window cuts off, in its 14 bits of counts or in its `HCLEN + 4` lengths of three bits, is
`E_BOUNDS(DYN_HEADER)` at the window's end; it changes nothing else but that counts and lengths already read may be latched (log entry 23
says which). -/
def Obligations.DynamicHeaderBuilds : Prop :=
  (∀ (hlit hdist : BitVec 5) (hclen : BitVec 4) (cls : List (BitVec 3)) (s : State),
    ∃ c : Vector (BitVec 3) 19,
      (∀ k, k < 19 →
        c.toList.getD (([16, 17, 18, 0, 8, 7, 9, 6, 10, 5, 11, 4, 12, 3, 13, 2, 14, 1, 15] : List Nat).getD k 0) 0 = cls.getD k 0) ∧
      exec (.dynHdr hlit hdist hclen cls) s = .next
        (match build (c.toList.map BitVec.toNat) with
        | some T => { s with
            hlit := hlit, hdist := hdist, hclen := hclen, cllen := c, clT := T, nlens := 0, phase := .dynLengths }
        | none => raise .codeLen .tableBuild s.bp { s with hlit := hlit, hdist := hdist, hclen := hclen, cllen := c })) ∧
  (∀ (s : State) (n : Nat), s.host = [] → s.busy = true → s.phase = .dynHeader → s.pos ≤ 8 * s.winEnd →
    n = (s.inBit (s.pos + 10)).toNat + 2 * (s.inBit (s.pos + 11)).toNat +
      4 * (s.inBit (s.pos + 12)).toNat + 8 * (s.inBit (s.pos + 13)).toNat →
    8 * s.winEnd < s.pos + 14 + 3 * (n + 4) →
      ∃ (hlit hdist : BitVec 5) (hclen : BitVec 4) (c : Vector (BitVec 3) 19),
        step s = .next (raise .bounds .dynHeader s.winEnd { s with
          hlit := hlit, hdist := hdist, hclen := hclen, cllen := c, bp := s.winEnd, bb := 0 }))

/-- The code-length elements (42_block_decoder.md R140 to R144, R146): `CL.LEN` appends its value, `CL.REP` 3 to 6 copies of the previous
length, `CL.Z3` 3 to 10 zeros, `CL.Z11` 11 to 138 zeros, where they fit. A step in phase `DYN_LENGTHS` whose walk of `CL_T` stops raises the
walk's error at stage `DYN_LENGTHS`, the cursor where the walk stopped; one whose 2, 3 or 7 extra bits the window cuts off raises
`E_BOUNDS(DYN_LENGTHS)` at the window's end. -/
def Obligations.CodeLengthElementsAppend : Prop :=
  (∀ s : State,
    (∀ v, AppendsLengths (.clLen v) 1 v s) ∧
    (∀ x : BitVec 2, s.nlens ≠ 0 → s.nlens + (3 + x.toNat) ≤ s.total →
      AppendsLengths (.clRep x) (3 + x.toNat) (s.lens.toList.getD (s.nlens - 1) 0) s) ∧
    (∀ x : BitVec 3, s.nlens + (3 + x.toNat) ≤ s.total → AppendsLengths (.clZ3 x) (3 + x.toNat) 0 s) ∧
    (∀ x : BitVec 7, s.nlens + (11 + x.toNat) ≤ s.total → AppendsLengths (.clZ11 x) (11 + x.toNat) 0 s)) ∧
  (∀ s : State, s.host = [] → s.busy = true → s.phase = .dynLengths →
    (∀ e st q g, walk .dynLengths s.clT (windowSrc s) s.pos = .stop e st q g →
      step s = .next (raise e .dynLengths (q / 8) (s.setPos q))) ∧
    (∀ v q n, walk .dynLengths s.clT (windowSrc s) s.pos = .ok v q → (v = 16 ∧ n = 2) ∨ (v = 17 ∧ n = 3) ∨ (v = 18 ∧ n = 7) →
      s.pos ≤ 8 * s.winEnd → 8 * s.winEnd < q + n →
      step s = .next (raise .bounds .dynLengths s.winEnd { s with bp := s.winEnd, bb := 0 })))

/-- A repeat must fit (42_block_decoder.md R145): a run past `TOTAL` raises `E_CODELEN(DYN_LENGTHS)` and appends nothing; a repeat without a
previous length raises the same (R142). -/
def Obligations.CodeLengthRunsMustFit : Prop :=
  ∀ s : State,
    (∀ x : BitVec 2, s.nlens = 0 ∨ s.total < s.nlens + (3 + x.toNat) →
      exec (.clRep x) s = .next (raise .codeLen .dynLengths s.bp s)) ∧
    (∀ x : BitVec 3, s.total < s.nlens + (3 + x.toNat) → exec (.clZ3 x) s = .next (raise .codeLen .dynLengths s.bp s)) ∧
    (∀ x : BitVec 7, s.total < s.nlens + (11 + x.toNat) → exec (.clZ11 x) s = .next (raise .codeLen .dynLengths s.bp s))

/-- A step in phase `DYN_BUILD` (42_block_decoder.md R147): the sequence is split at `HLIT + 257`, the literal/length table is built first, then
the distance table, and both are selected. -/
def Obligations.DynamicTablesBuilt : Prop :=
  ∀ s : State, s.host = [] → s.busy = true → s.phase = .dynBuild →
    ∀ ll dd : List Nat,
      ll = (List.range (s.hlit.toNat + 257)).map (fun k => (s.lens.toList.getD k 0).toNat) →
      dd = (List.range (s.hdist.toNat + 1)).map (fun k => (s.lens.toList.getD (s.hlit.toNat + 257 + k) 0).toNat) →
      (build ll = none → step s = .next (raise .codeLen .tableBuild s.bp s)) ∧
      (∀ T, build ll = some T → build dd = none → step s = .next (raise .codeLen .tableBuild s.bp { s with dynLL := T })) ∧
      (∀ T U, build ll = some T → build dd = some U →
        step s = .next { s with dynLL := T, dynD := U, llSel := .dyn, dSel := .dyn, phase := .symbol })

/-! ## Symbols -/

/-- `LIT` and `EOB` (43_symbols_lz77.md R160, R162, R163): a literal is appended, or is `E_OVERFLOW(SYMBOL)` where `INF` is full; symbol 256
ends the block, with no output and no move of the cursor. Nothing else changes. A step that expects a literal/length symbol and whose walk of
the table in force stops raises the walk's error at stage `SYMBOL`, the cursor where the walk stopped (R161). -/
def Obligations.LiteralAndEndOfBlock : Prop :=
  ∀ s : State,
    (∀ b : BitVec 8, s.infLen < s.infCap → ∃ m : Memory,
      exec (.lit b) s = .next { s with sym := b.toNat, infMem := m, infLen := s.infLen + 1 } ∧
      Memory.byte .inf s.infGen m s.infLen = b ∧ ∀ a, a ≠ s.infLen → Memory.byte .inf s.infGen m a = s.infByte a) ∧
    (∀ b : BitVec 8, s.infCap ≤ s.infLen → exec (.lit b) s = .next (raise .overflow .symbol s.bp { s with sym := b.toNat })) ∧
    exec .eob s = .next { s with sym := 256, phase := .blockEnd } ∧
    (s.host = [] → s.busy = true → s.phase = .symbol → s.distNext = false →
      ∀ e st q g, walk .symbol (match s.llSel with | .fixed => fixLL | .dyn => s.dynLL) (windowSrc s) s.pos = .stop e st q g →
        step s = .next (raise e .symbol (q / 8) (s.setPos q)))

/-- The 29 length elements (43_symbols_lz77.md R165, R170 to R198): `MLEN` is the base plus the extra value; a distance element is next, which
the model marks in a field of its own (log entry 12). The numbers are the spec's own from general knowledge (93_implementation_defined.md G1).
Nothing else changes. Extra bits that the window cuts off are `E_BOUNDS(MATCH)` at the window's end (60_exceptions.md R301, R302); that `SYM`
is latched by then and `MLEN` is not is the model's deduction (log entry 23). -/
def Obligations.LengthElements : Prop :=
  (∀ (s : State) (v q : Nat), s.host = [] → s.busy = true → s.phase = .symbol → s.distNext = false →
    walk .symbol (match s.llSel with | .fixed => fixLL | .dyn => s.dynLL) (windowSrc s) s.pos = .ok v q →
    265 ≤ v → v ≤ 284 → s.pos ≤ 8 * s.winEnd → 8 * s.winEnd < q + (v - 261) / 4 →
      step s = .next (raise .bounds .matching s.winEnd { s with sym := v, bp := s.winEnd, bb := 0 })) ∧
  ∀ s : State, ∀ t : Nat → Nat → State, (∀ v n, t v n = { s with sym := v, mlen := n, distNext := true }) →
    (exec .len257 s = .next (t 257 3) ∧ exec .len258 s = .next (t 258 4) ∧ exec .len259 s = .next (t 259 5) ∧
      exec .len260 s = .next (t 260 6) ∧ exec .len261 s = .next (t 261 7) ∧ exec .len262 s = .next (t 262 8) ∧
      exec .len263 s = .next (t 263 9) ∧ exec .len264 s = .next (t 264 10)) ∧
    (∀ x, exec (.len265 x) s = .next (t 265 (11 + x.toNat)) ∧ exec (.len266 x) s = .next (t 266 (13 + x.toNat)) ∧
      exec (.len267 x) s = .next (t 267 (15 + x.toNat)) ∧ exec (.len268 x) s = .next (t 268 (17 + x.toNat))) ∧
    (∀ x, exec (.len269 x) s = .next (t 269 (19 + x.toNat)) ∧ exec (.len270 x) s = .next (t 270 (23 + x.toNat)) ∧
      exec (.len271 x) s = .next (t 271 (27 + x.toNat)) ∧ exec (.len272 x) s = .next (t 272 (31 + x.toNat))) ∧
    (∀ x, exec (.len273 x) s = .next (t 273 (35 + x.toNat)) ∧ exec (.len274 x) s = .next (t 274 (43 + x.toNat)) ∧
      exec (.len275 x) s = .next (t 275 (51 + x.toNat)) ∧ exec (.len276 x) s = .next (t 276 (59 + x.toNat))) ∧
    (∀ x, exec (.len277 x) s = .next (t 277 (67 + x.toNat)) ∧ exec (.len278 x) s = .next (t 278 (83 + x.toNat)) ∧
      exec (.len279 x) s = .next (t 279 (99 + x.toNat)) ∧ exec (.len280 x) s = .next (t 280 (115 + x.toNat))) ∧
    (∀ x, exec (.len281 x) s = .next (t 281 (131 + x.toNat)) ∧ exec (.len282 x) s = .next (t 282 (163 + x.toNat)) ∧
      exec (.len283 x) s = .next (t 283 (195 + x.toNat)) ∧ exec (.len284 x) s = .next (t 284 (227 + x.toNat))) ∧
    exec .len285 s = .next (t 285 258)

/-- The 30 distance elements copy the match (43_symbols_lz77.md R200, R202, R205 to R234): each with its base plus the extra value, forward, one byte
at a time, so that an overlap repeats the pattern. The numbers are the spec's own from general knowledge (93_implementation_defined.md G2). -/
def Obligations.DistanceElementsCopy : Prop :=
  (CopiesMatch .dist0 0 1 ∧ CopiesMatch .dist1 1 2 ∧ CopiesMatch .dist2 2 3 ∧ CopiesMatch .dist3 3 4) ∧
  (∀ x, CopiesMatch (.dist4 x) 4 (5 + x.toNat) ∧ CopiesMatch (.dist5 x) 5 (7 + x.toNat)) ∧
  (∀ x, CopiesMatch (.dist6 x) 6 (9 + x.toNat) ∧ CopiesMatch (.dist7 x) 7 (13 + x.toNat)) ∧
  (∀ x, CopiesMatch (.dist8 x) 8 (17 + x.toNat) ∧ CopiesMatch (.dist9 x) 9 (25 + x.toNat)) ∧
  (∀ x, CopiesMatch (.dist10 x) 10 (33 + x.toNat) ∧ CopiesMatch (.dist11 x) 11 (49 + x.toNat)) ∧
  (∀ x, CopiesMatch (.dist12 x) 12 (65 + x.toNat) ∧ CopiesMatch (.dist13 x) 13 (97 + x.toNat)) ∧
  (∀ x, CopiesMatch (.dist14 x) 14 (129 + x.toNat) ∧ CopiesMatch (.dist15 x) 15 (193 + x.toNat)) ∧
  (∀ x, CopiesMatch (.dist16 x) 16 (257 + x.toNat) ∧ CopiesMatch (.dist17 x) 17 (385 + x.toNat)) ∧
  (∀ x, CopiesMatch (.dist18 x) 18 (513 + x.toNat) ∧ CopiesMatch (.dist19 x) 19 (769 + x.toNat)) ∧
  (∀ x, CopiesMatch (.dist20 x) 20 (1025 + x.toNat) ∧ CopiesMatch (.dist21 x) 21 (1537 + x.toNat)) ∧
  (∀ x, CopiesMatch (.dist22 x) 22 (2049 + x.toNat) ∧ CopiesMatch (.dist23 x) 23 (3073 + x.toNat)) ∧
  (∀ x, CopiesMatch (.dist24 x) 24 (4097 + x.toNat) ∧ CopiesMatch (.dist25 x) 25 (6145 + x.toNat)) ∧
  (∀ x, CopiesMatch (.dist26 x) 26 (8193 + x.toNat) ∧ CopiesMatch (.dist27 x) 27 (12289 + x.toNat)) ∧
  (∀ x, CopiesMatch (.dist28 x) 28 (16385 + x.toNat) ∧ CopiesMatch (.dist29 x) 29 (24577 + x.toNat))

/-- The errors of the 30 distance elements (43_symbols_lz77.md R200 to R202): too far is `E_DIST`, checked once and before the copy; a copy that
does not fit is `E_OVERFLOW(MATCH)`. The distance is the base of 30_encoding.md R84 plus the value of the extra bits. A walk of the distance
table that stops raises its error at stage `MATCH`, the cursor where it stopped, and extra bits that the window cuts off are `E_BOUNDS(MATCH)`
at the window's end. That a distance too far has `DSYM` and `MDIST` latched, and one cut off `DSYM`, is the model's deduction (log entry 23);
`distNext` is the model's own mark (log entry 12). -/
def Obligations.DistanceElementsRaise : Prop :=
  (∀ (i : Instr) (s : State) (d : Nat), i.format = .d → i.selector ≤ 29 →
    d = dBase.getD i.selector 0 + fieldValue i.operandBits →
    ∀ t : State, t = { s with dsym := i.selector, mdist := d, distNext := false } →
    (s.infLen < d → exec i s = .next (raise .dist .matching s.bp t)) ∧
    (d ≤ s.infLen → s.infLen ≤ s.infCap → s.infCap < s.infLen + s.mlen →
      exec i s = .next (raise .overflow .matching s.bp t))) ∧
  (∀ (s : State) (T : Table), s.host = [] → s.busy = true → s.phase = .symbol → s.distNext = true →
    T = (match s.dSel with | .fixed => fixD | .dyn => s.dynD) →
    (∀ e st q g, walk .matching T (windowSrc s) s.pos = .stop e st q g → step s = .next (raise e .matching (q / 8) (s.setPos q))) ∧
    (∀ v q, walk .matching T (windowSrc s) s.pos = .ok v q → 4 ≤ v → v ≤ 29 →
      s.pos ≤ 8 * s.winEnd → 8 * s.winEnd < q + (v - 2) / 2 →
      step s = .next (raise .bounds .matching s.winEnd { s with dsym := v, bp := s.winEnd, bb := 0 })))

/-! ## Rows -/

/-- The five filter types (45_unfilter.md R273, R275 to R280, R282): each byte is the filtered byte plus its predictor, modulo 256, the predictor
formed from bytes of `PIX`; `a` and `b` are summed in nine bits by Average. That `ROW` is `HEIGHT` after the last row is the model's deduction
(log entry 22). -/
def Obligations.RowElementsUnfilter : Prop :=
  Unfilters .ftNone 0 (fun x _ _ _ => x) ∧
  Unfilters .ftSub 1 (fun x a _ _ => x + a) ∧
  Unfilters .ftUp 2 (fun x _ b _ => x + b) ∧
  Unfilters .ftAvg 3 (fun x a b _ => BitVec.ofNat 8 (x.toNat + (a.toNat + b.toNat) / 2)) ∧
  Unfilters .ftPaeth 4 (fun x a b c => x + paeth a b c)

/-- The errors of a row (45_unfilter.md R274, R282): a missing byte is `E_BOUNDS` at `INF_LEN`; a byte that does not fit is `E_OVERFLOW` at the
index of the byte being processed; of the two the first is reported, `E_BOUNDS` before `E_OVERFLOW` at one byte. Where the filter byte itself
is missing, a step in phase `UNF_ROW` is `E_BOUNDS(UNF_ROW)` at its index and changes nothing else. -/
def Obligations.RowElementsRaise : Prop :=
  (∀ (i : Instr) (s : State) (base room : Nat),
    i ∈ [Instr.ftNone, .ftSub, .ftUp, .ftAvg, .ftPaeth] →
    base = s.row * (s.cols + 1) → base < s.infLen → room = s.pixCap - s.pixLen →
    (s.infLen ≤ base + 1 + room → s.infLen < base + 1 + s.cols →
      exec i s = .next (raise .bounds .unfRow s.infLen { s with ft := BitVec.ofNat 8 i.selector })) ∧
    (base + 1 + room < s.infLen → room < s.cols →
      exec i s = .next (raise .overflow .unfRow (base + 1 + room) { s with ft := BitVec.ofNat 8 i.selector }))) ∧
  (∀ s : State, s.host = [] → s.busy = true → s.phase = .unfRow → s.infLen ≤ s.row * (s.cols + 1) →
    step s = .next (raise .bounds .unfRow (s.row * (s.cols + 1)) s))

/-- `PaethPredictor` (45_unfilter.md R281): one of `a`, `b`, `c`, none of which is closer to `a + b - c`, ties going to `a`, then to `b`. That
`a + b - c` is the exact integer, not a byte, is the spec's own from general knowledge (log entry 19). -/
def Obligations.PaethPicksClosest : Prop :=
  ∀ (a b c : Byte) (p : Int), p = (a.toNat : Int) + b.toNat - c.toNat →
    (paeth a b c = a ∧ |p - a.toNat| ≤ |p - b.toNat| ∧ |p - a.toNat| ≤ |p - c.toNat|) ∨
    (paeth a b c = b ∧ |p - b.toNat| < |p - a.toNat| ∧ |p - b.toNat| ≤ |p - c.toNat|) ∨
    (paeth a b c = c ∧ |p - c.toNat| < |p - a.toNat| ∧ |p - c.toNat| < |p - b.toNat|)

/-- Filtering then unfiltering is the identity (45_unfilter.md R284): if each byte of the row is the original less the predictor formed from
original bytes, the row element puts the original bytes into `PIX`. -/
def Obligations.FilterThenUnfilter : Prop :=
  ∀ (i : Instr) (pred : Byte → Byte → Byte → Byte) (s : State) (orig : Nat → Byte),
    (i = .ftNone ∧ pred = fun _ _ _ => 0) ∨ (i = .ftSub ∧ pred = fun a _ _ => a) ∨ (i = .ftUp ∧ pred = fun _ b _ => b) ∨
      (i = .ftAvg ∧ pred = fun a b _ => BitVec.ofNat 8 ((a.toNat + b.toNat) / 2)) ∨ (i = .ftPaeth ∧ pred = paeth) →
    s.row * (s.cols + 1) + 1 + s.cols ≤ s.infLen → s.pixLen = s.row * s.cols → s.pixLen + s.cols ≤ s.pixCap → 1 ≤ s.bpp →
    (∀ j, j < s.cols → s.infByte (s.row * (s.cols + 1) + 1 + j) = orig j - pred
      (if s.bpp ≤ j then orig (j - s.bpp) else 0)
      (if 1 ≤ s.row then s.pixByte ((s.row - 1) * s.cols + j) else 0)
      (if 1 ≤ s.row ∧ s.bpp ≤ j then s.pixByte ((s.row - 1) * s.cols + j - s.bpp) else 0)) →
    ∃ t, exec i s = .next t ∧ t.pixLen = s.pixLen + s.cols ∧ ∀ j, j < s.cols → t.pixByte (s.row * s.cols + j) = orig j

/-- A step in phase `UNF_CFG` (45_unfilter.md R271, R272): the colour type is checked first, then the bit depth; then the geometry is latched,
and an image of no rows is done. The channel counts are the spec's own from general knowledge (93_implementation_defined.md G6). -/
def Obligations.UnfilterConfiguration : Prop :=
  ∀ s : State, s.host = [] → s.busy = true → s.phase = .unfCfg →
    (s.colorType ≠ 0 ∧ s.colorType ≠ 2 ∧ s.colorType ≠ 4 ∧ s.colorType ≠ 6 → step s = .next (raise .color .unfCfg 0 s)) ∧
    (∀ ch : Nat, (s.colorType = 0 ∧ ch = 1) ∨ (s.colorType = 2 ∧ ch = 3) ∨ (s.colorType = 4 ∧ ch = 2) ∨ (s.colorType = 6 ∧ ch = 4) →
      (s.bitDepth = 0 → step s = .next (raise .geom .unfCfg 0 s)) ∧
      (s.bitDepth ≠ 0 → ∀ n, n = ch * ((s.bitDepth.toNat + 7) / 8) →
        step s = .next (if s.height = 0
          then { s with bpp := n, cols := s.width.toNat * n, row := 0, busy := false, done := true, phase := .done }
          else { s with bpp := n, cols := s.width.toNat * n, row := 0, phase := .unfRow })))

/-! ## The run -/

/-- The envelope's two elements (44_inflate_engine.md R248): header and trailer are latched and compared with nothing; the window lies between
them. That they are two elements is the model's choice (log entry 12). Nothing else changes. -/
def Obligations.EnvelopeElements : Prop :=
  ∀ s : State,
    (∀ cmf flg, exec (.zHdr cmf flg) s = .next { s with cmf := cmf, flg := flg, hdrSeen := true }) ∧
    (∀ adler, exec (.zTrl adler) s = .next { s with
      adler := adler, hdrSeen := false, winLo := 2, winEnd := s.inLen - 4, bp := 2, bb := 0, phase := .blockHeader })

/-- The zlib envelope, phase `ENVELOPE` with `OP` 2 or 4 (44_inflate_engine.md R248): two steps (log entry 12) latch `IN[0]`, `IN[1]` and the last
four bytes, first byte most significant, and set window and cursor; an input shorter than six bytes is `E_BOUNDS(ENVELOPE)`. -/
def Obligations.EnvelopeSteps : Prop :=
  ∀ s : State, s.host = [] → s.busy = true → s.phase = .envelope → s.op = 2 ∨ s.op = 4 → s.hdrSeen = false →
    (6 ≤ s.inLen → Host.Core.run core 2 s = .next { s with
      cmf := s.inByte 0, flg := s.inByte 1
      adler := s.inByte (s.inLen - 4) ++ s.inByte (s.inLen - 3) ++ s.inByte (s.inLen - 2) ++ s.inByte (s.inLen - 1)
      winLo := 2, winEnd := s.inLen - 4, bp := 2, bb := 0, phase := .blockHeader }) ∧
    (s.inLen < 6 → step s = .next (raise .bounds .envelope s.bp s))

/-- The raw window and the end of a block (44_inflate_engine.md R246, R244, R251): the window is all of `IN[0 .. IN_LEN)`; after a block that is
not final the next header is read at the cursor as it stands; after the final one a `PNG` operation goes on to the unfilter and the
others are `DONE`. Nothing else changes. That this also holds where `OP` is none of 1, 2, 4, in states that no run reaches, is the model's
choice (log entry 17). -/
def Obligations.WindowAndBlockEnd : Prop :=
  ∀ s : State, s.host = [] → s.busy = true →
    (s.phase = .envelope → s.op = 1 →
      step s = .next { s with winLo := 0, winEnd := s.inLen, bp := 0, bb := 0, phase := .blockHeader }) ∧
    (s.phase = .blockEnd → s.bfinal = false → step s = .next { s with phase := .blockHeader }) ∧
    (s.phase = .blockEnd → s.bfinal = true → s.op = 4 → step s = .next { s with phase := .unfCfg }) ∧
    (s.phase = .blockEnd → s.bfinal = true → s.op ≠ 4 →
      step s = .next { s with busy := false, done := true, phase := .done })

/-- Error entry (60_exceptions.md R310, R312): code, stage and position are recorded, the lengths are 0, `STATUS` shows `ERR` alone; cursor, `IN`,
`IN_LEN`, `CMD`, geometry, `ZHDR` and `ZADLER` keep their values, and the core rests (R314). That the contents of `INF` and `PIX` are forgotten,
nothing listed and every byte a fresh free value, is the model's choice (log entry 5). -/
def Obligations.ErrorEntry : Prop :=
  ∀ (e : ErrCode) (st : Stage) (k : Nat) (s t : State), t = raise e st k s →
    (t.errCode = some e ∧ t.errStage = st ∧ t.errPos = k) ∧ (t.infLen = 0 ∧ t.pixLen = 0) ∧
    (t.busy = false ∧ t.err = true ∧ t.done = false ∧ t.phase = .error) ∧ (t.bp = s.bp ∧ t.bb = s.bb) ∧
    (t.inMem = s.inMem ∧ t.inGen = s.inGen ∧ t.inLen = s.inLen ∧ t.op = s.op) ∧
    (t.width = s.width ∧ t.height = s.height ∧ t.bitDepth = s.bitDepth ∧ t.colorType = s.colorType) ∧
    (t.cmf = s.cmf ∧ t.flg = s.flg ∧ t.adler = s.adler) ∧ expected t = none ∧ coreStep t = .next t ∧
    (t.infMem = [] ∧ t.infGen = s.infGen + 1 ∧ t.pixMem = [] ∧ t.pixGen = s.pixGen + 1)

/-- Every error is one of the raise sites of 60_exceptions.md R302, and `ERR_POS` is what R302 and 10_state.md R20 say. In stages 2 to 9 it is the byte
cursor at the raise: for `E_BOUNDS` that is 0 in the envelope and else the window's end, for `E_EMPTY_TABLE` the cursor has not moved. It is 0
for the command and the configuration, and an index of `INF` for a row: `INF_LEN` where a byte is missing, the filter byte's own index where
that is illegal, and where `PIX` is full the index of the first byte without room. -/
def Obligations.ErrorsAreThoseOfTheTable : Prop :=
  ∀ s t : State, CursorOk s → RowOk s → s.err = false → step s = .next t → t.err = true →
    ∃ e, t.errCode = some e ∧ errorPair e t.errStage = true ∧
      (2 ≤ stageValue t.errStage → stageValue t.errStage ≤ 9 → t.errPos = t.bp) ∧
      (e = .bounds → t.errStage = .envelope → t.errPos = 0) ∧
      (e = .bounds → t.errStage ∈ [Stage.blockHeader, .stored, .dynHeader, .dynLengths, .symbol, .matching] →
        t.bp = s.winEnd ∧ t.bb = 0 ∧ t.winEnd = s.winEnd) ∧
      (e = .emptyTable → t.bp = s.bp ∧ t.bb = s.bb) ∧
      (t.errStage = .cmd ∨ t.errStage = .unfCfg → t.errPos = 0) ∧
      (t.errStage = .unfRow →
        (e = .bounds → t.errPos = s.infLen) ∧ (e = .filter → t.errPos = s.row * (s.cols + 1)) ∧
        (e = .overflow → t.errPos = s.row * (s.cols + 1) + 1 + (s.pixCap - s.pixLen)))

/-! ## The host -/

/-- Outcomes are sticky (60_exceptions.md R316): `STATUS.ERR`, `ERR`, `ERR_POS` and `STATUS.DONE` hold their values through every step, reads of
registers among them, but a hardware reset and a CLEAR write, which clear them, and a START write, which clears them and may then enter
the command error. -/
def Obligations.OutcomeIsSticky : Prop :=
  ∀ s t : State, s.busy = false → step s = .next t →
    (t.err = s.err ∧ t.errCode = s.errCode ∧ t.errStage = s.errStage ∧ t.errPos = s.errPos ∧ t.done = s.done ∧
      t.busy = false ∧ t.phase = s.phase) ∨
    (((∃ q, s.host = .rst :: q) ∨ ∃ v q, s.host = .writeReg .ctrl v :: q ∧ v.getLsbD 1 = true) ∧
      t.err = false ∧ t.errCode = none ∧ t.errStage = .none ∧ t.errPos = 0 ∧ t.done = false ∧ t.busy = false) ∨
    ((∃ v q, s.host = .writeReg .ctrl v :: q ∧ v.getLsbD 0 = true ∧ v.getLsbD 1 = false) ∧ t.done = false ∧ t.errPos = 0 ∧
      ((t.busy = true ∧ t.err = false ∧ t.errCode = none ∧ t.errStage = .none) ∨
        (t.busy = false ∧ t.err = true ∧ t.errCode = some .cmd ∧ t.errStage = .cmd)))

/-- Only a START write begins a run (10_state.md R17, 44_inflate_engine.md R242): where a step makes `STATUS.BUSY` 1, it was a write of `CTRL` with
START set and CLEAR not, and `CMD.OP` was 1 to 4. -/
def Obligations.OnlyStartBeginsARun : Prop :=
  ∀ s t : State, s.busy = false → step s = .next t → t.busy = true →
    ∃ v q, s.host = .writeReg .ctrl v :: q ∧ v.getLsbD 0 = true ∧ v.getLsbD 1 = false ∧
      (s.op = 1 ∨ s.op = 2 ∨ s.op = 3 ∨ s.op = 4) ∧ t.phase = if s.op = 3 then .unfCfg else .envelope

/-- Writes of `CTRL` (10_state.md R17): while not busy START launches, CLEAR clears, CLEAR wins over START, any other value does nothing; while
busy every write is ignored; `CTRL` reads 0. -/
def Obligations.ControlWrites : Prop :=
  ∀ (v : Word) (s : State),
    (s.busy = false → v.getLsbD 1 = true → hostMove (.writeReg .ctrl v) s = .next (clear s)) ∧
    (s.busy = false → v.getLsbD 1 = false → v.getLsbD 0 = true → hostMove (.writeReg .ctrl v) s = .next (start s)) ∧
    (s.busy = false → v.getLsbD 1 = false → v.getLsbD 0 = false → hostMove (.writeReg .ctrl v) s = .next s) ∧
    (s.busy = true → hostMove (.writeReg .ctrl v) s = .next s) ∧
    (s.busy = false → hostMove (.readReg .ctrl) s = .next { s with rdata := 0 })

/-- START (44_inflate_engine.md R242): the previous outcome, cursor, window, header registers and results are cleared, `INF_LEN` only for an
inflating operation; an illegal operation or a length over the capacity is `E_CMD(CMD)` at 0; else the run begins. Nothing else of the
spec's state changes; that START clears the two marks between the halves of an envelope and of a match is the model's (log entry 12). -/
def Obligations.StartBeginsARun : Prop :=
  ∀ (v : Word) (s t : State), s.busy = false → v.getLsbD 0 = true → v.getLsbD 1 = false →
    t = { s with
      done := false, err := false, busy := true, errCode := none, errStage := .none, errPos := 0
      bp := 0, bb := 0, winLo := 0, winEnd := 0, bfinal := false, btype := 0, cmf := 0, flg := 0, adler := 0, pixLen := 0
      infLen := if s.op = 1 ∨ s.op = 2 ∨ s.op = 4 then 0 else s.infLen, hdrSeen := false, distNext := false } →
    (s.op = 1 ∨ s.op = 2 ∨ s.op = 4 → s.inLen ≤ s.inCap →
      hostMove (.writeReg .ctrl v) s = .next { t with phase := .envelope }) ∧
    (s.op = 1 ∨ s.op = 2 ∨ s.op = 4 → s.inCap < s.inLen → hostMove (.writeReg .ctrl v) s = .next (raise .cmd .cmd 0 t)) ∧
    (s.op = 3 → s.infLen ≤ s.infCap → hostMove (.writeReg .ctrl v) s = .next { t with phase := .unfCfg }) ∧
    (s.op = 3 → s.infCap < s.infLen → hostMove (.writeReg .ctrl v) s = .next (raise .cmd .cmd 0 t)) ∧
    (s.op = 0 ∨ s.op = 5 ∨ s.op = 6 ∨ s.op = 7 → hostMove (.writeReg .ctrl v) s = .next (raise .cmd .cmd 0 t))

/-- CLEAR (44_inflate_engine.md R243): the listed registers are 0 and `PHASE` is `IDLE`; nothing else changes, `CMD`, `IN_LEN`, the geometry
registers, `BPP` and the memories among it. While busy it is ignored. -/
def Obligations.ClearReturnsToIdle : Prop :=
  ∀ (v : Word) (s : State), v.getLsbD 1 = true →
    (s.busy = false → hostMove (.writeReg .ctrl v) s = .next { s with
      done := false, err := false, phase := .idle, errCode := none, errStage := .none, errPos := 0
      bp := 0, bb := 0, winLo := 0, winEnd := 0, infLen := 0, pixLen := 0, cmf := 0, flg := 0, adler := 0
      bfinal := false, btype := 0 }) ∧
    (s.busy = true → hostMove (.writeReg .ctrl v) s = .next s)

/-- Writes that are ignored (10_state.md R15): of any register while busy, and of a read-only register at any time. -/
def Obligations.HostWritesIgnored : Prop :=
  ∀ (r : HostReg) (v : Word) (s : State),
    s.busy = true ∨ r ∈ [HostReg.status, .err, .errPos, .curBp, .curBb, .pixLen, .bpp, .zhdr, .zadler] →
    hostMove (.writeReg r v) s = .next s

/-- The read/write registers read back what was written, reserved bits as 0 (10_state.md R15, R16, R22, R23), and no write of one of them
changes another register. -/
def Obligations.RegistersReadBack : Prop :=
  ∀ (v : Word) (s : State), s.busy = false →
    (∀ r m, (r, m) ∈ [(HostReg.cmd, (7 : Word)), (.inLen, 0xFFFFFFFF), (.infLen, 0xFFFFFFFF), (.width, 0xFFFFFFFF),
        (.height, 0xFFFFFFFF), (.fmt, 0xFFFF)] →
      (hostRead r (hostWrite r v s)).rdata = v &&& m ∧
      ∀ r', r' ≠ r → (hostRead r' (hostWrite r v s)).rdata = (hostRead r' s).rdata)

/-- Reading the host registers (10_state.md R15 to R25). `STATUS`, busy or not: bits [2:0] are `BUSY`, `DONE`, `ERR`, the reserved bits 0; while not
busy bits [11:8] are `PHASE`, with the numbers of R34. Such a read changes nothing but what the host last read and the model's counter of free
values (log entry 9). While not busy each other register reads as its rule says: `ERR` is the code of 60_exceptions.md R300 in bits [7:0] and the
stage of R301 in bits [15:8], both 0 where there is no error; the cursor, the lengths, the geometry, `BPP`, `ZHDR` and `ZADLER` read as they
stand (a register that the model holds as a natural number by its low 32 bits, log entry 18). -/
def Obligations.StatusReads : Prop :=
  (∀ s t : State, hostMove (.readReg .status) s = .next t →
    (t.rdata.getLsbD 0 = s.busy ∧ t.rdata.getLsbD 1 = s.done ∧ t.rdata.getLsbD 2 = s.err) ∧
    (t.rdata.extractLsb' 3 5 = 0 ∧ t.rdata.extractLsb' 12 20 = 0) ∧
    (s.busy = false → ∀ p n, (p, n) ∈ [(Phase.idle, (0 : BitVec 4)), (.envelope, 1), (.blockHeader, 2), (.stored, 3), (.dynHeader, 4),
        (.dynLengths, 5), (.dynBuild, 6), (.symbol, 7), (.blockEnd, 8), (.unfCfg, 9), (.unfRow, 10), (.done, 11), (.error, 12)] →
      s.phase = p → t.rdata.extractLsb' 8 4 = n) ∧
    t = { s with rdata := t.rdata, freeCtr := t.freeCtr }) ∧
  (∀ s : State, s.busy = false →
    (∀ e c, (e, c) ∈ [(none, (0 : BitVec 8)), (some ErrCode.bounds, 1), (some .btype, 2), (some .emptyTable, 3), (some .noLeaf, 4),
        (some .symbol, 5), (some .codeLen, 6), (some .dist, 7), (some .filter, 8), (some .color, 9), (some .overflow, 10),
        (some .geom, 11), (some .cmd, 12)] →
      ∀ st n, (st, n) ∈ [(Stage.none, (0 : BitVec 8)), (.cmd, 1), (.envelope, 2), (.blockHeader, 3), (.stored, 4), (.dynHeader, 5),
        (.dynLengths, 6), (.tableBuild, 7), (.symbol, 8), (.matching, 9), (.unfCfg, 10), (.unfRow, 11)] →
      s.errCode = e → s.errStage = st →
        hostMove (.readReg .err) s = .next { s with rdata := (0 : BitVec 16) ++ n ++ c }) ∧
    (∀ r v, (r, v) ∈ [(HostReg.errPos, BitVec.ofNat 32 s.errPos), (.curBp, BitVec.ofNat 32 s.bp), (.curBb, (0 : BitVec 29) ++ s.bb),
        (.inLen, BitVec.ofNat 32 s.inLen), (.infLen, BitVec.ofNat 32 s.infLen), (.pixLen, BitVec.ofNat 32 s.pixLen),
        (.bpp, BitVec.ofNat 32 s.bpp), (.zhdr, (0 : BitVec 16) ++ s.flg ++ s.cmf), (.zadler, s.adler), (.cmd, (0 : BitVec 29) ++ s.op),
        (.width, s.width), (.height, s.height), (.fmt, (0 : BitVec 16) ++ s.colorType ++ s.bitDepth)] →
      hostMove (.readReg r) s = .next { s with rdata := v }))

/-- The host's accesses to the memories while not busy (20_memory.md R50, R52): a byte written reads back, every other byte of every space
stays, and a read inside the valid part gives the byte. That the host may write `PIX` and read `IN` is the model's choice (log entry 20), as are the
addresses, which run from 0 to the capacity of each space (log entry 11). -/
def Obligations.HostMemoryReadBack : Prop :=
  ∀ (sp : Space) (a : Nat) (v : Byte) (s : State), s.busy = false → a < s.cap sp →
    ∃ t, hostMove (.writeMem sp a v) s = .next t ∧ t = { s with inMem := t.inMem, infMem := t.infMem, pixMem := t.pixMem } ∧
      t.byte sp a = v ∧ (∀ q b, q ≠ sp ∨ b ≠ a → t.byte q b = s.byte q b) ∧
      (a < s.len sp → hostMove (.readMem sp a) t = .next { t with rdata := v.setWidth 32 })

/-- Reset (10_state.md R36, 70_reset_and_hazards.md R340, R342): after power-on and after `rst` in any state every host register reads 0, cursor and
window are 0, the dynamic tables are empty, `irq` is low, and the core does nothing. -/
def Obligations.ResetValues : Prop :=
  ∀ s t : State, t = State.reset ∨ hostMove .rst s = .next t →
    (∀ r, (hostRead r t).rdata = 0) ∧
    (t.bp = 0 ∧ t.bb = 0 ∧ t.winLo = 0 ∧ t.winEnd = 0 ∧ t.bfinal = false ∧ t.btype = 0 ∧ t.phase = .idle) ∧
    (t.clT = [] ∧ t.dynLL = [] ∧ t.dynD = []) ∧ irq t = false ∧ coreStep t = .next t

/-! ## Whole-machine rules -/

/-- The core never writes `IN` and none of what the host sets before a run (10_state.md R22, R33; 20_memory.md R55): `CMD`, `IN_LEN`, geometry,
capacities. -/
def Obligations.CoreLeavesHostInputs : Prop :=
  ∀ s t : State, s.host = [] → step s = .next t →
    (t.inMem = s.inMem ∧ t.inGen = s.inGen ∧ t.inLen = s.inLen ∧ t.op = s.op) ∧
    (t.width = s.width ∧ t.height = s.height ∧ t.bitDepth = s.bitDepth ∧ t.colorType = s.colorType) ∧
    (t.inCap = s.inCap ∧ t.infCap = s.infCap ∧ t.pixCap = s.pixCap) ∧ t.host = [] ∧ t.rdata = s.rdata ∧ t.freeCtr = s.freeCtr

/-- `INF` and `PIX` are append-only (20_memory.md R47, 10_state.md R33): a step of the core that raises nothing lowers neither length and changes no byte
below them. -/
def Obligations.OutputIsAppendOnly : Prop :=
  ∀ s t : State, s.host = [] → s.err = false → step s = .next t → t.err = false →
    s.infLen ≤ t.infLen ∧ s.pixLen ≤ t.pixLen ∧
    (∀ a, a < s.infLen → t.infByte a = s.infByte a) ∧ (∀ a, a < s.pixLen → t.pixByte a = s.pixByte a)

/-- The cursor only moves forward (10_state.md R13, 40_bitreader.md R105), outside the envelope phase, which sets it; and while a block's bits are
decoded each step consumes a bit or ends the run (70_reset_and_hazards.md R356). -/
def Obligations.CursorMovesForward : Prop :=
  ∀ s t : State, s.host = [] → s.phase ≠ .envelope → step s = .next t →
    s.pos ≤ t.pos ∧ t.winLo = s.winLo ∧ t.winEnd = s.winEnd ∧
    (s.busy = true → s.phase ∈ [Phase.blockHeader, .stored, .dynHeader, .dynLengths, .symbol] → s.pos < t.pos ∨ t.phase = .error)

/-- No step of the core stops with a fault or a refusal (30_encoding.md R89, 42_block_decoder.md R140: no other symbol can be decoded). -/
def Obligations.CoreStepAnswers : Prop :=
  ∀ s : State, TablesOk s → s.host = [] → ∃ t, step s = .next t

/-- Every run ends (00_scope.md R7, 70_reset_and_hazards.md R356): from every state with well-formed tables and one of the `STATUS` combinations of
10_state.md R18, the core left to itself is no longer busy after finitely many steps. -/
def Obligations.EveryRunEnds : Prop :=
  ∀ s : State, TablesOk s → StatusOk s → s.host = [] → ∃ n t, Host.Core.run core n s = .next t ∧ t.busy = false

/-! ## Invariants -/

/-- The invariants hold at reset, where the registers without a reset value of the spec are those of log entry 3. -/
def Obligations.ResetMeetsInvariants : Prop :=
  MemoriesOk State.reset ∧ StatusOk State.reset ∧ CursorOk State.reset ∧ LengthsOk State.reset ∧ CountOk State.reset ∧
  TablesOk State.reset ∧ RowOk State.reset ∧ WidthsOk State.reset

/-- Every step keeps the three memories in canonical form. -/
def Obligations.StepKeepsMemories : Prop :=
  ∀ s t : State, MemoriesOk s → step s = .next t → MemoriesOk t

/-- Every step keeps `STATUS` to the combinations of 10_state.md R18, with `ERR`, `ERR_POS` zero where there is no error (R19, R20). -/
def Obligations.StepKeepsStatus : Prop :=
  ∀ s t : State, StatusOk s → step s = .next t → StatusOk t

/-- Every step keeps the cursor in its window and in normal form, and the window in the valid bytes of `IN` (10_state.md R12,
40_bitreader.md R100). -/
def Obligations.StepKeepsCursor : Prop :=
  ∀ s t : State, CursorOk s → step s = .next t → CursorOk t

/-- Every step keeps the output within the capacities (43_symbols_lz77.md R160, 45_unfilter.md R282). -/
def Obligations.StepKeepsLengths : Prop :=
  ∀ s t : State, LengthsOk s → step s = .next t → LengthsOk t

/-- Every step keeps `NLENS` below `TOTAL` while lengths are decoded, and equal to it at the table build (42_block_decoder.md R140). -/
def Obligations.StepKeepsCount : Prop :=
  ∀ s t : State, CountOk s → step s = .next t → CountOk t

/-- Every step keeps the dynamic tables prefix codes over their alphabets (10_state.md R30, 41_huffman.md R113). -/
def Obligations.StepKeepsTables : Prop :=
  ∀ s t : State, TablesOk s → step s = .next t → TablesOk t

/-- Every step keeps the unfilter's place: `PIX` holds exactly the rows before `ROW`, and `INF` held what was read (45_unfilter.md R270, R275). -/
def Obligations.StepKeepsRow : Prop :=
  ∀ s t : State, RowOk s → step s = .next t → RowOk t

/-- Every step keeps each register within the width that 10_state.md R11, R13, R15 give it: the rules produce nothing wider (R260, R261). -/
def Obligations.StepKeepsWidths : Prop :=
  ∀ s t : State, CursorOk s → LengthsOk s → CountOk s → TablesOk s → RowOk s → WidthsOk s → step s = .next t → WidthsOk t

end
end

