-- ==== Sys2Proof/Laws/State.lean ====
section
/-! SUPPORT. Beside the state: for each named update, one lemma for each field, saying what the update leaves in it. -/

namespace Sys2Proof.Machine

/-! ## `State.setPos` -/

@[simp] theorem State.setPos_op (p : Nat) (s : State) : (s.setPos p).op = s.op := rfl
@[simp] theorem State.setPos_busy (p : Nat) (s : State) : (s.setPos p).busy = s.busy := rfl
@[simp] theorem State.setPos_done (p : Nat) (s : State) : (s.setPos p).done = s.done := rfl
@[simp] theorem State.setPos_err (p : Nat) (s : State) : (s.setPos p).err = s.err := rfl
@[simp] theorem State.setPos_phase (p : Nat) (s : State) : (s.setPos p).phase = s.phase := rfl
@[simp] theorem State.setPos_errCode (p : Nat) (s : State) : (s.setPos p).errCode = s.errCode := rfl
@[simp] theorem State.setPos_errStage (p : Nat) (s : State) : (s.setPos p).errStage = s.errStage := rfl
@[simp] theorem State.setPos_errPos (p : Nat) (s : State) : (s.setPos p).errPos = s.errPos := rfl
@[simp] theorem State.setPos_bp (p : Nat) (s : State) : (s.setPos p).bp = p / 8 := rfl
@[simp] theorem State.setPos_bb (p : Nat) (s : State) : (s.setPos p).bb = BitVec.ofNat 3 p := rfl
@[simp] theorem State.setPos_winLo (p : Nat) (s : State) : (s.setPos p).winLo = s.winLo := rfl
@[simp] theorem State.setPos_winEnd (p : Nat) (s : State) : (s.setPos p).winEnd = s.winEnd := rfl
@[simp] theorem State.setPos_inLen (p : Nat) (s : State) : (s.setPos p).inLen = s.inLen := rfl
@[simp] theorem State.setPos_infLen (p : Nat) (s : State) : (s.setPos p).infLen = s.infLen := rfl
@[simp] theorem State.setPos_pixLen (p : Nat) (s : State) : (s.setPos p).pixLen = s.pixLen := rfl
@[simp] theorem State.setPos_width (p : Nat) (s : State) : (s.setPos p).width = s.width := rfl
@[simp] theorem State.setPos_height (p : Nat) (s : State) : (s.setPos p).height = s.height := rfl
@[simp] theorem State.setPos_bitDepth (p : Nat) (s : State) : (s.setPos p).bitDepth = s.bitDepth := rfl
@[simp] theorem State.setPos_colorType (p : Nat) (s : State) : (s.setPos p).colorType = s.colorType := rfl
@[simp] theorem State.setPos_bpp (p : Nat) (s : State) : (s.setPos p).bpp = s.bpp := rfl
@[simp] theorem State.setPos_cmf (p : Nat) (s : State) : (s.setPos p).cmf = s.cmf := rfl
@[simp] theorem State.setPos_flg (p : Nat) (s : State) : (s.setPos p).flg = s.flg := rfl
@[simp] theorem State.setPos_adler (p : Nat) (s : State) : (s.setPos p).adler = s.adler := rfl
@[simp] theorem State.setPos_bfinal (p : Nat) (s : State) : (s.setPos p).bfinal = s.bfinal := rfl
@[simp] theorem State.setPos_btype (p : Nat) (s : State) : (s.setPos p).btype = s.btype := rfl
@[simp] theorem State.setPos_stlen (p : Nat) (s : State) : (s.setPos p).stlen = s.stlen := rfl
@[simp] theorem State.setPos_stnlen (p : Nat) (s : State) : (s.setPos p).stnlen = s.stnlen := rfl
@[simp] theorem State.setPos_hlit (p : Nat) (s : State) : (s.setPos p).hlit = s.hlit := rfl
@[simp] theorem State.setPos_hdist (p : Nat) (s : State) : (s.setPos p).hdist = s.hdist := rfl
@[simp] theorem State.setPos_hclen (p : Nat) (s : State) : (s.setPos p).hclen = s.hclen := rfl
@[simp] theorem State.setPos_cllen (p : Nat) (s : State) : (s.setPos p).cllen = s.cllen := rfl
@[simp] theorem State.setPos_lens (p : Nat) (s : State) : (s.setPos p).lens = s.lens := rfl
@[simp] theorem State.setPos_nlens (p : Nat) (s : State) : (s.setPos p).nlens = s.nlens := rfl
@[simp] theorem State.setPos_sym (p : Nat) (s : State) : (s.setPos p).sym = s.sym := rfl
@[simp] theorem State.setPos_mlen (p : Nat) (s : State) : (s.setPos p).mlen = s.mlen := rfl
@[simp] theorem State.setPos_dsym (p : Nat) (s : State) : (s.setPos p).dsym = s.dsym := rfl
@[simp] theorem State.setPos_mdist (p : Nat) (s : State) : (s.setPos p).mdist = s.mdist := rfl
@[simp] theorem State.setPos_cols (p : Nat) (s : State) : (s.setPos p).cols = s.cols := rfl
@[simp] theorem State.setPos_row (p : Nat) (s : State) : (s.setPos p).row = s.row := rfl
@[simp] theorem State.setPos_ft (p : Nat) (s : State) : (s.setPos p).ft = s.ft := rfl
@[simp] theorem State.setPos_llSel (p : Nat) (s : State) : (s.setPos p).llSel = s.llSel := rfl
@[simp] theorem State.setPos_dSel (p : Nat) (s : State) : (s.setPos p).dSel = s.dSel := rfl
@[simp] theorem State.setPos_clT (p : Nat) (s : State) : (s.setPos p).clT = s.clT := rfl
@[simp] theorem State.setPos_dynLL (p : Nat) (s : State) : (s.setPos p).dynLL = s.dynLL := rfl
@[simp] theorem State.setPos_dynD (p : Nat) (s : State) : (s.setPos p).dynD = s.dynD := rfl
@[simp] theorem State.setPos_inMem (p : Nat) (s : State) : (s.setPos p).inMem = s.inMem := rfl
@[simp] theorem State.setPos_infMem (p : Nat) (s : State) : (s.setPos p).infMem = s.infMem := rfl
@[simp] theorem State.setPos_pixMem (p : Nat) (s : State) : (s.setPos p).pixMem = s.pixMem := rfl
@[simp] theorem State.setPos_inCap (p : Nat) (s : State) : (s.setPos p).inCap = s.inCap := rfl
@[simp] theorem State.setPos_infCap (p : Nat) (s : State) : (s.setPos p).infCap = s.infCap := rfl
@[simp] theorem State.setPos_pixCap (p : Nat) (s : State) : (s.setPos p).pixCap = s.pixCap := rfl
@[simp] theorem State.setPos_hdrSeen (p : Nat) (s : State) : (s.setPos p).hdrSeen = s.hdrSeen := rfl
@[simp] theorem State.setPos_distNext (p : Nat) (s : State) : (s.setPos p).distNext = s.distNext := rfl
@[simp] theorem State.setPos_inGen (p : Nat) (s : State) : (s.setPos p).inGen = s.inGen := rfl
@[simp] theorem State.setPos_infGen (p : Nat) (s : State) : (s.setPos p).infGen = s.infGen := rfl
@[simp] theorem State.setPos_pixGen (p : Nat) (s : State) : (s.setPos p).pixGen = s.pixGen := rfl
@[simp] theorem State.setPos_freeCtr (p : Nat) (s : State) : (s.setPos p).freeCtr = s.freeCtr := rfl
@[simp] theorem State.setPos_host (p : Nat) (s : State) : (s.setPos p).host = s.host := rfl
@[simp] theorem State.setPos_rdata (p : Nat) (s : State) : (s.setPos p).rdata = s.rdata := rfl

/-! ## `raise` -/

@[simp] theorem raise_op (e : ErrCode) (st : Stage) (k : Nat) (s : State) : (raise e st k s).op = s.op := rfl
@[simp] theorem raise_busy (e : ErrCode) (st : Stage) (k : Nat) (s : State) : (raise e st k s).busy = false := rfl
@[simp] theorem raise_done (e : ErrCode) (st : Stage) (k : Nat) (s : State) : (raise e st k s).done = false := rfl
@[simp] theorem raise_err (e : ErrCode) (st : Stage) (k : Nat) (s : State) : (raise e st k s).err = true := rfl
@[simp] theorem raise_phase (e : ErrCode) (st : Stage) (k : Nat) (s : State) : (raise e st k s).phase = .error := rfl
@[simp] theorem raise_errCode (e : ErrCode) (st : Stage) (k : Nat) (s : State) : (raise e st k s).errCode = some e := rfl
@[simp] theorem raise_errStage (e : ErrCode) (st : Stage) (k : Nat) (s : State) : (raise e st k s).errStage = st := rfl
@[simp] theorem raise_errPos (e : ErrCode) (st : Stage) (k : Nat) (s : State) : (raise e st k s).errPos = k := rfl
@[simp] theorem raise_bp (e : ErrCode) (st : Stage) (k : Nat) (s : State) : (raise e st k s).bp = s.bp := rfl
@[simp] theorem raise_bb (e : ErrCode) (st : Stage) (k : Nat) (s : State) : (raise e st k s).bb = s.bb := rfl
@[simp] theorem raise_winLo (e : ErrCode) (st : Stage) (k : Nat) (s : State) : (raise e st k s).winLo = s.winLo := rfl
@[simp] theorem raise_winEnd (e : ErrCode) (st : Stage) (k : Nat) (s : State) : (raise e st k s).winEnd = s.winEnd := rfl
@[simp] theorem raise_inLen (e : ErrCode) (st : Stage) (k : Nat) (s : State) : (raise e st k s).inLen = s.inLen := rfl
@[simp] theorem raise_infLen (e : ErrCode) (st : Stage) (k : Nat) (s : State) : (raise e st k s).infLen = 0 := rfl
@[simp] theorem raise_pixLen (e : ErrCode) (st : Stage) (k : Nat) (s : State) : (raise e st k s).pixLen = 0 := rfl
@[simp] theorem raise_width (e : ErrCode) (st : Stage) (k : Nat) (s : State) : (raise e st k s).width = s.width := rfl
@[simp] theorem raise_height (e : ErrCode) (st : Stage) (k : Nat) (s : State) : (raise e st k s).height = s.height := rfl
@[simp] theorem raise_bitDepth (e : ErrCode) (st : Stage) (k : Nat) (s : State) : (raise e st k s).bitDepth = s.bitDepth := rfl
@[simp] theorem raise_colorType (e : ErrCode) (st : Stage) (k : Nat) (s : State) : (raise e st k s).colorType = s.colorType := rfl
@[simp] theorem raise_bpp (e : ErrCode) (st : Stage) (k : Nat) (s : State) : (raise e st k s).bpp = s.bpp := rfl
@[simp] theorem raise_cmf (e : ErrCode) (st : Stage) (k : Nat) (s : State) : (raise e st k s).cmf = s.cmf := rfl
@[simp] theorem raise_flg (e : ErrCode) (st : Stage) (k : Nat) (s : State) : (raise e st k s).flg = s.flg := rfl
@[simp] theorem raise_adler (e : ErrCode) (st : Stage) (k : Nat) (s : State) : (raise e st k s).adler = s.adler := rfl
@[simp] theorem raise_bfinal (e : ErrCode) (st : Stage) (k : Nat) (s : State) : (raise e st k s).bfinal = s.bfinal := rfl
@[simp] theorem raise_btype (e : ErrCode) (st : Stage) (k : Nat) (s : State) : (raise e st k s).btype = s.btype := rfl
@[simp] theorem raise_stlen (e : ErrCode) (st : Stage) (k : Nat) (s : State) : (raise e st k s).stlen = s.stlen := rfl
@[simp] theorem raise_stnlen (e : ErrCode) (st : Stage) (k : Nat) (s : State) : (raise e st k s).stnlen = s.stnlen := rfl
@[simp] theorem raise_hlit (e : ErrCode) (st : Stage) (k : Nat) (s : State) : (raise e st k s).hlit = s.hlit := rfl
@[simp] theorem raise_hdist (e : ErrCode) (st : Stage) (k : Nat) (s : State) : (raise e st k s).hdist = s.hdist := rfl
@[simp] theorem raise_hclen (e : ErrCode) (st : Stage) (k : Nat) (s : State) : (raise e st k s).hclen = s.hclen := rfl
@[simp] theorem raise_cllen (e : ErrCode) (st : Stage) (k : Nat) (s : State) : (raise e st k s).cllen = s.cllen := rfl
@[simp] theorem raise_lens (e : ErrCode) (st : Stage) (k : Nat) (s : State) : (raise e st k s).lens = s.lens := rfl
@[simp] theorem raise_nlens (e : ErrCode) (st : Stage) (k : Nat) (s : State) : (raise e st k s).nlens = s.nlens := rfl
@[simp] theorem raise_sym (e : ErrCode) (st : Stage) (k : Nat) (s : State) : (raise e st k s).sym = s.sym := rfl
@[simp] theorem raise_mlen (e : ErrCode) (st : Stage) (k : Nat) (s : State) : (raise e st k s).mlen = s.mlen := rfl
@[simp] theorem raise_dsym (e : ErrCode) (st : Stage) (k : Nat) (s : State) : (raise e st k s).dsym = s.dsym := rfl
@[simp] theorem raise_mdist (e : ErrCode) (st : Stage) (k : Nat) (s : State) : (raise e st k s).mdist = s.mdist := rfl
@[simp] theorem raise_cols (e : ErrCode) (st : Stage) (k : Nat) (s : State) : (raise e st k s).cols = s.cols := rfl
@[simp] theorem raise_row (e : ErrCode) (st : Stage) (k : Nat) (s : State) : (raise e st k s).row = s.row := rfl
@[simp] theorem raise_ft (e : ErrCode) (st : Stage) (k : Nat) (s : State) : (raise e st k s).ft = s.ft := rfl
@[simp] theorem raise_llSel (e : ErrCode) (st : Stage) (k : Nat) (s : State) : (raise e st k s).llSel = s.llSel := rfl
@[simp] theorem raise_dSel (e : ErrCode) (st : Stage) (k : Nat) (s : State) : (raise e st k s).dSel = s.dSel := rfl
@[simp] theorem raise_clT (e : ErrCode) (st : Stage) (k : Nat) (s : State) : (raise e st k s).clT = s.clT := rfl
@[simp] theorem raise_dynLL (e : ErrCode) (st : Stage) (k : Nat) (s : State) : (raise e st k s).dynLL = s.dynLL := rfl
@[simp] theorem raise_dynD (e : ErrCode) (st : Stage) (k : Nat) (s : State) : (raise e st k s).dynD = s.dynD := rfl
@[simp] theorem raise_inMem (e : ErrCode) (st : Stage) (k : Nat) (s : State) : (raise e st k s).inMem = s.inMem := rfl
@[simp] theorem raise_infMem (e : ErrCode) (st : Stage) (k : Nat) (s : State) : (raise e st k s).infMem = [] := rfl
@[simp] theorem raise_pixMem (e : ErrCode) (st : Stage) (k : Nat) (s : State) : (raise e st k s).pixMem = [] := rfl
@[simp] theorem raise_inCap (e : ErrCode) (st : Stage) (k : Nat) (s : State) : (raise e st k s).inCap = s.inCap := rfl
@[simp] theorem raise_infCap (e : ErrCode) (st : Stage) (k : Nat) (s : State) : (raise e st k s).infCap = s.infCap := rfl
@[simp] theorem raise_pixCap (e : ErrCode) (st : Stage) (k : Nat) (s : State) : (raise e st k s).pixCap = s.pixCap := rfl
@[simp] theorem raise_hdrSeen (e : ErrCode) (st : Stage) (k : Nat) (s : State) : (raise e st k s).hdrSeen = s.hdrSeen := rfl
@[simp] theorem raise_distNext (e : ErrCode) (st : Stage) (k : Nat) (s : State) : (raise e st k s).distNext = s.distNext := rfl
@[simp] theorem raise_inGen (e : ErrCode) (st : Stage) (k : Nat) (s : State) : (raise e st k s).inGen = s.inGen := rfl
@[simp] theorem raise_infGen (e : ErrCode) (st : Stage) (k : Nat) (s : State) : (raise e st k s).infGen = s.infGen + 1 := rfl
@[simp] theorem raise_pixGen (e : ErrCode) (st : Stage) (k : Nat) (s : State) : (raise e st k s).pixGen = s.pixGen + 1 := rfl
@[simp] theorem raise_freeCtr (e : ErrCode) (st : Stage) (k : Nat) (s : State) : (raise e st k s).freeCtr = s.freeCtr := rfl
@[simp] theorem raise_host (e : ErrCode) (st : Stage) (k : Nat) (s : State) : (raise e st k s).host = s.host := rfl
@[simp] theorem raise_rdata (e : ErrCode) (st : Stage) (k : Nat) (s : State) : (raise e st k s).rdata = s.rdata := rfl

/-! ## `clear` -/

@[simp] theorem clear_op (s : State) : (clear s).op = s.op := rfl
@[simp] theorem clear_busy (s : State) : (clear s).busy = s.busy := rfl
@[simp] theorem clear_done (s : State) : (clear s).done = false := rfl
@[simp] theorem clear_err (s : State) : (clear s).err = false := rfl
@[simp] theorem clear_phase (s : State) : (clear s).phase = .idle := rfl
@[simp] theorem clear_errCode (s : State) : (clear s).errCode = none := rfl
@[simp] theorem clear_errStage (s : State) : (clear s).errStage = .none := rfl
@[simp] theorem clear_errPos (s : State) : (clear s).errPos = 0 := rfl
@[simp] theorem clear_bp (s : State) : (clear s).bp = 0 := rfl
@[simp] theorem clear_bb (s : State) : (clear s).bb = 0 := rfl
@[simp] theorem clear_winLo (s : State) : (clear s).winLo = 0 := rfl
@[simp] theorem clear_winEnd (s : State) : (clear s).winEnd = 0 := rfl
@[simp] theorem clear_inLen (s : State) : (clear s).inLen = s.inLen := rfl
@[simp] theorem clear_infLen (s : State) : (clear s).infLen = 0 := rfl
@[simp] theorem clear_pixLen (s : State) : (clear s).pixLen = 0 := rfl
@[simp] theorem clear_width (s : State) : (clear s).width = s.width := rfl
@[simp] theorem clear_height (s : State) : (clear s).height = s.height := rfl
@[simp] theorem clear_bitDepth (s : State) : (clear s).bitDepth = s.bitDepth := rfl
@[simp] theorem clear_colorType (s : State) : (clear s).colorType = s.colorType := rfl
@[simp] theorem clear_bpp (s : State) : (clear s).bpp = s.bpp := rfl
@[simp] theorem clear_cmf (s : State) : (clear s).cmf = 0 := rfl
@[simp] theorem clear_flg (s : State) : (clear s).flg = 0 := rfl
@[simp] theorem clear_adler (s : State) : (clear s).adler = 0 := rfl
@[simp] theorem clear_bfinal (s : State) : (clear s).bfinal = false := rfl
@[simp] theorem clear_btype (s : State) : (clear s).btype = 0 := rfl
@[simp] theorem clear_stlen (s : State) : (clear s).stlen = s.stlen := rfl
@[simp] theorem clear_stnlen (s : State) : (clear s).stnlen = s.stnlen := rfl
@[simp] theorem clear_hlit (s : State) : (clear s).hlit = s.hlit := rfl
@[simp] theorem clear_hdist (s : State) : (clear s).hdist = s.hdist := rfl
@[simp] theorem clear_hclen (s : State) : (clear s).hclen = s.hclen := rfl
@[simp] theorem clear_cllen (s : State) : (clear s).cllen = s.cllen := rfl
@[simp] theorem clear_lens (s : State) : (clear s).lens = s.lens := rfl
@[simp] theorem clear_nlens (s : State) : (clear s).nlens = s.nlens := rfl
@[simp] theorem clear_sym (s : State) : (clear s).sym = s.sym := rfl
@[simp] theorem clear_mlen (s : State) : (clear s).mlen = s.mlen := rfl
@[simp] theorem clear_dsym (s : State) : (clear s).dsym = s.dsym := rfl
@[simp] theorem clear_mdist (s : State) : (clear s).mdist = s.mdist := rfl
@[simp] theorem clear_cols (s : State) : (clear s).cols = s.cols := rfl
@[simp] theorem clear_row (s : State) : (clear s).row = s.row := rfl
@[simp] theorem clear_ft (s : State) : (clear s).ft = s.ft := rfl
@[simp] theorem clear_llSel (s : State) : (clear s).llSel = s.llSel := rfl
@[simp] theorem clear_dSel (s : State) : (clear s).dSel = s.dSel := rfl
@[simp] theorem clear_clT (s : State) : (clear s).clT = s.clT := rfl
@[simp] theorem clear_dynLL (s : State) : (clear s).dynLL = s.dynLL := rfl
@[simp] theorem clear_dynD (s : State) : (clear s).dynD = s.dynD := rfl
@[simp] theorem clear_inMem (s : State) : (clear s).inMem = s.inMem := rfl
@[simp] theorem clear_infMem (s : State) : (clear s).infMem = s.infMem := rfl
@[simp] theorem clear_pixMem (s : State) : (clear s).pixMem = s.pixMem := rfl
@[simp] theorem clear_inCap (s : State) : (clear s).inCap = s.inCap := rfl
@[simp] theorem clear_infCap (s : State) : (clear s).infCap = s.infCap := rfl
@[simp] theorem clear_pixCap (s : State) : (clear s).pixCap = s.pixCap := rfl
@[simp] theorem clear_hdrSeen (s : State) : (clear s).hdrSeen = s.hdrSeen := rfl
@[simp] theorem clear_distNext (s : State) : (clear s).distNext = s.distNext := rfl
@[simp] theorem clear_inGen (s : State) : (clear s).inGen = s.inGen := rfl
@[simp] theorem clear_infGen (s : State) : (clear s).infGen = s.infGen := rfl
@[simp] theorem clear_pixGen (s : State) : (clear s).pixGen = s.pixGen := rfl
@[simp] theorem clear_freeCtr (s : State) : (clear s).freeCtr = s.freeCtr := rfl
@[simp] theorem clear_host (s : State) : (clear s).host = s.host := rfl
@[simp] theorem clear_rdata (s : State) : (clear s).rdata = s.rdata := rfl

/-! ## `startClear` -/

@[simp] theorem startClear_op (s : State) : (startClear s).op = s.op := rfl
@[simp] theorem startClear_busy (s : State) : (startClear s).busy = true := rfl
@[simp] theorem startClear_done (s : State) : (startClear s).done = false := rfl
@[simp] theorem startClear_err (s : State) : (startClear s).err = false := rfl
@[simp] theorem startClear_phase (s : State) : (startClear s).phase = s.phase := rfl
@[simp] theorem startClear_errCode (s : State) : (startClear s).errCode = none := rfl
@[simp] theorem startClear_errStage (s : State) : (startClear s).errStage = .none := rfl
@[simp] theorem startClear_errPos (s : State) : (startClear s).errPos = 0 := rfl
@[simp] theorem startClear_bp (s : State) : (startClear s).bp = 0 := rfl
@[simp] theorem startClear_bb (s : State) : (startClear s).bb = 0 := rfl
@[simp] theorem startClear_winLo (s : State) : (startClear s).winLo = 0 := rfl
@[simp] theorem startClear_winEnd (s : State) : (startClear s).winEnd = 0 := rfl
@[simp] theorem startClear_inLen (s : State) : (startClear s).inLen = s.inLen := rfl
@[simp] theorem startClear_infLen (s : State) : (startClear s).infLen = if s.inflates then 0 else s.infLen := rfl
@[simp] theorem startClear_pixLen (s : State) : (startClear s).pixLen = 0 := rfl
@[simp] theorem startClear_width (s : State) : (startClear s).width = s.width := rfl
@[simp] theorem startClear_height (s : State) : (startClear s).height = s.height := rfl
@[simp] theorem startClear_bitDepth (s : State) : (startClear s).bitDepth = s.bitDepth := rfl
@[simp] theorem startClear_colorType (s : State) : (startClear s).colorType = s.colorType := rfl
@[simp] theorem startClear_bpp (s : State) : (startClear s).bpp = s.bpp := rfl
@[simp] theorem startClear_cmf (s : State) : (startClear s).cmf = 0 := rfl
@[simp] theorem startClear_flg (s : State) : (startClear s).flg = 0 := rfl
@[simp] theorem startClear_adler (s : State) : (startClear s).adler = 0 := rfl
@[simp] theorem startClear_bfinal (s : State) : (startClear s).bfinal = false := rfl
@[simp] theorem startClear_btype (s : State) : (startClear s).btype = 0 := rfl
@[simp] theorem startClear_stlen (s : State) : (startClear s).stlen = s.stlen := rfl
@[simp] theorem startClear_stnlen (s : State) : (startClear s).stnlen = s.stnlen := rfl
@[simp] theorem startClear_hlit (s : State) : (startClear s).hlit = s.hlit := rfl
@[simp] theorem startClear_hdist (s : State) : (startClear s).hdist = s.hdist := rfl
@[simp] theorem startClear_hclen (s : State) : (startClear s).hclen = s.hclen := rfl
@[simp] theorem startClear_cllen (s : State) : (startClear s).cllen = s.cllen := rfl
@[simp] theorem startClear_lens (s : State) : (startClear s).lens = s.lens := rfl
@[simp] theorem startClear_nlens (s : State) : (startClear s).nlens = s.nlens := rfl
@[simp] theorem startClear_sym (s : State) : (startClear s).sym = s.sym := rfl
@[simp] theorem startClear_mlen (s : State) : (startClear s).mlen = s.mlen := rfl
@[simp] theorem startClear_dsym (s : State) : (startClear s).dsym = s.dsym := rfl
@[simp] theorem startClear_mdist (s : State) : (startClear s).mdist = s.mdist := rfl
@[simp] theorem startClear_cols (s : State) : (startClear s).cols = s.cols := rfl
@[simp] theorem startClear_row (s : State) : (startClear s).row = s.row := rfl
@[simp] theorem startClear_ft (s : State) : (startClear s).ft = s.ft := rfl
@[simp] theorem startClear_llSel (s : State) : (startClear s).llSel = s.llSel := rfl
@[simp] theorem startClear_dSel (s : State) : (startClear s).dSel = s.dSel := rfl
@[simp] theorem startClear_clT (s : State) : (startClear s).clT = s.clT := rfl
@[simp] theorem startClear_dynLL (s : State) : (startClear s).dynLL = s.dynLL := rfl
@[simp] theorem startClear_dynD (s : State) : (startClear s).dynD = s.dynD := rfl
@[simp] theorem startClear_inMem (s : State) : (startClear s).inMem = s.inMem := rfl
@[simp] theorem startClear_infMem (s : State) : (startClear s).infMem = s.infMem := rfl
@[simp] theorem startClear_pixMem (s : State) : (startClear s).pixMem = s.pixMem := rfl
@[simp] theorem startClear_inCap (s : State) : (startClear s).inCap = s.inCap := rfl
@[simp] theorem startClear_infCap (s : State) : (startClear s).infCap = s.infCap := rfl
@[simp] theorem startClear_pixCap (s : State) : (startClear s).pixCap = s.pixCap := rfl
@[simp] theorem startClear_hdrSeen (s : State) : (startClear s).hdrSeen = false := rfl
@[simp] theorem startClear_distNext (s : State) : (startClear s).distNext = false := rfl
@[simp] theorem startClear_inGen (s : State) : (startClear s).inGen = s.inGen := rfl
@[simp] theorem startClear_infGen (s : State) : (startClear s).infGen = s.infGen := rfl
@[simp] theorem startClear_pixGen (s : State) : (startClear s).pixGen = s.pixGen := rfl
@[simp] theorem startClear_freeCtr (s : State) : (startClear s).freeCtr = s.freeCtr := rfl
@[simp] theorem startClear_host (s : State) : (startClear s).host = s.host := rfl
@[simp] theorem startClear_rdata (s : State) : (startClear s).rdata = s.rdata := rfl

/-! ## `enterDone` -/

@[simp] theorem enterDone_op (s : State) : (enterDone s).op = s.op := rfl
@[simp] theorem enterDone_busy (s : State) : (enterDone s).busy = false := rfl
@[simp] theorem enterDone_done (s : State) : (enterDone s).done = true := rfl
@[simp] theorem enterDone_err (s : State) : (enterDone s).err = s.err := rfl
@[simp] theorem enterDone_phase (s : State) : (enterDone s).phase = .done := rfl
@[simp] theorem enterDone_errCode (s : State) : (enterDone s).errCode = s.errCode := rfl
@[simp] theorem enterDone_errStage (s : State) : (enterDone s).errStage = s.errStage := rfl
@[simp] theorem enterDone_errPos (s : State) : (enterDone s).errPos = s.errPos := rfl
@[simp] theorem enterDone_bp (s : State) : (enterDone s).bp = s.bp := rfl
@[simp] theorem enterDone_bb (s : State) : (enterDone s).bb = s.bb := rfl
@[simp] theorem enterDone_winLo (s : State) : (enterDone s).winLo = s.winLo := rfl
@[simp] theorem enterDone_winEnd (s : State) : (enterDone s).winEnd = s.winEnd := rfl
@[simp] theorem enterDone_inLen (s : State) : (enterDone s).inLen = s.inLen := rfl
@[simp] theorem enterDone_infLen (s : State) : (enterDone s).infLen = s.infLen := rfl
@[simp] theorem enterDone_pixLen (s : State) : (enterDone s).pixLen = s.pixLen := rfl
@[simp] theorem enterDone_width (s : State) : (enterDone s).width = s.width := rfl
@[simp] theorem enterDone_height (s : State) : (enterDone s).height = s.height := rfl
@[simp] theorem enterDone_bitDepth (s : State) : (enterDone s).bitDepth = s.bitDepth := rfl
@[simp] theorem enterDone_colorType (s : State) : (enterDone s).colorType = s.colorType := rfl
@[simp] theorem enterDone_bpp (s : State) : (enterDone s).bpp = s.bpp := rfl
@[simp] theorem enterDone_cmf (s : State) : (enterDone s).cmf = s.cmf := rfl
@[simp] theorem enterDone_flg (s : State) : (enterDone s).flg = s.flg := rfl
@[simp] theorem enterDone_adler (s : State) : (enterDone s).adler = s.adler := rfl
@[simp] theorem enterDone_bfinal (s : State) : (enterDone s).bfinal = s.bfinal := rfl
@[simp] theorem enterDone_btype (s : State) : (enterDone s).btype = s.btype := rfl
@[simp] theorem enterDone_stlen (s : State) : (enterDone s).stlen = s.stlen := rfl
@[simp] theorem enterDone_stnlen (s : State) : (enterDone s).stnlen = s.stnlen := rfl
@[simp] theorem enterDone_hlit (s : State) : (enterDone s).hlit = s.hlit := rfl
@[simp] theorem enterDone_hdist (s : State) : (enterDone s).hdist = s.hdist := rfl
@[simp] theorem enterDone_hclen (s : State) : (enterDone s).hclen = s.hclen := rfl
@[simp] theorem enterDone_cllen (s : State) : (enterDone s).cllen = s.cllen := rfl
@[simp] theorem enterDone_lens (s : State) : (enterDone s).lens = s.lens := rfl
@[simp] theorem enterDone_nlens (s : State) : (enterDone s).nlens = s.nlens := rfl
@[simp] theorem enterDone_sym (s : State) : (enterDone s).sym = s.sym := rfl
@[simp] theorem enterDone_mlen (s : State) : (enterDone s).mlen = s.mlen := rfl
@[simp] theorem enterDone_dsym (s : State) : (enterDone s).dsym = s.dsym := rfl
@[simp] theorem enterDone_mdist (s : State) : (enterDone s).mdist = s.mdist := rfl
@[simp] theorem enterDone_cols (s : State) : (enterDone s).cols = s.cols := rfl
@[simp] theorem enterDone_row (s : State) : (enterDone s).row = s.row := rfl
@[simp] theorem enterDone_ft (s : State) : (enterDone s).ft = s.ft := rfl
@[simp] theorem enterDone_llSel (s : State) : (enterDone s).llSel = s.llSel := rfl
@[simp] theorem enterDone_dSel (s : State) : (enterDone s).dSel = s.dSel := rfl
@[simp] theorem enterDone_clT (s : State) : (enterDone s).clT = s.clT := rfl
@[simp] theorem enterDone_dynLL (s : State) : (enterDone s).dynLL = s.dynLL := rfl
@[simp] theorem enterDone_dynD (s : State) : (enterDone s).dynD = s.dynD := rfl
@[simp] theorem enterDone_inMem (s : State) : (enterDone s).inMem = s.inMem := rfl
@[simp] theorem enterDone_infMem (s : State) : (enterDone s).infMem = s.infMem := rfl
@[simp] theorem enterDone_pixMem (s : State) : (enterDone s).pixMem = s.pixMem := rfl
@[simp] theorem enterDone_inCap (s : State) : (enterDone s).inCap = s.inCap := rfl
@[simp] theorem enterDone_infCap (s : State) : (enterDone s).infCap = s.infCap := rfl
@[simp] theorem enterDone_pixCap (s : State) : (enterDone s).pixCap = s.pixCap := rfl
@[simp] theorem enterDone_hdrSeen (s : State) : (enterDone s).hdrSeen = s.hdrSeen := rfl
@[simp] theorem enterDone_distNext (s : State) : (enterDone s).distNext = s.distNext := rfl
@[simp] theorem enterDone_inGen (s : State) : (enterDone s).inGen = s.inGen := rfl
@[simp] theorem enterDone_infGen (s : State) : (enterDone s).infGen = s.infGen := rfl
@[simp] theorem enterDone_pixGen (s : State) : (enterDone s).pixGen = s.pixGen := rfl
@[simp] theorem enterDone_freeCtr (s : State) : (enterDone s).freeCtr = s.freeCtr := rfl
@[simp] theorem enterDone_host (s : State) : (enterDone s).host = s.host := rfl
@[simp] theorem enterDone_rdata (s : State) : (enterDone s).rdata = s.rdata := rfl

/-! ## `appendInf` -/

@[simp] theorem appendInf_op (b : Byte) (s : State) : (appendInf b s).op = s.op := rfl
@[simp] theorem appendInf_busy (b : Byte) (s : State) : (appendInf b s).busy = s.busy := rfl
@[simp] theorem appendInf_done (b : Byte) (s : State) : (appendInf b s).done = s.done := rfl
@[simp] theorem appendInf_err (b : Byte) (s : State) : (appendInf b s).err = s.err := rfl
@[simp] theorem appendInf_phase (b : Byte) (s : State) : (appendInf b s).phase = s.phase := rfl
@[simp] theorem appendInf_errCode (b : Byte) (s : State) : (appendInf b s).errCode = s.errCode := rfl
@[simp] theorem appendInf_errStage (b : Byte) (s : State) : (appendInf b s).errStage = s.errStage := rfl
@[simp] theorem appendInf_errPos (b : Byte) (s : State) : (appendInf b s).errPos = s.errPos := rfl
@[simp] theorem appendInf_bp (b : Byte) (s : State) : (appendInf b s).bp = s.bp := rfl
@[simp] theorem appendInf_bb (b : Byte) (s : State) : (appendInf b s).bb = s.bb := rfl
@[simp] theorem appendInf_winLo (b : Byte) (s : State) : (appendInf b s).winLo = s.winLo := rfl
@[simp] theorem appendInf_winEnd (b : Byte) (s : State) : (appendInf b s).winEnd = s.winEnd := rfl
@[simp] theorem appendInf_inLen (b : Byte) (s : State) : (appendInf b s).inLen = s.inLen := rfl
@[simp] theorem appendInf_infLen (b : Byte) (s : State) : (appendInf b s).infLen = s.infLen + 1 := rfl
@[simp] theorem appendInf_pixLen (b : Byte) (s : State) : (appendInf b s).pixLen = s.pixLen := rfl
@[simp] theorem appendInf_width (b : Byte) (s : State) : (appendInf b s).width = s.width := rfl
@[simp] theorem appendInf_height (b : Byte) (s : State) : (appendInf b s).height = s.height := rfl
@[simp] theorem appendInf_bitDepth (b : Byte) (s : State) : (appendInf b s).bitDepth = s.bitDepth := rfl
@[simp] theorem appendInf_colorType (b : Byte) (s : State) : (appendInf b s).colorType = s.colorType := rfl
@[simp] theorem appendInf_bpp (b : Byte) (s : State) : (appendInf b s).bpp = s.bpp := rfl
@[simp] theorem appendInf_cmf (b : Byte) (s : State) : (appendInf b s).cmf = s.cmf := rfl
@[simp] theorem appendInf_flg (b : Byte) (s : State) : (appendInf b s).flg = s.flg := rfl
@[simp] theorem appendInf_adler (b : Byte) (s : State) : (appendInf b s).adler = s.adler := rfl
@[simp] theorem appendInf_bfinal (b : Byte) (s : State) : (appendInf b s).bfinal = s.bfinal := rfl
@[simp] theorem appendInf_btype (b : Byte) (s : State) : (appendInf b s).btype = s.btype := rfl
@[simp] theorem appendInf_stlen (b : Byte) (s : State) : (appendInf b s).stlen = s.stlen := rfl
@[simp] theorem appendInf_stnlen (b : Byte) (s : State) : (appendInf b s).stnlen = s.stnlen := rfl
@[simp] theorem appendInf_hlit (b : Byte) (s : State) : (appendInf b s).hlit = s.hlit := rfl
@[simp] theorem appendInf_hdist (b : Byte) (s : State) : (appendInf b s).hdist = s.hdist := rfl
@[simp] theorem appendInf_hclen (b : Byte) (s : State) : (appendInf b s).hclen = s.hclen := rfl
@[simp] theorem appendInf_cllen (b : Byte) (s : State) : (appendInf b s).cllen = s.cllen := rfl
@[simp] theorem appendInf_lens (b : Byte) (s : State) : (appendInf b s).lens = s.lens := rfl
@[simp] theorem appendInf_nlens (b : Byte) (s : State) : (appendInf b s).nlens = s.nlens := rfl
@[simp] theorem appendInf_sym (b : Byte) (s : State) : (appendInf b s).sym = s.sym := rfl
@[simp] theorem appendInf_mlen (b : Byte) (s : State) : (appendInf b s).mlen = s.mlen := rfl
@[simp] theorem appendInf_dsym (b : Byte) (s : State) : (appendInf b s).dsym = s.dsym := rfl
@[simp] theorem appendInf_mdist (b : Byte) (s : State) : (appendInf b s).mdist = s.mdist := rfl
@[simp] theorem appendInf_cols (b : Byte) (s : State) : (appendInf b s).cols = s.cols := rfl
@[simp] theorem appendInf_row (b : Byte) (s : State) : (appendInf b s).row = s.row := rfl
@[simp] theorem appendInf_ft (b : Byte) (s : State) : (appendInf b s).ft = s.ft := rfl
@[simp] theorem appendInf_llSel (b : Byte) (s : State) : (appendInf b s).llSel = s.llSel := rfl
@[simp] theorem appendInf_dSel (b : Byte) (s : State) : (appendInf b s).dSel = s.dSel := rfl
@[simp] theorem appendInf_clT (b : Byte) (s : State) : (appendInf b s).clT = s.clT := rfl
@[simp] theorem appendInf_dynLL (b : Byte) (s : State) : (appendInf b s).dynLL = s.dynLL := rfl
@[simp] theorem appendInf_dynD (b : Byte) (s : State) : (appendInf b s).dynD = s.dynD := rfl
@[simp] theorem appendInf_inMem (b : Byte) (s : State) : (appendInf b s).inMem = s.inMem := rfl
@[simp] theorem appendInf_infMem (b : Byte) (s : State) : (appendInf b s).infMem = Memory.write s.infMem s.infLen b := rfl
@[simp] theorem appendInf_pixMem (b : Byte) (s : State) : (appendInf b s).pixMem = s.pixMem := rfl
@[simp] theorem appendInf_inCap (b : Byte) (s : State) : (appendInf b s).inCap = s.inCap := rfl
@[simp] theorem appendInf_infCap (b : Byte) (s : State) : (appendInf b s).infCap = s.infCap := rfl
@[simp] theorem appendInf_pixCap (b : Byte) (s : State) : (appendInf b s).pixCap = s.pixCap := rfl
@[simp] theorem appendInf_hdrSeen (b : Byte) (s : State) : (appendInf b s).hdrSeen = s.hdrSeen := rfl
@[simp] theorem appendInf_distNext (b : Byte) (s : State) : (appendInf b s).distNext = s.distNext := rfl
@[simp] theorem appendInf_inGen (b : Byte) (s : State) : (appendInf b s).inGen = s.inGen := rfl
@[simp] theorem appendInf_infGen (b : Byte) (s : State) : (appendInf b s).infGen = s.infGen := rfl
@[simp] theorem appendInf_pixGen (b : Byte) (s : State) : (appendInf b s).pixGen = s.pixGen := rfl
@[simp] theorem appendInf_freeCtr (b : Byte) (s : State) : (appendInf b s).freeCtr = s.freeCtr := rfl
@[simp] theorem appendInf_host (b : Byte) (s : State) : (appendInf b s).host = s.host := rfl
@[simp] theorem appendInf_rdata (b : Byte) (s : State) : (appendInf b s).rdata = s.rdata := rfl

/-! ## `appendPix` -/

@[simp] theorem appendPix_op (v : Byte) (s : State) : (appendPix v s).op = s.op := rfl
@[simp] theorem appendPix_busy (v : Byte) (s : State) : (appendPix v s).busy = s.busy := rfl
@[simp] theorem appendPix_done (v : Byte) (s : State) : (appendPix v s).done = s.done := rfl
@[simp] theorem appendPix_err (v : Byte) (s : State) : (appendPix v s).err = s.err := rfl
@[simp] theorem appendPix_phase (v : Byte) (s : State) : (appendPix v s).phase = s.phase := rfl
@[simp] theorem appendPix_errCode (v : Byte) (s : State) : (appendPix v s).errCode = s.errCode := rfl
@[simp] theorem appendPix_errStage (v : Byte) (s : State) : (appendPix v s).errStage = s.errStage := rfl
@[simp] theorem appendPix_errPos (v : Byte) (s : State) : (appendPix v s).errPos = s.errPos := rfl
@[simp] theorem appendPix_bp (v : Byte) (s : State) : (appendPix v s).bp = s.bp := rfl
@[simp] theorem appendPix_bb (v : Byte) (s : State) : (appendPix v s).bb = s.bb := rfl
@[simp] theorem appendPix_winLo (v : Byte) (s : State) : (appendPix v s).winLo = s.winLo := rfl
@[simp] theorem appendPix_winEnd (v : Byte) (s : State) : (appendPix v s).winEnd = s.winEnd := rfl
@[simp] theorem appendPix_inLen (v : Byte) (s : State) : (appendPix v s).inLen = s.inLen := rfl
@[simp] theorem appendPix_infLen (v : Byte) (s : State) : (appendPix v s).infLen = s.infLen := rfl
@[simp] theorem appendPix_pixLen (v : Byte) (s : State) : (appendPix v s).pixLen = s.pixLen + 1 := rfl
@[simp] theorem appendPix_width (v : Byte) (s : State) : (appendPix v s).width = s.width := rfl
@[simp] theorem appendPix_height (v : Byte) (s : State) : (appendPix v s).height = s.height := rfl
@[simp] theorem appendPix_bitDepth (v : Byte) (s : State) : (appendPix v s).bitDepth = s.bitDepth := rfl
@[simp] theorem appendPix_colorType (v : Byte) (s : State) : (appendPix v s).colorType = s.colorType := rfl
@[simp] theorem appendPix_bpp (v : Byte) (s : State) : (appendPix v s).bpp = s.bpp := rfl
@[simp] theorem appendPix_cmf (v : Byte) (s : State) : (appendPix v s).cmf = s.cmf := rfl
@[simp] theorem appendPix_flg (v : Byte) (s : State) : (appendPix v s).flg = s.flg := rfl
@[simp] theorem appendPix_adler (v : Byte) (s : State) : (appendPix v s).adler = s.adler := rfl
@[simp] theorem appendPix_bfinal (v : Byte) (s : State) : (appendPix v s).bfinal = s.bfinal := rfl
@[simp] theorem appendPix_btype (v : Byte) (s : State) : (appendPix v s).btype = s.btype := rfl
@[simp] theorem appendPix_stlen (v : Byte) (s : State) : (appendPix v s).stlen = s.stlen := rfl
@[simp] theorem appendPix_stnlen (v : Byte) (s : State) : (appendPix v s).stnlen = s.stnlen := rfl
@[simp] theorem appendPix_hlit (v : Byte) (s : State) : (appendPix v s).hlit = s.hlit := rfl
@[simp] theorem appendPix_hdist (v : Byte) (s : State) : (appendPix v s).hdist = s.hdist := rfl
@[simp] theorem appendPix_hclen (v : Byte) (s : State) : (appendPix v s).hclen = s.hclen := rfl
@[simp] theorem appendPix_cllen (v : Byte) (s : State) : (appendPix v s).cllen = s.cllen := rfl
@[simp] theorem appendPix_lens (v : Byte) (s : State) : (appendPix v s).lens = s.lens := rfl
@[simp] theorem appendPix_nlens (v : Byte) (s : State) : (appendPix v s).nlens = s.nlens := rfl
@[simp] theorem appendPix_sym (v : Byte) (s : State) : (appendPix v s).sym = s.sym := rfl
@[simp] theorem appendPix_mlen (v : Byte) (s : State) : (appendPix v s).mlen = s.mlen := rfl
@[simp] theorem appendPix_dsym (v : Byte) (s : State) : (appendPix v s).dsym = s.dsym := rfl
@[simp] theorem appendPix_mdist (v : Byte) (s : State) : (appendPix v s).mdist = s.mdist := rfl
@[simp] theorem appendPix_cols (v : Byte) (s : State) : (appendPix v s).cols = s.cols := rfl
@[simp] theorem appendPix_row (v : Byte) (s : State) : (appendPix v s).row = s.row := rfl
@[simp] theorem appendPix_ft (v : Byte) (s : State) : (appendPix v s).ft = s.ft := rfl
@[simp] theorem appendPix_llSel (v : Byte) (s : State) : (appendPix v s).llSel = s.llSel := rfl
@[simp] theorem appendPix_dSel (v : Byte) (s : State) : (appendPix v s).dSel = s.dSel := rfl
@[simp] theorem appendPix_clT (v : Byte) (s : State) : (appendPix v s).clT = s.clT := rfl
@[simp] theorem appendPix_dynLL (v : Byte) (s : State) : (appendPix v s).dynLL = s.dynLL := rfl
@[simp] theorem appendPix_dynD (v : Byte) (s : State) : (appendPix v s).dynD = s.dynD := rfl
@[simp] theorem appendPix_inMem (v : Byte) (s : State) : (appendPix v s).inMem = s.inMem := rfl
@[simp] theorem appendPix_infMem (v : Byte) (s : State) : (appendPix v s).infMem = s.infMem := rfl
@[simp] theorem appendPix_pixMem (v : Byte) (s : State) : (appendPix v s).pixMem = Memory.write s.pixMem s.pixLen v := rfl
@[simp] theorem appendPix_inCap (v : Byte) (s : State) : (appendPix v s).inCap = s.inCap := rfl
@[simp] theorem appendPix_infCap (v : Byte) (s : State) : (appendPix v s).infCap = s.infCap := rfl
@[simp] theorem appendPix_pixCap (v : Byte) (s : State) : (appendPix v s).pixCap = s.pixCap := rfl
@[simp] theorem appendPix_hdrSeen (v : Byte) (s : State) : (appendPix v s).hdrSeen = s.hdrSeen := rfl
@[simp] theorem appendPix_distNext (v : Byte) (s : State) : (appendPix v s).distNext = s.distNext := rfl
@[simp] theorem appendPix_inGen (v : Byte) (s : State) : (appendPix v s).inGen = s.inGen := rfl
@[simp] theorem appendPix_infGen (v : Byte) (s : State) : (appendPix v s).infGen = s.infGen := rfl
@[simp] theorem appendPix_pixGen (v : Byte) (s : State) : (appendPix v s).pixGen = s.pixGen := rfl
@[simp] theorem appendPix_freeCtr (v : Byte) (s : State) : (appendPix v s).freeCtr = s.freeCtr := rfl
@[simp] theorem appendPix_host (v : Byte) (s : State) : (appendPix v s).host = s.host := rfl
@[simp] theorem appendPix_rdata (v : Byte) (s : State) : (appendPix v s).rdata = s.rdata := rfl

/-! ## `appendLens` -/

@[simp] theorem appendLens_op (n : Nat) (v : BitVec 4) (s : State) : (appendLens n v s).op = s.op := rfl
@[simp] theorem appendLens_busy (n : Nat) (v : BitVec 4) (s : State) : (appendLens n v s).busy = s.busy := rfl
@[simp] theorem appendLens_done (n : Nat) (v : BitVec 4) (s : State) : (appendLens n v s).done = s.done := rfl
@[simp] theorem appendLens_err (n : Nat) (v : BitVec 4) (s : State) : (appendLens n v s).err = s.err := rfl
@[simp] theorem appendLens_phase (n : Nat) (v : BitVec 4) (s : State) : (appendLens n v s).phase = s.phase := rfl
@[simp] theorem appendLens_errCode (n : Nat) (v : BitVec 4) (s : State) : (appendLens n v s).errCode = s.errCode := rfl
@[simp] theorem appendLens_errStage (n : Nat) (v : BitVec 4) (s : State) : (appendLens n v s).errStage = s.errStage := rfl
@[simp] theorem appendLens_errPos (n : Nat) (v : BitVec 4) (s : State) : (appendLens n v s).errPos = s.errPos := rfl
@[simp] theorem appendLens_bp (n : Nat) (v : BitVec 4) (s : State) : (appendLens n v s).bp = s.bp := rfl
@[simp] theorem appendLens_bb (n : Nat) (v : BitVec 4) (s : State) : (appendLens n v s).bb = s.bb := rfl
@[simp] theorem appendLens_winLo (n : Nat) (v : BitVec 4) (s : State) : (appendLens n v s).winLo = s.winLo := rfl
@[simp] theorem appendLens_winEnd (n : Nat) (v : BitVec 4) (s : State) : (appendLens n v s).winEnd = s.winEnd := rfl
@[simp] theorem appendLens_inLen (n : Nat) (v : BitVec 4) (s : State) : (appendLens n v s).inLen = s.inLen := rfl
@[simp] theorem appendLens_infLen (n : Nat) (v : BitVec 4) (s : State) : (appendLens n v s).infLen = s.infLen := rfl
@[simp] theorem appendLens_pixLen (n : Nat) (v : BitVec 4) (s : State) : (appendLens n v s).pixLen = s.pixLen := rfl
@[simp] theorem appendLens_width (n : Nat) (v : BitVec 4) (s : State) : (appendLens n v s).width = s.width := rfl
@[simp] theorem appendLens_height (n : Nat) (v : BitVec 4) (s : State) : (appendLens n v s).height = s.height := rfl
@[simp] theorem appendLens_bitDepth (n : Nat) (v : BitVec 4) (s : State) : (appendLens n v s).bitDepth = s.bitDepth := rfl
@[simp] theorem appendLens_colorType (n : Nat) (v : BitVec 4) (s : State) : (appendLens n v s).colorType = s.colorType := rfl
@[simp] theorem appendLens_bpp (n : Nat) (v : BitVec 4) (s : State) : (appendLens n v s).bpp = s.bpp := rfl
@[simp] theorem appendLens_cmf (n : Nat) (v : BitVec 4) (s : State) : (appendLens n v s).cmf = s.cmf := rfl
@[simp] theorem appendLens_flg (n : Nat) (v : BitVec 4) (s : State) : (appendLens n v s).flg = s.flg := rfl
@[simp] theorem appendLens_adler (n : Nat) (v : BitVec 4) (s : State) : (appendLens n v s).adler = s.adler := rfl
@[simp] theorem appendLens_bfinal (n : Nat) (v : BitVec 4) (s : State) : (appendLens n v s).bfinal = s.bfinal := rfl
@[simp] theorem appendLens_btype (n : Nat) (v : BitVec 4) (s : State) : (appendLens n v s).btype = s.btype := rfl
@[simp] theorem appendLens_stlen (n : Nat) (v : BitVec 4) (s : State) : (appendLens n v s).stlen = s.stlen := rfl
@[simp] theorem appendLens_stnlen (n : Nat) (v : BitVec 4) (s : State) : (appendLens n v s).stnlen = s.stnlen := rfl
@[simp] theorem appendLens_hlit (n : Nat) (v : BitVec 4) (s : State) : (appendLens n v s).hlit = s.hlit := rfl
@[simp] theorem appendLens_hdist (n : Nat) (v : BitVec 4) (s : State) : (appendLens n v s).hdist = s.hdist := rfl
@[simp] theorem appendLens_hclen (n : Nat) (v : BitVec 4) (s : State) : (appendLens n v s).hclen = s.hclen := rfl
@[simp] theorem appendLens_cllen (n : Nat) (v : BitVec 4) (s : State) : (appendLens n v s).cllen = s.cllen := rfl
@[simp] theorem appendLens_lens (n : Nat) (v : BitVec 4) (s : State) : (appendLens n v s).lens = fillLens v n s.nlens s.lens := rfl
@[simp] theorem appendLens_nlens (n : Nat) (v : BitVec 4) (s : State) : (appendLens n v s).nlens = s.nlens + n := rfl
@[simp] theorem appendLens_sym (n : Nat) (v : BitVec 4) (s : State) : (appendLens n v s).sym = s.sym := rfl
@[simp] theorem appendLens_mlen (n : Nat) (v : BitVec 4) (s : State) : (appendLens n v s).mlen = s.mlen := rfl
@[simp] theorem appendLens_dsym (n : Nat) (v : BitVec 4) (s : State) : (appendLens n v s).dsym = s.dsym := rfl
@[simp] theorem appendLens_mdist (n : Nat) (v : BitVec 4) (s : State) : (appendLens n v s).mdist = s.mdist := rfl
@[simp] theorem appendLens_cols (n : Nat) (v : BitVec 4) (s : State) : (appendLens n v s).cols = s.cols := rfl
@[simp] theorem appendLens_row (n : Nat) (v : BitVec 4) (s : State) : (appendLens n v s).row = s.row := rfl
@[simp] theorem appendLens_ft (n : Nat) (v : BitVec 4) (s : State) : (appendLens n v s).ft = s.ft := rfl
@[simp] theorem appendLens_llSel (n : Nat) (v : BitVec 4) (s : State) : (appendLens n v s).llSel = s.llSel := rfl
@[simp] theorem appendLens_dSel (n : Nat) (v : BitVec 4) (s : State) : (appendLens n v s).dSel = s.dSel := rfl
@[simp] theorem appendLens_clT (n : Nat) (v : BitVec 4) (s : State) : (appendLens n v s).clT = s.clT := rfl
@[simp] theorem appendLens_dynLL (n : Nat) (v : BitVec 4) (s : State) : (appendLens n v s).dynLL = s.dynLL := rfl
@[simp] theorem appendLens_dynD (n : Nat) (v : BitVec 4) (s : State) : (appendLens n v s).dynD = s.dynD := rfl
@[simp] theorem appendLens_inMem (n : Nat) (v : BitVec 4) (s : State) : (appendLens n v s).inMem = s.inMem := rfl
@[simp] theorem appendLens_infMem (n : Nat) (v : BitVec 4) (s : State) : (appendLens n v s).infMem = s.infMem := rfl
@[simp] theorem appendLens_pixMem (n : Nat) (v : BitVec 4) (s : State) : (appendLens n v s).pixMem = s.pixMem := rfl
@[simp] theorem appendLens_inCap (n : Nat) (v : BitVec 4) (s : State) : (appendLens n v s).inCap = s.inCap := rfl
@[simp] theorem appendLens_infCap (n : Nat) (v : BitVec 4) (s : State) : (appendLens n v s).infCap = s.infCap := rfl
@[simp] theorem appendLens_pixCap (n : Nat) (v : BitVec 4) (s : State) : (appendLens n v s).pixCap = s.pixCap := rfl
@[simp] theorem appendLens_hdrSeen (n : Nat) (v : BitVec 4) (s : State) : (appendLens n v s).hdrSeen = s.hdrSeen := rfl
@[simp] theorem appendLens_distNext (n : Nat) (v : BitVec 4) (s : State) : (appendLens n v s).distNext = s.distNext := rfl
@[simp] theorem appendLens_inGen (n : Nat) (v : BitVec 4) (s : State) : (appendLens n v s).inGen = s.inGen := rfl
@[simp] theorem appendLens_infGen (n : Nat) (v : BitVec 4) (s : State) : (appendLens n v s).infGen = s.infGen := rfl
@[simp] theorem appendLens_pixGen (n : Nat) (v : BitVec 4) (s : State) : (appendLens n v s).pixGen = s.pixGen := rfl
@[simp] theorem appendLens_freeCtr (n : Nat) (v : BitVec 4) (s : State) : (appendLens n v s).freeCtr = s.freeCtr := rfl
@[simp] theorem appendLens_host (n : Nat) (v : BitVec 4) (s : State) : (appendLens n v s).host = s.host := rfl
@[simp] theorem appendLens_rdata (n : Nat) (v : BitVec 4) (s : State) : (appendLens n v s).rdata = s.rdata := rfl

/-! ## `latchHeader` -/

@[simp] theorem latchHeader_op (final : Bool) (t : BitVec 2) (s : State) : (latchHeader final t s).op = s.op := rfl
@[simp] theorem latchHeader_busy (final : Bool) (t : BitVec 2) (s : State) : (latchHeader final t s).busy = s.busy := rfl
@[simp] theorem latchHeader_done (final : Bool) (t : BitVec 2) (s : State) : (latchHeader final t s).done = s.done := rfl
@[simp] theorem latchHeader_err (final : Bool) (t : BitVec 2) (s : State) : (latchHeader final t s).err = s.err := rfl
@[simp] theorem latchHeader_phase (final : Bool) (t : BitVec 2) (s : State) : (latchHeader final t s).phase = s.phase := rfl
@[simp] theorem latchHeader_errCode (final : Bool) (t : BitVec 2) (s : State) : (latchHeader final t s).errCode = s.errCode := rfl
@[simp] theorem latchHeader_errStage (final : Bool) (t : BitVec 2) (s : State) : (latchHeader final t s).errStage = s.errStage := rfl
@[simp] theorem latchHeader_errPos (final : Bool) (t : BitVec 2) (s : State) : (latchHeader final t s).errPos = s.errPos := rfl
@[simp] theorem latchHeader_bp (final : Bool) (t : BitVec 2) (s : State) : (latchHeader final t s).bp = s.bp := rfl
@[simp] theorem latchHeader_bb (final : Bool) (t : BitVec 2) (s : State) : (latchHeader final t s).bb = s.bb := rfl
@[simp] theorem latchHeader_winLo (final : Bool) (t : BitVec 2) (s : State) : (latchHeader final t s).winLo = s.winLo := rfl
@[simp] theorem latchHeader_winEnd (final : Bool) (t : BitVec 2) (s : State) : (latchHeader final t s).winEnd = s.winEnd := rfl
@[simp] theorem latchHeader_inLen (final : Bool) (t : BitVec 2) (s : State) : (latchHeader final t s).inLen = s.inLen := rfl
@[simp] theorem latchHeader_infLen (final : Bool) (t : BitVec 2) (s : State) : (latchHeader final t s).infLen = s.infLen := rfl
@[simp] theorem latchHeader_pixLen (final : Bool) (t : BitVec 2) (s : State) : (latchHeader final t s).pixLen = s.pixLen := rfl
@[simp] theorem latchHeader_width (final : Bool) (t : BitVec 2) (s : State) : (latchHeader final t s).width = s.width := rfl
@[simp] theorem latchHeader_height (final : Bool) (t : BitVec 2) (s : State) : (latchHeader final t s).height = s.height := rfl
@[simp] theorem latchHeader_bitDepth (final : Bool) (t : BitVec 2) (s : State) : (latchHeader final t s).bitDepth = s.bitDepth := rfl
@[simp] theorem latchHeader_colorType (final : Bool) (t : BitVec 2) (s : State) : (latchHeader final t s).colorType = s.colorType := rfl
@[simp] theorem latchHeader_bpp (final : Bool) (t : BitVec 2) (s : State) : (latchHeader final t s).bpp = s.bpp := rfl
@[simp] theorem latchHeader_cmf (final : Bool) (t : BitVec 2) (s : State) : (latchHeader final t s).cmf = s.cmf := rfl
@[simp] theorem latchHeader_flg (final : Bool) (t : BitVec 2) (s : State) : (latchHeader final t s).flg = s.flg := rfl
@[simp] theorem latchHeader_adler (final : Bool) (t : BitVec 2) (s : State) : (latchHeader final t s).adler = s.adler := rfl
@[simp] theorem latchHeader_bfinal (final : Bool) (t : BitVec 2) (s : State) : (latchHeader final t s).bfinal = final := rfl
@[simp] theorem latchHeader_btype (final : Bool) (t : BitVec 2) (s : State) : (latchHeader final t s).btype = t := rfl
@[simp] theorem latchHeader_stlen (final : Bool) (t : BitVec 2) (s : State) : (latchHeader final t s).stlen = s.stlen := rfl
@[simp] theorem latchHeader_stnlen (final : Bool) (t : BitVec 2) (s : State) : (latchHeader final t s).stnlen = s.stnlen := rfl
@[simp] theorem latchHeader_hlit (final : Bool) (t : BitVec 2) (s : State) : (latchHeader final t s).hlit = s.hlit := rfl
@[simp] theorem latchHeader_hdist (final : Bool) (t : BitVec 2) (s : State) : (latchHeader final t s).hdist = s.hdist := rfl
@[simp] theorem latchHeader_hclen (final : Bool) (t : BitVec 2) (s : State) : (latchHeader final t s).hclen = s.hclen := rfl
@[simp] theorem latchHeader_cllen (final : Bool) (t : BitVec 2) (s : State) : (latchHeader final t s).cllen = s.cllen := rfl
@[simp] theorem latchHeader_lens (final : Bool) (t : BitVec 2) (s : State) : (latchHeader final t s).lens = s.lens := rfl
@[simp] theorem latchHeader_nlens (final : Bool) (t : BitVec 2) (s : State) : (latchHeader final t s).nlens = s.nlens := rfl
@[simp] theorem latchHeader_sym (final : Bool) (t : BitVec 2) (s : State) : (latchHeader final t s).sym = s.sym := rfl
@[simp] theorem latchHeader_mlen (final : Bool) (t : BitVec 2) (s : State) : (latchHeader final t s).mlen = s.mlen := rfl
@[simp] theorem latchHeader_dsym (final : Bool) (t : BitVec 2) (s : State) : (latchHeader final t s).dsym = s.dsym := rfl
@[simp] theorem latchHeader_mdist (final : Bool) (t : BitVec 2) (s : State) : (latchHeader final t s).mdist = s.mdist := rfl
@[simp] theorem latchHeader_cols (final : Bool) (t : BitVec 2) (s : State) : (latchHeader final t s).cols = s.cols := rfl
@[simp] theorem latchHeader_row (final : Bool) (t : BitVec 2) (s : State) : (latchHeader final t s).row = s.row := rfl
@[simp] theorem latchHeader_ft (final : Bool) (t : BitVec 2) (s : State) : (latchHeader final t s).ft = s.ft := rfl
@[simp] theorem latchHeader_llSel (final : Bool) (t : BitVec 2) (s : State) : (latchHeader final t s).llSel = s.llSel := rfl
@[simp] theorem latchHeader_dSel (final : Bool) (t : BitVec 2) (s : State) : (latchHeader final t s).dSel = s.dSel := rfl
@[simp] theorem latchHeader_clT (final : Bool) (t : BitVec 2) (s : State) : (latchHeader final t s).clT = s.clT := rfl
@[simp] theorem latchHeader_dynLL (final : Bool) (t : BitVec 2) (s : State) : (latchHeader final t s).dynLL = s.dynLL := rfl
@[simp] theorem latchHeader_dynD (final : Bool) (t : BitVec 2) (s : State) : (latchHeader final t s).dynD = s.dynD := rfl
@[simp] theorem latchHeader_inMem (final : Bool) (t : BitVec 2) (s : State) : (latchHeader final t s).inMem = s.inMem := rfl
@[simp] theorem latchHeader_infMem (final : Bool) (t : BitVec 2) (s : State) : (latchHeader final t s).infMem = s.infMem := rfl
@[simp] theorem latchHeader_pixMem (final : Bool) (t : BitVec 2) (s : State) : (latchHeader final t s).pixMem = s.pixMem := rfl
@[simp] theorem latchHeader_inCap (final : Bool) (t : BitVec 2) (s : State) : (latchHeader final t s).inCap = s.inCap := rfl
@[simp] theorem latchHeader_infCap (final : Bool) (t : BitVec 2) (s : State) : (latchHeader final t s).infCap = s.infCap := rfl
@[simp] theorem latchHeader_pixCap (final : Bool) (t : BitVec 2) (s : State) : (latchHeader final t s).pixCap = s.pixCap := rfl
@[simp] theorem latchHeader_hdrSeen (final : Bool) (t : BitVec 2) (s : State) : (latchHeader final t s).hdrSeen = s.hdrSeen := rfl
@[simp] theorem latchHeader_distNext (final : Bool) (t : BitVec 2) (s : State) : (latchHeader final t s).distNext = s.distNext := rfl
@[simp] theorem latchHeader_inGen (final : Bool) (t : BitVec 2) (s : State) : (latchHeader final t s).inGen = s.inGen := rfl
@[simp] theorem latchHeader_infGen (final : Bool) (t : BitVec 2) (s : State) : (latchHeader final t s).infGen = s.infGen := rfl
@[simp] theorem latchHeader_pixGen (final : Bool) (t : BitVec 2) (s : State) : (latchHeader final t s).pixGen = s.pixGen := rfl
@[simp] theorem latchHeader_freeCtr (final : Bool) (t : BitVec 2) (s : State) : (latchHeader final t s).freeCtr = s.freeCtr := rfl
@[simp] theorem latchHeader_host (final : Bool) (t : BitVec 2) (s : State) : (latchHeader final t s).host = s.host := rfl
@[simp] theorem latchHeader_rdata (final : Bool) (t : BitVec 2) (s : State) : (latchHeader final t s).rdata = s.rdata := rfl

/-! ## `latchDyn` -/

@[simp] theorem latchDyn_op (hlit hdist : BitVec 5) (hclen : BitVec 4) (cls : List (BitVec 3)) (s : State) : (latchDyn hlit hdist hclen cls s).op = s.op := rfl
@[simp] theorem latchDyn_busy (hlit hdist : BitVec 5) (hclen : BitVec 4) (cls : List (BitVec 3)) (s : State) : (latchDyn hlit hdist hclen cls s).busy = s.busy := rfl
@[simp] theorem latchDyn_done (hlit hdist : BitVec 5) (hclen : BitVec 4) (cls : List (BitVec 3)) (s : State) : (latchDyn hlit hdist hclen cls s).done = s.done := rfl
@[simp] theorem latchDyn_err (hlit hdist : BitVec 5) (hclen : BitVec 4) (cls : List (BitVec 3)) (s : State) : (latchDyn hlit hdist hclen cls s).err = s.err := rfl
@[simp] theorem latchDyn_phase (hlit hdist : BitVec 5) (hclen : BitVec 4) (cls : List (BitVec 3)) (s : State) : (latchDyn hlit hdist hclen cls s).phase = s.phase := rfl
@[simp] theorem latchDyn_errCode (hlit hdist : BitVec 5) (hclen : BitVec 4) (cls : List (BitVec 3)) (s : State) : (latchDyn hlit hdist hclen cls s).errCode = s.errCode := rfl
@[simp] theorem latchDyn_errStage (hlit hdist : BitVec 5) (hclen : BitVec 4) (cls : List (BitVec 3)) (s : State) : (latchDyn hlit hdist hclen cls s).errStage = s.errStage := rfl
@[simp] theorem latchDyn_errPos (hlit hdist : BitVec 5) (hclen : BitVec 4) (cls : List (BitVec 3)) (s : State) : (latchDyn hlit hdist hclen cls s).errPos = s.errPos := rfl
@[simp] theorem latchDyn_bp (hlit hdist : BitVec 5) (hclen : BitVec 4) (cls : List (BitVec 3)) (s : State) : (latchDyn hlit hdist hclen cls s).bp = s.bp := rfl
@[simp] theorem latchDyn_bb (hlit hdist : BitVec 5) (hclen : BitVec 4) (cls : List (BitVec 3)) (s : State) : (latchDyn hlit hdist hclen cls s).bb = s.bb := rfl
@[simp] theorem latchDyn_winLo (hlit hdist : BitVec 5) (hclen : BitVec 4) (cls : List (BitVec 3)) (s : State) : (latchDyn hlit hdist hclen cls s).winLo = s.winLo := rfl
@[simp] theorem latchDyn_winEnd (hlit hdist : BitVec 5) (hclen : BitVec 4) (cls : List (BitVec 3)) (s : State) : (latchDyn hlit hdist hclen cls s).winEnd = s.winEnd := rfl
@[simp] theorem latchDyn_inLen (hlit hdist : BitVec 5) (hclen : BitVec 4) (cls : List (BitVec 3)) (s : State) : (latchDyn hlit hdist hclen cls s).inLen = s.inLen := rfl
@[simp] theorem latchDyn_infLen (hlit hdist : BitVec 5) (hclen : BitVec 4) (cls : List (BitVec 3)) (s : State) : (latchDyn hlit hdist hclen cls s).infLen = s.infLen := rfl
@[simp] theorem latchDyn_pixLen (hlit hdist : BitVec 5) (hclen : BitVec 4) (cls : List (BitVec 3)) (s : State) : (latchDyn hlit hdist hclen cls s).pixLen = s.pixLen := rfl
@[simp] theorem latchDyn_width (hlit hdist : BitVec 5) (hclen : BitVec 4) (cls : List (BitVec 3)) (s : State) : (latchDyn hlit hdist hclen cls s).width = s.width := rfl
@[simp] theorem latchDyn_height (hlit hdist : BitVec 5) (hclen : BitVec 4) (cls : List (BitVec 3)) (s : State) : (latchDyn hlit hdist hclen cls s).height = s.height := rfl
@[simp] theorem latchDyn_bitDepth (hlit hdist : BitVec 5) (hclen : BitVec 4) (cls : List (BitVec 3)) (s : State) : (latchDyn hlit hdist hclen cls s).bitDepth = s.bitDepth := rfl
@[simp] theorem latchDyn_colorType (hlit hdist : BitVec 5) (hclen : BitVec 4) (cls : List (BitVec 3)) (s : State) : (latchDyn hlit hdist hclen cls s).colorType = s.colorType := rfl
@[simp] theorem latchDyn_bpp (hlit hdist : BitVec 5) (hclen : BitVec 4) (cls : List (BitVec 3)) (s : State) : (latchDyn hlit hdist hclen cls s).bpp = s.bpp := rfl
@[simp] theorem latchDyn_cmf (hlit hdist : BitVec 5) (hclen : BitVec 4) (cls : List (BitVec 3)) (s : State) : (latchDyn hlit hdist hclen cls s).cmf = s.cmf := rfl
@[simp] theorem latchDyn_flg (hlit hdist : BitVec 5) (hclen : BitVec 4) (cls : List (BitVec 3)) (s : State) : (latchDyn hlit hdist hclen cls s).flg = s.flg := rfl
@[simp] theorem latchDyn_adler (hlit hdist : BitVec 5) (hclen : BitVec 4) (cls : List (BitVec 3)) (s : State) : (latchDyn hlit hdist hclen cls s).adler = s.adler := rfl
@[simp] theorem latchDyn_bfinal (hlit hdist : BitVec 5) (hclen : BitVec 4) (cls : List (BitVec 3)) (s : State) : (latchDyn hlit hdist hclen cls s).bfinal = s.bfinal := rfl
@[simp] theorem latchDyn_btype (hlit hdist : BitVec 5) (hclen : BitVec 4) (cls : List (BitVec 3)) (s : State) : (latchDyn hlit hdist hclen cls s).btype = s.btype := rfl
@[simp] theorem latchDyn_stlen (hlit hdist : BitVec 5) (hclen : BitVec 4) (cls : List (BitVec 3)) (s : State) : (latchDyn hlit hdist hclen cls s).stlen = s.stlen := rfl
@[simp] theorem latchDyn_stnlen (hlit hdist : BitVec 5) (hclen : BitVec 4) (cls : List (BitVec 3)) (s : State) : (latchDyn hlit hdist hclen cls s).stnlen = s.stnlen := rfl
@[simp] theorem latchDyn_hlit (hlit hdist : BitVec 5) (hclen : BitVec 4) (cls : List (BitVec 3)) (s : State) : (latchDyn hlit hdist hclen cls s).hlit = hlit := rfl
@[simp] theorem latchDyn_hdist (hlit hdist : BitVec 5) (hclen : BitVec 4) (cls : List (BitVec 3)) (s : State) : (latchDyn hlit hdist hclen cls s).hdist = hdist := rfl
@[simp] theorem latchDyn_hclen (hlit hdist : BitVec 5) (hclen : BitVec 4) (cls : List (BitVec 3)) (s : State) : (latchDyn hlit hdist hclen cls s).hclen = hclen := rfl
@[simp] theorem latchDyn_cllen (hlit hdist : BitVec 5) (hclen : BitVec 4) (cls : List (BitVec 3)) (s : State) : (latchDyn hlit hdist hclen cls s).cllen = cllenOf cls := rfl
@[simp] theorem latchDyn_lens (hlit hdist : BitVec 5) (hclen : BitVec 4) (cls : List (BitVec 3)) (s : State) : (latchDyn hlit hdist hclen cls s).lens = s.lens := rfl
@[simp] theorem latchDyn_nlens (hlit hdist : BitVec 5) (hclen : BitVec 4) (cls : List (BitVec 3)) (s : State) : (latchDyn hlit hdist hclen cls s).nlens = s.nlens := rfl
@[simp] theorem latchDyn_sym (hlit hdist : BitVec 5) (hclen : BitVec 4) (cls : List (BitVec 3)) (s : State) : (latchDyn hlit hdist hclen cls s).sym = s.sym := rfl
@[simp] theorem latchDyn_mlen (hlit hdist : BitVec 5) (hclen : BitVec 4) (cls : List (BitVec 3)) (s : State) : (latchDyn hlit hdist hclen cls s).mlen = s.mlen := rfl
@[simp] theorem latchDyn_dsym (hlit hdist : BitVec 5) (hclen : BitVec 4) (cls : List (BitVec 3)) (s : State) : (latchDyn hlit hdist hclen cls s).dsym = s.dsym := rfl
@[simp] theorem latchDyn_mdist (hlit hdist : BitVec 5) (hclen : BitVec 4) (cls : List (BitVec 3)) (s : State) : (latchDyn hlit hdist hclen cls s).mdist = s.mdist := rfl
@[simp] theorem latchDyn_cols (hlit hdist : BitVec 5) (hclen : BitVec 4) (cls : List (BitVec 3)) (s : State) : (latchDyn hlit hdist hclen cls s).cols = s.cols := rfl
@[simp] theorem latchDyn_row (hlit hdist : BitVec 5) (hclen : BitVec 4) (cls : List (BitVec 3)) (s : State) : (latchDyn hlit hdist hclen cls s).row = s.row := rfl
@[simp] theorem latchDyn_ft (hlit hdist : BitVec 5) (hclen : BitVec 4) (cls : List (BitVec 3)) (s : State) : (latchDyn hlit hdist hclen cls s).ft = s.ft := rfl
@[simp] theorem latchDyn_llSel (hlit hdist : BitVec 5) (hclen : BitVec 4) (cls : List (BitVec 3)) (s : State) : (latchDyn hlit hdist hclen cls s).llSel = s.llSel := rfl
@[simp] theorem latchDyn_dSel (hlit hdist : BitVec 5) (hclen : BitVec 4) (cls : List (BitVec 3)) (s : State) : (latchDyn hlit hdist hclen cls s).dSel = s.dSel := rfl
@[simp] theorem latchDyn_clT (hlit hdist : BitVec 5) (hclen : BitVec 4) (cls : List (BitVec 3)) (s : State) : (latchDyn hlit hdist hclen cls s).clT = s.clT := rfl
@[simp] theorem latchDyn_dynLL (hlit hdist : BitVec 5) (hclen : BitVec 4) (cls : List (BitVec 3)) (s : State) : (latchDyn hlit hdist hclen cls s).dynLL = s.dynLL := rfl
@[simp] theorem latchDyn_dynD (hlit hdist : BitVec 5) (hclen : BitVec 4) (cls : List (BitVec 3)) (s : State) : (latchDyn hlit hdist hclen cls s).dynD = s.dynD := rfl
@[simp] theorem latchDyn_inMem (hlit hdist : BitVec 5) (hclen : BitVec 4) (cls : List (BitVec 3)) (s : State) : (latchDyn hlit hdist hclen cls s).inMem = s.inMem := rfl
@[simp] theorem latchDyn_infMem (hlit hdist : BitVec 5) (hclen : BitVec 4) (cls : List (BitVec 3)) (s : State) : (latchDyn hlit hdist hclen cls s).infMem = s.infMem := rfl
@[simp] theorem latchDyn_pixMem (hlit hdist : BitVec 5) (hclen : BitVec 4) (cls : List (BitVec 3)) (s : State) : (latchDyn hlit hdist hclen cls s).pixMem = s.pixMem := rfl
@[simp] theorem latchDyn_inCap (hlit hdist : BitVec 5) (hclen : BitVec 4) (cls : List (BitVec 3)) (s : State) : (latchDyn hlit hdist hclen cls s).inCap = s.inCap := rfl
@[simp] theorem latchDyn_infCap (hlit hdist : BitVec 5) (hclen : BitVec 4) (cls : List (BitVec 3)) (s : State) : (latchDyn hlit hdist hclen cls s).infCap = s.infCap := rfl
@[simp] theorem latchDyn_pixCap (hlit hdist : BitVec 5) (hclen : BitVec 4) (cls : List (BitVec 3)) (s : State) : (latchDyn hlit hdist hclen cls s).pixCap = s.pixCap := rfl
@[simp] theorem latchDyn_hdrSeen (hlit hdist : BitVec 5) (hclen : BitVec 4) (cls : List (BitVec 3)) (s : State) : (latchDyn hlit hdist hclen cls s).hdrSeen = s.hdrSeen := rfl
@[simp] theorem latchDyn_distNext (hlit hdist : BitVec 5) (hclen : BitVec 4) (cls : List (BitVec 3)) (s : State) : (latchDyn hlit hdist hclen cls s).distNext = s.distNext := rfl
@[simp] theorem latchDyn_inGen (hlit hdist : BitVec 5) (hclen : BitVec 4) (cls : List (BitVec 3)) (s : State) : (latchDyn hlit hdist hclen cls s).inGen = s.inGen := rfl
@[simp] theorem latchDyn_infGen (hlit hdist : BitVec 5) (hclen : BitVec 4) (cls : List (BitVec 3)) (s : State) : (latchDyn hlit hdist hclen cls s).infGen = s.infGen := rfl
@[simp] theorem latchDyn_pixGen (hlit hdist : BitVec 5) (hclen : BitVec 4) (cls : List (BitVec 3)) (s : State) : (latchDyn hlit hdist hclen cls s).pixGen = s.pixGen := rfl
@[simp] theorem latchDyn_freeCtr (hlit hdist : BitVec 5) (hclen : BitVec 4) (cls : List (BitVec 3)) (s : State) : (latchDyn hlit hdist hclen cls s).freeCtr = s.freeCtr := rfl
@[simp] theorem latchDyn_host (hlit hdist : BitVec 5) (hclen : BitVec 4) (cls : List (BitVec 3)) (s : State) : (latchDyn hlit hdist hclen cls s).host = s.host := rfl
@[simp] theorem latchDyn_rdata (hlit hdist : BitVec 5) (hclen : BitVec 4) (cls : List (BitVec 3)) (s : State) : (latchDyn hlit hdist hclen cls s).rdata = s.rdata := rfl

/-! ## `nextLength` -/

@[simp] theorem nextLength_op (s : State) : (nextLength s).op = s.op := rfl
@[simp] theorem nextLength_busy (s : State) : (nextLength s).busy = s.busy := rfl
@[simp] theorem nextLength_done (s : State) : (nextLength s).done = s.done := rfl
@[simp] theorem nextLength_err (s : State) : (nextLength s).err = s.err := rfl
@[simp] theorem nextLength_phase (s : State) : (nextLength s).phase = if s.nlens = s.total then .dynBuild else .dynLengths := rfl
@[simp] theorem nextLength_errCode (s : State) : (nextLength s).errCode = s.errCode := rfl
@[simp] theorem nextLength_errStage (s : State) : (nextLength s).errStage = s.errStage := rfl
@[simp] theorem nextLength_errPos (s : State) : (nextLength s).errPos = s.errPos := rfl
@[simp] theorem nextLength_bp (s : State) : (nextLength s).bp = s.bp := rfl
@[simp] theorem nextLength_bb (s : State) : (nextLength s).bb = s.bb := rfl
@[simp] theorem nextLength_winLo (s : State) : (nextLength s).winLo = s.winLo := rfl
@[simp] theorem nextLength_winEnd (s : State) : (nextLength s).winEnd = s.winEnd := rfl
@[simp] theorem nextLength_inLen (s : State) : (nextLength s).inLen = s.inLen := rfl
@[simp] theorem nextLength_infLen (s : State) : (nextLength s).infLen = s.infLen := rfl
@[simp] theorem nextLength_pixLen (s : State) : (nextLength s).pixLen = s.pixLen := rfl
@[simp] theorem nextLength_width (s : State) : (nextLength s).width = s.width := rfl
@[simp] theorem nextLength_height (s : State) : (nextLength s).height = s.height := rfl
@[simp] theorem nextLength_bitDepth (s : State) : (nextLength s).bitDepth = s.bitDepth := rfl
@[simp] theorem nextLength_colorType (s : State) : (nextLength s).colorType = s.colorType := rfl
@[simp] theorem nextLength_bpp (s : State) : (nextLength s).bpp = s.bpp := rfl
@[simp] theorem nextLength_cmf (s : State) : (nextLength s).cmf = s.cmf := rfl
@[simp] theorem nextLength_flg (s : State) : (nextLength s).flg = s.flg := rfl
@[simp] theorem nextLength_adler (s : State) : (nextLength s).adler = s.adler := rfl
@[simp] theorem nextLength_bfinal (s : State) : (nextLength s).bfinal = s.bfinal := rfl
@[simp] theorem nextLength_btype (s : State) : (nextLength s).btype = s.btype := rfl
@[simp] theorem nextLength_stlen (s : State) : (nextLength s).stlen = s.stlen := rfl
@[simp] theorem nextLength_stnlen (s : State) : (nextLength s).stnlen = s.stnlen := rfl
@[simp] theorem nextLength_hlit (s : State) : (nextLength s).hlit = s.hlit := rfl
@[simp] theorem nextLength_hdist (s : State) : (nextLength s).hdist = s.hdist := rfl
@[simp] theorem nextLength_hclen (s : State) : (nextLength s).hclen = s.hclen := rfl
@[simp] theorem nextLength_cllen (s : State) : (nextLength s).cllen = s.cllen := rfl
@[simp] theorem nextLength_lens (s : State) : (nextLength s).lens = s.lens := rfl
@[simp] theorem nextLength_nlens (s : State) : (nextLength s).nlens = s.nlens := rfl
@[simp] theorem nextLength_sym (s : State) : (nextLength s).sym = s.sym := rfl
@[simp] theorem nextLength_mlen (s : State) : (nextLength s).mlen = s.mlen := rfl
@[simp] theorem nextLength_dsym (s : State) : (nextLength s).dsym = s.dsym := rfl
@[simp] theorem nextLength_mdist (s : State) : (nextLength s).mdist = s.mdist := rfl
@[simp] theorem nextLength_cols (s : State) : (nextLength s).cols = s.cols := rfl
@[simp] theorem nextLength_row (s : State) : (nextLength s).row = s.row := rfl
@[simp] theorem nextLength_ft (s : State) : (nextLength s).ft = s.ft := rfl
@[simp] theorem nextLength_llSel (s : State) : (nextLength s).llSel = s.llSel := rfl
@[simp] theorem nextLength_dSel (s : State) : (nextLength s).dSel = s.dSel := rfl
@[simp] theorem nextLength_clT (s : State) : (nextLength s).clT = s.clT := rfl
@[simp] theorem nextLength_dynLL (s : State) : (nextLength s).dynLL = s.dynLL := rfl
@[simp] theorem nextLength_dynD (s : State) : (nextLength s).dynD = s.dynD := rfl
@[simp] theorem nextLength_inMem (s : State) : (nextLength s).inMem = s.inMem := rfl
@[simp] theorem nextLength_infMem (s : State) : (nextLength s).infMem = s.infMem := rfl
@[simp] theorem nextLength_pixMem (s : State) : (nextLength s).pixMem = s.pixMem := rfl
@[simp] theorem nextLength_inCap (s : State) : (nextLength s).inCap = s.inCap := rfl
@[simp] theorem nextLength_infCap (s : State) : (nextLength s).infCap = s.infCap := rfl
@[simp] theorem nextLength_pixCap (s : State) : (nextLength s).pixCap = s.pixCap := rfl
@[simp] theorem nextLength_hdrSeen (s : State) : (nextLength s).hdrSeen = s.hdrSeen := rfl
@[simp] theorem nextLength_distNext (s : State) : (nextLength s).distNext = s.distNext := rfl
@[simp] theorem nextLength_inGen (s : State) : (nextLength s).inGen = s.inGen := rfl
@[simp] theorem nextLength_infGen (s : State) : (nextLength s).infGen = s.infGen := rfl
@[simp] theorem nextLength_pixGen (s : State) : (nextLength s).pixGen = s.pixGen := rfl
@[simp] theorem nextLength_freeCtr (s : State) : (nextLength s).freeCtr = s.freeCtr := rfl
@[simp] theorem nextLength_host (s : State) : (nextLength s).host = s.host := rfl
@[simp] theorem nextLength_rdata (s : State) : (nextLength s).rdata = s.rdata := rfl

/-! ## `latchDistance` -/

@[simp] theorem latchDistance_op (v dist : Nat) (s : State) : (latchDistance v dist s).op = s.op := rfl
@[simp] theorem latchDistance_busy (v dist : Nat) (s : State) : (latchDistance v dist s).busy = s.busy := rfl
@[simp] theorem latchDistance_done (v dist : Nat) (s : State) : (latchDistance v dist s).done = s.done := rfl
@[simp] theorem latchDistance_err (v dist : Nat) (s : State) : (latchDistance v dist s).err = s.err := rfl
@[simp] theorem latchDistance_phase (v dist : Nat) (s : State) : (latchDistance v dist s).phase = s.phase := rfl
@[simp] theorem latchDistance_errCode (v dist : Nat) (s : State) : (latchDistance v dist s).errCode = s.errCode := rfl
@[simp] theorem latchDistance_errStage (v dist : Nat) (s : State) : (latchDistance v dist s).errStage = s.errStage := rfl
@[simp] theorem latchDistance_errPos (v dist : Nat) (s : State) : (latchDistance v dist s).errPos = s.errPos := rfl
@[simp] theorem latchDistance_bp (v dist : Nat) (s : State) : (latchDistance v dist s).bp = s.bp := rfl
@[simp] theorem latchDistance_bb (v dist : Nat) (s : State) : (latchDistance v dist s).bb = s.bb := rfl
@[simp] theorem latchDistance_winLo (v dist : Nat) (s : State) : (latchDistance v dist s).winLo = s.winLo := rfl
@[simp] theorem latchDistance_winEnd (v dist : Nat) (s : State) : (latchDistance v dist s).winEnd = s.winEnd := rfl
@[simp] theorem latchDistance_inLen (v dist : Nat) (s : State) : (latchDistance v dist s).inLen = s.inLen := rfl
@[simp] theorem latchDistance_infLen (v dist : Nat) (s : State) : (latchDistance v dist s).infLen = s.infLen := rfl
@[simp] theorem latchDistance_pixLen (v dist : Nat) (s : State) : (latchDistance v dist s).pixLen = s.pixLen := rfl
@[simp] theorem latchDistance_width (v dist : Nat) (s : State) : (latchDistance v dist s).width = s.width := rfl
@[simp] theorem latchDistance_height (v dist : Nat) (s : State) : (latchDistance v dist s).height = s.height := rfl
@[simp] theorem latchDistance_bitDepth (v dist : Nat) (s : State) : (latchDistance v dist s).bitDepth = s.bitDepth := rfl
@[simp] theorem latchDistance_colorType (v dist : Nat) (s : State) : (latchDistance v dist s).colorType = s.colorType := rfl
@[simp] theorem latchDistance_bpp (v dist : Nat) (s : State) : (latchDistance v dist s).bpp = s.bpp := rfl
@[simp] theorem latchDistance_cmf (v dist : Nat) (s : State) : (latchDistance v dist s).cmf = s.cmf := rfl
@[simp] theorem latchDistance_flg (v dist : Nat) (s : State) : (latchDistance v dist s).flg = s.flg := rfl
@[simp] theorem latchDistance_adler (v dist : Nat) (s : State) : (latchDistance v dist s).adler = s.adler := rfl
@[simp] theorem latchDistance_bfinal (v dist : Nat) (s : State) : (latchDistance v dist s).bfinal = s.bfinal := rfl
@[simp] theorem latchDistance_btype (v dist : Nat) (s : State) : (latchDistance v dist s).btype = s.btype := rfl
@[simp] theorem latchDistance_stlen (v dist : Nat) (s : State) : (latchDistance v dist s).stlen = s.stlen := rfl
@[simp] theorem latchDistance_stnlen (v dist : Nat) (s : State) : (latchDistance v dist s).stnlen = s.stnlen := rfl
@[simp] theorem latchDistance_hlit (v dist : Nat) (s : State) : (latchDistance v dist s).hlit = s.hlit := rfl
@[simp] theorem latchDistance_hdist (v dist : Nat) (s : State) : (latchDistance v dist s).hdist = s.hdist := rfl
@[simp] theorem latchDistance_hclen (v dist : Nat) (s : State) : (latchDistance v dist s).hclen = s.hclen := rfl
@[simp] theorem latchDistance_cllen (v dist : Nat) (s : State) : (latchDistance v dist s).cllen = s.cllen := rfl
@[simp] theorem latchDistance_lens (v dist : Nat) (s : State) : (latchDistance v dist s).lens = s.lens := rfl
@[simp] theorem latchDistance_nlens (v dist : Nat) (s : State) : (latchDistance v dist s).nlens = s.nlens := rfl
@[simp] theorem latchDistance_sym (v dist : Nat) (s : State) : (latchDistance v dist s).sym = s.sym := rfl
@[simp] theorem latchDistance_mlen (v dist : Nat) (s : State) : (latchDistance v dist s).mlen = s.mlen := rfl
@[simp] theorem latchDistance_dsym (v dist : Nat) (s : State) : (latchDistance v dist s).dsym = v := rfl
@[simp] theorem latchDistance_mdist (v dist : Nat) (s : State) : (latchDistance v dist s).mdist = dist := rfl
@[simp] theorem latchDistance_cols (v dist : Nat) (s : State) : (latchDistance v dist s).cols = s.cols := rfl
@[simp] theorem latchDistance_row (v dist : Nat) (s : State) : (latchDistance v dist s).row = s.row := rfl
@[simp] theorem latchDistance_ft (v dist : Nat) (s : State) : (latchDistance v dist s).ft = s.ft := rfl
@[simp] theorem latchDistance_llSel (v dist : Nat) (s : State) : (latchDistance v dist s).llSel = s.llSel := rfl
@[simp] theorem latchDistance_dSel (v dist : Nat) (s : State) : (latchDistance v dist s).dSel = s.dSel := rfl
@[simp] theorem latchDistance_clT (v dist : Nat) (s : State) : (latchDistance v dist s).clT = s.clT := rfl
@[simp] theorem latchDistance_dynLL (v dist : Nat) (s : State) : (latchDistance v dist s).dynLL = s.dynLL := rfl
@[simp] theorem latchDistance_dynD (v dist : Nat) (s : State) : (latchDistance v dist s).dynD = s.dynD := rfl
@[simp] theorem latchDistance_inMem (v dist : Nat) (s : State) : (latchDistance v dist s).inMem = s.inMem := rfl
@[simp] theorem latchDistance_infMem (v dist : Nat) (s : State) : (latchDistance v dist s).infMem = s.infMem := rfl
@[simp] theorem latchDistance_pixMem (v dist : Nat) (s : State) : (latchDistance v dist s).pixMem = s.pixMem := rfl
@[simp] theorem latchDistance_inCap (v dist : Nat) (s : State) : (latchDistance v dist s).inCap = s.inCap := rfl
@[simp] theorem latchDistance_infCap (v dist : Nat) (s : State) : (latchDistance v dist s).infCap = s.infCap := rfl
@[simp] theorem latchDistance_pixCap (v dist : Nat) (s : State) : (latchDistance v dist s).pixCap = s.pixCap := rfl
@[simp] theorem latchDistance_hdrSeen (v dist : Nat) (s : State) : (latchDistance v dist s).hdrSeen = s.hdrSeen := rfl
@[simp] theorem latchDistance_distNext (v dist : Nat) (s : State) : (latchDistance v dist s).distNext = false := rfl
@[simp] theorem latchDistance_inGen (v dist : Nat) (s : State) : (latchDistance v dist s).inGen = s.inGen := rfl
@[simp] theorem latchDistance_infGen (v dist : Nat) (s : State) : (latchDistance v dist s).infGen = s.infGen := rfl
@[simp] theorem latchDistance_pixGen (v dist : Nat) (s : State) : (latchDistance v dist s).pixGen = s.pixGen := rfl
@[simp] theorem latchDistance_freeCtr (v dist : Nat) (s : State) : (latchDistance v dist s).freeCtr = s.freeCtr := rfl
@[simp] theorem latchDistance_host (v dist : Nat) (s : State) : (latchDistance v dist s).host = s.host := rfl
@[simp] theorem latchDistance_rdata (v dist : Nat) (s : State) : (latchDistance v dist s).rdata = s.rdata := rfl

/-! ## `latchGeometry` -/

@[simp] theorem latchGeometry_op (n : Nat) (s : State) : (latchGeometry n s).op = s.op := rfl
@[simp] theorem latchGeometry_busy (n : Nat) (s : State) : (latchGeometry n s).busy = s.busy := rfl
@[simp] theorem latchGeometry_done (n : Nat) (s : State) : (latchGeometry n s).done = s.done := rfl
@[simp] theorem latchGeometry_err (n : Nat) (s : State) : (latchGeometry n s).err = s.err := rfl
@[simp] theorem latchGeometry_phase (n : Nat) (s : State) : (latchGeometry n s).phase = s.phase := rfl
@[simp] theorem latchGeometry_errCode (n : Nat) (s : State) : (latchGeometry n s).errCode = s.errCode := rfl
@[simp] theorem latchGeometry_errStage (n : Nat) (s : State) : (latchGeometry n s).errStage = s.errStage := rfl
@[simp] theorem latchGeometry_errPos (n : Nat) (s : State) : (latchGeometry n s).errPos = s.errPos := rfl
@[simp] theorem latchGeometry_bp (n : Nat) (s : State) : (latchGeometry n s).bp = s.bp := rfl
@[simp] theorem latchGeometry_bb (n : Nat) (s : State) : (latchGeometry n s).bb = s.bb := rfl
@[simp] theorem latchGeometry_winLo (n : Nat) (s : State) : (latchGeometry n s).winLo = s.winLo := rfl
@[simp] theorem latchGeometry_winEnd (n : Nat) (s : State) : (latchGeometry n s).winEnd = s.winEnd := rfl
@[simp] theorem latchGeometry_inLen (n : Nat) (s : State) : (latchGeometry n s).inLen = s.inLen := rfl
@[simp] theorem latchGeometry_infLen (n : Nat) (s : State) : (latchGeometry n s).infLen = s.infLen := rfl
@[simp] theorem latchGeometry_pixLen (n : Nat) (s : State) : (latchGeometry n s).pixLen = s.pixLen := rfl
@[simp] theorem latchGeometry_width (n : Nat) (s : State) : (latchGeometry n s).width = s.width := rfl
@[simp] theorem latchGeometry_height (n : Nat) (s : State) : (latchGeometry n s).height = s.height := rfl
@[simp] theorem latchGeometry_bitDepth (n : Nat) (s : State) : (latchGeometry n s).bitDepth = s.bitDepth := rfl
@[simp] theorem latchGeometry_colorType (n : Nat) (s : State) : (latchGeometry n s).colorType = s.colorType := rfl
@[simp] theorem latchGeometry_bpp (n : Nat) (s : State) : (latchGeometry n s).bpp = n := rfl
@[simp] theorem latchGeometry_cmf (n : Nat) (s : State) : (latchGeometry n s).cmf = s.cmf := rfl
@[simp] theorem latchGeometry_flg (n : Nat) (s : State) : (latchGeometry n s).flg = s.flg := rfl
@[simp] theorem latchGeometry_adler (n : Nat) (s : State) : (latchGeometry n s).adler = s.adler := rfl
@[simp] theorem latchGeometry_bfinal (n : Nat) (s : State) : (latchGeometry n s).bfinal = s.bfinal := rfl
@[simp] theorem latchGeometry_btype (n : Nat) (s : State) : (latchGeometry n s).btype = s.btype := rfl
@[simp] theorem latchGeometry_stlen (n : Nat) (s : State) : (latchGeometry n s).stlen = s.stlen := rfl
@[simp] theorem latchGeometry_stnlen (n : Nat) (s : State) : (latchGeometry n s).stnlen = s.stnlen := rfl
@[simp] theorem latchGeometry_hlit (n : Nat) (s : State) : (latchGeometry n s).hlit = s.hlit := rfl
@[simp] theorem latchGeometry_hdist (n : Nat) (s : State) : (latchGeometry n s).hdist = s.hdist := rfl
@[simp] theorem latchGeometry_hclen (n : Nat) (s : State) : (latchGeometry n s).hclen = s.hclen := rfl
@[simp] theorem latchGeometry_cllen (n : Nat) (s : State) : (latchGeometry n s).cllen = s.cllen := rfl
@[simp] theorem latchGeometry_lens (n : Nat) (s : State) : (latchGeometry n s).lens = s.lens := rfl
@[simp] theorem latchGeometry_nlens (n : Nat) (s : State) : (latchGeometry n s).nlens = s.nlens := rfl
@[simp] theorem latchGeometry_sym (n : Nat) (s : State) : (latchGeometry n s).sym = s.sym := rfl
@[simp] theorem latchGeometry_mlen (n : Nat) (s : State) : (latchGeometry n s).mlen = s.mlen := rfl
@[simp] theorem latchGeometry_dsym (n : Nat) (s : State) : (latchGeometry n s).dsym = s.dsym := rfl
@[simp] theorem latchGeometry_mdist (n : Nat) (s : State) : (latchGeometry n s).mdist = s.mdist := rfl
@[simp] theorem latchGeometry_cols (n : Nat) (s : State) : (latchGeometry n s).cols = s.width.toNat * n := rfl
@[simp] theorem latchGeometry_row (n : Nat) (s : State) : (latchGeometry n s).row = 0 := rfl
@[simp] theorem latchGeometry_ft (n : Nat) (s : State) : (latchGeometry n s).ft = s.ft := rfl
@[simp] theorem latchGeometry_llSel (n : Nat) (s : State) : (latchGeometry n s).llSel = s.llSel := rfl
@[simp] theorem latchGeometry_dSel (n : Nat) (s : State) : (latchGeometry n s).dSel = s.dSel := rfl
@[simp] theorem latchGeometry_clT (n : Nat) (s : State) : (latchGeometry n s).clT = s.clT := rfl
@[simp] theorem latchGeometry_dynLL (n : Nat) (s : State) : (latchGeometry n s).dynLL = s.dynLL := rfl
@[simp] theorem latchGeometry_dynD (n : Nat) (s : State) : (latchGeometry n s).dynD = s.dynD := rfl
@[simp] theorem latchGeometry_inMem (n : Nat) (s : State) : (latchGeometry n s).inMem = s.inMem := rfl
@[simp] theorem latchGeometry_infMem (n : Nat) (s : State) : (latchGeometry n s).infMem = s.infMem := rfl
@[simp] theorem latchGeometry_pixMem (n : Nat) (s : State) : (latchGeometry n s).pixMem = s.pixMem := rfl
@[simp] theorem latchGeometry_inCap (n : Nat) (s : State) : (latchGeometry n s).inCap = s.inCap := rfl
@[simp] theorem latchGeometry_infCap (n : Nat) (s : State) : (latchGeometry n s).infCap = s.infCap := rfl
@[simp] theorem latchGeometry_pixCap (n : Nat) (s : State) : (latchGeometry n s).pixCap = s.pixCap := rfl
@[simp] theorem latchGeometry_hdrSeen (n : Nat) (s : State) : (latchGeometry n s).hdrSeen = s.hdrSeen := rfl
@[simp] theorem latchGeometry_distNext (n : Nat) (s : State) : (latchGeometry n s).distNext = s.distNext := rfl
@[simp] theorem latchGeometry_inGen (n : Nat) (s : State) : (latchGeometry n s).inGen = s.inGen := rfl
@[simp] theorem latchGeometry_infGen (n : Nat) (s : State) : (latchGeometry n s).infGen = s.infGen := rfl
@[simp] theorem latchGeometry_pixGen (n : Nat) (s : State) : (latchGeometry n s).pixGen = s.pixGen := rfl
@[simp] theorem latchGeometry_freeCtr (n : Nat) (s : State) : (latchGeometry n s).freeCtr = s.freeCtr := rfl
@[simp] theorem latchGeometry_host (n : Nat) (s : State) : (latchGeometry n s).host = s.host := rfl
@[simp] theorem latchGeometry_rdata (n : Nat) (s : State) : (latchGeometry n s).rdata = s.rdata := rfl

/-! ## `rawWindow` -/

@[simp] theorem rawWindow_op (s : State) : (rawWindow s).op = s.op := rfl
@[simp] theorem rawWindow_busy (s : State) : (rawWindow s).busy = s.busy := rfl
@[simp] theorem rawWindow_done (s : State) : (rawWindow s).done = s.done := rfl
@[simp] theorem rawWindow_err (s : State) : (rawWindow s).err = s.err := rfl
@[simp] theorem rawWindow_phase (s : State) : (rawWindow s).phase = .blockHeader := rfl
@[simp] theorem rawWindow_errCode (s : State) : (rawWindow s).errCode = s.errCode := rfl
@[simp] theorem rawWindow_errStage (s : State) : (rawWindow s).errStage = s.errStage := rfl
@[simp] theorem rawWindow_errPos (s : State) : (rawWindow s).errPos = s.errPos := rfl
@[simp] theorem rawWindow_bp (s : State) : (rawWindow s).bp = 0 := rfl
@[simp] theorem rawWindow_bb (s : State) : (rawWindow s).bb = 0 := rfl
@[simp] theorem rawWindow_winLo (s : State) : (rawWindow s).winLo = 0 := rfl
@[simp] theorem rawWindow_winEnd (s : State) : (rawWindow s).winEnd = s.inLen := rfl
@[simp] theorem rawWindow_inLen (s : State) : (rawWindow s).inLen = s.inLen := rfl
@[simp] theorem rawWindow_infLen (s : State) : (rawWindow s).infLen = s.infLen := rfl
@[simp] theorem rawWindow_pixLen (s : State) : (rawWindow s).pixLen = s.pixLen := rfl
@[simp] theorem rawWindow_width (s : State) : (rawWindow s).width = s.width := rfl
@[simp] theorem rawWindow_height (s : State) : (rawWindow s).height = s.height := rfl
@[simp] theorem rawWindow_bitDepth (s : State) : (rawWindow s).bitDepth = s.bitDepth := rfl
@[simp] theorem rawWindow_colorType (s : State) : (rawWindow s).colorType = s.colorType := rfl
@[simp] theorem rawWindow_bpp (s : State) : (rawWindow s).bpp = s.bpp := rfl
@[simp] theorem rawWindow_cmf (s : State) : (rawWindow s).cmf = s.cmf := rfl
@[simp] theorem rawWindow_flg (s : State) : (rawWindow s).flg = s.flg := rfl
@[simp] theorem rawWindow_adler (s : State) : (rawWindow s).adler = s.adler := rfl
@[simp] theorem rawWindow_bfinal (s : State) : (rawWindow s).bfinal = s.bfinal := rfl
@[simp] theorem rawWindow_btype (s : State) : (rawWindow s).btype = s.btype := rfl
@[simp] theorem rawWindow_stlen (s : State) : (rawWindow s).stlen = s.stlen := rfl
@[simp] theorem rawWindow_stnlen (s : State) : (rawWindow s).stnlen = s.stnlen := rfl
@[simp] theorem rawWindow_hlit (s : State) : (rawWindow s).hlit = s.hlit := rfl
@[simp] theorem rawWindow_hdist (s : State) : (rawWindow s).hdist = s.hdist := rfl
@[simp] theorem rawWindow_hclen (s : State) : (rawWindow s).hclen = s.hclen := rfl
@[simp] theorem rawWindow_cllen (s : State) : (rawWindow s).cllen = s.cllen := rfl
@[simp] theorem rawWindow_lens (s : State) : (rawWindow s).lens = s.lens := rfl
@[simp] theorem rawWindow_nlens (s : State) : (rawWindow s).nlens = s.nlens := rfl
@[simp] theorem rawWindow_sym (s : State) : (rawWindow s).sym = s.sym := rfl
@[simp] theorem rawWindow_mlen (s : State) : (rawWindow s).mlen = s.mlen := rfl
@[simp] theorem rawWindow_dsym (s : State) : (rawWindow s).dsym = s.dsym := rfl
@[simp] theorem rawWindow_mdist (s : State) : (rawWindow s).mdist = s.mdist := rfl
@[simp] theorem rawWindow_cols (s : State) : (rawWindow s).cols = s.cols := rfl
@[simp] theorem rawWindow_row (s : State) : (rawWindow s).row = s.row := rfl
@[simp] theorem rawWindow_ft (s : State) : (rawWindow s).ft = s.ft := rfl
@[simp] theorem rawWindow_llSel (s : State) : (rawWindow s).llSel = s.llSel := rfl
@[simp] theorem rawWindow_dSel (s : State) : (rawWindow s).dSel = s.dSel := rfl
@[simp] theorem rawWindow_clT (s : State) : (rawWindow s).clT = s.clT := rfl
@[simp] theorem rawWindow_dynLL (s : State) : (rawWindow s).dynLL = s.dynLL := rfl
@[simp] theorem rawWindow_dynD (s : State) : (rawWindow s).dynD = s.dynD := rfl
@[simp] theorem rawWindow_inMem (s : State) : (rawWindow s).inMem = s.inMem := rfl
@[simp] theorem rawWindow_infMem (s : State) : (rawWindow s).infMem = s.infMem := rfl
@[simp] theorem rawWindow_pixMem (s : State) : (rawWindow s).pixMem = s.pixMem := rfl
@[simp] theorem rawWindow_inCap (s : State) : (rawWindow s).inCap = s.inCap := rfl
@[simp] theorem rawWindow_infCap (s : State) : (rawWindow s).infCap = s.infCap := rfl
@[simp] theorem rawWindow_pixCap (s : State) : (rawWindow s).pixCap = s.pixCap := rfl
@[simp] theorem rawWindow_hdrSeen (s : State) : (rawWindow s).hdrSeen = s.hdrSeen := rfl
@[simp] theorem rawWindow_distNext (s : State) : (rawWindow s).distNext = s.distNext := rfl
@[simp] theorem rawWindow_inGen (s : State) : (rawWindow s).inGen = s.inGen := rfl
@[simp] theorem rawWindow_infGen (s : State) : (rawWindow s).infGen = s.infGen := rfl
@[simp] theorem rawWindow_pixGen (s : State) : (rawWindow s).pixGen = s.pixGen := rfl
@[simp] theorem rawWindow_freeCtr (s : State) : (rawWindow s).freeCtr = s.freeCtr := rfl
@[simp] theorem rawWindow_host (s : State) : (rawWindow s).host = s.host := rfl
@[simp] theorem rawWindow_rdata (s : State) : (rawWindow s).rdata = s.rdata := rfl

/-! ## `hardReset` -/

@[simp] theorem hardReset_op (s : State) : (hardReset s).op = 0 := rfl
@[simp] theorem hardReset_busy (s : State) : (hardReset s).busy = false := rfl
@[simp] theorem hardReset_done (s : State) : (hardReset s).done = false := rfl
@[simp] theorem hardReset_err (s : State) : (hardReset s).err = false := rfl
@[simp] theorem hardReset_phase (s : State) : (hardReset s).phase = .idle := rfl
@[simp] theorem hardReset_errCode (s : State) : (hardReset s).errCode = none := rfl
@[simp] theorem hardReset_errStage (s : State) : (hardReset s).errStage = .none := rfl
@[simp] theorem hardReset_errPos (s : State) : (hardReset s).errPos = 0 := rfl
@[simp] theorem hardReset_bp (s : State) : (hardReset s).bp = 0 := rfl
@[simp] theorem hardReset_bb (s : State) : (hardReset s).bb = 0 := rfl
@[simp] theorem hardReset_winLo (s : State) : (hardReset s).winLo = 0 := rfl
@[simp] theorem hardReset_winEnd (s : State) : (hardReset s).winEnd = 0 := rfl
@[simp] theorem hardReset_inLen (s : State) : (hardReset s).inLen = 0 := rfl
@[simp] theorem hardReset_infLen (s : State) : (hardReset s).infLen = 0 := rfl
@[simp] theorem hardReset_pixLen (s : State) : (hardReset s).pixLen = 0 := rfl
@[simp] theorem hardReset_width (s : State) : (hardReset s).width = 0 := rfl
@[simp] theorem hardReset_height (s : State) : (hardReset s).height = 0 := rfl
@[simp] theorem hardReset_bitDepth (s : State) : (hardReset s).bitDepth = 0 := rfl
@[simp] theorem hardReset_colorType (s : State) : (hardReset s).colorType = 0 := rfl
@[simp] theorem hardReset_bpp (s : State) : (hardReset s).bpp = 0 := rfl
@[simp] theorem hardReset_cmf (s : State) : (hardReset s).cmf = 0 := rfl
@[simp] theorem hardReset_flg (s : State) : (hardReset s).flg = 0 := rfl
@[simp] theorem hardReset_adler (s : State) : (hardReset s).adler = 0 := rfl
@[simp] theorem hardReset_bfinal (s : State) : (hardReset s).bfinal = false := rfl
@[simp] theorem hardReset_btype (s : State) : (hardReset s).btype = 0 := rfl
@[simp] theorem hardReset_stlen (s : State) : (hardReset s).stlen = 0 := rfl
@[simp] theorem hardReset_stnlen (s : State) : (hardReset s).stnlen = 0 := rfl
@[simp] theorem hardReset_hlit (s : State) : (hardReset s).hlit = 0 := rfl
@[simp] theorem hardReset_hdist (s : State) : (hardReset s).hdist = 0 := rfl
@[simp] theorem hardReset_hclen (s : State) : (hardReset s).hclen = 0 := rfl
@[simp] theorem hardReset_cllen (s : State) : (hardReset s).cllen = Vector.replicate 19 0 := rfl
@[simp] theorem hardReset_lens (s : State) : (hardReset s).lens = Vector.replicate 320 0 := rfl
@[simp] theorem hardReset_nlens (s : State) : (hardReset s).nlens = 0 := rfl
@[simp] theorem hardReset_sym (s : State) : (hardReset s).sym = 0 := rfl
@[simp] theorem hardReset_mlen (s : State) : (hardReset s).mlen = 0 := rfl
@[simp] theorem hardReset_dsym (s : State) : (hardReset s).dsym = 0 := rfl
@[simp] theorem hardReset_mdist (s : State) : (hardReset s).mdist = 0 := rfl
@[simp] theorem hardReset_cols (s : State) : (hardReset s).cols = 0 := rfl
@[simp] theorem hardReset_row (s : State) : (hardReset s).row = 0 := rfl
@[simp] theorem hardReset_ft (s : State) : (hardReset s).ft = 0 := rfl
@[simp] theorem hardReset_llSel (s : State) : (hardReset s).llSel = .fixed := rfl
@[simp] theorem hardReset_dSel (s : State) : (hardReset s).dSel = .fixed := rfl
@[simp] theorem hardReset_clT (s : State) : (hardReset s).clT = [] := rfl
@[simp] theorem hardReset_dynLL (s : State) : (hardReset s).dynLL = [] := rfl
@[simp] theorem hardReset_dynD (s : State) : (hardReset s).dynD = [] := rfl
@[simp] theorem hardReset_inMem (s : State) : (hardReset s).inMem = [] := rfl
@[simp] theorem hardReset_infMem (s : State) : (hardReset s).infMem = [] := rfl
@[simp] theorem hardReset_pixMem (s : State) : (hardReset s).pixMem = [] := rfl
@[simp] theorem hardReset_inCap (s : State) : (hardReset s).inCap = s.inCap := rfl
@[simp] theorem hardReset_infCap (s : State) : (hardReset s).infCap = s.infCap := rfl
@[simp] theorem hardReset_pixCap (s : State) : (hardReset s).pixCap = s.pixCap := rfl
@[simp] theorem hardReset_hdrSeen (s : State) : (hardReset s).hdrSeen = false := rfl
@[simp] theorem hardReset_distNext (s : State) : (hardReset s).distNext = false := rfl
@[simp] theorem hardReset_inGen (s : State) : (hardReset s).inGen = s.inGen + 1 := rfl
@[simp] theorem hardReset_infGen (s : State) : (hardReset s).infGen = s.infGen + 1 := rfl
@[simp] theorem hardReset_pixGen (s : State) : (hardReset s).pixGen = s.pixGen + 1 := rfl
@[simp] theorem hardReset_freeCtr (s : State) : (hardReset s).freeCtr = s.freeCtr := rfl
@[simp] theorem hardReset_host (s : State) : (hardReset s).host = s.host := rfl
@[simp] theorem hardReset_rdata (s : State) : (hardReset s).rdata = s.rdata := rfl

end Sys2Proof.Machine
end

