-- ==== Sys2Proof/Laws/Memory.lean ====
section
/-! SUPPORT. The memories: read after write, the canonical form kept by every operation, and what each write to the state does to a
byte. -/

namespace Sys2Proof.Machine

/-- A read of the address just written gives the byte written. -/
@[simp] theorem Memory.read_write_self (m : Memory) (a : Nat) (v : Byte) : Memory.read (Memory.write m a v) a = some v := by
  induction m with
  | nil => simp [Memory.write, Memory.read]
  | cons c m ih =>
    obtain ⟨b, w⟩ := c
    simp only [Memory.write]
    split_ifs with h1 h2
    · simp [Memory.read]
    · simp [Memory.read]
    · simp [Memory.read, h2, ih]

/-- A write leaves every other address alone. -/
theorem Memory.read_write_other (m : Memory) {a b : Nat} (v : Byte) (h : b ≠ a) :
    Memory.read (Memory.write m a v) b = Memory.read m b := by
  induction m with
  | nil => simp [Memory.write, Memory.read, h]
  | cons c m ih =>
    obtain ⟨k, w⟩ := c
    simp only [Memory.write]
    split_ifs with h1 h2
    · simp [Memory.read, h]
    · subst h2; simp [Memory.read, h]
    · simp [Memory.read, ih]

/-- The form, seen from the front: the rest is in form, and its first address is above. -/
theorem Memory.wf_cons (a : Nat) (v : Byte) (m : Memory) :
    Memory.wf ((a, v) :: m) = true ↔ Memory.wf m = true ∧ ∀ c ∈ m.head?, a < c.1 := by
  cases m with
  | nil => simp [Memory.wf]
  | cons c m => simp [Memory.wf, and_comm]

/-- The first address after a write is the one written or the one that was first. -/
theorem Memory.head_write (m : Memory) (a : Nat) (v : Byte) :
    ∀ c ∈ (Memory.write m a v).head?, c.1 = a ∨ ∃ d ∈ m.head?, c.1 = d.1 := by
  cases m with
  | nil => simp [Memory.write]
  | cons d m =>
    obtain ⟨b, w⟩ := d
    simp only [Memory.write]
    split_ifs <;> simp

/-- A write keeps the canonical form. -/
theorem Memory.wf_write {m : Memory} (a : Nat) (v : Byte) (h : Memory.wf m = true) : Memory.wf (Memory.write m a v) = true := by
  induction m with
  | nil => simp [Memory.write, Memory.wf]
  | cons c m ih =>
    obtain ⟨b, w⟩ := c
    have hm := (Memory.wf_cons b w m).1 h
    simp only [Memory.write]
    split_ifs with h1 h2
    · exact (Memory.wf_cons _ _ _).2 ⟨h, by simpa using h1⟩
    · subst h2; exact (Memory.wf_cons _ _ _).2 hm
    · refine (Memory.wf_cons _ _ _).2 ⟨ih hm.1, fun c hc => ?_⟩
      rcases Memory.head_write m a v c hc with hca | ⟨d, hd, hcd⟩
      · omega
      · have := hm.2 d hd; omega

/-- Storing bytes keeps the canonical form. -/
theorem wf_storeBytes (bs : List Byte) (a : Nat) {m : Memory} (h : Memory.wf m = true) : Memory.wf (storeBytes bs a m) = true := by
  induction bs generalizing a m with
  | nil => exact h
  | cons b bs ih => exact ih (a + 1) (Memory.wf_write a b h)

/-- The memories are in canonical form at reset. -/
theorem reset_memories : Memory.wf State.reset.inMem = true ∧ Memory.wf State.reset.infMem = true ∧
    Memory.wf State.reset.pixMem = true := by decide

/-! ## Bytes after a write -/

@[simp] theorem Memory.byte_write_self (sp : Space) (g : Nat) (m : Memory) (a : Nat) (v : Byte) :
    Memory.byte sp g (Memory.write m a v) a = v := by
  simp [Memory.byte]

theorem Memory.byte_write_other (sp : Space) (g : Nat) (m : Memory) {a b : Nat} (v : Byte) (h : b ≠ a) :
    Memory.byte sp g (Memory.write m a v) b = Memory.byte sp g m b := by
  simp [Memory.byte, Memory.read_write_other m v h]

@[simp] theorem byte_writeByte_self (s : State) (sp : Space) (a : Nat) (v : Byte) : (s.writeByte sp a v).byte sp a = v := by
  cases sp <;> simp [State.writeByte, State.byte, State.inByte, State.infByte, State.pixByte]

/-- A host write changes one byte of one space. -/
theorem byte_writeByte_other (s : State) (sp q : Space) (a b : Nat) (v : Byte) (h : ¬ (q = sp ∧ b = a)) :
    (s.writeByte sp a v).byte q b = s.byte q b := by
  cases sp <;> cases q <;> simp_all [State.writeByte, State.byte, State.inByte, State.infByte, State.pixByte, Memory.byte_write_other]

@[simp] theorem infByte_appendInf_self (s : State) (b : Byte) : (appendInf b s).infByte s.infLen = b := by
  simp [State.infByte]

theorem infByte_appendInf_other (s : State) (b : Byte) {a : Nat} (h : a ≠ s.infLen) :
    (appendInf b s).infByte a = s.infByte a := by
  simp [State.infByte, Memory.byte_write_other _ _ _ _ h]

@[simp] theorem inByte_appendInf (s : State) (b : Byte) (a : Nat) : (appendInf b s).inByte a = s.inByte a := rfl
@[simp] theorem pixByte_appendInf (s : State) (b : Byte) (a : Nat) : (appendInf b s).pixByte a = s.pixByte a := rfl

@[simp] theorem pixByte_appendPix_self (s : State) (v : Byte) : (appendPix v s).pixByte s.pixLen = v := by
  simp [State.pixByte]

theorem pixByte_appendPix_other (s : State) (v : Byte) {a : Nat} (h : a ≠ s.pixLen) :
    (appendPix v s).pixByte a = s.pixByte a := by
  simp [State.pixByte, Memory.byte_write_other _ _ _ _ h]

@[simp] theorem inByte_appendPix (s : State) (v : Byte) (a : Nat) : (appendPix v s).inByte a = s.inByte a := rfl
@[simp] theorem infByte_appendPix (s : State) (v : Byte) (a : Nat) : (appendPix v s).infByte a = s.infByte a := rfl

@[simp] theorem inByte_setPos (s : State) (p a : Nat) : (s.setPos p).inByte a = s.inByte a := rfl
@[simp] theorem infByte_setPos (s : State) (p a : Nat) : (s.setPos p).infByte a = s.infByte a := rfl
@[simp] theorem pixByte_setPos (s : State) (p a : Nat) : (s.setPos p).pixByte a = s.pixByte a := rfl

/-- The bytes of `IN` stay through an error (20_memory.md R53). -/
@[simp] theorem inByte_raise (e : ErrCode) (st : Stage) (k : Nat) (s : State) (a : Nat) :
    (raise e st k s).inByte a = s.inByte a := rfl

end Sys2Proof.Machine
end

