-- ==== Sys2Proof/Laws/Reader.lean ====
section
/-! SUPPORT. What the reads over a source of bits can answer: a value and where the read ended, or the error and where it stopped. -/

namespace Sys2Proof

/-! ## Fields -/

theorem bitsLSB_length (n v : Nat) : (bitsLSB n v).length = n := by simp [bitsLSB]

theorem readBit_some {get : Src} {p : Nat} {b : Bool} (st : Stage) (h : get p = some b) : readBit st get p = .ok b (p + 1) := by
  simp [readBit, h]

theorem readBit_none {get : Src} {p : Nat} (st : Stage) (h : get p = none) : readBit st get p = .stop .bounds st p [] := by
  simp [readBit, h]

/-- All that a read of one bit can answer. -/
theorem readBit_cases (st : Stage) (get : Src) (p : Nat) :
    (∃ b, get p = some b ∧ readBit st get p = .ok b (p + 1)) ∨ (get p = none ∧ readBit st get p = .stop .bounds st p []) := by
  cases h : get p with
  | none => exact .inr ⟨rfl, readBit_none st h⟩
  | some b => exact .inl ⟨b, rfl, readBit_some st h⟩

/-- All that a read of `n` bits can answer: the value whose bits are the bits read, or `E_BOUNDS` at the first missing bit. -/
theorem readBits_cases (st : Stage) (get : Src) (n p : Nat) :
    (∃ v, v < 2 ^ n ∧ (∀ k, k < n → get (p + k) = some (v.testBit k)) ∧ readBits st get n p = .ok v (p + n)) ∨
      (∃ k, k < n ∧ (∀ j, j < k → get (p + j) ≠ none) ∧ get (p + k) = none ∧
        readBits st get n p = .stop .bounds st (p + k) []) := by
  induction n generalizing p with
  | zero => exact .inl ⟨0, by simp, by simp, rfl⟩
  | succ n ih =>
    rcases readBit_cases st get p with ⟨b, hb, hr⟩ | ⟨hb, hr⟩
    · rcases ih (p + 1) with ⟨v, hv, hbits, hrv⟩ | ⟨k, hk, hj, hn, hrv⟩
      · refine .inl ⟨b.toNat + 2 * v, ?_, ?_, ?_⟩
        · have := b.toNat_le; rw [Nat.pow_succ]; omega
        · intro k hk
          cases k with
          | zero => cases b <;> simp [hb, Nat.testBit_zero]
          | succ k =>
            have := hbits k (by omega)
            rw [show p + (k + 1) = p + 1 + k by omega, this, Nat.testBit_succ]
            congr 2
            have := b.toNat_le; omega
        · simp only [readBits, hr, Read.bind, hrv]; congr 1; omega
      · refine .inr ⟨k + 1, by omega, ?_, by rw [← hn]; congr 1; omega, ?_⟩
        · intro j hjk
          cases j with
          | zero => simp [hb]
          | succ j => rw [show p + (j + 1) = p + 1 + j by omega]; exact hj j (by omega)
        · simp only [readBits, hr, Read.bind, hrv]; congr 1; omega
    · exact .inr ⟨0, by omega, by simp, by simpa using hb, by simp only [readBits, hr, Read.bind]; rfl⟩

/-- Reading back a field: where the source holds the `n` bits of `v`, the read gives `v`. -/
theorem readBits_field {get : Src} {n v p : Nat} (st : Stage) (hv : v < 2 ^ n)
    (h : ∀ k, k < n → get (p + k) = some (v.testBit k)) : readBits st get n p = .ok v (p + n) := by
  rcases readBits_cases st get n p with ⟨w, hw, hbits, hr⟩ | ⟨k, hk, -, hn, -⟩
  · have : w = v := by
      apply Nat.eq_of_testBit_eq
      intro k
      by_cases hk : k < n
      · have := (h k hk).symm.trans (hbits k hk); simpa using this.symm
      · rw [Nat.testBit_lt_two_pow (Nat.lt_of_lt_of_le hw (Nat.pow_le_pow_right (by omega) (by omega))),
          Nat.testBit_lt_two_pow (Nat.lt_of_lt_of_le hv (Nat.pow_le_pow_right (by omega) (by omega)))]
    rw [hr, this]
  · rw [h k hk] at hn; cases hn

theorem le_alignUp (p : Nat) : p ≤ alignUp p := by unfold alignUp; omega

theorem alignUp_lt (p : Nat) : alignUp p < p + 8 := by unfold alignUp; omega

theorem alignUp_of_aligned (k : Nat) : alignUp (8 * k) = 8 * k := by unfold alignUp; omega

/-! ## The table walk -/

theorem leafAt_spec {T : Table} {c n : Nat} {e : Entry} (h : leafAt T c n = some e) : e ∈ T ∧ e.len = n ∧ e.code = c := by
  have h1 := List.find?_some h
  have h2 := List.mem_of_find?_eq_some h
  simp at h1
  exact ⟨h2, h1.1, h1.2⟩

/-- All that the loop of the walk can answer: a symbol of the table after the bits of its code, `E_BOUNDS` where the source ends,
`E_NOLEAF` after a bit that leads nowhere. -/
theorem walkFrom_cases (st : Stage) (T : Table) (get : Src) (fuel c n p : Nat) :
    (∃ e ∈ T, n < e.len ∧ e.len ≤ n + fuel ∧ walkFrom st T get fuel c n p = .ok e.sym (p + (e.len - n))) ∨
      (∃ k, k < fuel ∧ get (p + k) = none ∧ walkFrom st T get fuel c n p = .stop .bounds st (p + k) []) ∨
      (∃ k, k ≤ fuel ∧ walkFrom st T get fuel c n p = .stop .noLeaf st (p + k) [] ∧
        ∀ j, j < k → get (p + j) ≠ none) := by
  induction fuel generalizing c n p with
  | zero => exact .inr (.inr ⟨0, by omega, rfl, by simp⟩)
  | succ fuel ih =>
    rcases readBit_cases st get p with ⟨b, hb, hr⟩ | ⟨hb, hr⟩
    · simp only [walkFrom, hr, Read.bind]
      cases hl : leafAt T (2 * c + b.toNat) (n + 1) with
      | some e =>
        obtain ⟨hm, hlen, -⟩ := leafAt_spec hl
        exact .inl ⟨e, hm, by omega, by omega, by simp only [hlen]; congr 1; omega⟩
      | none =>
        simp only
        split_ifs with hi
        · rcases ih (2 * c + b.toNat) (n + 1) (p + 1) with ⟨e, hm, h1, h2, h3⟩ | ⟨k, h1, h2, h3⟩ | ⟨k, h1, h2, h3⟩
          · exact .inl ⟨e, hm, by omega, by omega, by rw [h3]; congr 1; omega⟩
          · exact .inr (.inl ⟨k + 1, by omega, by rw [← h2]; congr 1; omega, by rw [h3]; congr 1; omega⟩)
          · refine .inr (.inr ⟨k + 1, by omega, by rw [h2]; congr 1; omega, ?_⟩)
            intro j hj
            cases j with
            | zero => simp [hb]
            | succ j => rw [show p + (j + 1) = p + 1 + j by omega]; exact h3 j (by omega)
        · refine .inr (.inr ⟨1, by omega, rfl, ?_⟩)
          intro j hj
          have : j = 0 := by omega
          subst this; simp [hb]
    · exact .inr (.inl ⟨0, by omega, by simpa using hb, by simp only [walkFrom, hr, Read.bind]; rfl⟩)

/-- All that a walk can answer (R118, R119). -/
theorem walk_cases (st : Stage) (T : Table) (get : Src) (p : Nat) :
    (∃ e ∈ T, 0 < e.len ∧ e.len ≤ 15 ∧ walk st T get p = .ok e.sym (p + e.len)) ∨
      (T = [] ∧ walk st T get p = .stop .emptyTable st p []) ∨
      (∃ k, k < 15 ∧ get (p + k) = none ∧ walk st T get p = .stop .bounds st (p + k) []) ∨
      (∃ k, k ≤ 15 ∧ walk st T get p = .stop .noLeaf st (p + k) [] ∧ ∀ j, j < k → get (p + j) ≠ none) := by
  unfold walk
  split_ifs with h
  · exact .inr (.inl ⟨by simpa using h, rfl⟩)
  · rcases walkFrom_cases st T get maxBits 0 0 p with ⟨e, hm, h1, h2, h3⟩ | ⟨k, h1, h2, h3⟩ | ⟨k, h1, h2, h3⟩
    · exact .inl ⟨e, hm, h1, by simpa [maxBits] using h2, by simpa using h3⟩
    · exact .inr (.inr (.inl ⟨k, h1, h2, h3⟩))
    · exact .inr (.inr (.inr ⟨k, h1, h2, h3⟩))

/-! ## Carrying on -/

/-- A read that goes on to an answer went on from an answer. -/
theorem Read.bind_ok {α β : Type} {r : Read α} {k : α → Nat → Read β} {w : β} {q : Nat} :
    r.bind k = .ok w q ↔ ∃ v p, r = .ok v p ∧ k v p = .ok w q := by
  cases r <;> simp [Read.bind]

theorem Read.field_ok {β : Type} {r : Read Nat} {k : Nat → Nat → Read β} {w : β} {q : Nat} :
    r.field k = .ok w q ↔ ∃ v p, r = .ok v p ∧ k v p = .ok w q := by
  cases r with
  | ok v p => simp only [Read.field]; cases h : k v p <;> simp [h]
  | stop e st p got => simp [Read.field]
  | reject w => simp [Read.field]

/-- A read that stops, stopped first or after an answer. -/
theorem Read.bind_stop {α β : Type} {r : Read α} {k : α → Nat → Read β} {e : ErrCode} {st : Stage} {q : Nat} {got : List Nat} :
    r.bind k = .stop e st q got ↔ r = .stop e st q got ∨ ∃ v p, r = .ok v p ∧ k v p = .stop e st q got := by
  cases r <;> simp [Read.bind]

theorem Read.field_stop {β : Type} {r : Read Nat} {k : Nat → Nat → Read β} {e : ErrCode} {st : Stage} {q : Nat} {got : List Nat} :
    r.field k = .stop e st q got ↔
      r = .stop e st q got ∨ ∃ v p l, r = .ok v p ∧ k v p = .stop e st q l ∧ got = v :: l := by
  cases r with
  | ok v p =>
    simp only [Read.field]
    cases h : k v p with
    | ok w q => simp [h]
    | stop e' st' q' l =>
      simp only [Read.stop.injEq, Read.ok.injEq, reduceCtorEq, false_or]
      constructor
      · rintro ⟨rfl, rfl, rfl, rfl⟩; exact ⟨v, p, l, ⟨rfl, rfl⟩, h, rfl⟩
      · rintro ⟨v', p', l', ⟨rfl, rfl⟩, h2, rfl⟩
        rw [h] at h2; cases h2; simp
    | reject w => simp [h]
  | stop e st p got => simp [Read.field]
  | reject w => simp [Read.field]

theorem Read.bind_reject {α β : Type} {r : Read α} {k : α → Nat → Read β} {w : Reject} :
    r.bind k = .reject w ↔ r = .reject w ∨ ∃ v p, r = .ok v p ∧ k v p = .reject w := by
  cases r <;> simp [Read.bind]

theorem Read.field_reject {β : Type} {r : Read Nat} {k : Nat → Nat → Read β} {w : Reject} :
    r.field k = .reject w ↔ r = .reject w ∨ ∃ v p, r = .ok v p ∧ k v p = .reject w := by
  cases r with
  | ok v p => simp only [Read.field]; cases h : k v p <;> simp [h]
  | stop e st p got => simp [Read.field]
  | reject w => simp [Read.field]

end Sys2Proof

namespace Sys2Proof.Machine

/-! ## The cursor and the sources -/

@[simp] theorem pos_setPos (s : State) (p : Nat) : (s.setPos p).pos = p := by
  simp [State.pos, State.setPos]; omega

theorem windowSrc_eq (s : State) (p : Nat) :
    windowSrc s p = if p / 8 < s.winEnd then some ((s.inByte (p / 8)).getLsbD (p % 8)) else none := rfl

theorem windowSrc_none (s : State) (p : Nat) : windowSrc s p = none ↔ s.winEnd ≤ p / 8 := by
  simp [windowSrc_eq]

theorem infSrc_none (s : State) (p : Nat) : infSrc s p = none ↔ s.infLen ≤ p / 8 := by
  simp [infSrc]

/-- A read of the window that answers: the cursor stands where the read ended and nothing else changed. -/
theorem readWindow_ok {α : Type} {r : Src → Nat → Read α} {s : State} {v : α} {p : Nat} (h : r (windowSrc s) s.pos = .ok v p) :
    readWindow r s = .ok v (s.setPos p) := by
  simp [readWindow, h]

/-- A read of the window that stops: the error is entered at the byte cursor. -/
theorem readWindow_stop {α : Type} {r : Src → Nat → Read α} {s : State} {e : ErrCode} {st : Stage} {p : Nat} {got : List Nat}
    (h : r (windowSrc s) s.pos = .stop e st p got) : readWindow r s = .trap (raise e st (p / 8) (s.setPos p)) := by
  simp [readWindow, h]

/-- All that `nextBits(n)` can do. -/
theorem nextBits_cases (st : Stage) (n : Nat) (s : State) :
    (∃ v, v < 2 ^ n ∧ (∀ k, k < n → windowSrc s (s.pos + k) = some (v.testBit k)) ∧
        nextBits st n s = .ok v (s.setPos (s.pos + n))) ∨
      (∃ k, k < n ∧ windowSrc s (s.pos + k) = none ∧
        nextBits st n s = .trap (raise .bounds st ((s.pos + k) / 8) (s.setPos (s.pos + k)))) := by
  rcases readBits_cases st (windowSrc s) n s.pos with ⟨v, hv, hb, hr⟩ | ⟨k, hk, -, hn, hr⟩
  · exact .inl ⟨v, hv, hb, readWindow_ok hr⟩
  · exact .inr ⟨k, hk, hn, readWindow_stop hr⟩

/-- The eight bits of a byte of the window. -/
theorem windowSrc_byte {s : State} {k : Nat} (h : k < s.winEnd) {j : Nat} (hj : j < 8) :
    windowSrc s (8 * k + j) = some ((s.inByte k).toNat.testBit j) := by
  rw [windowSrc_eq, show (8 * k + j) / 8 = k by omega, show (8 * k + j) % 8 = j by omega, if_pos h]
  rfl

/-- `nextByte()` with a byte left: the value is the byte at the boundary, and the cursor stands after it. -/
theorem nextByte_ok (st : Stage) {s : State} (h : alignUp s.pos / 8 < s.winEnd) :
    nextByte st s = .ok (s.inByte (alignUp s.pos / 8)).toNat (s.setPos (alignUp s.pos + 8)) := by
  refine readWindow_ok (readBits_field st (by simpa using (s.inByte (alignUp s.pos / 8)).isLt) ?_)
  have h8 : alignUp s.pos = 8 * (alignUp s.pos / 8) := by unfold alignUp; omega
  intro k hk
  conv_lhs => rw [h8]
  exact windowSrc_byte h hk

/-- `nextByte()` with no byte left. -/
theorem nextByte_trap (st : Stage) {s : State} (h : s.winEnd ≤ alignUp s.pos / 8) :
    nextByte st s = .trap (raise .bounds st (alignUp s.pos / 8) (s.setPos (alignUp s.pos))) := by
  refine readWindow_stop (got := []) ?_
  have hn : windowSrc s (alignUp s.pos) = none := (windowSrc_none s _).2 h
  rcases readBits_cases st (windowSrc s) 8 (alignUp s.pos) with ⟨v, -, hb, -⟩ | ⟨k, hk, hj, -, hr⟩
  · have := hb 0 (by omega); simp [hn] at this
  · have : k = 0 := by
      by_contra hne
      exact hj 0 (by omega) (by simpa using hn)
    subst this; simpa [readByte] using hr

end Sys2Proof.Machine
end

