-- ==== Sys2Proof/Laws/Ops.lean ====
section
/-! SUPPORT. One lemma for each shared operation, saying everything it can do; later proofs cite it and do not unfold the operation. -/

namespace Sys2Proof.Machine

/-! ## Runs -/

@[simp] theorem Run.bind_ok {α β : Type} (v : α) (s : State) (k : α → State → Run β) : (Run.ok v s).bind k = k v s := rfl
@[simp] theorem Run.bind_trap {α β : Type} (s : State) (k : α → State → Run β) : (Run.trap s : Run α).bind k = .trap s := rfl
@[simp] theorem Run.outcome_ok (s : State) : (Run.ok () s).outcome = .next s := rfl
@[simp] theorem Run.outcome_trap (s : State) : (Run.trap s : Run Unit).outcome = .next s := rfl

/-- Either way the answer is a next state. -/
theorem Run.outcome_next (r : Run Unit) : ∃ t, r.outcome = .next t := by
  cases r <;> exact ⟨_, rfl⟩

/-- The error entry forgets what the element had appended. -/
theorem raise_of_appended (e : ErrCode) (st : Stage) (k n q : Nat) (m p : Memory) (s : State) :
    raise e st k { s with infMem := m, infLen := n, pixMem := p, pixLen := q } = raise e st k s := rfl

theorem raise_appendInf (e : ErrCode) (st : Stage) (k : Nat) (b : Byte) (s : State) :
    raise e st k (appendInf b s) = raise e st k s := rfl

theorem raise_appendPix (e : ErrCode) (st : Stage) (k : Nat) (v : Byte) (s : State) :
    raise e st k (appendPix v s) = raise e st k s := rfl

/-! ## Appends -/

theorem put_cases (st : Stage) (b : Byte) (s : State) :
    (s.infLen < s.infCap ∧ put st b s = .ok () (appendInf b s)) ∨
      (s.infCap ≤ s.infLen ∧ put st b s = .trap (raise .overflow st s.bp s)) := by
  unfold put
  split_ifs with h
  · exact .inr ⟨h, rfl⟩
  · exact .inl ⟨by omega, rfl⟩

theorem readInf_cases (k : Nat) (s : State) :
    (k < s.infLen ∧ readInf k s = .ok (s.infByte k) s) ∨
      (s.infLen ≤ k ∧ readInf k s = .trap (raise .bounds .unfRow k s)) := by
  unfold readInf
  split_ifs with h
  · exact .inr ⟨h, rfl⟩
  · exact .inl ⟨by omega, rfl⟩

theorem writePix_cases (k : Nat) (v : Byte) (s : State) :
    (s.pixLen < s.pixCap ∧ writePix k v s = .ok () (appendPix v s)) ∨
      (s.pixCap ≤ s.pixLen ∧ writePix k v s = .trap (raise .overflow .unfRow k s)) := by
  unfold writePix
  split_ifs with h
  · exact .inr ⟨h, rfl⟩
  · exact .inl ⟨by omega, rfl⟩

/-! ## Copies -/

/-- The match copy appends `n` bytes, or enters the overflow error. -/
theorem copyMatch_cases (n : Nat) (s : State) :
    (s.infLen + n ≤ max s.infLen s.infCap ∧ ∃ m, (Memory.wf s.infMem = true → Memory.wf m = true) ∧
        (∀ a, a < s.infLen → Memory.read m a = Memory.read s.infMem a) ∧
        copyMatch n s = .ok () { s with infMem := m, infLen := s.infLen + n }) ∨
      (s.infCap < s.infLen + n ∧ copyMatch n s = .trap (raise .overflow .matching s.bp s)) := by
  induction n generalizing s with
  | zero => exact .inl ⟨by omega, s.infMem, id, fun _ _ => rfl, rfl⟩
  | succ n ih =>
    rcases put_cases .matching (s.infByte (s.infLen - s.mdist)) s with ⟨h, hp⟩ | ⟨h, hp⟩
    · rcases ih (appendInf (s.infByte (s.infLen - s.mdist)) s) with ⟨hn, m, hw, hold, hr⟩ | ⟨hn, hr⟩
      · simp only [appendInf_infLen, appendInf_infCap, appendInf_infMem] at hn hw hold
        refine .inl ⟨by omega, m, fun hs => hw (Memory.wf_write _ _ hs), fun a ha => ?_, ?_⟩
        · rw [hold a (by omega), Memory.read_write_other _ _ (by omega)]
        · simp only [copyMatch, hp, Run.bind_ok, hr, appendInf_infLen]
          rw [show s.infLen + 1 + n = s.infLen + (n + 1) by omega]; rfl
      · simp only [appendInf_infLen, appendInf_infCap] at hn
        exact .inr ⟨by omega, by simp only [copyMatch, hp, Run.bind_ok, hr]; rfl⟩
    · exact .inr ⟨by omega, by simp only [copyMatch, hp, Run.bind_trap]⟩

/-- The stored copy appends `n` bytes and moves the cursor, or enters one of its two errors with the cursor within the window. -/
theorem copyStored_cases (n : Nat) (s : State) :
    (s.infLen + n ≤ max s.infLen s.infCap ∧ ∃ m p, (Memory.wf s.infMem = true → Memory.wf m = true) ∧
        (∀ a, a < s.infLen → Memory.read m a = Memory.read s.infMem a) ∧
        s.pos ≤ p ∧ p ≤ max s.pos (8 * s.winEnd) ∧
        copyStored n s = .ok () { s.setPos p with infMem := m, infLen := s.infLen + n }) ∨
      (∃ e k p, (e = .bounds ∧ s.winEnd ≤ p / 8 ∨ e = .overflow) ∧ s.pos ≤ p ∧ k = p / 8 ∧ p ≤ max (alignUp s.pos) (8 * s.winEnd) ∧
        copyStored n s = .trap (raise e .stored k (s.setPos p))) := by
  have hset (t : State) : t.setPos t.pos = t := by
    have h1 : (8 * t.bp + t.bb.toNat) / 8 = t.bp := by have := t.bb.isLt; omega
    have h2 : BitVec.ofNat 3 (8 * t.bp + t.bb.toNat) = t.bb := by
      apply BitVec.eq_of_toNat_eq
      have := t.bb.isLt
      simp; omega
    simp only [State.setPos, State.pos, h1, h2]
  induction n generalizing s with
  | zero => exact .inl ⟨by omega, s.infMem, s.pos, id, fun _ _ => rfl, by omega, by omega, by simp only [copyStored, hset]; rfl⟩
  | succ n ih =>
    have ha := le_alignUp s.pos
    have ha8 : alignUp s.pos % 8 = 0 := by unfold alignUp; omega
    by_cases hw : alignUp s.pos / 8 < s.winEnd
    · have hb := nextByte_ok .stored hw
      generalize hu : s.setPos (alignUp s.pos + 8) = u at hb
      have hul : u.infLen = s.infLen := by rw [← hu]; rfl
      have huc : u.infCap = s.infCap := by rw [← hu]; rfl
      have hum : u.infMem = s.infMem := by rw [← hu]; rfl
      have hup : u.pos = alignUp s.pos + 8 := by rw [← hu, pos_setPos]
      have hue : u.winEnd = s.winEnd := by rw [← hu]; rfl
      rcases put_cases .stored (BitVec.ofNat 8 (s.inByte (alignUp s.pos / 8)).toNat) u with ⟨h, hp⟩ | ⟨h, hp⟩
      · rcases ih (appendInf (BitVec.ofNat 8 (s.inByte (alignUp s.pos / 8)).toNat) u) with
          ⟨hn, m, p, hwf, hold, h1, h2, hr⟩ | ⟨e, k, p, he, h1, hk, h2, hr⟩
        · simp only [appendInf_infLen, appendInf_infCap, appendInf_infMem, hul, huc, hum] at hn hwf hold
          have hpos : (appendInf (BitVec.ofNat 8 (s.inByte (alignUp s.pos / 8)).toNat) u).pos = alignUp s.pos + 8 := by
            rw [← hup]; rfl
          rw [hpos] at h1 h2
          simp only [appendInf_winEnd, hue] at h2
          refine .inl ⟨by omega, m, p, fun hs => hwf (Memory.wf_write _ _ hs), fun a ha => ?_, by omega, by omega, ?_⟩
          · rw [hold a (by omega), Memory.read_write_other _ _ (by omega)]
          · simp only [copyStored, hb, Run.bind_ok, hp, hr, appendInf_infLen, hul]
            rw [show s.infLen + 1 + n = s.infLen + (n + 1) by omega, ← hu]; rfl
        · have hpos : (appendInf (BitVec.ofNat 8 (s.inByte (alignUp s.pos / 8)).toNat) u).pos = alignUp s.pos + 8 := by
            rw [← hup]; rfl
          rw [hpos] at h1 h2
          have haa : alignUp (alignUp s.pos + 8) = alignUp s.pos + 8 := by unfold alignUp; omega
          rw [haa] at h2
          simp only [appendInf_winEnd, hue] at h2 he
          refine .inr ⟨e, k, p, he, by omega, hk, by omega, ?_⟩
          simp only [copyStored, hb, Run.bind_ok, hp, hr]
          rw [← hu]; rfl
      · refine .inr ⟨.overflow, u.bp, alignUp s.pos + 8, .inr rfl, by omega, by rw [← hu]; rfl, by omega, ?_⟩
        simp only [copyStored, hb, Run.bind_ok, hp, Run.bind_trap]
        rw [← hu]
    · refine .inr ⟨.bounds, _, alignUp s.pos, .inl ⟨rfl, Nat.le_of_not_lt hw⟩, ha, rfl, by omega, ?_⟩
      simp only [copyStored, nextByte_trap .stored (Nat.le_of_not_lt hw), Run.bind_trap]

/-- The bytes of a row are appended to `PIX`, or one of the two errors is entered. -/
theorem rowBytes_cases (f : Byte → Byte → Byte → Byte → Byte) (n j : Nat) (s : State) :
    (s.pixLen + n ≤ max s.pixLen s.pixCap ∧ (0 < n → s.rowBase + 1 + j + n ≤ s.infLen) ∧
        ∃ m, (Memory.wf s.pixMem = true → Memory.wf m = true) ∧
          (∀ a, a < s.pixLen → Memory.read m a = Memory.read s.pixMem a) ∧
          rowBytes f n j s = .ok () { s with pixMem := m, pixLen := s.pixLen + n }) ∨
      (∃ e k, k < n ∧ (e = .bounds ∧ s.infLen ≤ s.rowBase + 1 + j + k ∨ e = .overflow ∧ s.pixCap ≤ s.pixLen + k) ∧
        (∀ i, i < k → s.rowBase + 1 + j + i < s.infLen ∧ s.pixLen + i < s.pixCap) ∧
        rowBytes f n j s = .trap (raise e .unfRow (s.rowBase + 1 + j + k) s)) := by
  induction n generalizing j s with
  | zero => exact .inl ⟨by omega, by omega, s.pixMem, id, fun _ _ => rfl, rfl⟩
  | succ n ih =>
    rcases readInf_cases (s.rowBase + 1 + j) s with ⟨h, hi⟩ | ⟨h, hi⟩
    · generalize hv : f (s.infByte (s.rowBase + 1 + j)) (neighbourA s j) (neighbourB s j) (neighbourC s j) = v
      rcases writePix_cases (s.rowBase + 1 + j) v s with ⟨h', hp⟩ | ⟨h', hp⟩
      · have hb : (appendPix v s).rowBase = s.rowBase := rfl
        rcases ih (j + 1) (appendPix v s) with ⟨hn, hl, m, hw, hold, hr⟩ | ⟨e, k, hk, hc, hall, hr⟩
        · simp only [appendPix_pixLen, appendPix_pixCap, appendPix_pixMem, appendPix_infLen, hb] at hn hl hw hold
          refine .inl ⟨by omega, fun _ => ?_, m, fun hs => hw (Memory.wf_write _ _ hs), fun a ha => ?_, ?_⟩
          · rcases Nat.eq_zero_or_pos n with rfl | hpos
            · omega
            · have := hl hpos; omega
          · rw [hold a (by omega), Memory.read_write_other _ _ (by omega)]
          · simp only [rowBytes, hi, Run.bind_ok, hv, hp, hr, appendPix_pixLen]
            rw [show s.pixLen + 1 + n = s.pixLen + (n + 1) by omega]; rfl
        · simp only [appendPix_pixLen, appendPix_pixCap, appendPix_infLen, hb] at hc hall
          refine .inr ⟨e, k + 1, by omega, ?_, ?_, ?_⟩
          · rcases hc with ⟨h1, h2⟩ | ⟨h1, h2⟩
            · exact .inl ⟨h1, by omega⟩
            · exact .inr ⟨h1, by omega⟩
          · intro i hik
            cases i with
            | zero => exact ⟨by omega, by omega⟩
            | succ i => have := hall i (by omega); omega
          · simp only [rowBytes, hi, Run.bind_ok, hv, hp, hr, hb]
            rw [show s.rowBase + 1 + (j + 1) + k = s.rowBase + 1 + j + (k + 1) by omega, raise_appendPix]
      · exact .inr ⟨.overflow, 0, by omega, .inr ⟨rfl, by omega⟩, by omega, by
          simp only [rowBytes, hi, Run.bind_ok, hv, hp, Run.bind_trap]; rfl⟩
    · exact .inr ⟨.bounds, 0, by omega, .inl ⟨rfl, by omega⟩, by omega, by
        simp only [rowBytes, hi, Run.bind_trap]; rfl⟩

/-! ## Code lengths and tables -/

/-- What `fillLens` leaves at an index. -/
theorem fillLens_get (v : BitVec 4) (n k : Nat) (lens : Vector (BitVec 4) 320) (j : Nat) (hj : j < 320) :
    (fillLens v n k lens)[j] = if k ≤ j ∧ j < k + n then v else lens[j] := by
  induction n generalizing k lens with
  | zero => rw [fillLens, if_neg (by omega)]
  | succ n ih =>
    rw [fillLens, ih]
    by_cases hk : k = j
    · subst hk; simp
    · rw [Vector.getElem_setIfInBounds_ne _ hk]
      congr 1
      simp only [eq_iff_iff]; omega

theorem lengthRun_cases (r : Nat) (v : BitVec 4) (s : State) :
    (s.nlens + r ≤ s.total ∧ lengthRun r v s = nextLength (appendLens r v s)) ∨
      (s.total < s.nlens + r ∧ lengthRun r v s = raise .codeLen .dynLengths s.bp s) := by
  unfold lengthRun
  split_ifs with h
  · exact .inr ⟨h, rfl⟩
  · exact .inl ⟨by omega, rfl⟩

theorem buildCL_cases (s : State) :
    (∃ t, build (s.cllen.toList.map BitVec.toNat) = some t ∧ buildCL s = { s with clT := t, nlens := 0, phase := .dynLengths }) ∨
      (build (s.cllen.toList.map BitVec.toNat) = none ∧ buildCL s = raise .codeLen .tableBuild s.bp s) := by
  unfold buildCL
  cases h : build (s.cllen.toList.map BitVec.toNat) with
  | some t => exact .inl ⟨t, rfl, rfl⟩
  | none => exact .inr ⟨rfl, rfl⟩

theorem dynBuild_cases (s : State) :
    (∃ t u, build (llLengths s) = some t ∧ build (dLengths s) = some u ∧
        dynBuild s = { s with dynLL := t, dynD := u, llSel := .dyn, dSel := .dyn, phase := .symbol }) ∨
      (build (llLengths s) = none ∧ dynBuild s = raise .codeLen .tableBuild s.bp s) ∨
      (∃ t, build (llLengths s) = some t ∧ build (dLengths s) = none ∧
        dynBuild s = raise .codeLen .tableBuild s.bp { s with dynLL := t }) := by
  unfold dynBuild
  cases h : build (llLengths s) with
  | none => exact .inr (.inl ⟨rfl, rfl⟩)
  | some t =>
    have hd : dLengths { s with dynLL := t } = dLengths s := rfl
    simp only [buildD, hd]
    cases h' : build (dLengths s) with
    | none => exact .inr (.inr ⟨t, rfl, rfl, rfl⟩)
    | some u => exact .inl ⟨t, u, rfl, rfl, rfl⟩

theorem blockEnd_cases (s : State) :
    (s.bfinal = false ∧ blockEnd s = { s with phase := .blockHeader }) ∨
      (s.bfinal = true ∧ s.op = 4 ∧ blockEnd s = { s with phase := .unfCfg }) ∨
      (s.bfinal = true ∧ s.op ≠ 4 ∧ blockEnd s = enterDone s) := by
  unfold blockEnd
  cases hb : s.bfinal with
  | false => exact .inl ⟨rfl, by simp⟩
  | true =>
    by_cases ho : s.op = 4
    · exact .inr (.inl ⟨rfl, ho, by simp [ho]⟩)
    · exact .inr (.inr ⟨rfl, ho, by simp only [Bool.not_true, Bool.false_eq_true, if_false, beq_iff_eq, ho]⟩)

theorem unfConfig_cases (s : State) :
    (channels s.colorType = none ∧ unfConfig s = raise .color .unfCfg 0 s) ∨
      (∃ ch, channels s.colorType = some ch ∧ s.bitDepth = 0 ∧ unfConfig s = raise .geom .unfCfg 0 s) ∨
      (∃ ch, channels s.colorType = some ch ∧ s.bitDepth ≠ 0 ∧ s.height = 0 ∧
        unfConfig s = enterDone (latchGeometry (ch * ((s.bitDepth.toNat + 7) / 8)) s)) ∨
      (∃ ch, channels s.colorType = some ch ∧ s.bitDepth ≠ 0 ∧ s.height ≠ 0 ∧
        unfConfig s = { latchGeometry (ch * ((s.bitDepth.toNat + 7) / 8)) s with phase := .unfRow }) := by
  unfold unfConfig
  cases hc : channels s.colorType with
  | none => exact .inl ⟨rfl, rfl⟩
  | some ch =>
    refine .inr ?_
    dsimp only
    split_ifs with hb hh
    · exact .inl ⟨ch, rfl, hb, rfl⟩
    · exact .inr (.inl ⟨ch, rfl, hb, hh, rfl⟩)
    · exact .inr (.inr ⟨ch, rfl, hb, hh, rfl⟩)

/-- The channel counts are 1 to 4. -/
theorem channels_bounds {c : Byte} {n : Nat} (h : channels c = some n) : 1 ≤ n ∧ n ≤ 4 := by
  unfold channels at h
  split_ifs at h <;> cases h <;> omega

/-! ## Starting -/

theorem start_cases (s : State) :
    (s.inflates = true ∧ s.inLen ≤ s.inCap ∧ start s = { startClear s with phase := .envelope }) ∨
      (s.op = 3 ∧ s.infLen ≤ s.infCap ∧ start s = { startClear s with phase := .unfCfg }) ∨
      (start s = raise .cmd .cmd 0 (startClear s)) := by
  unfold start
  split_ifs with h h1 h2 h3
  · exact .inr (.inr rfl)
  · exact .inr (.inr rfl)
  · exact .inr (.inr rfl)
  · refine .inr (.inl ⟨by simpa using h3, ?_, rfl⟩)
    simp only [Bool.and_eq_true, decide_eq_true_eq, not_and] at h2
    exact Nat.le_of_not_lt (h2 h3)
  · have hi : s.inflates = true := by
      simp only [Bool.not_eq_true', Bool.not_eq_false, Bool.or_eq_true] at h
      exact h.resolve_right h3
    refine .inl ⟨hi, ?_, rfl⟩
    simp only [Bool.and_eq_true, decide_eq_true_eq, not_and] at h1
    exact Nat.le_of_not_lt (h1 hi)

theorem hostWrite_busy (r : HostReg) (v : Word) {s : State} (h : s.busy = true) : hostWrite r v s = s := by
  simp [hostWrite, h]

/-! ## Elements -/

/-- Every element runs: it answers a next state, whatever the state. -/
theorem exec_next (i : Instr) (s : State) : ∃ t, exec i s = .next t := by
  have hd (v d : Nat) (s : State) : ∃ t, distanceElement v d s = .next t := by
    unfold distanceElement
    split_ifs
    · exact ⟨_, rfl⟩
    · exact Run.outcome_next _
  cases i
  all_goals first
    | exact ⟨_, rfl⟩
    | exact Run.outcome_next _
    | exact hd _ _ _

/-- A length element is one of the 29 length symbols with a length 3 to 258. -/
theorem exec_length {i : Instr} (hf : i.format = .ll) (h1 : 257 ≤ i.selector) (h2 : i.selector ≤ 285) :
    ∃ n, 3 ≤ n ∧ n ≤ 258 ∧ ∀ s, exec i s = lengthElement i.selector n s := by
  cases i <;> simp only [Instr.format, reduceCtorEq] at hf <;> simp only [Instr.selector] at h1 h2 <;> try omega
  all_goals exact ⟨_, by omega, by omega, fun s => rfl⟩

/-- A distance element is one of the 30 distance symbols with a distance 1 to 32768. -/
theorem exec_distance {i : Instr} (hf : i.format = .d) (h : i.selector ≤ 29) :
    ∃ d, 1 ≤ d ∧ d ≤ 32768 ∧ ∀ s, exec i s = distanceElement i.selector d s := by
  cases i <;> simp only [Instr.format, reduceCtorEq] at hf <;> simp only [Instr.selector] at h <;> try omega
  all_goals exact ⟨_, by omega, by omega, fun s => rfl⟩

/-- The copy of a distance element: too far, or the copy with the registers latched. -/
theorem distanceElement_cases (v d : Nat) (s : State) :
    (s.infLen < d ∧ distanceElement v d s = .next (raise .dist .matching s.bp (latchDistance v d s))) ∨
      (d ≤ s.infLen ∧ distanceElement v d s = (copyMatch s.mlen (latchDistance v d s)).outcome) := by
  unfold distanceElement
  split_ifs with h
  · exact .inl ⟨h, rfl⟩
  · exact .inr ⟨by omega, rfl⟩

/-! ## Steps -/

theorem fetchElement_cases (f : Format) (s : State) :
    (f = .zHdr ∧ s.inLen < 6 ∧ fetchElement f s = .trap (raise .bounds .envelope s.bp s)) ∨
      (¬ (f = .zHdr ∧ s.inLen < 6) ∧
        ((∃ i p, decode f (tableFor f s) (sourceFor f s) (startOf f s) = .ok i p ∧ fetchElement f s = .got i (advance f p s)) ∨
          (∃ e st p got, decode f (tableFor f s) (sourceFor f s) (startOf f s) = .stop e st p got ∧
            fetchElement f s = .trap (raise e st (p / 8) (latch f got (advance f p s)))) ∨
          (∃ g v, decode f (tableFor f s) (sourceFor f s) (startOf f s) = .reject (.noElement g v) ∧
            fetchElement f s = .reject g v))) := by
  unfold fetchElement
  split_ifs with h
  · exact .inl ⟨h.1, h.2, rfl⟩
  · refine .inr ⟨h, ?_⟩
    cases hd : decode f (tableFor f s) (sourceFor f s) (startOf f s) with
    | ok i p => exact .inl ⟨i, p, rfl, rfl⟩
    | stop e st p got => exact .inr (.inl ⟨e, st, p, got, rfl, rfl⟩)
    | reject r => cases r with | noElement g v => exact .inr (.inr ⟨g, v, rfl, rfl⟩)

theorem coreStep_cases (s : State) :
    (s.busy = false ∧ coreStep s = .next s) ∨
      (s.busy = true ∧ expected s = none ∧ coreStep s = .next (phaseStep s)) ∨
      (∃ f, s.busy = true ∧ expected s = some f ∧ coreStep s = runElement f s) := by
  unfold coreStep
  cases hb : s.busy with
  | false => exact .inl ⟨rfl, by simp⟩
  | true =>
    cases he : expected s with
    | none => exact .inr (.inl ⟨rfl, rfl, by simp⟩)
    | some f => exact .inr (.inr ⟨f, rfl, rfl, by simp⟩)

/-- One step is a move of the host, or a step of the core with the host's queue as the move leaves it. -/
theorem step_cases (s : State) :
    (s.host = [] ∧ step s = coreStep s) ∨
      (∃ q, s.host = .pass :: q ∧ step s = coreStep { s with host := q }) ∨
      (∃ q, s.host = .wait :: q ∧ s.busy = true ∧ step s = coreStep s) ∨
      (∃ q, s.host = .wait :: q ∧ s.busy = false ∧ step s = .next { s with host := q }) ∨
      (∃ m q, s.host = m :: q ∧ m ≠ .pass ∧ m ≠ .wait ∧ step s = hostMove m { s with host := q }) := by
  cases h : s.host with
  | nil => exact .inl ⟨rfl, by simp [step, h]⟩
  | cons m q =>
    cases m
    case pass => exact .inr (.inl ⟨q, rfl, by simp [step, h]⟩)
    case wait =>
      cases hb : s.busy with
      | true => exact .inr (.inr (.inl ⟨q, rfl, rfl, by simp [step, h, hb]⟩))
      | false => exact .inr (.inr (.inr (.inl ⟨q, rfl, rfl, by simp [step, h, hb]⟩)))
    all_goals exact .inr (.inr (.inr (.inr ⟨_, q, rfl, by simp, by simp, by simp [step, h]⟩)))

end Sys2Proof.Machine
end

