-- ==== Sys2Proof/Laws/PerInstr.lean ====
section
/-! SUPPORT. Per element: reading back the bits that the encoder gives an element, besides its Huffman code, gives the element. -/

namespace Sys2Proof.Laws

section

set_option Elab.async false

theorem Holds_append {get : Src} {p : Nat} {a b : List Bool} (h : Holds get p (a ++ b)) :
    Holds get p a ∧ Holds get (p + a.length) b := by
  refine ⟨fun k hk => ?_, fun k hk => ?_⟩
  · have := h k (by rw [List.length_append]; omega)
    rwa [List.getElem?_append_left hk] at this
  · have := h (a.length + k) (by rw [List.length_append]; omega)
    rwa [List.getElem?_append_right (by omega), show a.length + k - a.length = k by omega, ← Nat.add_assoc] at this

/-- The low bits of a field, read back. -/
theorem readBits_holds {get : Src} {p n : Nat} (v : Nat) (st : Stage) (h : Holds get p (bitsLSB n v)) :
    readBits st get n p = .ok (v % 2 ^ n) (p + n) := by
  refine readBits_field st (Nat.mod_lt _ (Nat.two_pow_pos n)) fun k hk => ?_
  have := h k (by rw [bitsLSB_length]; exact hk)
  rw [this, Nat.testBit_mod_two_pow]
  simp [bitsLSB, hk]

/-- A whole field whose value fits. -/
theorem readBits_holds_of_lt {get : Src} {p n v : Nat} (st : Stage) (hv : v < 2 ^ n) (h : Holds get p (bitsLSB n v)) :
    readBits st get n p = .ok v (p + n) := by
  rw [readBits_holds v st h, Nat.mod_eq_of_lt hv]

theorem readBits_holds_bitVec {get : Src} {p n : Nat} (x : BitVec n) (st : Stage) (h : Holds get p (bitsLSB n x.toNat)) :
    readBits st get n p = .ok x.toNat (p + n) :=
  readBits_holds_of_lt st x.isLt h

theorem readByte_holds {get : Src} {p : Nat} (v : Nat) (st : Stage) (h : Holds get (alignUp p) (bitsLSB 8 v)) :
    readByte st get p = .ok (v % 256) (alignUp p + 8) := readBits_holds v st h

/-- After a whole byte the position is a boundary again. -/
theorem alignUp_byte (p : Nat) : alignUp (alignUp p + 8) = alignUp p + 8 := by
  unfold alignUp; omega

/-- A byte read at a boundary. -/
theorem readByte_next {get : Src} {p q : Nat} (v : Nat) (st : Stage) (hq : q % 8 = 0) (hp : p = q)
    (h : Holds get q (bitsLSB 8 v)) : readByte st get p = .ok (v % 256) (q + 8) := by
  subst hp
  have ha : alignUp p = p := by unfold alignUp; omega
  have := readByte_holds (p := p) v st (by rwa [ha])
  rwa [ha] at this

/-- The sixteen bits of a field are its low byte, then its high byte. -/
theorem bitsLSB_sixteen (v : Nat) : bitsLSB 16 v = bitsLSB 8 v ++ bitsLSB 8 (v / 256) := by
  simp only [bitsLSB, List.range_succ_eq_map, List.range_zero, List.map_cons, List.map_nil, List.cons_append, List.nil_append]
  have h (k : Nat) : (v / 256).testBit k = v.testBit (k + 8) := by
    rw [show (256 : Nat) = 2 ^ 8 from rfl, Nat.testBit_div_two_pow, Nat.add_comm]
  simp only [h]

theorem readLens_holds (get : Src) (cls : List (BitVec 3)) (p : Nat) (h : Holds get p (cls.flatMap fun x => bitsLSB 3 x.toNat)) :
    readLens get cls.length p = .ok (cls.map BitVec.toNat) (p + (cls.flatMap fun x => bitsLSB 3 x.toNat).length) := by
  induction cls generalizing p with
  | nil => rfl
  | cons x cls ih =>
    rw [List.flatMap_cons] at h
    obtain ⟨hx, hr⟩ := Holds_append h
    rw [bitsLSB_length] at hr
    rw [List.length_cons, readLens, readBits_holds_bitVec x .dynHeader hx]
    simp only [Read.field, ih (p + 3) hr, Read.bind, List.map_cons, List.flatMap_cons, List.length_append, bitsLSB_length]
    rw [Nat.add_assoc]

/-- What a family's statement says of an element: the reading of its format, from the bits its encoding has besides a code, gives
it back and ends after them. -/
def Selector.Statement (i : Instr) : Prop :=
  i.wf = true → ∀ (get : Src) (p : Nat),
    match i.format with
    | .cl => Holds get p i.operandBits → readCL get i.selector p = .ok i (p + i.operandBits.length)
    | .ll => Holds get p i.operandBits → readLL get i.selector p = .ok i (p + i.operandBits.length)
    | .d => Holds get p i.operandBits → readD get i.selector p = .ok i (p + i.operandBits.length)
    | .bh => Holds get p (i.operandBits ++ bitsLSB 2 i.selector) → readBH get p = .ok i (p + 3)
    | .dh => Holds get p i.operandBits → readDH get p = .ok i (p + i.operandBits.length)
    | .st => Holds get (alignUp p) i.operandBits → readST get p = .ok i (alignUp p + 32)
    | .row => Holds get (alignUp p) (bitsLSB 8 i.selector) → readRow get p = .ok i (alignUp p + 8)
    | .zHdr => Holds get (alignUp p) i.operandBits → readZHdr get p = .ok i (alignUp p + 16)
    | .zTrl => Holds get (alignUp p) i.operandBits → readZTrl get p = .ok i (alignUp p + 32)

/-! ## One lemma per element -/

theorem Selector.blkStored (final : Bool) : Selector.Statement (.blkStored final) := by
  intro _ get p h
  obtain ⟨h1, h2⟩ := Holds_append h
  have e1 : readBits .blockHeader get 1 p = .ok final.toNat (p + 1) :=
    readBits_holds_of_lt _ (by cases final <;> decide) (by cases final <;> exact h1)
  have e2 := readBits_holds_of_lt .blockHeader (by simp [Instr.selector]) h2
  simp only [Instr.operandBits, List.length_cons, List.length_nil, Nat.zero_add] at e2
  cases final <;> simp [readBH, e1, e2, Read.field, Instr.selector, blockInstr]

theorem Selector.blkFixed (final : Bool) : Selector.Statement (.blkFixed final) := by
  intro _ get p h
  obtain ⟨h1, h2⟩ := Holds_append h
  have e1 : readBits .blockHeader get 1 p = .ok final.toNat (p + 1) :=
    readBits_holds_of_lt _ (by cases final <;> decide) (by cases final <;> exact h1)
  have e2 := readBits_holds_of_lt .blockHeader (by simp [Instr.selector]) h2
  simp only [Instr.operandBits, List.length_cons, List.length_nil, Nat.zero_add] at e2
  cases final <;> simp [readBH, e1, e2, Read.field, Instr.selector, blockInstr]

theorem Selector.blkDyn (final : Bool) : Selector.Statement (.blkDyn final) := by
  intro _ get p h
  obtain ⟨h1, h2⟩ := Holds_append h
  have e1 : readBits .blockHeader get 1 p = .ok final.toNat (p + 1) :=
    readBits_holds_of_lt _ (by cases final <;> decide) (by cases final <;> exact h1)
  have e2 := readBits_holds_of_lt .blockHeader (by simp [Instr.selector]) h2
  simp only [Instr.operandBits, List.length_cons, List.length_nil, Nat.zero_add] at e2
  cases final <;> simp [readBH, e1, e2, Read.field, Instr.selector, blockInstr]

theorem Selector.blkRsvd (final : Bool) : Selector.Statement (.blkRsvd final) := by
  intro _ get p h
  obtain ⟨h1, h2⟩ := Holds_append h
  have e1 : readBits .blockHeader get 1 p = .ok final.toNat (p + 1) :=
    readBits_holds_of_lt _ (by cases final <;> decide) (by cases final <;> exact h1)
  have e2 := readBits_holds_of_lt .blockHeader (by simp [Instr.selector]) h2
  simp only [Instr.operandBits, List.length_cons, List.length_nil, Nat.zero_add] at e2
  cases final <;> simp [readBH, e1, e2, Read.field, Instr.selector, blockInstr]

theorem Selector.stBody (len : BitVec 16) (nlen : BitVec 16) : Selector.Statement (.stBody len nlen) := by
  intro _ get p h
  simp only [Instr.operandBits, bitsLSB_sixteen] at h
  obtain ⟨h12, h34⟩ := Holds_append h
  obtain ⟨h1, h2⟩ := Holds_append h12
  obtain ⟨h3, h4⟩ := Holds_append h34
  simp only [List.length_append, bitsLSB_length, Nat.add_assoc] at h2 h3 h4
  have ha : alignUp p % 8 = 0 := by unfold alignUp; omega
  have e1 := readByte_holds len.toNat .stored h1
  have e2 := readByte_next (len.toNat / 256) .stored (by omega) rfl h2
  have e3 := readByte_next (p := alignUp p + 8 + 8) nlen.toNat .stored (by omega) (by omega) h3
  have e4 := readByte_next (p := alignUp p + (8 + 8) + 8) (nlen.toNat / 256) .stored (by omega) (by omega) h4
  have l1 : BitVec.ofNat 16 (len.toNat % 256 + 256 * (len.toNat / 256 % 256)) = len := by
    rw [show len.toNat % 256 + 256 * (len.toNat / 256 % 256) = len.toNat by omega]; simp
  have l2 : BitVec.ofNat 16 (nlen.toNat % 256 + 256 * (nlen.toNat / 256 % 256)) = nlen := by
    rw [show nlen.toNat % 256 + 256 * (nlen.toNat / 256 % 256) = nlen.toNat by omega]; simp
  simp only [readST, Read.field, e1, e2, e3, e4, l1, l2]

theorem Selector.dynHdr (hlit : BitVec 5) (hdist : BitVec 5) (hclen : BitVec 4) (cls : List (BitVec 3)) : Selector.Statement (.dynHdr hlit hdist hclen cls) := by
  intro hw get p h
  simp only [Instr.operandBits] at h
  obtain ⟨h123, h4⟩ := Holds_append h
  obtain ⟨h12, h3⟩ := Holds_append h123
  obtain ⟨h1, h2⟩ := Holds_append h12
  simp only [List.length_append, bitsLSB_length, ← Nat.add_assoc] at h2 h3 h4
  have e1 := readBits_holds_bitVec hlit .dynHeader h1
  have e2 := readBits_holds_bitVec hdist .dynHeader h2
  have e3 := readBits_holds_bitVec hclen .dynHeader h3
  have hl : hclen.toNat + 4 = cls.length := by simp only [Instr.wf, beq_iff_eq] at hw; omega
  have e4 := readLens_holds get cls _ h4
  rw [← hl] at e4
  have hm : (cls.map BitVec.toNat).map (BitVec.ofNat 3) = cls := by simp [Function.comp_def]
  simp only [readDH, Read.field, e1, e2, e3, e4, Read.bind, hm, BitVec.ofNat_toNat, BitVec.setWidth_eq, Instr.operandBits,
    List.length_append, bitsLSB_length, ← Nat.add_assoc]

theorem Selector.clLen (v : BitVec 4) : Selector.Statement (.clLen v) := by
  intro _ get p _
  simp [readCL, Instr.selector, Instr.operandBits, v.isLt]

theorem Selector.clRep (x : BitVec 2) : Selector.Statement (.clRep x) := by
  intro _ get p h
  simp [readCL, Instr.selector, Instr.operandBits, bitsLSB_length, readBits_holds_bitVec x .dynLengths h, Read.bind]

theorem Selector.clZ3 (x : BitVec 3) : Selector.Statement (.clZ3 x) := by
  intro _ get p h
  simp [readCL, Instr.selector, Instr.operandBits, bitsLSB_length, readBits_holds_bitVec x .dynLengths h, Read.bind]

theorem Selector.clZ11 (x : BitVec 7) : Selector.Statement (.clZ11 x) := by
  intro _ get p h
  simp [readCL, Instr.selector, Instr.operandBits, bitsLSB_length, readBits_holds_bitVec x .dynLengths h, Read.bind]

theorem Selector.lit (b : BitVec 8) : Selector.Statement (.lit b) := by
  intro _ get p _
  simp [readLL, Instr.selector, Instr.operandBits, b.isLt]

theorem Selector.eob : Selector.Statement .eob := by
  intro _ get p _
  simp [readLL, Instr.selector, Instr.operandBits]

theorem Selector.len257 : Selector.Statement .len257 := by
  intro _ get p _
  simp [readLL, Instr.selector, Instr.operandBits, lExt, readBits, Read.bind, orReject, lengthInstr]

theorem Selector.len258 : Selector.Statement .len258 := by
  intro _ get p _
  simp [readLL, Instr.selector, Instr.operandBits, lExt, readBits, Read.bind, orReject, lengthInstr]

theorem Selector.len259 : Selector.Statement .len259 := by
  intro _ get p _
  simp [readLL, Instr.selector, Instr.operandBits, lExt, readBits, Read.bind, orReject, lengthInstr]

theorem Selector.len260 : Selector.Statement .len260 := by
  intro _ get p _
  simp [readLL, Instr.selector, Instr.operandBits, lExt, readBits, Read.bind, orReject, lengthInstr]

theorem Selector.len261 : Selector.Statement .len261 := by
  intro _ get p _
  simp [readLL, Instr.selector, Instr.operandBits, lExt, readBits, Read.bind, orReject, lengthInstr]

theorem Selector.len262 : Selector.Statement .len262 := by
  intro _ get p _
  simp [readLL, Instr.selector, Instr.operandBits, lExt, readBits, Read.bind, orReject, lengthInstr]

theorem Selector.len263 : Selector.Statement .len263 := by
  intro _ get p _
  simp [readLL, Instr.selector, Instr.operandBits, lExt, readBits, Read.bind, orReject, lengthInstr]

theorem Selector.len264 : Selector.Statement .len264 := by
  intro _ get p _
  simp [readLL, Instr.selector, Instr.operandBits, lExt, readBits, Read.bind, orReject, lengthInstr]

theorem Selector.len265 (x : BitVec 1) : Selector.Statement (.len265 x) := by
  intro _ get p h
  simp [readLL, Instr.selector, Instr.operandBits, lExt, bitsLSB_length, readBits_holds_bitVec x .matching h, Read.bind, orReject,
    lengthInstr]

theorem Selector.len266 (x : BitVec 1) : Selector.Statement (.len266 x) := by
  intro _ get p h
  simp [readLL, Instr.selector, Instr.operandBits, lExt, bitsLSB_length, readBits_holds_bitVec x .matching h, Read.bind, orReject,
    lengthInstr]

theorem Selector.len267 (x : BitVec 1) : Selector.Statement (.len267 x) := by
  intro _ get p h
  simp [readLL, Instr.selector, Instr.operandBits, lExt, bitsLSB_length, readBits_holds_bitVec x .matching h, Read.bind, orReject,
    lengthInstr]

theorem Selector.len268 (x : BitVec 1) : Selector.Statement (.len268 x) := by
  intro _ get p h
  simp [readLL, Instr.selector, Instr.operandBits, lExt, bitsLSB_length, readBits_holds_bitVec x .matching h, Read.bind, orReject,
    lengthInstr]

theorem Selector.len269 (x : BitVec 2) : Selector.Statement (.len269 x) := by
  intro _ get p h
  simp [readLL, Instr.selector, Instr.operandBits, lExt, bitsLSB_length, readBits_holds_bitVec x .matching h, Read.bind, orReject,
    lengthInstr]

theorem Selector.len270 (x : BitVec 2) : Selector.Statement (.len270 x) := by
  intro _ get p h
  simp [readLL, Instr.selector, Instr.operandBits, lExt, bitsLSB_length, readBits_holds_bitVec x .matching h, Read.bind, orReject,
    lengthInstr]

theorem Selector.len271 (x : BitVec 2) : Selector.Statement (.len271 x) := by
  intro _ get p h
  simp [readLL, Instr.selector, Instr.operandBits, lExt, bitsLSB_length, readBits_holds_bitVec x .matching h, Read.bind, orReject,
    lengthInstr]

theorem Selector.len272 (x : BitVec 2) : Selector.Statement (.len272 x) := by
  intro _ get p h
  simp [readLL, Instr.selector, Instr.operandBits, lExt, bitsLSB_length, readBits_holds_bitVec x .matching h, Read.bind, orReject,
    lengthInstr]

theorem Selector.len273 (x : BitVec 3) : Selector.Statement (.len273 x) := by
  intro _ get p h
  simp [readLL, Instr.selector, Instr.operandBits, lExt, bitsLSB_length, readBits_holds_bitVec x .matching h, Read.bind, orReject,
    lengthInstr]

theorem Selector.len274 (x : BitVec 3) : Selector.Statement (.len274 x) := by
  intro _ get p h
  simp [readLL, Instr.selector, Instr.operandBits, lExt, bitsLSB_length, readBits_holds_bitVec x .matching h, Read.bind, orReject,
    lengthInstr]

theorem Selector.len275 (x : BitVec 3) : Selector.Statement (.len275 x) := by
  intro _ get p h
  simp [readLL, Instr.selector, Instr.operandBits, lExt, bitsLSB_length, readBits_holds_bitVec x .matching h, Read.bind, orReject,
    lengthInstr]

theorem Selector.len276 (x : BitVec 3) : Selector.Statement (.len276 x) := by
  intro _ get p h
  simp [readLL, Instr.selector, Instr.operandBits, lExt, bitsLSB_length, readBits_holds_bitVec x .matching h, Read.bind, orReject,
    lengthInstr]

theorem Selector.len277 (x : BitVec 4) : Selector.Statement (.len277 x) := by
  intro _ get p h
  simp [readLL, Instr.selector, Instr.operandBits, lExt, bitsLSB_length, readBits_holds_bitVec x .matching h, Read.bind, orReject,
    lengthInstr]

theorem Selector.len278 (x : BitVec 4) : Selector.Statement (.len278 x) := by
  intro _ get p h
  simp [readLL, Instr.selector, Instr.operandBits, lExt, bitsLSB_length, readBits_holds_bitVec x .matching h, Read.bind, orReject,
    lengthInstr]

theorem Selector.len279 (x : BitVec 4) : Selector.Statement (.len279 x) := by
  intro _ get p h
  simp [readLL, Instr.selector, Instr.operandBits, lExt, bitsLSB_length, readBits_holds_bitVec x .matching h, Read.bind, orReject,
    lengthInstr]

theorem Selector.len280 (x : BitVec 4) : Selector.Statement (.len280 x) := by
  intro _ get p h
  simp [readLL, Instr.selector, Instr.operandBits, lExt, bitsLSB_length, readBits_holds_bitVec x .matching h, Read.bind, orReject,
    lengthInstr]

theorem Selector.len281 (x : BitVec 5) : Selector.Statement (.len281 x) := by
  intro _ get p h
  simp [readLL, Instr.selector, Instr.operandBits, lExt, bitsLSB_length, readBits_holds_bitVec x .matching h, Read.bind, orReject,
    lengthInstr]

theorem Selector.len282 (x : BitVec 5) : Selector.Statement (.len282 x) := by
  intro _ get p h
  simp [readLL, Instr.selector, Instr.operandBits, lExt, bitsLSB_length, readBits_holds_bitVec x .matching h, Read.bind, orReject,
    lengthInstr]

theorem Selector.len283 (x : BitVec 5) : Selector.Statement (.len283 x) := by
  intro _ get p h
  simp [readLL, Instr.selector, Instr.operandBits, lExt, bitsLSB_length, readBits_holds_bitVec x .matching h, Read.bind, orReject,
    lengthInstr]

theorem Selector.len284 (x : BitVec 5) : Selector.Statement (.len284 x) := by
  intro _ get p h
  simp [readLL, Instr.selector, Instr.operandBits, lExt, bitsLSB_length, readBits_holds_bitVec x .matching h, Read.bind, orReject,
    lengthInstr]

theorem Selector.len285 : Selector.Statement .len285 := by
  intro _ get p _
  simp [readLL, Instr.selector, Instr.operandBits, lExt, readBits, Read.bind, orReject, lengthInstr]

theorem Selector.llIll (k : BitVec 1) : Selector.Statement (.llIll k) := by
  intro _ get p _
  have hk : k = 0 ∨ k = 1 := by have := k.isLt; rcases Nat.lt_or_ge k.toNat 1 with h | h <;> [left; right] <;>
    apply BitVec.eq_of_toNat_eq <;> simp <;> omega
  rcases hk with rfl | rfl <;> simp [readLL, Instr.selector, Instr.operandBits]

theorem Selector.dist0 : Selector.Statement .dist0 := by
  intro _ get p _
  simp [readD, Instr.selector, Instr.operandBits, dExt, readBits, Read.bind, orReject, distanceInstr]

theorem Selector.dist1 : Selector.Statement .dist1 := by
  intro _ get p _
  simp [readD, Instr.selector, Instr.operandBits, dExt, readBits, Read.bind, orReject, distanceInstr]

theorem Selector.dist2 : Selector.Statement .dist2 := by
  intro _ get p _
  simp [readD, Instr.selector, Instr.operandBits, dExt, readBits, Read.bind, orReject, distanceInstr]

theorem Selector.dist3 : Selector.Statement .dist3 := by
  intro _ get p _
  simp [readD, Instr.selector, Instr.operandBits, dExt, readBits, Read.bind, orReject, distanceInstr]

theorem Selector.dist4 (x : BitVec 1) : Selector.Statement (.dist4 x) := by
  intro _ get p h
  simp [readD, Instr.selector, Instr.operandBits, dExt, bitsLSB_length, readBits_holds_bitVec x .matching h, Read.bind, orReject,
    distanceInstr]

theorem Selector.dist5 (x : BitVec 1) : Selector.Statement (.dist5 x) := by
  intro _ get p h
  simp [readD, Instr.selector, Instr.operandBits, dExt, bitsLSB_length, readBits_holds_bitVec x .matching h, Read.bind, orReject,
    distanceInstr]

theorem Selector.dist6 (x : BitVec 2) : Selector.Statement (.dist6 x) := by
  intro _ get p h
  simp [readD, Instr.selector, Instr.operandBits, dExt, bitsLSB_length, readBits_holds_bitVec x .matching h, Read.bind, orReject,
    distanceInstr]

theorem Selector.dist7 (x : BitVec 2) : Selector.Statement (.dist7 x) := by
  intro _ get p h
  simp [readD, Instr.selector, Instr.operandBits, dExt, bitsLSB_length, readBits_holds_bitVec x .matching h, Read.bind, orReject,
    distanceInstr]

theorem Selector.dist8 (x : BitVec 3) : Selector.Statement (.dist8 x) := by
  intro _ get p h
  simp [readD, Instr.selector, Instr.operandBits, dExt, bitsLSB_length, readBits_holds_bitVec x .matching h, Read.bind, orReject,
    distanceInstr]

theorem Selector.dist9 (x : BitVec 3) : Selector.Statement (.dist9 x) := by
  intro _ get p h
  simp [readD, Instr.selector, Instr.operandBits, dExt, bitsLSB_length, readBits_holds_bitVec x .matching h, Read.bind, orReject,
    distanceInstr]

theorem Selector.dist10 (x : BitVec 4) : Selector.Statement (.dist10 x) := by
  intro _ get p h
  simp [readD, Instr.selector, Instr.operandBits, dExt, bitsLSB_length, readBits_holds_bitVec x .matching h, Read.bind, orReject,
    distanceInstr]

theorem Selector.dist11 (x : BitVec 4) : Selector.Statement (.dist11 x) := by
  intro _ get p h
  simp [readD, Instr.selector, Instr.operandBits, dExt, bitsLSB_length, readBits_holds_bitVec x .matching h, Read.bind, orReject,
    distanceInstr]

theorem Selector.dist12 (x : BitVec 5) : Selector.Statement (.dist12 x) := by
  intro _ get p h
  simp [readD, Instr.selector, Instr.operandBits, dExt, bitsLSB_length, readBits_holds_bitVec x .matching h, Read.bind, orReject,
    distanceInstr]

theorem Selector.dist13 (x : BitVec 5) : Selector.Statement (.dist13 x) := by
  intro _ get p h
  simp [readD, Instr.selector, Instr.operandBits, dExt, bitsLSB_length, readBits_holds_bitVec x .matching h, Read.bind, orReject,
    distanceInstr]

theorem Selector.dist14 (x : BitVec 6) : Selector.Statement (.dist14 x) := by
  intro _ get p h
  simp [readD, Instr.selector, Instr.operandBits, dExt, bitsLSB_length, readBits_holds_bitVec x .matching h, Read.bind, orReject,
    distanceInstr]

theorem Selector.dist15 (x : BitVec 6) : Selector.Statement (.dist15 x) := by
  intro _ get p h
  simp [readD, Instr.selector, Instr.operandBits, dExt, bitsLSB_length, readBits_holds_bitVec x .matching h, Read.bind, orReject,
    distanceInstr]

theorem Selector.dist16 (x : BitVec 7) : Selector.Statement (.dist16 x) := by
  intro _ get p h
  simp [readD, Instr.selector, Instr.operandBits, dExt, bitsLSB_length, readBits_holds_bitVec x .matching h, Read.bind, orReject,
    distanceInstr]

theorem Selector.dist17 (x : BitVec 7) : Selector.Statement (.dist17 x) := by
  intro _ get p h
  simp [readD, Instr.selector, Instr.operandBits, dExt, bitsLSB_length, readBits_holds_bitVec x .matching h, Read.bind, orReject,
    distanceInstr]

theorem Selector.dist18 (x : BitVec 8) : Selector.Statement (.dist18 x) := by
  intro _ get p h
  simp [readD, Instr.selector, Instr.operandBits, dExt, bitsLSB_length, readBits_holds_bitVec x .matching h, Read.bind, orReject,
    distanceInstr]

theorem Selector.dist19 (x : BitVec 8) : Selector.Statement (.dist19 x) := by
  intro _ get p h
  simp [readD, Instr.selector, Instr.operandBits, dExt, bitsLSB_length, readBits_holds_bitVec x .matching h, Read.bind, orReject,
    distanceInstr]

theorem Selector.dist20 (x : BitVec 9) : Selector.Statement (.dist20 x) := by
  intro _ get p h
  simp [readD, Instr.selector, Instr.operandBits, dExt, bitsLSB_length, readBits_holds_bitVec x .matching h, Read.bind, orReject,
    distanceInstr]

theorem Selector.dist21 (x : BitVec 9) : Selector.Statement (.dist21 x) := by
  intro _ get p h
  simp [readD, Instr.selector, Instr.operandBits, dExt, bitsLSB_length, readBits_holds_bitVec x .matching h, Read.bind, orReject,
    distanceInstr]

theorem Selector.dist22 (x : BitVec 10) : Selector.Statement (.dist22 x) := by
  intro _ get p h
  simp [readD, Instr.selector, Instr.operandBits, dExt, bitsLSB_length, readBits_holds_bitVec x .matching h, Read.bind, orReject,
    distanceInstr]

theorem Selector.dist23 (x : BitVec 10) : Selector.Statement (.dist23 x) := by
  intro _ get p h
  simp [readD, Instr.selector, Instr.operandBits, dExt, bitsLSB_length, readBits_holds_bitVec x .matching h, Read.bind, orReject,
    distanceInstr]

theorem Selector.dist24 (x : BitVec 11) : Selector.Statement (.dist24 x) := by
  intro _ get p h
  simp [readD, Instr.selector, Instr.operandBits, dExt, bitsLSB_length, readBits_holds_bitVec x .matching h, Read.bind, orReject,
    distanceInstr]

theorem Selector.dist25 (x : BitVec 11) : Selector.Statement (.dist25 x) := by
  intro _ get p h
  simp [readD, Instr.selector, Instr.operandBits, dExt, bitsLSB_length, readBits_holds_bitVec x .matching h, Read.bind, orReject,
    distanceInstr]

theorem Selector.dist26 (x : BitVec 12) : Selector.Statement (.dist26 x) := by
  intro _ get p h
  simp [readD, Instr.selector, Instr.operandBits, dExt, bitsLSB_length, readBits_holds_bitVec x .matching h, Read.bind, orReject,
    distanceInstr]

theorem Selector.dist27 (x : BitVec 12) : Selector.Statement (.dist27 x) := by
  intro _ get p h
  simp [readD, Instr.selector, Instr.operandBits, dExt, bitsLSB_length, readBits_holds_bitVec x .matching h, Read.bind, orReject,
    distanceInstr]

theorem Selector.dist28 (x : BitVec 13) : Selector.Statement (.dist28 x) := by
  intro _ get p h
  simp [readD, Instr.selector, Instr.operandBits, dExt, bitsLSB_length, readBits_holds_bitVec x .matching h, Read.bind, orReject,
    distanceInstr]

theorem Selector.dist29 (x : BitVec 13) : Selector.Statement (.dist29 x) := by
  intro _ get p h
  simp [readD, Instr.selector, Instr.operandBits, dExt, bitsLSB_length, readBits_holds_bitVec x .matching h, Read.bind, orReject,
    distanceInstr]

theorem Selector.dIll (k : BitVec 1) : Selector.Statement (.dIll k) := by
  intro _ get p _
  have hk : k = 0 ∨ k = 1 := by have := k.isLt; rcases Nat.lt_or_ge k.toNat 1 with h | h <;> [left; right] <;>
    apply BitVec.eq_of_toNat_eq <;> simp <;> omega
  rcases hk with rfl | rfl <;> simp [readD, Instr.selector, Instr.operandBits]

theorem Selector.ftNone : Selector.Statement .ftNone := by
  intro _ get p h
  simp [readRow, readByte_holds _ .unfRow h, Read.field, Instr.selector, filterInstr]

theorem Selector.ftSub : Selector.Statement .ftSub := by
  intro _ get p h
  simp [readRow, readByte_holds _ .unfRow h, Read.field, Instr.selector, filterInstr]

theorem Selector.ftUp : Selector.Statement .ftUp := by
  intro _ get p h
  simp [readRow, readByte_holds _ .unfRow h, Read.field, Instr.selector, filterInstr]

theorem Selector.ftAvg : Selector.Statement .ftAvg := by
  intro _ get p h
  simp [readRow, readByte_holds _ .unfRow h, Read.field, Instr.selector, filterInstr]

theorem Selector.ftPaeth : Selector.Statement .ftPaeth := by
  intro _ get p h
  simp [readRow, readByte_holds _ .unfRow h, Read.field, Instr.selector, filterInstr]

theorem Selector.ftIll (ft : BitVec 8) : Selector.Statement (.ftIll ft) := by
  intro hw get p h
  have h4 : 4 < ft.toNat := by simpa [Instr.wf] using hw
  have hm : ft.toNat % 256 = ft.toNat := Nat.mod_eq_of_lt ft.isLt
  have hf : filterInstr ft.toNat = .ftIll ft := by
    unfold filterInstr
    split <;> first | omega | simp
  simp only [Instr.selector] at h
  simp [readRow, readByte_holds _ .unfRow h, Read.field, hm, hf]

theorem Selector.zHdr (cmf : BitVec 8) (flg : BitVec 8) : Selector.Statement (.zHdr cmf flg) := by
  intro _ get p h
  simp only [Instr.operandBits] at h
  obtain ⟨h1, h2⟩ := Holds_append h
  rw [bitsLSB_length] at h2
  have ha : alignUp p % 8 = 0 := by unfold alignUp; omega
  have e1 := readByte_holds cmf.toNat .envelope h1
  have e2 := readByte_next flg.toNat .envelope (by omega) rfl h2
  simp only [readZHdr, Read.field, e1, e2, Nat.add_assoc]
  rw [Nat.mod_eq_of_lt cmf.isLt, Nat.mod_eq_of_lt flg.isLt]
  simp

theorem Selector.zTrl (adler : BitVec 32) : Selector.Statement (.zTrl adler) := by
  intro _ get p h
  simp only [Instr.operandBits] at h
  obtain ⟨h123, h4⟩ := Holds_append h
  obtain ⟨h12, h3⟩ := Holds_append h123
  obtain ⟨h1, h2⟩ := Holds_append h12
  simp only [List.length_append, bitsLSB_length, Nat.add_assoc] at h2 h3 h4
  have ha : alignUp p % 8 = 0 := by unfold alignUp; omega
  have e1 := readByte_holds (adler.toNat / 16777216) .envelope h1
  have e2 := readByte_next (adler.toNat / 65536) .envelope (by omega) rfl h2
  have e3 := readByte_next (p := alignUp p + 8 + 8) (adler.toNat / 256) .envelope (by omega) (by omega) h3
  have e4 := readByte_next (p := alignUp p + (8 + 8) + 8) adler.toNat .envelope (by omega) (by omega) h4
  have hl := adler.isLt
  have hv : BitVec.ofNat 32 (adler.toNat / 16777216 % 256 * 16777216 + adler.toNat / 65536 % 256 * 65536 +
      adler.toNat / 256 % 256 * 256 + adler.toNat % 256) = adler := by
    rw [show adler.toNat / 16777216 % 256 * 16777216 + adler.toNat / 65536 % 256 * 65536 +
      adler.toNat / 256 % 256 * 256 + adler.toNat % 256 = adler.toNat by omega]; simp
  simp only [readZTrl, Read.field, e1, e2, e3, e4, hv]

end

end Sys2Proof.Laws
end

