-- ==== Sys2Proof/Laws/Decode.lean ====
section
/-! SUPPORT. What the decoder can answer: where a read ends or stops, of which format the element is, which errors a read raises. -/

namespace Sys2Proof

/-! ## Where a read ends -/

/-- The read consumes at least `m` bits if it answers, moves only forward, and ends or stops within the limit or at the next byte boundary. -/
def Read.Within {α : Type} (p m lim : Nat) (r : Read α) : Prop :=
  match r with
  | .ok _ q => p + m ≤ q ∧ q ≤ max (alignUp p) lim
  | .stop _ _ q _ => p ≤ q ∧ q ≤ max (alignUp p) lim
  | .reject _ => True

theorem alignUp_mono {p q : Nat} (h : p ≤ q) : alignUp p ≤ alignUp q := by unfold alignUp; omega

theorem alignUp_alignUp (p : Nat) : alignUp (alignUp p) = alignUp p := by unfold alignUp; omega

theorem alignUp_le_max {p q lim : Nat} (hl : lim % 8 = 0) (h : q ≤ max (alignUp p) lim) : alignUp q ≤ max (alignUp p) lim := by
  unfold alignUp at *; omega

/-- Going on after a read stays within. -/
theorem Read.Within.bind {α β : Type} {p m n lim : Nat} {r : Read α} {k : α → Nat → Read β} (hl : lim % 8 = 0)
    (hr : r.Within p m lim) (hk : ∀ v q, r = .ok v q → (k v q).Within q n lim) : (r.bind k).Within p (m + n) lim := by
  cases r with
  | ok v q =>
    obtain ⟨h1, h2⟩ := hr
    have := hk v q rfl
    simp only [Read.bind]
    cases h : k v q with
    | ok w t =>
      rw [h] at this; obtain ⟨h3, h4⟩ := this
      have := alignUp_le_max hl h2
      exact ⟨by omega, by omega⟩
    | stop e st t g =>
      rw [h] at this; obtain ⟨h3, h4⟩ := this
      have := alignUp_le_max hl h2
      exact ⟨by omega, by omega⟩
    | reject w => trivial
  | stop e st q g => exact hr
  | reject w => trivial

theorem Read.Within.field {β : Type} {p m n lim : Nat} {r : Read Nat} {k : Nat → Nat → Read β} (hl : lim % 8 = 0)
    (hr : r.Within p m lim) (hk : ∀ v q, r = .ok v q → (k v q).Within q n lim) : (r.field k).Within p (m + n) lim := by
  have h := Read.Within.bind hl hr hk
  cases r with
  | ok v q =>
    simp only [Read.bind] at h
    simp only [Read.field]
    cases hq : k v q with
    | ok w t => rw [hq] at h; exact h
    | stop e st t g => rw [hq] at h; exact h
    | reject w => trivial
  | stop e st q g => exact hr
  | reject w => trivial

theorem Read.Within.weaken {α : Type} {p m n lim : Nat} {r : Read α} (h : r.Within p m lim) (hn : n ≤ m) : r.Within p n lim := by
  cases r with
  | ok v q => exact ⟨by have := h.1; omega, h.2⟩
  | stop e st q g => exact h
  | reject w => trivial

theorem Read.Within.pure {α : Type} (v : α) (p lim : Nat) : (Read.ok v p).Within p 0 lim :=
  ⟨by omega, by have := le_alignUp p; omega⟩

/-- The source ends at a limit. -/
def Ends (get : Src) (lim : Nat) : Prop := lim % 8 = 0 ∧ ∀ k, lim ≤ k → get k = none

theorem readBits_within {get : Src} {lim : Nat} (hg : Ends get lim) (st : Stage) (n p : Nat) :
    (readBits st get n p).Within p n lim := by
  have ha := le_alignUp p
  have hlt (k : Nat) (h : get k ≠ none) : k < lim := by
    by_contra hc; exact h (hg.2 k (by omega))
  rcases readBits_cases st get n p with ⟨v, -, hb, hr⟩ | ⟨k, hk, hj, -, hr⟩
  · rw [hr]
    refine ⟨by omega, ?_⟩
    cases n with
    | zero => omega
    | succ n => have := hlt (p + n) (by rw [hb n (by omega)]; simp); omega
  · rw [hr]
    refine ⟨by omega, ?_⟩
    cases k with
    | zero => omega
    | succ k => have := hlt (p + k) (hj k (by omega)); omega

theorem readByte_within {get : Src} {lim : Nat} (hg : Ends get lim) (st : Stage) (p : Nat) :
    (readByte st get p).Within p 8 lim := by
  have h := readBits_within hg st 8 (alignUp p)
  have ha := le_alignUp p
  unfold readByte
  cases hr : readBits st get 8 (alignUp p) with
  | ok v q => rw [hr] at h; obtain ⟨h1, h2⟩ := h; rw [alignUp_alignUp] at h2; exact ⟨by omega, h2⟩
  | stop e s q g => rw [hr] at h; obtain ⟨h1, h2⟩ := h; rw [alignUp_alignUp] at h2; exact ⟨by omega, h2⟩
  | reject w => trivial

theorem walk_within {get : Src} {lim : Nat} (hg : Ends get lim) (st : Stage) (T : Table) (p : Nat) :
    (walk st T get p).Within p 1 lim := by
  have ha := le_alignUp p
  have hlt (k : Nat) (h : get k ≠ none) : k < lim := by
    by_contra hc; exact h (hg.2 k (by omega))
  -- every bit before the end of a walk was there
  have hsome (fuel c n p : Nat) : ∀ q v, (walkFrom st T get fuel c n p = .ok v q ∨ ∃ e g, walkFrom st T get fuel c n p = .stop e st q g) →
      p ≤ q ∧ ∀ j, p ≤ j → j < q → get j ≠ none := by
    induction fuel generalizing c n p with
    | zero => intro q v h; simp [walkFrom] at h; subst h; exact ⟨by omega, by omega⟩
    | succ fuel ih =>
      intro q v h
      rcases readBit_cases st get p with ⟨b, hb, hr⟩ | ⟨hb, hr⟩
      · simp only [walkFrom, hr, Read.bind] at h
        cases hl : leafAt T (2 * c + b.toNat) (n + 1) with
        | some e =>
          simp [hl] at h; obtain ⟨-, rfl⟩ := h
          refine ⟨by omega, fun j h1 h2 => ?_⟩
          have : j = p := by omega
          subst this; simp [hb]
        | none =>
          simp only [hl] at h
          split_ifs at h with hi
          · obtain ⟨h1, h2⟩ := ih (2 * c + b.toNat) (n + 1) (p + 1) q v h
            refine ⟨by omega, fun j h3 h4 => ?_⟩
            by_cases hj : j = p
            · subst hj; simp [hb]
            · exact h2 j (by omega) h4
          · simp at h; subst h
            refine ⟨by omega, fun j h1 h2 => ?_⟩
            have : j = p := by omega
            subst this; simp [hb]
      · simp only [walkFrom, hr, Read.bind] at h
        simp at h; subst h
        exact ⟨by omega, by omega⟩
  unfold walk
  split_ifs with hT
  · exact ⟨by omega, by omega⟩
  · cases hw : walkFrom st T get maxBits 0 0 p with
    | ok v q =>
      obtain ⟨h1, h2⟩ := hsome maxBits 0 0 p q v (.inl hw)
      have hpos : p + 1 ≤ q := by
        rcases walkFrom_cases st T get maxBits 0 0 p with ⟨e, -, h3, -, h4⟩ | ⟨k, -, -, h4⟩ | ⟨k, -, h4, -⟩ <;> rw [hw] at h4 <;>
          simp at h4
        omega
      exact ⟨hpos, by have := hlt (q - 1) (h2 (q - 1) (by omega) (by omega)); omega⟩
    | stop e s q g =>
      have hs : s = st := by
        rcases walkFrom_cases st T get maxBits 0 0 p with ⟨e, -, h3, -, h4⟩ | ⟨k, -, -, h4⟩ | ⟨k, -, h4, -⟩ <;> rw [hw] at h4 <;>
          simp at h4
        · exact h4.2.1
        · exact h4.2.1
      subst hs
      obtain ⟨h1, h2⟩ := hsome maxBits 0 0 p q 0 (.inr ⟨e, g, hw⟩)
      refine ⟨h1, ?_⟩
      by_cases hq : q = p
      · omega
      · have := hlt (q - 1) (h2 (q - 1) (by omega) (by omega)); omega
    | reject w => trivial

theorem readLens_within {get : Src} {lim : Nat} (hg : Ends get lim) (n p : Nat) : (readLens get n p).Within p 0 lim := by
  induction n generalizing p with
  | zero => exact Read.Within.pure _ _ _
  | succ n ih =>
    exact (Read.Within.field hg.1 (readBits_within hg _ _ _) fun v q _ =>
      Read.Within.bind hg.1 (ih q) fun vs r _ => Read.Within.pure _ _ _).weaken (by omega)

theorem orReject_within (f : Format) (v : Nat) (i : Option Instr) (p lim : Nat) : (orReject f v i p).Within p 0 lim := by
  cases i with
  | some i => exact Read.Within.pure _ _ _
  | none => trivial

/-- Where the decoder ends or stops: at least one bit on, and within the source or at the next byte boundary. -/
theorem decode_within {get : Src} {lim : Nat} (hg : Ends get lim) (f : Format) (T : Table) (p : Nat) :
    (decode f T get p).Within p 1 lim := by
  have hb (st : Stage) (p : Nat) := readByte_within hg st p
  have hf (st : Stage) (n p : Nat) := readBits_within hg st n p
  have pure {i : Instr} {p : Nat} : (Read.ok i p).Within p 0 lim := Read.Within.pure i p lim
  cases f with
  | zHdr => exact (Read.Within.field hg.1 (hb _ _) fun _ _ _ => Read.Within.field hg.1 (hb _ _) fun _ _ _ => pure).weaken (by omega)
  | zTrl =>
    exact (Read.Within.field hg.1 (hb _ _) fun _ _ _ => Read.Within.field hg.1 (hb _ _) fun _ _ _ =>
      Read.Within.field hg.1 (hb _ _) fun _ _ _ => Read.Within.field hg.1 (hb _ _) fun _ _ _ => pure).weaken (by omega)
  | bh => exact (Read.Within.field hg.1 (hf _ _ _) fun _ _ _ => Read.Within.field hg.1 (hf _ _ _) fun _ _ _ => pure).weaken (by omega)
  | st =>
    exact (Read.Within.field hg.1 (hb _ _) fun _ _ _ => Read.Within.field hg.1 (hb _ _) fun _ _ _ =>
      Read.Within.field hg.1 (hb _ _) fun _ _ _ => Read.Within.field hg.1 (hb _ _) fun _ _ _ => pure).weaken (by omega)
  | dh =>
    exact (Read.Within.field hg.1 (hf _ _ _) fun _ _ _ => Read.Within.field hg.1 (hf _ _ _) fun _ _ _ =>
      Read.Within.field hg.1 (hf _ _ _) fun _ _ _ => Read.Within.bind hg.1 (readLens_within hg _ _) fun _ _ _ => pure).weaken (by omega)
  | row => exact (Read.Within.field hg.1 (hb _ _) fun _ _ _ => pure).weaken (by omega)
  | cl =>
    refine (Read.Within.field (n := 0) hg.1 (walk_within hg _ _ _) fun v q _ => ?_).weaken (by omega)
    unfold readCL
    split_ifs
    · exact pure
    · exact (Read.Within.bind hg.1 (hf _ _ _) fun _ _ _ => pure).weaken (by omega)
    · exact (Read.Within.bind hg.1 (hf _ _ _) fun _ _ _ => pure).weaken (by omega)
    · exact (Read.Within.bind hg.1 (hf _ _ _) fun _ _ _ => pure).weaken (by omega)
    · trivial
  | ll =>
    refine (Read.Within.field (n := 0) hg.1 (walk_within hg _ _ _) fun v q _ => ?_).weaken (by omega)
    unfold readLL
    split_ifs
    · exact pure
    · exact pure
    · exact pure
    · generalize lExt.getD (v - 257) 0 = w
      have h := Read.Within.bind hg.1 (hf .matching w q) fun x r _ => orReject_within .ll v (lengthInstr v x) r lim
      exact h.weaken (Nat.zero_le _)
  | d =>
    refine (Read.Within.field (n := 0) hg.1 (walk_within hg _ _ _) fun v q _ => ?_).weaken (by omega)
    unfold readD
    split_ifs
    · exact pure
    · have h := Read.Within.bind hg.1 (hf .matching (dExt.getD v 0) q) fun x r _ => orReject_within .d v (distanceInstr v x) r lim
      exact h.weaken (Nat.zero_le _)


/-! ## What is read -/

theorem readBits_not_reject {st : Stage} {get : Src} {n p : Nat} {w : Reject} : readBits st get n p ≠ .reject w := by
  rcases readBits_cases st get n p with ⟨v, -, -, hr⟩ | ⟨k, -, -, -, hr⟩ <;> rw [hr] <;> simp

theorem readByte_not_reject {st : Stage} {get : Src} {p : Nat} {w : Reject} : readByte st get p ≠ .reject w := readBits_not_reject

theorem walk_not_reject {st : Stage} {T : Table} {get : Src} {p : Nat} {w : Reject} : walk st T get p ≠ .reject w := by
  rcases walk_cases st T get p with ⟨e, -, -, -, hr⟩ | ⟨-, hr⟩ | ⟨k, -, -, hr⟩ | ⟨k, -, hr, -⟩ <;> rw [hr] <;> simp

theorem readLens_not_reject {get : Src} {n p : Nat} {w : Reject} : readLens get n p ≠ .reject w := by
  induction n generalizing p with
  | zero => simp [readLens]
  | succ n ih =>
    intro h
    rw [readLens, Read.field_reject] at h
    rcases h with h | ⟨v, q, -, h⟩
    · exact readBits_not_reject h
    · rw [Read.bind_reject] at h
      rcases h with h | ⟨v', q', -, h⟩
      · exact ih h
      · cases h

/-- A field read by `readBits` or a byte stops with `E_BOUNDS` at the stage of the caller, and has nothing to remember. -/
theorem readBits_stop {st st' : Stage} {get : Src} {n p q : Nat} {e : ErrCode} {g : List Nat}
    (h : readBits st get n p = .stop e st' q g) : e = .bounds ∧ st' = st ∧ g = [] := by
  rcases readBits_cases st get n p with ⟨v, -, -, hr⟩ | ⟨k, -, -, -, hr⟩ <;> rw [hr] at h <;> simp at h
  exact ⟨h.1.symm, h.2.1.symm, h.2.2.2⟩

theorem readByte_stop {st st' : Stage} {get : Src} {p q : Nat} {e : ErrCode} {g : List Nat}
    (h : readByte st get p = .stop e st' q g) : e = .bounds ∧ st' = st ∧ g = [] := readBits_stop h

theorem walk_stop {st st' : Stage} {T : Table} {get : Src} {p q : Nat} {e : ErrCode} {g : List Nat}
    (h : walk st T get p = .stop e st' q g) : (e = .bounds ∨ e = .noLeaf ∨ e = .emptyTable) ∧ st' = st ∧ g = [] := by
  rcases walk_cases st T get p with ⟨e, -, -, -, hr⟩ | ⟨-, hr⟩ | ⟨k, -, -, hr⟩ | ⟨k, -, hr, -⟩ <;> rw [hr] at h <;> simp at h
  · exact ⟨.inr (.inr h.1.symm), h.2.1.symm, h.2.2.2⟩
  · exact ⟨.inl h.1.symm, h.2.1.symm, h.2.2.2⟩
  · exact ⟨.inr (.inl h.1.symm), h.2.1.symm, h.2.2.2⟩

/-- A walk's symbol is one of the table's. -/
theorem walk_symbol {st : Stage} {T : Table} {get : Src} {p v q : Nat} (h : walk st T get p = .ok v q) : ∃ e ∈ T, e.sym = v := by
  rcases walk_cases st T get p with ⟨e, he, -, -, hr⟩ | ⟨-, hr⟩ | ⟨k, -, -, hr⟩ | ⟨k, -, hr, -⟩ <;> rw [hr] at h <;> simp at h
  exact ⟨e, he, h.1⟩

theorem readLens_stop {st : Stage} {get : Src} {n p q : Nat} {e : ErrCode} {g : List Nat}
    (h : readLens get n p = .stop e st q g) : e = .bounds ∧ st = .dynHeader := by
  induction n generalizing p g with
  | zero => simp [readLens] at h
  | succ n ih =>
    rw [readLens, Read.field_stop] at h
    rcases h with h | ⟨v, q', l, -, h, -⟩
    · exact ⟨(readBits_stop h).1, (readBits_stop h).2.1⟩
    · rw [Read.bind_stop] at h
      rcases h with h | ⟨v', q'', -, h⟩
      · exact ih h
      · cases h

theorem lengthInstr_format {v x : Nat} {i : Instr} (h : lengthInstr v x = some i) : i.format = .ll := by
  unfold lengthInstr at h
  split at h <;> cases h <;> rfl

theorem distanceInstr_format {v x : Nat} {i : Instr} (h : distanceInstr v x = some i) : i.format = .d := by
  unfold distanceInstr at h
  split at h <;> cases h <;> rfl

theorem filterInstr_format (v : Nat) : (filterInstr v).format = .row := by
  unfold filterInstr; split <;> rfl

theorem blockInstr_format (b : Bool) (t : Nat) : (blockInstr b t).format = .bh := by
  unfold blockInstr; split <;> rfl

/-- The element read is of the format that was expected. -/
theorem decode_format {f : Format} {T : Table} {get : Src} {p q : Nat} {i : Instr} (h : decode f T get p = .ok i q) : i.format = f := by
  cases f with
  | zHdr =>
    simp only [decode, readZHdr, Read.field_ok] at h
    obtain ⟨_, _, -, _, _, -, h⟩ := h; cases h; rfl
  | zTrl =>
    simp only [decode, readZTrl, Read.field_ok] at h
    obtain ⟨_, _, -, _, _, -, _, _, -, _, _, -, h⟩ := h; cases h; rfl
  | bh =>
    simp only [decode, readBH, Read.field_ok] at h
    obtain ⟨_, _, -, _, _, -, h⟩ := h; cases h; exact blockInstr_format _ _
  | st =>
    simp only [decode, readST, Read.field_ok] at h
    obtain ⟨_, _, -, _, _, -, _, _, -, _, _, -, h⟩ := h; cases h; rfl
  | dh =>
    simp only [decode, readDH, Read.field_ok, Read.bind_ok] at h
    obtain ⟨_, _, -, _, _, -, _, _, -, _, _, -, h⟩ := h; cases h; rfl
  | row =>
    simp only [decode, readRow, Read.field_ok] at h
    obtain ⟨_, _, -, h⟩ := h; cases h; exact filterInstr_format _
  | cl =>
    simp only [decode, Read.field_ok] at h
    obtain ⟨v, r, -, h⟩ := h
    unfold readCL at h
    split_ifs at h
    · cases h; rfl
    · rw [Read.bind_ok] at h; obtain ⟨_, _, -, h⟩ := h; cases h; rfl
    · rw [Read.bind_ok] at h; obtain ⟨_, _, -, h⟩ := h; cases h; rfl
    · rw [Read.bind_ok] at h; obtain ⟨_, _, -, h⟩ := h; cases h; rfl
  | ll =>
    simp only [decode, Read.field_ok] at h
    obtain ⟨v, r, -, h⟩ := h
    unfold readLL at h
    split_ifs at h
    · cases h; rfl
    · cases h; rfl
    · cases h; rfl
    · rw [Read.bind_ok] at h
      obtain ⟨x, _, -, h⟩ := h
      cases hi : lengthInstr v x with
      | none => simp [orReject, hi] at h
      | some j => simp only [orReject, hi] at h; cases h; exact lengthInstr_format hi
  | d =>
    simp only [decode, Read.field_ok] at h
    obtain ⟨v, r, -, h⟩ := h
    unfold readD at h
    split_ifs at h
    · cases h; rfl
    · rw [Read.bind_ok] at h
      obtain ⟨x, _, -, h⟩ := h
      cases hi : distanceInstr v x with
      | none => simp [orReject, hi] at h
      | some j => simp only [orReject, hi] at h; cases h; exact distanceInstr_format hi

theorem orReject_not_stop {f : Format} {v : Nat} {i : Option Instr} {p q : Nat} {e : ErrCode} {st : Stage} {g : List Nat} :
    orReject f v i p ≠ .stop e st q g := by
  cases i <;> simp [orReject]

/-- A read that stops does so with a code and a stage that R302 lists, and of a Huffman-coded format it remembers a symbol of the table. -/
theorem decode_stop {f : Format} {T : Table} {get : Src} {p q : Nat} {e : ErrCode} {st : Stage} {g : List Nat}
    (h : decode f T get p = .stop e st q g) :
    Machine.errorPair e st = true ∧ st ≠ .cmd ∧ st ≠ .unfCfg ∧ (st = .envelope ↔ f = .zHdr ∨ f = .zTrl) ∧
      (st = .unfRow ↔ f = .row) ∧ (f = .row → e = .bounds) ∧
      (f = .ll ∨ f = .d → ∀ v ∈ g, ∃ x ∈ T, x.sym = v) := by
  cases f with
  | zHdr =>
    simp only [decode, readZHdr, Read.field_stop] at h
    rcases h with h | ⟨_, _, _, -, h | ⟨_, _, _, -, h, -⟩, -⟩
    · obtain ⟨rfl, rfl, rfl⟩ := readByte_stop h; simp [Machine.errorPair]
    · obtain ⟨rfl, rfl, rfl⟩ := readByte_stop h; simp [Machine.errorPair]
    · cases h
  | zTrl =>
    simp only [decode, readZTrl, Read.field_stop] at h
    rcases h with h | ⟨_, _, _, -, h | ⟨_, _, _, -, h | ⟨_, _, _, -, h | ⟨_, _, _, -, h, -⟩, -⟩, -⟩, -⟩
    · obtain ⟨rfl, rfl, rfl⟩ := readByte_stop h; simp [Machine.errorPair]
    · obtain ⟨rfl, rfl, rfl⟩ := readByte_stop h; simp [Machine.errorPair]
    · obtain ⟨rfl, rfl, rfl⟩ := readByte_stop h; simp [Machine.errorPair]
    · obtain ⟨rfl, rfl, rfl⟩ := readByte_stop h; simp [Machine.errorPair]
    · cases h
  | bh =>
    simp only [decode, readBH, Read.field_stop] at h
    rcases h with h | ⟨_, _, _, -, h | ⟨_, _, _, -, h, -⟩, -⟩
    · obtain ⟨rfl, rfl, rfl⟩ := readBits_stop h; simp [Machine.errorPair]
    · obtain ⟨rfl, rfl, rfl⟩ := readBits_stop h; simp [Machine.errorPair]
    · cases h
  | st =>
    simp only [decode, readST, Read.field_stop] at h
    rcases h with h | ⟨_, _, _, -, h | ⟨_, _, _, -, h | ⟨_, _, _, -, h | ⟨_, _, _, -, h, -⟩, -⟩, -⟩, -⟩
    · obtain ⟨rfl, rfl, rfl⟩ := readByte_stop h; simp [Machine.errorPair]
    · obtain ⟨rfl, rfl, rfl⟩ := readByte_stop h; simp [Machine.errorPair]
    · obtain ⟨rfl, rfl, rfl⟩ := readByte_stop h; simp [Machine.errorPair]
    · obtain ⟨rfl, rfl, rfl⟩ := readByte_stop h; simp [Machine.errorPair]
    · cases h
  | dh =>
    simp only [decode, readDH, Read.field_stop, Read.bind_stop] at h
    rcases h with h | ⟨_, _, _, -, h | ⟨_, _, _, -, h | ⟨_, _, _, -, h | ⟨_, _, -, h⟩, -⟩, -⟩, -⟩
    · obtain ⟨rfl, rfl, rfl⟩ := readBits_stop h; simp [Machine.errorPair]
    · obtain ⟨rfl, rfl, rfl⟩ := readBits_stop h; simp [Machine.errorPair]
    · obtain ⟨rfl, rfl, rfl⟩ := readBits_stop h; simp [Machine.errorPair]
    · obtain ⟨rfl, rfl⟩ := readLens_stop h; simp [Machine.errorPair]
    · cases h
  | row =>
    simp only [decode, readRow, Read.field_stop] at h
    rcases h with h | ⟨_, _, _, -, h, -⟩
    · obtain ⟨rfl, rfl, rfl⟩ := readByte_stop h; simp [Machine.errorPair]
    · cases h
  | cl =>
    simp only [decode, Read.field_stop] at h
    rcases h with h | ⟨v, r, l, -, h, rfl⟩
    · obtain ⟨he | he | he, rfl, rfl⟩ := walk_stop h <;> subst he <;> simp [Machine.errorPair]
    · unfold readCL at h
      split_ifs at h
      all_goals
        rw [Read.bind_stop] at h
        rcases h with h | ⟨_, _, -, h⟩
        · obtain ⟨rfl, rfl, rfl⟩ := readBits_stop h; simp [Machine.errorPair]
        · cases h
  | ll =>
    simp only [decode, Read.field_stop] at h
    rcases h with h | ⟨v, r, l, hw, h, rfl⟩
    · obtain ⟨he | he | he, rfl, rfl⟩ := walk_stop h <;> subst he <;> simp [Machine.errorPair]
    · unfold readLL at h
      split_ifs at h
      rw [Read.bind_stop] at h
      rcases h with h | ⟨_, _, -, h⟩
      · obtain ⟨rfl, rfl, rfl⟩ := readBits_stop h
        obtain ⟨x, hx, hv⟩ := walk_symbol hw
        exact ⟨rfl, by simp, by simp, by simp, by simp, by simp, fun _ w hm => by
          rw [List.mem_singleton] at hm; exact ⟨x, hx, by omega⟩⟩
      · exact absurd h orReject_not_stop
  | d =>
    simp only [decode, Read.field_stop] at h
    rcases h with h | ⟨v, r, l, hw, h, rfl⟩
    · obtain ⟨he | he | he, rfl, rfl⟩ := walk_stop h <;> subst he <;> simp [Machine.errorPair]
    · unfold readD at h
      split_ifs at h
      rw [Read.bind_stop] at h
      rcases h with h | ⟨_, _, -, h⟩
      · obtain ⟨rfl, rfl, rfl⟩ := readBits_stop h
        obtain ⟨x, hx, hv⟩ := walk_symbol hw
        exact ⟨rfl, by simp, by simp, by simp, by simp, by simp, fun _ w hm => by
          rw [List.mem_singleton] at hm; exact ⟨x, hx, by omega⟩⟩
      · exact absurd h orReject_not_stop

/-! ## Where a read stops -/

/-- The read stops for want of a bit only, and where that bit is missing. -/
def Read.RunsOut {α : Type} (get : Src) (r : Read α) : Prop :=
  ∀ e st q g, r = .stop e st q g → e = .bounds ∧ get q = none

theorem Read.RunsOut.bind {α β : Type} {get : Src} {r : Read α} {k : α → Nat → Read β} (hr : r.RunsOut get)
    (hk : ∀ v p, (k v p).RunsOut get) : (r.bind k).RunsOut get := by
  intro e st q g h
  rcases Read.bind_stop.1 h with h | ⟨v, p, -, h⟩
  · exact hr e st q g h
  · exact hk v p e st q g h

theorem Read.RunsOut.field {β : Type} {get : Src} {r : Read Nat} {k : Nat → Nat → Read β} (hr : r.RunsOut get)
    (hk : ∀ v p, (k v p).RunsOut get) : (r.field k).RunsOut get := by
  intro e st q g h
  rcases Read.field_stop.1 h with h | ⟨v, p, l, -, h, -⟩
  · exact hr e st q g h
  · exact hk v p e st q l h

theorem Read.RunsOut.pure {α : Type} {get : Src} (v : α) (p : Nat) : (Read.ok v p).RunsOut get := by
  intro e st q g h; cases h

theorem orReject_runsOut {get : Src} (f : Format) (v : Nat) (i : Option Instr) (p : Nat) : (orReject f v i p).RunsOut get :=
  fun _ _ _ _ h => absurd h orReject_not_stop

theorem readBits_runsOut (st : Stage) (get : Src) (n p : Nat) : (readBits st get n p).RunsOut get := by
  intro e st' q g h
  rcases readBits_cases st get n p with ⟨v, -, -, hr⟩ | ⟨k, -, -, hn, hr⟩ <;> rw [hr] at h <;> cases h
  exact ⟨rfl, hn⟩

theorem readByte_runsOut (st : Stage) (get : Src) (p : Nat) : (readByte st get p).RunsOut get := readBits_runsOut st get 8 _

theorem readLens_runsOut (get : Src) (n p : Nat) : (readLens get n p).RunsOut get := by
  induction n generalizing p with
  | zero => exact .pure _ _
  | succ n ih => exact .field (readBits_runsOut _ _ _ _) fun v q => .bind (ih q) fun vs r => .pure _ _

theorem readCL_runsOut (get : Src) (v p : Nat) : (readCL get v p).RunsOut get := by
  unfold readCL
  split_ifs
  · exact .pure _ _
  · exact .bind (readBits_runsOut _ _ _ _) fun _ _ => .pure _ _
  · exact .bind (readBits_runsOut _ _ _ _) fun _ _ => .pure _ _
  · exact .bind (readBits_runsOut _ _ _ _) fun _ _ => .pure _ _
  · intro e st q g h; cases h

theorem readLL_runsOut (get : Src) (v p : Nat) : (readLL get v p).RunsOut get := by
  unfold readLL
  split_ifs
  · exact .pure _ _
  · exact .pure _ _
  · exact .pure _ _
  · exact .bind (readBits_runsOut _ _ _ _) fun _ _ => orReject_runsOut _ _ _ _

theorem readD_runsOut (get : Src) (v p : Nat) : (readD get v p).RunsOut get := by
  unfold readD
  split_ifs
  · exact .pure _ _
  · exact .bind (readBits_runsOut _ _ _ _) fun _ _ => orReject_runsOut _ _ _ _

/-- Where a read stops: with `E_BOUNDS` at a missing bit, with `E_NOLEAF`, or with `E_EMPTY_TABLE` before any bit is read. -/
theorem decode_stop_at {f : Format} {T : Table} {get : Src} {p q : Nat} {e : ErrCode} {st : Stage} {g : List Nat}
    (h : decode f T get p = .stop e st q g) : (e = .bounds ∧ get q = none) ∨ e = .noLeaf ∨ (e = .emptyTable ∧ q = p) := by
  have hwalk {st' : Stage} {k : Nat → Nat → Read Instr} (hk : ∀ v r, (k v r).RunsOut get)
      (h : (walk st' T get p).field k = .stop e st q g) :
      (e = .bounds ∧ get q = none) ∨ e = .noLeaf ∨ (e = .emptyTable ∧ q = p) := by
    rcases Read.field_stop.1 h with h | ⟨v, r, l, -, h, -⟩
    · rcases walk_cases st' T get p with ⟨x, -, -, -, hr⟩ | ⟨-, hr⟩ | ⟨k, -, hn, hr⟩ | ⟨k, -, hr, -⟩ <;> rw [hr] at h <;> cases h
      · exact .inr (.inr ⟨rfl, rfl⟩)
      · exact .inl ⟨rfl, hn⟩
      · exact .inr (.inl rfl)
    · exact .inl (hk v r e st q l h)
  cases f with
  | cl => exact hwalk (readCL_runsOut get) h
  | ll => exact hwalk (readLL_runsOut get) h
  | d => exact hwalk (readD_runsOut get) h
  | zHdr =>
    exact .inl (Read.RunsOut.field (readByte_runsOut _ _ _) (fun _ _ => .field (readByte_runsOut _ _ _) fun _ _ => .pure _ _) _ _ _ _ h)
  | zTrl =>
    exact .inl (Read.RunsOut.field (readByte_runsOut _ _ _) (fun _ _ => .field (readByte_runsOut _ _ _) fun _ _ =>
      .field (readByte_runsOut _ _ _) fun _ _ => .field (readByte_runsOut _ _ _) fun _ _ => .pure _ _) _ _ _ _ h)
  | bh =>
    exact .inl (Read.RunsOut.field (readBits_runsOut _ _ _ _) (fun _ _ => .field (readBits_runsOut _ _ _ _) fun _ _ => .pure _ _) _ _ _ _ h)
  | st =>
    exact .inl (Read.RunsOut.field (readByte_runsOut _ _ _) (fun _ _ => .field (readByte_runsOut _ _ _) fun _ _ =>
      .field (readByte_runsOut _ _ _) fun _ _ => .field (readByte_runsOut _ _ _) fun _ _ => .pure _ _) _ _ _ _ h)
  | dh =>
    exact .inl (Read.RunsOut.field (readBits_runsOut _ _ _ _) (fun _ _ => .field (readBits_runsOut _ _ _ _) fun _ _ =>
      .field (readBits_runsOut _ _ _ _) fun _ _ => .bind (readLens_runsOut _ _ _) fun _ _ => .pure _ _) _ _ _ _ h)
  | row => exact .inl (Read.RunsOut.field (readByte_runsOut _ _ _) (fun _ _ => .pure _ _) _ _ _ _ h)

end Sys2Proof

namespace Sys2Proof.Machine

/-- The limit of the source a format is read from, in bits. -/
def limitFor (f : Format) (s : State) : Nat :=
  match f with
  | .zHdr | .zTrl => 8 * s.inLen
  | .row => 8 * s.infLen
  | .bh | .st | .dh | .cl | .ll | .d => 8 * s.winEnd

theorem sourceFor_ends (f : Format) (s : State) : Ends (sourceFor f s) (limitFor f s) := by
  have h1 (n : Nat) : Ends (inputSrc s n) (8 * n) := ⟨by omega, fun k hk => by simp [inputSrc]; omega⟩
  have h2 : Ends (infSrc s) (8 * s.infLen) := ⟨by omega, fun k hk => by simp [infSrc]; omega⟩
  cases f
  all_goals first
    | exact h1 _
    | exact h2

end Sys2Proof.Machine
end

