-- ==== Sys2Proof/Laws/Effects.lean ====
section
/-! SUPPORT. The elements, phases and steps turned round: from a next state, all that can have led to it. Proofs over every step split on
these and unfold no meaning. -/

namespace Sys2Proof.Machine

/-- All that an element of a format can leave, from the state with the cursor after it. -/
inductive ElementEffect (s : State) : Format → State → Prop
  | header (cmf flg : Byte) : ElementEffect s .zHdr { s with cmf := cmf, flg := flg, hdrSeen := true }
  | trailer (adler : Word) : ElementEffect s .zTrl { s with
      adler := adler, hdrSeen := false, winLo := 2, winEnd := s.inLen - 4, bp := 2, bb := 0, phase := .blockHeader }
  | block (final : Bool) (ty : BitVec 2) (l d : TableSel) (ph : Phase) (h : ph = .stored ∨ ph = .symbol ∨ ph = .dynHeader) :
      ElementEffect s .bh { s with bfinal := final, btype := ty, llSel := l, dSel := d, phase := ph }
  | blockReserved (final : Bool) :
      ElementEffect s .bh (raise .btype .blockHeader s.bp { s with bfinal := final, btype := 3 })
  | stored (len nlen : BitVec 16) (m : Memory) (p : Nat) (hw : Memory.wf s.infMem = true → Memory.wf m = true)
      (hm : ∀ a, a < s.infLen → Memory.read m a = Memory.read s.infMem a)
      (hl : s.infLen + len.toNat ≤ max s.infLen s.infCap) (h1 : s.pos ≤ p) (h2 : p ≤ max s.pos (8 * s.winEnd)) :
      ElementEffect s .st { s.setPos p with
        stlen := len, stnlen := nlen, infMem := m, infLen := s.infLen + len.toNat, phase := .blockEnd }
  | storedError (len nlen : BitVec 16) (e : ErrCode) (p : Nat) (he : e = .bounds ∧ s.winEnd ≤ p / 8 ∨ e = .overflow) (h1 : s.pos ≤ p)
      (h2 : p ≤ max (alignUp s.pos) (8 * s.winEnd)) :
      ElementEffect s .st (raise e .stored (p / 8) { s.setPos p with stlen := len, stnlen := nlen })
  | dynamic (hlit hdist : BitVec 5) (hclen : BitVec 4) (c : Vector (BitVec 3) 19) (T : Table)
      (h : build (c.toList.map BitVec.toNat) = some T) : ElementEffect s .dh { s with
        hlit := hlit, hdist := hdist, hclen := hclen, cllen := c, clT := T, nlens := 0, phase := .dynLengths }
  | dynamicError (hlit hdist : BitVec 5) (hclen : BitVec 4) (c : Vector (BitVec 3) 19) :
      ElementEffect s .dh (raise .codeLen .tableBuild s.bp { s with
        hlit := hlit, hdist := hdist, hclen := hclen, cllen := c })
  | lengths (r : Nat) (v : BitVec 4) (h1 : 1 ≤ r) (h : r = 1 ∨ s.nlens + r ≤ s.total) :
      ElementEffect s .cl { s with
        lens := fillLens v r s.nlens s.lens, nlens := s.nlens + r
        phase := if s.nlens + r = s.total then .dynBuild else .dynLengths }
  | lengthsError : ElementEffect s .cl (raise .codeLen .dynLengths s.bp s)
  | literal (b : Byte) (h : s.infLen < s.infCap) : ElementEffect s .ll { s with
      sym := b.toNat, infMem := Memory.write s.infMem s.infLen b, infLen := s.infLen + 1 }
  | literalError (b : Byte) (h : s.infCap ≤ s.infLen) :
      ElementEffect s .ll (raise .overflow .symbol s.bp { s with sym := b.toNat })
  | blockDone : ElementEffect s .ll { s with sym := 256, phase := .blockEnd }
  | length (v n : Nat) (h1 : 257 ≤ v) (h2 : v ≤ 285) (h3 : 3 ≤ n) (h4 : n ≤ 258) :
      ElementEffect s .ll { s with sym := v, mlen := n, distNext := true }
  | symbolError (v : Nat) (h : v = 286 ∨ v = 287) : ElementEffect s .ll (raise .symbol .symbol s.bp { s with sym := v })
  | copied (v d : Nat) (m : Memory) (hv : v ≤ 29) (h1 : 1 ≤ d) (h2 : d ≤ 32768) (hd : d ≤ s.infLen)
      (hw : Memory.wf s.infMem = true → Memory.wf m = true)
      (hm : ∀ a, a < s.infLen → Memory.read m a = Memory.read s.infMem a)
      (hl : s.infLen + s.mlen ≤ max s.infLen s.infCap) : ElementEffect s .d { s with
        dsym := v, mdist := d, distNext := false, infMem := m, infLen := s.infLen + s.mlen }
  | matchError (v d : Nat) (e : ErrCode) (hv : v ≤ 29) (h2 : d ≤ 32768) (he : e = .dist ∨ e = .overflow) :
      ElementEffect s .d (raise e .matching s.bp { s with dsym := v, mdist := d, distNext := false })
  | distanceError (v : Nat) (h : v = 30 ∨ v = 31) : ElementEffect s .d (raise .symbol .matching s.bp { s with dsym := v })
  | row (ft : Byte) (m : Memory) (hw : Memory.wf s.pixMem = true → Memory.wf m = true)
      (hm : ∀ a, a < s.pixLen → Memory.read m a = Memory.read s.pixMem a)
      (hl : s.pixLen + s.cols ≤ max s.pixLen s.pixCap) (hr : 0 < s.cols → s.rowBase + 1 + s.cols ≤ s.infLen)
      (hn : s.row + 1 ≠ s.height.toNat) :
      ElementEffect s .row { s with ft := ft, pixMem := m, pixLen := s.pixLen + s.cols, row := s.row + 1 }
  | lastRow (ft : Byte) (m : Memory) (hw : Memory.wf s.pixMem = true → Memory.wf m = true)
      (hm : ∀ a, a < s.pixLen → Memory.read m a = Memory.read s.pixMem a)
      (hl : s.pixLen + s.cols ≤ max s.pixLen s.pixCap) (hr : 0 < s.cols → s.rowBase + 1 + s.cols ≤ s.infLen)
      (hn : s.row + 1 = s.height.toNat) :
      ElementEffect s .row { s with
        ft := ft, pixMem := m, pixLen := s.pixLen + s.cols, row := s.row + 1, busy := false, done := true, phase := .done }
  | rowError (ft : Byte) (e : ErrCode) (k : Nat) (hk : k < s.cols)
      (he : e = .bounds ∧ s.infLen ≤ s.rowBase + 1 + k ∨ e = .overflow ∧ s.pixCap ≤ s.pixLen + k)
      (hb : ∀ i, i < k → s.rowBase + 1 + i < s.infLen ∧ s.pixLen + i < s.pixCap) :
      ElementEffect s .row (raise e .unfRow (s.rowBase + 1 + k) { s with ft := ft })
  | filterError (ft : Byte) : ElementEffect s .row (raise .filter .unfRow s.rowBase { s with ft := ft })

theorem distanceElement_effect {v d : Nat} {s t : State} (hv : v ≤ 29) (h1 : 1 ≤ d) (h2 : d ≤ 32768)
    (h : distanceElement v d s = .next t) : ElementEffect s .d t := by
  rcases distanceElement_cases v d s with ⟨-, hr⟩ | ⟨hd, hr⟩
  · rw [hr] at h; cases h; exact .matchError v d _ hv h2 (.inl rfl)
  · rw [hr] at h
    rcases copyMatch_cases s.mlen (latchDistance v d s) with ⟨hl, m, hw, hm, hc⟩ | ⟨-, hc⟩ <;> rw [hc] at h <;> cases h
    · exact .copied v d m hv h1 h2 hd hw hm hl
    · exact .matchError v d _ hv h2 (.inr rfl)

theorem rowElement_effect {ft : Byte} {f : Byte → Byte → Byte → Byte → Byte} {s t : State}
    (h : rowElement ft f s = .next t) : ElementEffect s .row t := by
  unfold rowElement at h
  rcases rowBytes_cases f s.cols 0 { s with ft := ft } with ⟨hl, hr, m, hw, hm, hc⟩ | ⟨e, k, hk, he, hb, hc⟩
  · rw [hc, Run.bind_ok, endRow, Run.outcome_ok] at h
    split_ifs at h with hn <;> cases h
    · exact .lastRow ft m hw hm hl hr hn
    · exact .row ft m hw hm hl hr hn
  · rw [hc, Run.bind_trap, Run.outcome_trap] at h
    cases h
    exact .rowError ft e k hk he hb

theorem lengthRun_effect {r : Nat} {v : BitVec 4} {s : State} (h1 : 1 ≤ r) : ElementEffect s .cl (lengthRun r v s) := by
  rcases lengthRun_cases r v s with ⟨h, hr⟩ | ⟨-, hr⟩ <;> rw [hr]
  · exact .lengths r v h1 (.inr h)
  · exact .lengthsError

/-- What an element leaves is one of the effects of its format. -/
theorem exec_effect {i : Instr} {s t : State} (h : exec i s = .next t) : ElementEffect s i.format t := by
  have hrow {ft f} (h : rowElement ft f s = .next t) : ElementEffect s .row t := rowElement_effect h
  have hll {v n : Nat} (h : lengthElement v n s = .next t) (h1 : 257 ≤ v) (h2 : v ≤ 285) (h3 : 3 ≤ n) (h4 : n ≤ 258) :
      ElementEffect s .ll t := by cases h; exact .length v n h1 h2 h3 h4
  cases i
  case zHdr a b => cases h; exact .header a b
  case zTrl a => cases h; exact .trailer a
  case blkStored b => cases h; exact .block b 0 _ _ _ (.inl rfl)
  case blkFixed b => cases h; exact .block b 1 _ _ _ (.inr (.inl rfl))
  case blkDyn b => cases h; exact .block b 2 _ _ _ (.inr (.inr rfl))
  case blkRsvd b => cases h; exact .blockReserved b
  case stBody len nlen =>
    simp only [exec, execStBody] at h
    rcases copyStored_cases len.toNat { s with stlen := len, stnlen := nlen } with
      ⟨hl, m, p, hw, hm, h1, h2, hc⟩ | ⟨e, k, p, he, h1, rfl, h2, hc⟩
    · rw [hc, Run.bind_ok, endStored, Run.outcome_ok] at h
      cases h
      exact .stored len nlen m p hw hm hl h1 h2
    · rw [hc, Run.bind_trap, Run.outcome_trap] at h
      cases h
      exact .storedError len nlen e p he h1 h2
  case dynHdr a b c cls =>
    simp only [exec, execDynHdr] at h
    rcases buildCL_cases (latchDyn a b c cls s) with ⟨T, hT, hr⟩ | ⟨-, hr⟩ <;> rw [hr] at h <;> cases h
    · exact .dynamic a b c _ T hT
    · exact .dynamicError a b c _
  case clLen v => cases h; exact .lengths 1 v (by omega) (.inl rfl)
  case clRep x =>
    simp only [exec, execClRep] at h
    split_ifs at h <;> cases h
    · exact .lengthsError
    · exact lengthRun_effect (by omega)
  case clZ3 x => cases h; exact lengthRun_effect (by omega)
  case clZ11 x => cases h; exact lengthRun_effect (by omega)
  case lit b =>
    simp only [exec, execLit] at h
    rcases put_cases .symbol b { s with sym := b.toNat } with ⟨hl, hr⟩ | ⟨hl, hr⟩ <;> rw [hr] at h <;> cases h
    · exact .literal b hl
    · exact .literalError b hl
  case eob => cases h; exact .blockDone
  case llIll k =>
    cases h
    exact .symbolError _ (by omega)
  case dIll k =>
    cases h
    exact .distanceError _ (by omega)
  case ftNone => exact hrow h
  case ftSub => exact hrow h
  case ftUp => exact hrow h
  case ftAvg => exact hrow h
  case ftPaeth => exact hrow h
  case ftIll v => cases h; exact .filterError v
  all_goals first
    | exact hll h (by omega) (by omega) (by omega) (by omega)
    | exact distanceElement_effect (by omega) (by omega) (by omega) h

/-! ## What is expected -/

/-- The control state in which an element of a format is expected (30_encoding.md R89). -/
theorem expected_some {s : State} {f : Format} (h : expected s = some f) :
    match f with
    | .zHdr => s.phase = .envelope ∧ s.op ≠ 1 ∧ s.hdrSeen = false
    | .zTrl => s.phase = .envelope ∧ s.op ≠ 1 ∧ s.hdrSeen = true
    | .bh => s.phase = .blockHeader
    | .st => s.phase = .stored
    | .dh => s.phase = .dynHeader
    | .cl => s.phase = .dynLengths
    | .ll => s.phase = .symbol ∧ s.distNext = false
    | .d => s.phase = .symbol ∧ s.distNext = true
    | .row => s.phase = .unfRow := by
  unfold expected at h
  split at h <;> rename_i hp <;> try split_ifs at h
  all_goals cases h
  all_goals simp_all

/-- The registers that a stopped fetch may have latched; nothing else changes. -/
theorem latch_eq (f : Format) (got : List Nat) (s : State) : ∃ a b c d e v w,
    latch f got s = { s with bfinal := a, hlit := b, hdist := c, hclen := d, cllen := e, sym := v, dsym := w } := by
  unfold latch
  split <;> exact ⟨_, _, _, _, _, _, _, rfl⟩

/-! ## Phases without an element -/

/-- All that a phase without an element can leave. -/
inductive PhaseEffect (s : State) : State → Prop
  | rest (h : s.phase = .idle ∨ s.phase = .done ∨ s.phase = .error) : PhaseEffect s s
  | raw (h : s.phase = .envelope) (ho : s.op = 1) :
      PhaseEffect s { s with winLo := 0, winEnd := s.inLen, bp := 0, bb := 0, phase := .blockHeader }
  | built (T U : Table) (h : s.phase = .dynBuild) (hT : build (llLengths s) = some T) (hU : build (dLengths s) = some U) :
      PhaseEffect s { s with dynLL := T, dynD := U, llSel := .dyn, dSel := .dyn, phase := .symbol }
  | badLL (h : s.phase = .dynBuild) (hT : build (llLengths s) = none) : PhaseEffect s (raise .codeLen .tableBuild s.bp s)
  | badD (T : Table) (h : s.phase = .dynBuild) (hT : build (llLengths s) = some T) (hU : build (dLengths s) = none) :
      PhaseEffect s (raise .codeLen .tableBuild s.bp { s with dynLL := T })
  | nextBlock (h : s.phase = .blockEnd) (hf : s.bfinal = false) : PhaseEffect s { s with phase := .blockHeader }
  | toUnfilter (h : s.phase = .blockEnd) (hf : s.bfinal = true) (ho : s.op = 4) : PhaseEffect s { s with phase := .unfCfg }
  | finished (h : s.phase = .blockEnd) (hf : s.bfinal = true) (ho : s.op ≠ 4) :
      PhaseEffect s { s with busy := false, done := true, phase := .done }
  | badColor (h : s.phase = .unfCfg) : PhaseEffect s (raise .color .unfCfg 0 s)
  | badDepth (h : s.phase = .unfCfg) : PhaseEffect s (raise .geom .unfCfg 0 s)
  | noRows (n : Nat) (h : s.phase = .unfCfg) (h1 : 1 ≤ n) (h2 : n ≤ 128) (hh : s.height = 0) :
      PhaseEffect s { s with bpp := n, cols := s.width.toNat * n, row := 0, busy := false, done := true, phase := .done }
  | rows (n : Nat) (h : s.phase = .unfCfg) (h1 : 1 ≤ n) (h2 : n ≤ 128) (hh : s.height ≠ 0) :
      PhaseEffect s { s with bpp := n, cols := s.width.toNat * n, row := 0, phase := .unfRow }

/-- Bytes per pixel are 1 to 128: 1 to 4 channels of 1 to 32 bytes (45_unfilter.md R271). -/
theorem bpp_bounds {c d : Byte} {ch : Nat} (hc : channels c = some ch) (hd : d ≠ 0) :
    1 ≤ ch * ((d.toNat + 7) / 8) ∧ ch * ((d.toNat + 7) / 8) ≤ 128 := by
  have h1 := channels_bounds hc
  have h2 : d.toNat ≠ 0 := fun h => hd (BitVec.eq_of_toNat_eq h)
  have h3 := d.isLt
  have h4 : 1 ≤ (d.toNat + 7) / 8 := by omega
  have h5 : (d.toNat + 7) / 8 ≤ 32 := by omega
  exact ⟨Nat.mul_pos h1.1 h4, Nat.mul_le_mul h1.2 h5⟩

theorem phaseStep_effect {s : State} (he : expected s = none) : PhaseEffect s (phaseStep s) := by
  unfold phaseStep
  split <;> rename_i hp
  · refine .raw hp ?_
    simp only [expected, hp] at he
    split_ifs at he with ho
    simpa using ho
  · rcases dynBuild_cases s with ⟨T, U, hT, hU, hr⟩ | ⟨hT, hr⟩ | ⟨T, hT, hU, hr⟩ <;> rw [hr]
    · exact .built T U hp hT hU
    · exact .badLL hp hT
    · exact .badD T hp hT hU
  · rcases blockEnd_cases s with ⟨hf, hr⟩ | ⟨hf, ho, hr⟩ | ⟨hf, ho, hr⟩ <;> rw [hr]
    · exact .nextBlock hp hf
    · exact .toUnfilter hp hf ho
    · exact .finished hp hf ho
  · rcases unfConfig_cases s with ⟨-, hr⟩ | ⟨_, -, -, hr⟩ | ⟨_, hc, hd, hh, hr⟩ | ⟨_, hc, hd, hh, hr⟩ <;> rw [hr]
    · exact .badColor hp
    · exact .badDepth hp
    · exact .noRows _ hp (bpp_bounds hc hd).1 (bpp_bounds hc hd).2 hh
    · exact .rows _ hp (bpp_bounds hc hd).1 (bpp_bounds hc hd).2 hh
  · exact .rest (.inl hp)
  · exact .rest (.inr (.inl hp))
  · exact .rest (.inr (.inr hp))
  all_goals
    simp only [expected, hp] at he
    try split_ifs at he
    try cases he

/-! ## Steps of the core -/

/-- All that a step of the core that answers can have done: it rested, performed a phase without an element, or fetched in the format
expected; the fetch stopped with an error, or gave an element with one of its effects. -/
inductive CoreEffect (s : State) : State → Prop
  | idle (h : s.busy = false) : CoreEffect s s
  | phase (h : s.busy = true) (t : State) (ht : PhaseEffect s t) : CoreEffect s t
  | short (h : s.busy = true) (he : expected s = some .zHdr) (hl : s.inLen < 6) :
      CoreEffect s (raise .bounds .envelope s.bp s)
  | stop (f : Format) (e : ErrCode) (st : Stage) (p : Nat) (got : List Nat) (h : s.busy = true) (he : expected s = some f)
      (hl : ¬ (f = .zHdr ∧ s.inLen < 6))
      (hd : decode f (tableFor f s) (sourceFor f s) (startOf f s) = .stop e st p got)
      (h1 : startOf f s ≤ p) (h2 : p ≤ max (alignUp (startOf f s)) (limitFor f s)) :
      CoreEffect s (raise e st (p / 8) (latch f got (advance f p s)))
  | element (f : Format) (i : Instr) (p : Nat) (t : State) (h : s.busy = true) (he : expected s = some f)
      (hl : ¬ (f = .zHdr ∧ s.inLen < 6))
      (hd : decode f (tableFor f s) (sourceFor f s) (startOf f s) = .ok i p)
      (h1 : startOf f s + 1 ≤ p) (h2 : p ≤ max (alignUp (startOf f s)) (limitFor f s))
      (ht : ElementEffect (advance f p s) f t) : CoreEffect s t

theorem coreStep_effect {s t : State} (h : coreStep s = .next t) : CoreEffect s t := by
  rcases coreStep_cases s with ⟨hb, hr⟩ | ⟨hb, he, hr⟩ | ⟨f, hb, he, hr⟩ <;> rw [hr] at h
  · cases h; exact .idle hb
  · cases h; exact .phase hb _ (phaseStep_effect he)
  · unfold runElement at h
    have hw := decode_within (sourceFor_ends f s) f (tableFor f s) (startOf f s)
    rcases fetchElement_cases f s with ⟨rfl, hl, hf⟩ | ⟨hl, ⟨i, p, hd, hf⟩ | ⟨e, st, p, got, hd, hf⟩ | ⟨g, v, -, hf⟩⟩ <;> rw [hf] at h
    · cases h; exact .short hb he hl
    · rw [hd] at hw
      have hfm := decode_format hd
      subst hfm
      exact .element _ i p t hb he hl hd hw.1 hw.2 (exec_effect h)
    · cases h
      rw [hd] at hw
      exact .stop f e st p got hb he hl hd hw.1 hw.2
    · cases h

/-! ## Moves of the host -/

/-- All that a move of the host that answers can leave. -/
inductive HostEffect (s : State) : State → Prop
  | same : HostEffect s s
  | op (v : BitVec 3) (h : s.busy = false) : HostEffect s { s with op := v }
  | inLen (n : Nat) (h : s.busy = false) (hn : n < 2 ^ 32) : HostEffect s { s with inLen := n }
  | infLen (n : Nat) (h : s.busy = false) (hn : n < 2 ^ 32) : HostEffect s { s with infLen := n }
  | width (v : Word) (h : s.busy = false) : HostEffect s { s with width := v }
  | height (v : Word) (h : s.busy = false) : HostEffect s { s with height := v }
  | fmt (d c : Byte) (h : s.busy = false) : HostEffect s { s with bitDepth := d, colorType := c }
  | clear (h : s.busy = false) : HostEffect s (clear s)
  | startInflate (h : s.busy = false) (hi : s.inflates = true) (hl : s.inLen ≤ s.inCap) :
      HostEffect s { startClear s with phase := .envelope }
  | startUnfilter (h : s.busy = false) (ho : s.op = 3) (hl : s.infLen ≤ s.infCap) :
      HostEffect s { startClear s with phase := .unfCfg }
  | startError (h : s.busy = false) : HostEffect s (raise .cmd .cmd 0 (startClear s))
  | read (v : Word) (n : Nat) : HostEffect s { s with rdata := v, freeCtr := n }
  | write (sp : Space) (a : Nat) (v : Byte) (h : s.busy = false) (ha : a < s.cap sp) : HostEffect s (s.writeByte sp a v)
  | reset : HostEffect s (hardReset s)

theorem hostMove_effect {m : HostMove} {s t : State} (h : hostMove m s = .next t) : HostEffect s t := by
  cases m <;> simp only [hostMove] at h
  case writeReg r v =>
    cases h
    cases hb : s.busy with
    | true => rw [hostWrite_busy r v hb]; exact .same
    | false =>
      unfold hostWrite
      rw [if_neg (by simp [hb])]
      cases r
      case cmd => exact .op _ hb
      case ctrl =>
        simp only [writeCtrl]
        by_cases h1 : v.getLsbD 1 = true
        · rw [if_pos h1]; exact .clear hb
        · rw [if_neg h1]
          by_cases h0 : v.getLsbD 0 = true
          · rw [if_pos h0]
            rcases start_cases s with ⟨hi, hl, hr⟩ | ⟨ho, hl, hr⟩ | hr <;> rw [hr]
            · exact .startInflate hb hi hl
            · exact .startUnfilter hb ho hl
            · exact .startError hb
          · rw [if_neg h0]; exact .same
      case inLen => exact .inLen _ hb v.isLt
      case infLen => exact .infLen _ hb v.isLt
      case width => exact .width _ hb
      case height => exact .height _ hb
      case fmt => exact .fmt _ _ hb
      all_goals exact .same
  case readReg r =>
    cases h
    unfold hostRead
    by_cases hb : s.busy = true
    · rw [if_pos hb]; exact .read _ _
    · rw [if_neg hb]; exact .read (s := s) (regValue r s) s.freeCtr
  case writeMem sp a v =>
    split_ifs at h with h1 h2
    cases h
    exact .write sp a v (by simpa using h2) (by omega)
  case readMem sp a =>
    split_ifs at h with h1
    cases h
    unfold hostReadMem
    split_ifs
    · exact .read _ _
    · exact .read (s := s) ((s.byte sp a).setWidth 32) s.freeCtr
  case rst => cases h; exact .reset
  case pass => cases h; exact .same
  case wait => cases h; exact .same

/-- A step that answers: a step of the core, from the state with the host's queue as the move leaves it, or a move of the host. -/
theorem step_effect {s t : State} (h : step s = .next t) :
    (∃ q, CoreEffect { s with host := q } t) ∨ (∃ q, s.busy = false ∧ t = { s with host := q }) ∨
      (∃ m q, s.host = m :: q ∧ hostMove m { s with host := q } = .next t ∧ HostEffect { s with host := q } t) := by
  rcases step_cases s with ⟨hh, hr⟩ | ⟨q, -, hr⟩ | ⟨q, hh, -, hr⟩ | ⟨q, -, hb, hr⟩ | ⟨m, q, hh, -, -, hr⟩ <;> rw [hr] at h
  · exact .inl ⟨s.host, coreStep_effect h⟩
  · exact .inl ⟨q, coreStep_effect h⟩
  · exact .inl ⟨s.host, coreStep_effect h⟩
  · cases h; exact .inr (.inl ⟨q, hb, rfl⟩)
  · exact .inr (.inr ⟨m, q, hh, h, hostMove_effect h⟩)

/-- An invariant that says nothing of the host's queue holds after a step if the core and the host's moves keep it. -/
theorem keeps_of_effects {P : State → Prop} (hq : ∀ s q, P s → P { s with host := q })
    (hc : ∀ s t, P s → CoreEffect s t → P t) (hm : ∀ s t, P s → HostEffect s t → P t) {s t : State} (hs : P s)
    (h : step s = .next t) : P t := by
  rcases step_effect h with ⟨q, h⟩ | ⟨q, -, rfl⟩ | ⟨m, q, -, -, h⟩
  · exact hc _ _ (hq s q hs) h
  · exact hq s q hs
  · exact hm _ _ (hq s q hs) h

end Sys2Proof.Machine
end

