-- ==== Sys2Proof/Tests/Slice0.lean ====
section
/-! SUPPORT. The model's own tests. Each expected value is from the spec: a rule's encoding or example, named beside it. -/

namespace Sys2Proof.Tests

open Sys2Proof Sys2Proof.Machine

/-- Bits written as digits in read order. -/
def rd (s : String) : List Bool := s.toList.map (· == '1')

/-- An element read at the first bit of a list of bits. -/
def read (f : Format) (T : Table) (s : String) : Read Instr := decode f T (srcOf (rd s) 0) 0

/-- The next state, or the reset state where there is none. -/
def after (o : Host.Outcome State Fault Refusal) : State :=
  match o with
  | .next s => s
  | .fault _ => State.reset
  | .refused _ => State.reset

/-- A core in a run, in some phase, over these input bytes. -/
def given (ph : Phase) (bytes : List Byte) : State :=
  { State.reset with
    busy := true, phase := ph, op := 1, inMem := storeBytes bytes 0 [], inLen := bytes.length, winEnd := bytes.length }

/-- The same with these bytes already in `INF`. -/
def givenInf (ph : Phase) (bytes : List Byte) : State :=
  { State.reset with busy := true, phase := ph, op := 3, infMem := storeBytes bytes 0 [], infLen := bytes.length }

/-- A row about to be unfiltered: the bytes of `INF`, `COLS` and `BPP`, and the rows already in `PIX`. -/
def givenRow (inf pix : List Byte) (row cols bpp height : Nat) : State :=
  { givenInf .unfRow inf with
    pixMem := storeBytes pix 0 [], pixLen := pix.length, row := row, cols := cols, bpp := bpp, height := BitVec.ofNat 32 height }

/-! ## Well-formedness: the ill-formed terms are refused -/

theorem test_wf_refuses_missing_lengths : (Instr.dynHdr 4 0 14 [4, 2, 2]).wf = false := by decide
theorem test_wf_refuses_legal_filter_byte : (Instr.ftIll 4).wf = false := by decide
theorem test_wf_accepts_four_lengths : (Instr.dynHdr 4 0 0 [4, 2, 2, 1]).wf = true := by decide
theorem test_wf_accepts_filter_byte_five : (Instr.ftIll 5).wf = true := by decide

/-! ## Decoding: words written out from 30_encoding.md -/

/-- R72: `BFINAL`, then `BTYPE`, bit 0 first. -/
theorem test_decode_block_headers :
    read .bh [] "100" = .ok (.blkStored true) 3 ∧ read .bh [] "010" = .ok (.blkFixed false) 3 ∧
    read .bh [] "101" = .ok (.blkDyn true) 3 ∧ read .bh [] "011" = .ok (.blkRsvd false) 3 := by decide

/-- R73: `LEN` and `NLEN`, each low byte first: the bytes `04 00 FB FF` of the example of R133. -/
theorem test_decode_stored_lengths :
    read .st [] "00100000000000001101111111111111" = .ok (.stBody 4 0xFFFB) 32 := by decide

/-- R74, with the counts of the example of R136: `00100 00000 0111`, then 18 lengths (those of R148). -/
theorem test_decode_dynamic_header :
    read .dh [] "00100000000111001010010000000000000000000000000000000110000010000001" =
      .ok (.dynHdr 4 0 14 [4, 2, 2, 0, 0, 0, 0, 0, 0, 0, 0, 0, 0, 3, 0, 2, 0, 4]) 68 := by decide +kernel

/-- R76, with the table of R148: 2 is `00`, 17 is `01`, 18 is `10`, 3 is `110`, 1 is `1110`, 16 is `1111`. -/
def tableR148 : Table := (build [0, 4, 2, 3, 0, 0, 0, 0, 0, 0, 0, 0, 0, 0, 0, 0, 4, 2, 2]).getD []

theorem test_decode_code_lengths :
    read .cl tableR148 "00" = .ok (.clLen 2) 2 ∧ read .cl tableR148 "1110" = .ok (.clLen 1) 4 ∧
    read .cl tableR148 "111101" = .ok (.clRep 2) 6 ∧ read .cl tableR148 "01111" = .ok (.clZ3 7) 5 ∧
    read .cl tableR148 "101111111" = .ok (.clZ11 127) 9 := by decide +kernel

/-- R85: the filter byte, least significant bit first. -/
theorem test_decode_rows :
    read .row [] "00000000" = .ok .ftNone 8 ∧ read .row [] "10000000" = .ok .ftSub 8 ∧ read .row [] "01000000" = .ok .ftUp 8 ∧
    read .row [] "11000000" = .ok .ftAvg 8 ∧ read .row [] "00100000" = .ok .ftPaeth 8 ∧
    read .row [] "10100000" = .ok (.ftIll 5) 8 ∧ read .row [] "11111111" = .ok (.ftIll 255) 8 := by decide

/-- R71: the header bytes `78 01`, the trailer `03 01 01 00` of the example of R248. -/
theorem test_decode_envelope :
    read .zHdr [] "0001111010000000" = .ok (.zHdr 0x78 0x01) 16 ∧
    read .zTrl [] "11000000100000001000000000000000" = .ok (.zTrl 0x03010100) 32 := by decide

/-- R162, R163, R164: literal 65, literal 0, literal 144, literal 255, end of block, and the two illegal symbols of a fixed block. -/
theorem test_decode_literals :
    read .ll fixLL "01110001" = .ok (.lit 65) 8 ∧ read .ll fixLL "00110000" = .ok (.lit 0) 8 ∧
    read .ll fixLL "110010000" = .ok (.lit 144) 9 ∧ read .ll fixLL "111111111" = .ok (.lit 255) 9 ∧
    read .ll fixLL "0000000" = .ok .eob 7 ∧
    read .ll fixLL "11000110" = .ok (.llIll 0) 8 ∧ read .ll fixLL "11000111" = .ok (.llIll 1) 8 := by decide +kernel

/-- R170 to R198: the fixed-block code of each length symbol and the extra bits of the example, all ones. -/
theorem test_decode_lengths_0 :
    read .ll fixLL "0000001" = .ok .len257 7 ∧
    read .ll fixLL "0000010" = .ok .len258 7 ∧
    read .ll fixLL "0000011" = .ok .len259 7 ∧
    read .ll fixLL "0000100" = .ok .len260 7 ∧
    read .ll fixLL "0000101" = .ok .len261 7 ∧
    read .ll fixLL "0000110" = .ok .len262 7 ∧
    read .ll fixLL "0000111" = .ok .len263 7 ∧
    read .ll fixLL "0001000" = .ok .len264 7 ∧
    read .ll fixLL "00010011" = .ok (.len265 1) 8 ∧
    read .ll fixLL "00010101" = .ok (.len266 1) 8 ∧
    read .ll fixLL "00010111" = .ok (.len267 1) 8 ∧
    read .ll fixLL "00011001" = .ok (.len268 1) 8 ∧
    read .ll fixLL "000110111" = .ok (.len269 3) 9 ∧
    read .ll fixLL "000111011" = .ok (.len270 3) 9 ∧
    read .ll fixLL "000111111" = .ok (.len271 3) 9 := by decide +kernel

/-- R170 to R198, the second half. -/
theorem test_decode_lengths_1 :
    read .ll fixLL "001000011" = .ok (.len272 3) 9 ∧
    read .ll fixLL "0010001111" = .ok (.len273 7) 10 ∧
    read .ll fixLL "0010010111" = .ok (.len274 7) 10 ∧
    read .ll fixLL "0010011111" = .ok (.len275 7) 10 ∧
    read .ll fixLL "0010100111" = .ok (.len276 7) 10 ∧
    read .ll fixLL "00101011111" = .ok (.len277 15) 11 ∧
    read .ll fixLL "00101101111" = .ok (.len278 15) 11 ∧
    read .ll fixLL "00101111111" = .ok (.len279 15) 11 ∧
    read .ll fixLL "110000001111" = .ok (.len280 15) 12 ∧
    read .ll fixLL "1100000111111" = .ok (.len281 31) 13 ∧
    read .ll fixLL "1100001011111" = .ok (.len282 31) 13 ∧
    read .ll fixLL "1100001111111" = .ok (.len283 31) 13 ∧
    read .ll fixLL "1100010011111" = .ok (.len284 31) 13 ∧
    read .ll fixLL "11000101" = .ok .len285 8 := by decide +kernel

/-- R205 to R234 and R203: the fixed-block code of each distance symbol, and extra value 1, bit 0 first. -/
theorem test_decode_distances :
    read .d fixD "00000" = .ok .dist0 5 ∧
    read .d fixD "00001" = .ok .dist1 5 ∧
    read .d fixD "00010" = .ok .dist2 5 ∧
    read .d fixD "00011" = .ok .dist3 5 ∧
    read .d fixD "001001" = .ok (.dist4 1) 6 ∧
    read .d fixD "001011" = .ok (.dist5 1) 6 ∧
    read .d fixD "0011010" = .ok (.dist6 1) 7 ∧
    read .d fixD "0011110" = .ok (.dist7 1) 7 ∧
    read .d fixD "01000100" = .ok (.dist8 1) 8 ∧
    read .d fixD "01001100" = .ok (.dist9 1) 8 ∧
    read .d fixD "010101000" = .ok (.dist10 1) 9 ∧
    read .d fixD "010111000" = .ok (.dist11 1) 9 ∧
    read .d fixD "0110010000" = .ok (.dist12 1) 10 ∧
    read .d fixD "0110110000" = .ok (.dist13 1) 10 ∧
    read .d fixD "01110100000" = .ok (.dist14 1) 11 ∧
    read .d fixD "01111100000" = .ok (.dist15 1) 11 ∧
    read .d fixD "100001000000" = .ok (.dist16 1) 12 ∧
    read .d fixD "100011000000" = .ok (.dist17 1) 12 ∧
    read .d fixD "1001010000000" = .ok (.dist18 1) 13 ∧
    read .d fixD "1001110000000" = .ok (.dist19 1) 13 ∧
    read .d fixD "10100100000000" = .ok (.dist20 1) 14 ∧
    read .d fixD "10101100000000" = .ok (.dist21 1) 14 ∧
    read .d fixD "101101000000000" = .ok (.dist22 1) 15 ∧
    read .d fixD "101111000000000" = .ok (.dist23 1) 15 ∧
    read .d fixD "1100010000000000" = .ok (.dist24 1) 16 ∧
    read .d fixD "1100110000000000" = .ok (.dist25 1) 16 ∧
    read .d fixD "11010100000000000" = .ok (.dist26 1) 17 ∧
    read .d fixD "11011100000000000" = .ok (.dist27 1) 17 ∧
    read .d fixD "111001000000000000" = .ok (.dist28 1) 18 ∧
    read .d fixD "111011000000000000" = .ok (.dist29 1) 18 ∧
    read .d fixD "11110" = .ok (.dIll 0) 5 ∧
    read .d fixD "11111" = .ok (.dIll 1) 5 := by decide +kernel

/-- R112: the example of the construction. -/
theorem test_build_example :
    (build [3, 3, 3, 3, 3, 2, 4, 4]).map (fun T => T.map Entry.bits) =
      some [rd "010", rd "011", rd "100", rd "101", rd "110", rd "00", rd "1110", rd "1111"] := by decide

/-- R113: three codes of length 1 are over-subscribed; R116: no code at all is no error; R119: an incomplete code is none. -/
theorem test_build_checks :
    build [1, 1, 1] = none ∧ build [0, 0] = some [] ∧ build [1] = some [{ code := 0, len := 1, sym := 0 }] := by decide

/-- R118: with the table of R112's example `1110` is symbol 6; R119: the only code `0` raises on bit 1; an empty table before any bit. -/
theorem test_walk_example :
    walk .symbol ((build [3, 3, 3, 3, 3, 2, 4, 4]).getD []) (srcOf (rd "1110") 0) 0 = .ok 6 4 ∧
    walk .matching (oneCode 0) (srcOf (rd "1") 0) 0 = .stop .noLeaf .matching 1 [] ∧
    walk .dynLengths [] (srcOf [] 0) 0 = .stop .emptyTable .dynLengths 0 [] := by decide

/-! ## The BitReader: the examples of R101, R102, R103 with `IN = B5 01 C3` -/

theorem test_bitReader_fields :
    readBits .symbol (windowSrc (given .symbol [0xB5, 0x01, 0xC3])) 3 0 = .ok 5 3 ∧
    readBits .symbol (windowSrc (given .symbol [0xB5, 0x01, 0xC3])) 5 3 = .ok 22 8 ∧
    readBits .symbol (windowSrc (given .symbol [0xB5, 0x01, 0xC3])) 13 0 = .ok 437 13 ∧
    readByte .stored (windowSrc (given .stored [0xB5, 0x01, 0xC3])) 12 = .ok 0xC3 24 ∧
    readByte .stored (windowSrc (given .stored [0xB5, 0x01, 0xC3])) 8 = .ok 0x01 16 ∧
    readBits .symbol (windowSrc (given .symbol [0xB5])) 9 0 = .stop .bounds .symbol 8 [] := by decide

/-! ## One step -/

/-- R133's example from its header on: `01 04 00 FB FF 00 FF 00 00`; output `00 FF 00 00`, cursor `(9, 0)`. -/
theorem test_step_stored :
    (after (step { given .stored [0x01, 0x04, 0x00, 0xFB, 0xFF, 0x00, 0xFF, 0x00, 0x00] with bb := 3 })).infMem =
        [(0, 0x00), (1, 0xFF), (2, 0x00), (3, 0x00)] ∧
      (after (step { given .stored [0x01, 0x04, 0x00, 0xFB, 0xFF, 0x00, 0xFF, 0x00, 0x00] with bb := 3 })).bp = 9 := by decide

/-- R133: the body is cut off; `E_BOUNDS(STORED)` at the window's end and no output. -/
theorem test_step_stored_cut_off :
    (after (step { given .stored [0x01, 0x04, 0x00, 0xFB, 0xFF, 0x00, 0xFF] with bb := 3 })).errCode = some .bounds ∧
      (after (step { given .stored [0x01, 0x04, 0x00, 0xFB, 0xFF, 0x00, 0xFF] with bb := 3 })).errPos = 7 := by decide

/-- R134: byte `07` is an error with `ERR_POS = 0`, `CUR_BB = 3`. -/
theorem test_step_reserved_block :
    (after (step (given .blockHeader [0x07]))).errCode = some .btype ∧ (after (step (given .blockHeader [0x07]))).errPos = 0 ∧
      (after (step (given .blockHeader [0x07]))).bb = 3 ∧ (after (step (given .blockHeader [0x07]))).bfinal = true := by decide

/-- R130: byte `73` gives `BFINAL = 1`, `BTYPE = 1`. -/
theorem test_step_fixed_block :
    (after (step (given .blockHeader [0x73]))).bfinal = true ∧ (after (step (given .blockHeader [0x73]))).btype = 1 ∧
      (after (step (given .blockHeader [0x73]))).phase = .symbol := by decide

/-- R137: `HCLEN = 0` sends lengths for symbols 16, 17, 18, 0 only. -/
theorem test_dynHdr_order :
    (after (exec (.dynHdr 4 0 0 [1, 2, 3, 3]) State.reset)).cllen.toList =
      [3, 0, 0, 0, 0, 0, 0, 0, 0, 0, 0, 0, 0, 0, 0, 0, 1, 2, 3] ∧
    (after (exec (.dynHdr 4 0 0 [1, 2, 3, 3]) State.reset)).phase = .dynLengths := by decide +kernel

/-- R138: three lengths 1 are over-subscribed: `E_CODELEN(TABLE_BUILD)`. -/
theorem test_dynHdr_over_subscribed :
    (after (exec (.dynHdr 4 0 0 [1, 1, 1, 0]) State.reset)).errCode = some .codeLen ∧
    (after (exec (.dynHdr 4 0 0 [1, 1, 1, 0]) State.reset)).errStage = .tableBuild := by decide +kernel

/-- R141, R142: after `CL.LEN 3`, `CL.REP 0` appends three more 3s. -/
theorem test_clRep_repeats :
    ((after (exec (.clRep 0) (after (exec (.clLen 3) State.reset)))).lens.toList.take 5 = [3, 3, 3, 3, 0]) ∧
    (after (exec (.clRep 0) (after (exec (.clLen 3) State.reset)))).nlens = 4 := by decide +kernel

/-- R142: a repeat with no previous length. -/
theorem test_clRep_first : (after (exec (.clRep 0) State.reset)).errCode = some .codeLen := by decide

/-- R144: extra value 127 emits 138 zeros; R143: 7 emits ten; R145: they must fit in `TOTAL = 258`. -/
theorem test_zero_runs :
    (after (exec (.clZ11 127) State.reset)).nlens = 138 ∧ (after (exec (.clZ3 7) State.reset)).nlens = 10 ∧
    (after (exec (.clZ3 0) { State.reset with nlens := 255 })).phase = .dynBuild ∧
    (after (exec (.clZ3 0) { State.reset with nlens := 256 })).errCode = some .codeLen := by decide +kernel

/-- R162: `LIT 65` appends `41`. -/
theorem test_lit_appends : (after (exec (.lit 65) State.reset)).infMem = [(0, 0x41)] := by decide

/-- R160: a full `INF` is `E_OVERFLOW`. -/
theorem test_lit_overflow :
    (after (exec (.lit 65) { State.reset with infCap := 0 })).errCode = some .overflow ∧
    (after (exec (.lit 65) { State.reset with infCap := 0 })).errStage = .symbol := by decide

theorem test_eob_ends : (after (exec .eob (given .symbol []))).phase = .blockEnd := by decide

theorem test_illegal_symbols :
    (after (exec (.llIll 0) State.reset)).errCode = some .symbol ∧ (after (exec (.llIll 1) State.reset)).errStage = .symbol ∧
    (after (exec (.dIll 0) State.reset)).errCode = some .symbol ∧ (after (exec (.dIll 1) State.reset)).errStage = .matching := by
  decide

/-- R182, R197, R198: `LEN269 3` is 22, `LEN284 31` is 258, `LEN285` is 258. -/
theorem test_lengths :
    (after (exec (.len269 3) State.reset)).mlen = 22 ∧ (after (exec (.len284 31) State.reset)).mlen = 258 ∧
    (after (exec .len285 State.reset)).mlen = 258 ∧ (after (exec .len257 State.reset)).mlen = 3 := by decide

/-- R202: `LIT 0x61`, then `MATCH 10, 1`: eleven bytes `61`. -/
theorem test_match_overlap :
    (after (exec .dist0 { givenInf .symbol [0x61] with mlen := 10 })).infMem =
      (List.range 11).map (fun k => (k, (0x61 : Byte))) := by decide

/-- R201: one byte produced and distance 2: `E_DIST`; distance 1 is legal. -/
theorem test_match_too_far :
    (after (exec .dist1 { givenInf .symbol [0x41] with mlen := 3 })).errCode = some .dist ∧
    (after (exec .dist0 { givenInf .symbol [0x41] with mlen := 3 })).errCode = none := by decide

/-- R200: the largest distance is 32768. -/
theorem test_largest_distance : (after (exec (.dist29 8191) State.reset)).mdist = 32768 := by decide

/-- R276, R277, R278: the examples. -/
theorem test_rows_none_sub_up :
    (after (exec .ftNone (givenRow [0x00, 1, 2, 3] [] 0 3 1 1))).pixMem = [(0, 1), (1, 2), (2, 3)] ∧
    (after (exec .ftSub (givenRow [0x01, 0x0A, 0x14, 0x1E, 0xFA] [] 0 4 1 1))).pixMem =
      [(0, 0x0A), (1, 0x1E), (2, 0x3C), (3, 0x36)] ∧
    (after (exec .ftUp (givenRow [0, 0x0A, 0x14, 0x1E, 0x02, 1, 2, 0xFA] [0x0A, 0x14, 0x1E] 1 3 1 2))).pixMem =
      [(0, 0x0A), (1, 0x14), (2, 0x1E), (3, 0x0B), (4, 0x16), (5, 0x18)] := by decide

/-- R279, R280: the examples. -/
theorem test_rows_avg_paeth :
    (after (exec .ftAvg (givenRow [0, 200, 100, 3, 10, 10] [200, 100] 1 2 1 2))).pixMem =
      [(0, 200), (1, 100), (2, 110), (3, 115)] ∧
    (after (exec .ftPaeth (givenRow [0, 50, 100, 4, 200, 7] [50, 100] 1 2 1 2))).pixMem =
      [(0, 50), (1, 100), (2, 250), (3, 1)] ∧
    (after (exec .ftPaeth (givenRow [0, 50, 100, 4, 200, 7] [50, 100] 1 2 1 2))).phase = .done := by decide

/-- R281: `a = b = 255, c = 0` gives `a`; all equal gives `a`. -/
theorem test_paeth : paeth 255 255 0 = 255 ∧ paeth 10 10 10 = 10 ∧ paeth 250 100 50 = 250 := by decide

/-- R283: `INF = 05 01 02 03` is `E_FILTER` with `ERR_POS = 0`. -/
theorem test_step_illegal_filter :
    (after (step (givenRow [5, 1, 2, 3] [] 0 3 1 1))).errCode = some .filter ∧
    (after (step (givenRow [5, 1, 2, 3] [] 0 3 1 1))).errPos = 0 := by decide

/-- R248: the example's header, trailer and window. -/
theorem test_envelope :
    (after (exec (.zHdr 0x78 0x01) (given .envelope []))).cmf = 0x78 ∧
    (after (exec (.zTrl 0x03010100) { given .envelope [] with inLen := 15 })).adler = 0x03010100 ∧
    (after (exec (.zTrl 0x03010100) { given .envelope [] with inLen := 15 })).winLo = 2 ∧
    (after (exec (.zTrl 0x03010100) { given .envelope [] with inLen := 15 })).winEnd = 11 := by decide

/-- R271: Truecolour of depth 8 has three bytes per pixel, TruecolourA of depth 16 eight; R272: type 3 and depth 0 are refused. -/
theorem test_configuration :
    (unfConfig { State.reset with colorType := 2, bitDepth := 8, width := 1, height := 1 }).cols = 3 ∧
    (unfConfig { State.reset with colorType := 6, bitDepth := 16, height := 1 }).bpp = 8 ∧
    (unfConfig { State.reset with colorType := 3, bitDepth := 0 }).errCode = some .color ∧
    (unfConfig { State.reset with colorType := 0, bitDepth := 0 }).errCode = some .geom ∧
    (unfConfig { State.reset with colorType := 0, bitDepth := 1 }).phase = .done := by decide

/-- R242: START with `OP = 0` is `E_CMD`; with `OP = 1` the run begins. -/
theorem test_start :
    (after (hostMove (.writeReg .ctrl 1) State.reset)).errCode = some .cmd ∧
    (after (hostMove (.writeReg .ctrl 1) { State.reset with op := 1 })).phase = .envelope ∧
    (after (hostMove (.writeReg .ctrl 3) { State.reset with op := 1 })).phase = .idle := by decide

/-- R300, R301: `E_BTYPE` in `BLOCK_HEADER` reads as `0x0302`; R301: extra bits of a length missing are stage `MATCH`, `0x0901`, where a missing
bit of its code is stage `SYMBOL`, `0x0801`. -/
theorem test_error_word :
    (hostRead .err (after (step (given .blockHeader [0x07])))).rdata = 0x0302 ∧
    (hostRead .err (after (step { given .symbol [0x00] with llSel := .dyn, dynLL := oneCode 284, bb := 3 }))).rdata = 0x0901 ∧
    (hostRead .err (after (step { given .symbol [] with llSel := .dyn, dynLL := oneCode 284 }))).rdata = 0x0801 := by decide

/-- How a program comes to run from reset (entry 13): the fixed block `03 00` of R132, raw, in one queue of the host's moves. -/
theorem test_first_program :
    (match Host.Core.run core 9 { State.reset with
        host := [.writeMem .input 0 0x03, .writeMem .input 1 0x00, .writeReg .inLen 2, .writeReg .cmd 1, .writeReg .ctrl 1, .wait,
          .readReg .status] } with
      | .next t => (t.done, t.infLen, t.bp, t.bb)
      | .fault _ => (false, 9, 9, 0)
      | .refused _ => (false, 9, 9, 0)) = (true, 0, 1, 2) := by decide +kernel

/-! ## Witnesses: for each statement with hypotheses, states and operands that meet them, each clause at the ends of its range -/

/-- A list of bits as a source holds these bits where it begins. -/
theorem holds_srcOf (bits : List Bool) (p : Nat) : Holds (srcOf bits p) p bits := by
  intro k _
  simp [srcOf]

/-- The hypotheses of the round trip for one element. -/
def RoundTrips (n : Nat) (T : Table) (i : Instr) (p : Nat) : Prop :=
  TableOk n T ∧ i.wf = true ∧ ∃ bits, encode T p i = some bits ∧ Holds (srcOf bits p) p bits

theorem roundTrips_of {n : Nat} {T : Table} {i : Instr} {p : Nat} (h : TableOk n T ∧ i.wf = true ∧ (encode T p i).isSome = true) :
    RoundTrips n T i p := by
  obtain ⟨h1, h2, h3⟩ := h
  obtain ⟨bits, hb⟩ := Option.isSome_iff_exists.1 h3
  exact ⟨h1, h2, bits, hb, holds_srcOf bits p⟩

theorem witness_DecodeEncodeRoundTrip_fields :
    RoundTrips 1 [] (.blkRsvd true) 7 ∧ RoundTrips 1 [] (.stBody 0xFFFF 0) 3 ∧ RoundTrips 1 [] (.stBody 0 0xFFFF) 8 ∧
    RoundTrips 1 [] (.dynHdr 31 31 0 [7, 0, 7, 0]) 1 ∧ RoundTrips 1 [] (.dynHdr 0 0 15 (List.replicate 19 7)) 0 ∧
    RoundTrips 1 [] .ftPaeth 8 ∧ RoundTrips 1 [] (.ftIll 5) 16 ∧ RoundTrips 1 [] (.ftIll 255) 1 ∧
    RoundTrips 1 [] (.zHdr 0xFF 0) 0 ∧ RoundTrips 1 [] (.zTrl 0xFFFFFFFF) 16 := by
  refine ⟨?_, ?_, ?_, ?_, ?_, ?_, ?_, ?_, ?_, ?_⟩ <;> exact roundTrips_of (by decide)

theorem witness_DecodeEncodeRoundTrip_codes :
    RoundTrips 19 tableR148 (.clLen 3) 5 ∧ RoundTrips 19 tableR148 (.clZ11 127) 0 ∧ RoundTrips 288 (oneCode 284) (.len284 31) 2 ∧
    RoundTrips 288 (oneCode 287) (.llIll 1) 0 ∧ RoundTrips 32 (oneCode 29) (.dist29 8191) 7 ∧ RoundTrips 32 (oneCode 0) .dist0 0 := by
  refine ⟨?_, ?_, ?_, ?_, ?_, ?_⟩ <;> exact roundTrips_of (by decide +kernel)

theorem witness_StepRunsDecodedElement :
    (given .blockHeader [0x73]).busy = true ∧ expected (given .blockHeader [0x73]) = some .bh ∧
    decode .bh (tableFor .bh (given .blockHeader [0x73])) (sourceFor .bh (given .blockHeader [0x73]))
      (startOf .bh (given .blockHeader [0x73])) = .ok (.blkFixed true) 3 ∧
    (given .blockHeader [0x73]).host = [] ∧ { given .blockHeader [0x73] with host := [.pass] }.host = .pass :: [] ∧
    { given .blockHeader [0x73] with host := [.wait] }.host = .wait :: [] := by decide

/-- A header of which the window holds two bits. -/
theorem witness_StepRunsDecodedElement_stops :
    { given .blockHeader [0x80] with bb := 6 }.busy = true ∧ expected { given .blockHeader [0x80] with bb := 6 } = some .bh ∧
    decode .bh (tableFor .bh { given .blockHeader [0x80] with bb := 6 }) (sourceFor .bh { given .blockHeader [0x80] with bb := 6 })
      (startOf .bh { given .blockHeader [0x80] with bb := 6 }) = .stop .bounds .blockHeader 8 [0] := by decide

theorem witness_FixedCodes : (143 < 144 ∧ 144 ≤ 144 ∧ 255 < 256 ∧ 256 ≤ 256 ∧ 279 < 280 ∧ 280 ≤ 280 ∧ 287 < 288) ∧ 31 < 32 := by decide

theorem witness_Build :
    (∀ l ∈ [1, 2, 3, 4, 5, 6, 7, 8, 9, 10, 11, 12, 13, 14, 15, 15], l ≤ 15) ∧
    (build [1, 2, 3, 4, 5, 6, 7, 8, 9, 10, 11, 12, 13, 14, 15, 15]).isSome = true ∧
    (∀ l ∈ [1, 2, 3, 4, 5, 6, 7, 8, 9, 10, 11, 12, 13, 14, 15, 15, 15], l ≤ 15) ∧
    build [1, 2, 3, 4, 5, 6, 7, 8, 9, 10, 11, 12, 13, 14, 15, 15, 15] = none := by decide +kernel

/-- The first codes of R112, for any lengths. -/
def firstCode (lengths : List Nat) : Nat → Nat
  | 0 => 0
  | n + 1 => 2 * (firstCode lengths n + if n = 0 then 0 else lengths.count n)

/-- The example of R112: codes 0, 2 and 14 are the first of length 2, 3 and 4. -/
theorem witness_BuildAssignsCodes :
    (∀ l ∈ [3, 3, 3, 3, 3, 2, 4, 4], l ≤ 15) ∧ (build [3, 3, 3, 3, 3, 2, 4, 4]).isSome = true ∧ firstCode [3, 3, 3, 3, 3, 2, 4, 4] 0 = 0 ∧
    (∀ n, firstCode [3, 3, 3, 3, 3, 2, 4, 4] (n + 1) =
      2 * (firstCode [3, 3, 3, 3, 3, 2, 4, 4] n + if n = 0 then 0 else [3, 3, 3, 3, 3, 2, 4, 4].count n)) ∧
    firstCode [3, 3, 3, 3, 3, 2, 4, 4] 2 = 0 ∧ firstCode [3, 3, 3, 3, 3, 2, 4, 4] 3 = 2 ∧ firstCode [3, 3, 3, 3, 3, 2, 4, 4] 4 = 14 := by
  refine ⟨by decide, by decide, rfl, fun _ => rfl, by decide, by decide, by decide⟩

theorem witness_Walk :
    TableOk 19 tableR148 ∧ TableOk 1 (oneCode 0) ∧ oneCode 0 ≠ [] ∧ TableOk 0 [] ∧
    walk .dynLengths tableR148 (srcOf (rd "1110") 0) 0 = .ok 1 4 ∧
    walk .matching (oneCode 0) (srcOf (rd "1") 0) 0 = .stop .noLeaf .matching 1 [] := by decide +kernel

theorem witness_FixedTablesComplete :
    walk .symbol fixLL (srcOf (rd "111111111") 0) 0 = .ok 255 9 ∧
    walk .symbol fixLL (srcOf (rd "11111111") 0) 0 = .stop .bounds .symbol 8 [] ∧
    walk .matching fixD (srcOf [] 0) 0 = .stop .bounds .matching 0 [] := by decide +kernel

theorem witness_NextBitReads :
    (given .symbol [0xB5]).bp < (given .symbol [0xB5]).winEnd ∧ (given .symbol [0xB5]).bb ≠ 7 ∧
    { given .symbol [0xB5] with bb := 7 }.bp < { given .symbol [0xB5] with bb := 7 }.winEnd ∧
    (given .symbol []).winEnd ≤ (given .symbol []).bp := by decide

theorem witness_NextBitsReads :
    (given .symbol [0xB5, 1]).pos + 16 ≤ 8 * (given .symbol [0xB5, 1]).winEnd ∧
    (given .symbol [0xB5, 1]).pos ≤ 8 * (given .symbol [0xB5, 1]).winEnd ∧
    8 * (given .symbol [0xB5, 1]).winEnd < (given .symbol [0xB5, 1]).pos + 17 ∧
    8 * (given .symbol []).winEnd < (given .symbol []).pos + 1 := by decide

theorem witness_NextByteReads :
    { given .stored [1, 2] with bb := 3 }.byteCursor < { given .stored [1, 2] with bb := 3 }.winEnd ∧
    (given .stored [1]).byteCursor < (given .stored [1]).winEnd ∧
    { given .stored [1] with bb := 3 }.winEnd ≤ { given .stored [1] with bb := 3 }.byteCursor := by decide

theorem witness_BlockHeaderStep :
    (given .blockHeader [0x73]).host = [] ∧ (given .blockHeader [0x73]).busy = true ∧
    (given .blockHeader [0x73]).phase = .blockHeader ∧
    { given .blockHeader [0x73] with bb := 5 }.pos + 3 ≤ 8 * { given .blockHeader [0x73] with bb := 5 }.winEnd ∧
    { given .blockHeader [0x73] with bb := 6 }.pos ≤ 8 * { given .blockHeader [0x73] with bb := 6 }.winEnd ∧
    8 * { given .blockHeader [0x73] with bb := 6 }.winEnd < { given .blockHeader [0x73] with bb := 6 }.pos + 3 ∧
    8 * (given .blockHeader []).winEnd < (given .blockHeader []).pos + 3 := by decide

/-- The four types, one for each clause of the switch. -/
theorem witness_BlockHeaderStep_types :
    (after (step (given .blockHeader [0x00]))).btype = 0 ∧ (after (step (given .blockHeader [0x02]))).btype = 1 ∧
    (after (step (given .blockHeader [0x04]))).btype = 2 ∧ (after (step (given .blockHeader [0x06]))).btype = 3 := by decide

theorem witness_StoredBody :
    (given .stored [1, 2]).byteCursor + (2 : BitVec 16).toNat ≤ (given .stored [1, 2]).winEnd ∧
    (given .stored [1, 2]).infLen + (2 : BitVec 16).toNat ≤ { given .stored [1, 2] with infCap := 2 }.infCap ∧
    (1 = { given .stored [1] with infCap := 1 }.winEnd - 0 ∧ 1 = { given .stored [1] with infCap := 1 }.infCap - 0 ∧
      1 ≤ 1 ∧ 1 < (2 : BitVec 16).toNat) ∧
    (0 = { given .stored [1] with infCap := 0 }.infCap - 0 ∧ 0 < 1 ∧ 0 < (1 : BitVec 16).toNat) := by decide

/-- Three length bytes of the four, and none, the cursor at the end of the window. -/
theorem witness_StoredBodyRaises_lengths :
    ((given .stored [4, 0, 0xFB]).host = [] ∧ (given .stored [4, 0, 0xFB]).busy = true ∧ (given .stored [4, 0, 0xFB]).phase = .stored ∧
      (given .stored [4, 0, 0xFB]).pos ≤ 8 * (given .stored [4, 0, 0xFB]).winEnd ∧
      (given .stored [4, 0, 0xFB]).winEnd < (given .stored [4, 0, 0xFB]).byteCursor + 4) ∧
    (given .stored []).pos ≤ 8 * (given .stored []).winEnd ∧ (given .stored []).winEnd < (given .stored []).byteCursor + 4 := by decide

/-- A dynamic header that misses one bit of its 14, and one with `HCLEN = 6` that misses the last bits of its 44. -/
theorem witness_DynamicHeaderBuilds_cut :
    ((given .dynHeader [0, 0x18]).host = [] ∧ (given .dynHeader [0, 0x18]).busy = true ∧ (given .dynHeader [0, 0x18]).phase = .dynHeader) ∧
    ({ given .dynHeader [0, 0] with bb := 3 }.pos ≤ 8 * 2 ∧ 8 * { given .dynHeader [0, 0] with bb := 3 }.winEnd < 3 + 14 + 3 * (0 + 4)) ∧
    (6 = (State.inBit (given .dynHeader [0, 0x18, 0, 0, 0, 0]) 10).toNat + 2 * (State.inBit (given .dynHeader [0, 0x18, 0, 0, 0, 0]) 11).toNat +
      4 * (State.inBit (given .dynHeader [0, 0x18, 0, 0, 0, 0]) 12).toNat + 8 * (State.inBit (given .dynHeader [0, 0x18, 0, 0, 0, 0]) 13).toNat ∧
      8 * (given .dynHeader [0, 0x18, 0, 0, 0]).winEnd < 0 + 14 + 3 * (6 + 4)) := by decide

theorem witness_CodeLengths :
    ({ State.reset with nlens := 1 }.nlens ≠ 0 ∧ { State.reset with nlens := 252 }.nlens + (3 + (3 : BitVec 2).toNat) ≤ State.reset.total) ∧
    { State.reset with nlens := 248 }.nlens + (3 + (7 : BitVec 3).toNat) ≤ State.reset.total ∧
    { State.reset with nlens := 120 }.nlens + (11 + (127 : BitVec 7).toNat) ≤ State.reset.total ∧
    State.reset.nlens = 0 ∧ State.reset.total < { State.reset with nlens := 253 }.nlens + (3 + (3 : BitVec 2).toNat) ∧
    State.reset.total < { State.reset with nlens := 249 }.nlens + (3 + (7 : BitVec 3).toNat) ∧
    State.reset.total < { State.reset with nlens := 121 }.nlens + (11 + (127 : BitVec 7).toNat) := by decide

/-- A walk of an empty `CL_T`, one cut off, and each repeat with one extra bit too few. -/
theorem witness_CodeLengths_stops :
    ((given .dynLengths [0]).host = [] ∧ (given .dynLengths [0]).busy = true ∧ (given .dynLengths [0]).phase = .dynLengths) ∧
    walk .dynLengths (given .dynLengths [0]).clT (windowSrc (given .dynLengths [0])) 0 = .stop .emptyTable .dynLengths 0 [] ∧
    walk .dynLengths (oneCode 16) (windowSrc (given .dynLengths [])) 0 = .stop .bounds .dynLengths 0 [] ∧
    (walk .dynLengths (oneCode 16) (windowSrc (given .dynLengths [0])) 6 = .ok 16 7 ∧ 8 * (given .dynLengths [0]).winEnd < 7 + 2) ∧
    (walk .dynLengths (oneCode 17) (windowSrc (given .dynLengths [0])) 5 = .ok 17 6 ∧ 8 * (given .dynLengths [0]).winEnd < 6 + 3) ∧
    (walk .dynLengths (oneCode 18) (windowSrc (given .dynLengths [0])) 1 = .ok 18 2 ∧ 8 * (given .dynLengths [0]).winEnd < 2 + 7) := by
  decide

/-- The three outcomes of a table build: no lengths at all, over-subscribed literal/length lengths, over-subscribed distance lengths. -/
theorem witness_DynamicTablesBuilt :
    (given .dynBuild []).host = [] ∧ (given .dynBuild []).busy = true ∧ (given .dynBuild []).phase = .dynBuild ∧
    build (llLengths (given .dynBuild [])) = some [] ∧ build (dLengths (given .dynBuild [])) = some [] ∧
    build (llLengths { given .dynBuild [] with lens := Vector.replicate 320 1 }) = none ∧
    build (llLengths { given .dynBuild [] with hdist := 2, lens := fillLens 1 3 257 (Vector.replicate 320 0) }) = some [] ∧
    build (dLengths { given .dynBuild [] with hdist := 2, lens := fillLens 1 3 257 (Vector.replicate 320 0) }) = none := by
  decide +kernel

theorem witness_LiteralAndEndOfBlock :
    { State.reset with infCap := 1 }.infLen < { State.reset with infCap := 1 }.infCap ∧
    { State.reset with infCap := 0 }.infCap ≤ { State.reset with infCap := 0 }.infLen := by decide

/-- The walk of a literal/length code that stops, in the fixed table and in an empty dynamic one; and the shortest and the longest extra bits of
a length with one too few. -/
theorem witness_LiteralLength_stops :
    ((given .symbol [0xFF]).host = [] ∧ (given .symbol [0xFF]).busy = true ∧ (given .symbol [0xFF]).phase = .symbol ∧
      (given .symbol [0xFF]).distNext = false ∧ (given .symbol [0xFF]).llSel = .fixed) ∧
    walk .symbol fixLL (windowSrc (given .symbol [0xFF])) 0 = .stop .bounds .symbol 8 [] ∧
    walk .symbol (given .symbol [0xFF]).dynLL (windowSrc (given .symbol [0xFF])) 0 = .stop .emptyTable .symbol 0 [] ∧
    (walk .symbol (oneCode 265) (windowSrc (given .symbol [0])) 7 = .ok 265 8 ∧ 8 * (given .symbol [0]).winEnd < 8 + (265 - 261) / 4) ∧
    (walk .symbol (oneCode 284) (windowSrc (given .symbol [0])) 3 = .ok 284 4 ∧ 8 * (given .symbol [0]).winEnd < 4 + (284 - 261) / 4) := by
  decide +kernel

/-- The same for a distance: a walk cut off and one that leaves the table, and one bit of 1 or of 13 missing. -/
theorem witness_Distance_stops :
    ({ given .symbol [1, 0] with distNext := true }.host = [] ∧ { given .symbol [1, 0] with distNext := true }.busy = true ∧
      { given .symbol [1, 0] with distNext := true }.phase = .symbol ∧ { given .symbol [1, 0] with distNext := true }.distNext = true) ∧
    walk .matching fixD (windowSrc (given .symbol [])) 0 = .stop .bounds .matching 0 [] ∧
    walk .matching (oneCode 29) (windowSrc (given .symbol [1, 0])) 0 = .stop .noLeaf .matching 1 [] ∧
    (walk .matching (oneCode 4) (windowSrc (given .symbol [0])) 7 = .ok 4 8 ∧ 8 * (given .symbol [0]).winEnd < 8 + (4 - 2) / 2) ∧
    (walk .matching (oneCode 29) (windowSrc (given .symbol [1, 0])) 3 = .ok 29 4 ∧ 8 * (given .symbol [1, 0]).winEnd < 4 + (29 - 2) / 2) := by
  decide +kernel

/-- A match that just fits, with the largest distance that is legal. -/
theorem witness_DistanceElementsCopy :
    1 ≤ { givenInf .symbol [0x61] with mlen := 10, infCap := 11 }.infLen ∧
    { givenInf .symbol [0x61] with mlen := 10, infCap := 11 }.infLen + 10 ≤ { givenInf .symbol [0x61] with infCap := 11 }.infCap ∧
    24577 + (8191 : BitVec 13).toNat ≤ { State.reset with infLen := 32768, mlen := 258 }.infLen ∧
    { State.reset with infLen := 32768, mlen := 258 }.infLen + 258 ≤ State.reset.infCap := by decide

theorem witness_DistanceElementsRaise :
    Instr.dist1.format = .d ∧ Instr.dist1.selector ≤ 29 ∧ 2 = dBase.getD Instr.dist1.selector 0 + fieldValue Instr.dist1.operandBits ∧
    (Instr.dist29 8191).selector ≤ 29 ∧
    32768 = dBase.getD (Instr.dist29 8191).selector 0 + fieldValue (Instr.dist29 8191).operandBits ∧
    (givenInf .symbol [0x41]).infLen < 2 ∧
    (1 ≤ (givenInf .symbol [0x41]).infLen ∧ { givenInf .symbol [0x41] with infCap := 3, mlen := 3 }.infLen ≤ 3 ∧
      3 < { givenInf .symbol [0x41] with infCap := 3, mlen := 3 }.infLen + 3) := by decide

/-- The rows of R278's example, at the ends of `INF` and of a `PIX` of six bytes. -/
theorem witness_RowElementsUnfilter :
    1 * (3 + 1) + 1 + 3 ≤ (givenRow [0, 0x0A, 0x14, 0x1E, 0x02, 1, 2, 0xFA] [0x0A, 0x14, 0x1E] 1 3 1 2).infLen ∧
    (givenRow [0, 0x0A, 0x14, 0x1E, 0x02, 1, 2, 0xFA] [0x0A, 0x14, 0x1E] 1 3 1 2).pixLen = 1 * 3 ∧
    3 + 3 ≤ { givenRow [] [0x0A, 0x14, 0x1E] 1 3 1 2 with pixCap := 6 }.pixCap ∧
    1 ≤ (givenRow [] [0x0A, 0x14, 0x1E] 1 3 1 2).bpp ∧
    (givenRow [0] [] 0 0 1 1).row * (0 + 1) + 1 + 0 ≤ (givenRow [0] [] 0 0 1 1).infLen := by decide

theorem witness_RowElementsRaise :
    Instr.ftPaeth ∈ [Instr.ftNone, .ftSub, .ftUp, .ftAvg, .ftPaeth] ∧
    (0 = (givenRow [4, 1, 2] [] 0 3 1 1).row * (3 + 1) ∧ 0 < (givenRow [4, 1, 2] [] 0 3 1 1).infLen ∧
      (givenRow [4, 1, 2] [] 0 3 1 1).infLen ≤ 0 + 1 + 2 ∧ (givenRow [4, 1, 2] [] 0 3 1 1).infLen < 0 + 1 + 3 ∧
      2 = { givenRow [4, 1, 2] [] 0 3 1 1 with pixCap := 2 }.pixCap - 0) ∧
    (0 + 1 + 1 < (givenRow [4, 1, 2] [] 0 3 1 1).infLen ∧ 1 < 3 ∧ 1 = { givenRow [4, 1, 2] [] 0 3 1 1 with pixCap := 1 }.pixCap - 0) := by
  decide

/-- The second row of an `INF` that ends after the first. -/
theorem witness_RowElementsRaise_noFilterByte :
    (givenRow [0, 1, 2, 3] [1, 2, 3] 1 3 1 2).host = [] ∧ (givenRow [0, 1, 2, 3] [1, 2, 3] 1 3 1 2).busy = true ∧
    (givenRow [0, 1, 2, 3] [1, 2, 3] 1 3 1 2).phase = .unfRow ∧ (givenRow [0, 1, 2, 3] [1, 2, 3] 1 3 1 2).infLen ≤ 1 * (3 + 1) := by decide

/-- Filtering the row `10, 30, 60, 54` by Sub gives the row of R277's example. -/
theorem witness_FilterThenUnfilter :
    ∀ j, j < 4 → (givenRow [0x01, 0x0A, 0x14, 0x1E, 0xFA] [] 0 4 1 1).infByte (0 * (4 + 1) + 1 + j) =
      ([10, 30, 60, 54] : List Byte).getD j 0 - (if 1 ≤ j then ([10, 30, 60, 54] : List Byte).getD (j - 1) 0 else 0) := by decide

theorem witness_UnfilterConfiguration :
    (given .unfCfg []).host = [] ∧ (given .unfCfg []).busy = true ∧ (given .unfCfg []).phase = .unfCfg ∧
    { given .unfCfg [] with colorType := 3 }.colorType ∉ [0, 2, 4, 6] ∧ { given .unfCfg [] with colorType := 6 }.colorType = 6 ∧
    { given .unfCfg [] with bitDepth := 0 }.bitDepth = 0 ∧ { given .unfCfg [] with bitDepth := 255 }.bitDepth ≠ 0 := by decide

theorem witness_EnvelopeSteps :
    { given .envelope [1, 2, 3, 4, 5, 6] with op := 2 }.phase = .envelope ∧ { given .envelope [1, 2, 3, 4, 5, 6] with op := 2 }.op = 2 ∧
    { given .envelope [1, 2, 3, 4, 5, 6] with op := 2 }.hdrSeen = false ∧ 6 ≤ (given .envelope [1, 2, 3, 4, 5, 6]).inLen ∧
    (given .envelope [1, 2, 3, 4, 5]).inLen < 6 := by decide

theorem witness_WindowAndBlockEnd :
    ((given .envelope []).host = [] ∧ (given .envelope []).busy = true ∧ (given .envelope []).op = 1) ∧
    ((given .blockEnd []).phase = .blockEnd ∧ (given .blockEnd []).bfinal = false) ∧
    ({ given .blockEnd [] with bfinal := true, op := 4 }.bfinal = true ∧ { given .blockEnd [] with bfinal := true, op := 4 }.op = 4) ∧
    { given .blockEnd [] with bfinal := true }.op ≠ 4 := by decide

/-- The errors whose position has a clause of its own: an envelope too short, bits missing, an empty table, a row too short, an illegal filter
byte, and a row without room. -/
theorem witness_ErrorsAreThoseOfTheTable_positions :
    (CursorOk { given .envelope [1] with op := 2, winEnd := 0 } ∧
      (after (step { given .envelope [1] with op := 2, winEnd := 0 })).errCode = some .bounds ∧
      (after (step { given .envelope [1] with op := 2, winEnd := 0 })).errStage = .envelope) ∧
    (CursorOk (given .blockHeader []) ∧ (after (step (given .blockHeader []))).errCode = some .bounds) ∧
    (CursorOk (given .dynLengths [0]) ∧ (after (step (given .dynLengths [0]))).errCode = some .emptyTable) ∧
    (after (step { givenRow [0] [] 0 3 1 1 with width := 3 })).errCode = some .bounds ∧
    (RowOk { givenRow [9] [] 0 3 1 1 with width := 3 } ∧ (after (step { givenRow [9] [] 0 3 1 1 with width := 3 })).errCode = some .filter) ∧
    (RowOk { givenRow [0, 1, 2, 3] [] 0 3 1 1 with width := 3, pixCap := 2 } ∧
      (after (step { givenRow [0, 1, 2, 3] [] 0 3 1 1 with width := 3, pixCap := 2 })).errCode = some .overflow) := by
  refine ⟨⟨?_, ?_, ?_⟩, ⟨?_, ?_⟩, ⟨?_, ?_⟩, ?_, ⟨?_, ?_⟩, ?_, ?_⟩ <;> decide

/-- An error of the inflation, one of a row and one of the command. -/
theorem witness_ErrorsAreThoseOfTheTable :
    (CursorOk (given .blockHeader [0x07]) ∧ RowOk (given .blockHeader [0x07]) ∧ (given .blockHeader [0x07]).err = false ∧
      (after (step (given .blockHeader [0x07]))).err = true) ∧
    (CursorOk (givenRow [] [] 0 3 1 1) ∧ (givenRow [] [] 0 3 1 1).err = false ∧ (after (step (givenRow [] [] 0 3 1 1))).err = true) ∧
    RowOk { givenRow [] [] 0 3 1 1 with width := 3 } ∧
    (CursorOk State.reset ∧ RowOk State.reset ∧ (after (step { State.reset with host := [.writeReg .ctrl 1] })).err = true) := by
  refine ⟨⟨?_, ?_, ?_, ?_⟩, ⟨?_, ?_, ?_⟩, ?_, ?_, ?_, ?_⟩ <;> decide

theorem witness_OutcomeIsSticky :
    (raise .dist .matching 5 State.reset).busy = false ∧
    (after (step { raise .dist .matching 5 State.reset with host := [.readReg .err] })).errCode = some .dist ∧
    (after (step { raise .dist .matching 5 State.reset with host := [.rst] })).errCode = none ∧
    (after (step { raise .dist .matching 5 State.reset with host := [.writeReg .ctrl 2] })).errCode = none := by decide

theorem witness_OnlyStartBeginsARun :
    { State.reset with op := 3, host := [.writeReg .ctrl 1] }.busy = false ∧
    (after (step { State.reset with op := 3, host := [.writeReg .ctrl 1] })).busy = true ∧
    (after (step { State.reset with op := 1, host := [.writeReg .ctrl 1] })).phase = .envelope := by decide

theorem witness_ControlWrites :
    State.reset.busy = false ∧ (given .symbol []).busy = true ∧ (3 : Word).getLsbD 1 = true ∧ (1 : Word).getLsbD 1 = false ∧
    (1 : Word).getLsbD 0 = true ∧ (0xFFFFFFFC : Word).getLsbD 1 = false ∧ (0xFFFFFFFC : Word).getLsbD 0 = false := by decide

theorem witness_StartBeginsARun :
    ({ State.reset with op := 4, inLen := 7, inCap := 7 }.op = 4 ∧ 7 ≤ { State.reset with inLen := 7, inCap := 7 }.inCap) ∧
    { State.reset with op := 4, inLen := 8, inCap := 7 }.inCap < { State.reset with inLen := 8, inCap := 7 }.inLen ∧
    ({ State.reset with op := 3 }.op = 3 ∧ State.reset.infLen ≤ State.reset.infCap) ∧
    { State.reset with infLen := 1, infCap := 0 }.infCap < { State.reset with infLen := 1, infCap := 0 }.infLen ∧ State.reset.op = 0 := by
  decide

theorem witness_HostWritesIgnored :
    (given .symbol []).busy = true ∧
    HostReg.zadler ∈ [HostReg.status, .err, .errPos, .curBp, .curBb, .pixLen, .bpp, .zhdr, .zadler] := by decide

theorem witness_RegistersReadBack :
    State.reset.busy = false ∧ (hostRead .cmd (hostWrite .cmd 0xFFFFFFFF State.reset)).rdata = 7 ∧
    (hostRead .fmt (hostWrite .fmt 0xFFFFFFFF State.reset)).rdata = 0xFFFF ∧ HostReg.width ≠ HostReg.height := by decide

theorem witness_StatusReads :
    hostMove (.readReg .status) State.reset = .next (hostRead .status State.reset) ∧
    hostMove (.readReg .status) (given .symbol []) = .next (hostRead .status (given .symbol [])) := by constructor <;> rfl

/-- The last row of each of the three lists of numbers: an `ERR` of `0x0B0A`, `PHASE` 12. -/
theorem witness_StatusReads_numbers :
    (raise .overflow .unfRow 7 State.reset).busy = false ∧ (raise .overflow .unfRow 7 State.reset).errCode = some .overflow ∧
    (raise .overflow .unfRow 7 State.reset).errStage = .unfRow ∧ (raise .overflow .unfRow 7 State.reset).phase = .error := by decide

/-- The last byte of a `PIX` of four, inside the valid part and outside it. -/
theorem witness_HostMemoryReadBack :
    State.reset.busy = false ∧ 3 < { State.reset with pixCap := 4 }.cap .pix ∧ 3 < { State.reset with pixCap := 4, pixLen := 4 }.len .pix ∧
    ¬ 3 < { State.reset with pixCap := 4, pixLen := 3 }.len .pix ∧ (Space.inf ≠ Space.pix ∨ 2 ≠ 3) := by decide

theorem witness_ResetValues :
    State.reset = State.reset ∧ hostMove .rst (given .symbol [1, 2]) = .next (hardReset (given .symbol [1, 2])) := by
  constructor <;> rfl

theorem witness_CoreSteps :
    (given .blockHeader [0x03]).host = [] ∧ (given .blockHeader [0x03]).err = false ∧ (given .blockHeader [0x03]).phase ≠ .envelope ∧
    (after (step (given .blockHeader [0x03]))).err = false ∧ TablesOk (given .blockHeader [0x03]) ∧ StatusOk (given .blockHeader [0x03]) ∧
    (given .blockHeader [0x03]).phase ∈ [Phase.blockHeader, .stored, .dynHeader, .dynLengths, .symbol] ∧
    TablesOk State.reset ∧ StatusOk State.reset := by
  refine ⟨?_, ?_, ?_, ?_, ?_, ?_, ?_, ?_, ?_⟩ <;> decide

/-- A state inside a run meets every invariant, and its step answers. -/
theorem witness_Invariants :
    (MemoriesOk (given .blockHeader [0x03]) ∧ StatusOk (given .blockHeader [0x03]) ∧ CursorOk (given .blockHeader [0x03]) ∧
      LengthsOk (given .blockHeader [0x03])) ∧
    (CountOk (given .blockHeader [0x03]) ∧ TablesOk (given .blockHeader [0x03]) ∧ RowOk (given .blockHeader [0x03]) ∧
      WidthsOk (given .blockHeader [0x03])) ∧
    (after (step (given .blockHeader [0x03]))).btype = 1 := by
  refine ⟨⟨?_, ?_, ?_, ?_⟩, ⟨?_, ?_, ?_, ?_⟩, ?_⟩ <;> decide

/-- So does a state in the middle of the code lengths, one before the table build, with a table in `CL_T`. -/
theorem witness_Invariants_lengths :
    (CountOk { given .dynLengths [0x00] with nlens := 257, clT := oneCode 5 } ∧ TablesOk { given .dynLengths [0x00] with clT := oneCode 5 }) ∧
    (after (step { given .dynLengths [0x00] with nlens := 257, clT := oneCode 5 })).phase = .dynBuild ∧
    CountOk (after (step { given .dynLengths [0x00] with nlens := 257, clT := oneCode 5 })) := by decide +kernel

/-- And the last row of an image of two rows. -/
theorem witness_Invariants_row :
    RowOk { givenRow [0, 0x0A, 0x14, 0x1E, 0x02, 1, 2, 0xFA] [0x0A, 0x14, 0x1E] 1 3 1 2 with width := 3 } ∧
    (after (step { givenRow [0, 0x0A, 0x14, 0x1E, 0x02, 1, 2, 0xFA] [0x0A, 0x14, 0x1E] 1 3 1 2 with width := 3 })).phase = .done := by decide

end Sys2Proof.Tests
end

/-! PROOF. Every run ends (70_reset_and_hazards.md R356): a step of a run always answers, and brings the run nearer to its end in the
lexicographic order of the phase's rank and the work left in it. -/

namespace Sys2Proof

/-! ## The symbols of a table -/

/-- Every symbol of the table is in the alphabet of the first `n`. -/
def SymbolsBelow (n : Nat) (T : Table) : Prop := ∀ e ∈ T, e.sym < n

theorem SymbolsBelow.nil (n : Nat) : SymbolsBelow n [] := nofun

theorem SymbolsBelow.mono {m n : Nat} {T : Table} (h : SymbolsBelow m T) (hmn : m ≤ n) : SymbolsBelow n T :=
  fun e he => (h e he).trans_le hmn

theorem fixLLLengths_length : fixLLLengths.length = 288 := by
  simp only [fixLLLengths, List.length_append, List.length_replicate]

theorem fixDLengths_length : fixDLengths.length = 32 := List.length_replicate

theorem assignCodes_symbolsBelow (lengths : List Nat) (sym : Nat) (next : List Nat) :
    SymbolsBelow (sym + lengths.length) (assignCodes lengths sym next) := by
  induction lengths generalizing sym next with
  | nil => exact .nil _
  | cons len rest ih =>
    have hrest (next : List Nat) : SymbolsBelow (sym + (rest.length + 1)) (assignCodes rest (sym + 1) next) :=
      (ih (sym + 1) next).mono (by omega)
    rw [assignCodes, List.length_cons]
    split_ifs
    · exact hrest _
    · intro e he
      rcases List.mem_cons.1 he with rfl | he
      · exact Nat.lt_add_of_pos_right (Nat.succ_pos _)
      · exact hrest _ e he

theorem build_symbolsBelow {lengths : List Nat} {T : Table} {n : Nat} (h : build lengths = some T) (hn : lengths.length ≤ n) :
    SymbolsBelow n T := by
  unfold build at h
  split_ifs at h
  cases h
  exact (assignCodes_symbolsBelow lengths 0 _).mono (by omega)

/-- A fixed table is a build or, were that refused, empty. -/
theorem build_getD_symbolsBelow {lengths : List Nat} {n : Nat} (hn : lengths.length ≤ n) :
    SymbolsBelow n ((build lengths).getD []) := by
  cases h : build lengths with
  | none => exact .nil n
  | some T => exact build_symbolsBelow h hn

/-! ## The decoder finds an element -/

/-- The read answers or stops, and rejects nothing. -/
def Read.Finds {α : Type} (r : Read α) : Prop := ∀ w, r ≠ .reject w

theorem Read.Finds.pure {α : Type} (v : α) (p : Nat) : (Read.ok v p).Finds := nofun

theorem Read.Finds.bind {α β : Type} {r : Read α} {k : α → Nat → Read β} (hr : r.Finds)
    (hk : ∀ v p, r = .ok v p → (k v p).Finds) : (r.bind k).Finds := fun w h =>
  match Read.bind_reject.1 h with
  | .inl h => hr w h
  | .inr ⟨v, p, hv, h⟩ => hk v p hv w h

theorem Read.Finds.field {β : Type} {r : Read Nat} {k : Nat → Nat → Read β} (hr : r.Finds)
    (hk : ∀ v p, r = .ok v p → (k v p).Finds) : (r.field k).Finds := fun w h =>
  match Read.field_reject.1 h with
  | .inl h => hr w h
  | .inr ⟨v, p, hv, h⟩ => hk v p hv w h

theorem lengthInstr_of_symbol {v : Nat} (x : Nat) (h1 : 257 ≤ v) (h2 : v ≤ 285) : ∃ i, lengthInstr v x = some i := by
  interval_cases v <;> exact ⟨_, rfl⟩

theorem distanceInstr_of_symbol {v : Nat} (x : Nat) (h : v ≤ 29) : ∃ i, distanceInstr v x = some i := by
  interval_cases v <;> exact ⟨_, rfl⟩

theorem readCL_finds (get : Src) {v : Nat} (p : Nat) (hv : v < 19) : (readCL get v p).Finds := by
  have hbits {n : Nat} {k : Nat → Instr} : ((readBits .dynLengths get n p).bind fun x q => .ok (k x) q).Finds :=
    .bind (fun _ => readBits_not_reject) fun _ _ _ => .pure _ _
  unfold readCL
  split_ifs with h15 h16 h17 h18
  · exact .pure _ _
  · exact hbits
  · exact hbits
  · exact hbits
  · omega

theorem readLL_finds (get : Src) {v : Nat} (p : Nat) (hv : v < 288) : (readLL get v p).Finds := by
  unfold readLL
  split_ifs with hlit heob hill
  · exact .pure _ _
  · exact .pure _ _
  · exact .pure _ _
  · refine .bind (fun _ => readBits_not_reject) fun x q _ => ?_
    obtain ⟨i, hi⟩ := lengthInstr_of_symbol x (by omega : 257 ≤ v) (by omega)
    rw [hi]
    exact .pure i q

theorem readD_finds (get : Src) {v : Nat} (p : Nat) (hv : v < 32) : (readD get v p).Finds := by
  unfold readD
  split_ifs with hill
  · exact .pure _ _
  · refine .bind (fun _ => readBits_not_reject) fun x q _ => ?_
    obtain ⟨i, hi⟩ := distanceInstr_of_symbol x (by omega : v ≤ 29)
    rw [hi]
    exact .pure i q

/-- The formats that are read from the window (40_bitreader.md R100). -/
def Format.inWindow : Format → Bool
  | .bh | .st | .dh | .cl | .ll | .d => true
  | .zHdr | .zTrl | .row => false

/-- The alphabet of a Huffman-coded format (30_encoding.md R76, R78, R79); the other formats have no symbols. -/
def alphabetOf : Format → Nat
  | .cl => 19
  | .ll => 288
  | .d => 32
  | .zHdr | .zTrl | .bh | .st | .dh | .row => 0

/-- Over a table of the format's alphabet every selecting value has a row (30_encoding.md R89). -/
theorem decode_finds {f : Format} {T : Table} (hT : SymbolsBelow (alphabetOf f) T) (get : Src) (p : Nat) :
    (decode f T get p).Finds := by
  have hbyte (st : Stage) (p : Nat) : (readByte st get p).Finds := fun _ => readByte_not_reject
  have hbits (st : Stage) (n p : Nat) : (readBits st get n p).Finds := fun _ => readBits_not_reject
  have hwalk {st : Stage} {k : Nat → Nat → Read Instr} (hk : ∀ v q, v < alphabetOf f → (k v q).Finds) :
      ((walk st T get p).field k).Finds :=
    .field (fun _ => walk_not_reject) fun v q hv => by
      obtain ⟨e, he, rfl⟩ := walk_symbol hv
      exact hk e.sym q (hT e he)
  cases f with
  | zHdr => exact .field (hbyte _ _) fun _ _ _ => .field (hbyte _ _) fun _ _ _ => .pure _ _
  | zTrl =>
    exact .field (hbyte _ _) fun _ _ _ => .field (hbyte _ _) fun _ _ _ => .field (hbyte _ _) fun _ _ _ =>
      .field (hbyte _ _) fun _ _ _ => .pure _ _
  | bh => exact .field (hbits _ _ _) fun _ _ _ => .field (hbits _ _ _) fun _ _ _ => .pure _ _
  | st =>
    exact .field (hbyte _ _) fun _ _ _ => .field (hbyte _ _) fun _ _ _ => .field (hbyte _ _) fun _ _ _ =>
      .field (hbyte _ _) fun _ _ _ => .pure _ _
  | dh =>
    exact .field (hbits _ _ _) fun _ _ _ => .field (hbits _ _ _) fun _ _ _ => .field (hbits _ _ _) fun _ _ _ =>
      .bind (fun _ => readLens_not_reject) fun _ _ _ => .pure _ _
  | row => exact .field (hbyte _ _) fun _ _ _ => .pure _ _
  | cl => exact hwalk fun v q => readCL_finds get q
  | ll => exact hwalk fun v q => readLL_finds get q
  | d => exact hwalk fun v q => readD_finds get q

end Sys2Proof

namespace Sys2Proof.Machine

/-! ## A step of a run answers -/

/-- The symbols of the three tables held in the state are in their alphabets. It is the part of `TablesOk` that a fetch needs, and
a build gives it whatever its check says. -/
def SymbolsOk (s : State) : Prop :=
  SymbolsBelow 19 s.clT ∧ SymbolsBelow 288 s.dynLL ∧ SymbolsBelow 32 s.dynD

theorem symbolsOk_of_tablesOk {s : State} (h : TablesOk s) : SymbolsOk s := by
  have hT {n : Nat} {T : Table} (h : TableOk n T) : SymbolsBelow n T := fun e he => (h.1 e he).2.2.2
  exact ⟨hT h.1, hT h.2.1, hT h.2.2⟩

/-- The table in force has the alphabet of the format: the fixed pair and the dynamic tables alike. -/
theorem tableFor_symbolsBelow {s : State} (h : SymbolsOk s) (f : Format) : SymbolsBelow (alphabetOf f) (tableFor f s) := by
  obtain ⟨hcl, hll, hd⟩ := h
  cases f
  case cl => exact hcl
  case ll =>
    simp only [alphabetOf, tableFor, State.llTable]
    split
    · exact build_getD_symbolsBelow fixLLLengths_length.le
    · exact hll
  case d =>
    simp only [alphabetOf, tableFor, State.dTable]
    split
    · exact build_getD_symbolsBelow fixDLengths_length.le
    · exact hd
  case zHdr | zTrl | bh | st | dh | row => exact .nil _

theorem coreStep_next_of_symbolsOk {s : State} (h : SymbolsOk s) : ∃ t, coreStep s = .next t := by
  rcases coreStep_cases s with ⟨-, hr⟩ | ⟨-, -, hr⟩ | ⟨f, -, -, hr⟩ <;> rw [hr]
  · exact ⟨_, rfl⟩
  · exact ⟨_, rfl⟩
  · unfold runElement
    rcases fetchElement_cases f s with ⟨-, -, hf⟩ | ⟨-, ⟨i, p, -, hf⟩ | ⟨e, st, p, got, -, hf⟩ | ⟨g, v, hd, -⟩⟩
    · rw [hf]; exact ⟨_, rfl⟩
    · rw [hf]; exact exec_next i _
    · rw [hf]; exact ⟨_, rfl⟩
    · exact absurd hd (decode_finds (tableFor_symbolsBelow h f) _ _ _)

/-! ## What every step of a run keeps -/

/-- The core is left to itself, its fetches find their elements, and while busy it is in a phase of a run. -/
structure LeftToRun (s : State) : Prop where
  host : s.host = []
  symbols : SymbolsOk s
  running : s.busy = true → s.phase.running = true

theorem LeftToRun.of_statusOk {s : State} (hT : TablesOk s) (hS : StatusOk s) (hh : s.host = []) : LeftToRun s where
  host := hh
  symbols := symbolsOk_of_tablesOk hT
  running hb := by
    obtain ⟨⟨-, -, -, hp⟩ | ⟨hi, -⟩ | ⟨hi, -⟩ | ⟨hi, -⟩, -⟩ := hS
    · exact hp
    all_goals simp [hi] at hb

theorem LeftToRun.raise {s : State} (h : LeftToRun s) (e : ErrCode) (st : Stage) (k : Nat) : LeftToRun (raise e st k s) :=
  ⟨h.host, h.symbols, nofun⟩

theorem LeftToRun.advance {s : State} (h : LeftToRun s) (f : Format) (p : Nat) : LeftToRun (advance f p s) := by
  cases f <;> exact ⟨h.host, h.symbols, h.running⟩

theorem LeftToRun.latch {s : State} (h : LeftToRun s) (f : Format) (got : List Nat) : LeftToRun (latch f got s) := by
  obtain ⟨_, _, _, _, _, _, _, hl⟩ := latch_eq f got s
  rw [hl]
  exact ⟨h.host, h.symbols, h.running⟩

theorem lensSlice_length_le (k n : Nat) (s : State) : (lensSlice k n s).length ≤ n := by
  rw [lensSlice, List.length_map]
  exact List.length_take_le _ _

theorem llLengths_length_le (s : State) : (llLengths s).length ≤ 288 :=
  (lensSlice_length_le _ _ s).trans (by omega)

theorem dLengths_length_le (s : State) : (dLengths s).length ≤ 32 :=
  (lensSlice_length_le _ _ s).trans (by omega)

/-- An element writes no table but `CL_T`, which it builds, and enters no phase outside a run while busy. -/
theorem LeftToRun.of_elementEffect {s t : State} {f : Format} (hs : LeftToRun s) (h : ElementEffect s f t) : LeftToRun t := by
  cases h
  case trailer => exact ⟨hs.host, hs.symbols, fun _ => rfl⟩
  case block ph hp => exact ⟨hs.host, hs.symbols, fun _ => by rcases hp with rfl | rfl | rfl <;> rfl⟩
  case stored => exact ⟨hs.host, hs.symbols, fun _ => rfl⟩
  case dynamic T hT => exact ⟨hs.host, ⟨build_symbolsBelow hT (by simp), hs.symbols.2⟩, fun _ => rfl⟩
  case lengths => exact ⟨hs.host, hs.symbols, fun _ => by dsimp only; split_ifs <;> rfl⟩
  case blockDone => exact ⟨hs.host, hs.symbols, fun _ => rfl⟩
  case lastRow => exact ⟨hs.host, hs.symbols, nofun⟩
  case header | literal | length | copied | row => exact ⟨hs.host, hs.symbols, hs.running⟩
  all_goals exact ⟨hs.host, hs.symbols, nofun⟩

theorem LeftToRun.of_phaseEffect {s t : State} (hs : LeftToRun s) (h : PhaseEffect s t) : LeftToRun t := by
  cases h
  case rest => exact hs
  case built hT hU =>
    exact ⟨hs.host, ⟨hs.symbols.1, build_symbolsBelow hT (llLengths_length_le s), build_symbolsBelow hU (dLengths_length_le s)⟩,
      fun _ => rfl⟩
  case badD hT _ => exact ⟨hs.host, ⟨hs.symbols.1, build_symbolsBelow hT (llLengths_length_le s), hs.symbols.2.2⟩, nofun⟩
  case raw | nextBlock | toUnfilter | rows => exact ⟨hs.host, hs.symbols, fun _ => rfl⟩
  all_goals exact ⟨hs.host, hs.symbols, nofun⟩

theorem LeftToRun.of_coreEffect {s t : State} (hs : LeftToRun s) (h : CoreEffect s t) : LeftToRun t := by
  cases h with
  | idle => exact hs
  | phase _ _ ht => exact hs.of_phaseEffect ht
  | short => exact hs.raise ..
  | stop f e st p got => exact ((hs.advance f p).latch f got).raise ..
  | element f i p _ _ _ _ _ _ _ ht => exact (hs.advance f p).of_elementEffect ht

/-! ## How far a run is from its end -/

/-- A run goes through the envelope, the blocks, the unfilter's configuration and its rows, in this order (44_inflate_engine.md R240). -/
def Phase.rank : Phase → Nat
  | .envelope => 3
  | .blockHeader | .stored | .dynHeader | .dynLengths | .dynBuild | .symbol | .blockEnd => 2
  | .unfCfg => 1
  | .unfRow | .idle | .done | .error => 0

/-- The bits before the end of the window, or before the byte boundary that a reader past the end can still reach. -/
def State.bitsLeft (s : State) : Nat := max (alignUp s.pos) (8 * s.winEnd) - s.pos

/-- What is left to do in phases of the present rank: the elements of the envelope, the bits of the blocks, or the bytes of `INF`
before which a row can begin. A phase of the blocks that reads no bits counts less than any bit. -/
def State.workLeft (s : State) : Nat :=
  match s.phase with
  | .envelope => if s.hdrSeen then 0 else 1
  | .blockHeader | .stored | .dynHeader | .dynLengths | .symbol => 2 * s.bitsLeft
  | .dynBuild | .blockEnd => 2 * s.bitsLeft + 1
  | .unfRow => s.infLen - s.row
  | .unfCfg | .idle | .done | .error => 0

/-- The lexicographic order of rank and work: `t` is nearer to the end of a run than `s`. -/
def Nearer (t s : State) : Prop :=
  t.phase.rank < s.phase.rank ∨ t.phase.rank = s.phase.rank ∧ t.workLeft < s.workLeft

theorem Nearer.lex {t s : State} (h : Nearer t s) :
    Prod.Lex (· < ·) (· < ·) (t.phase.rank, t.workLeft) (s.phase.rank, s.workLeft) :=
  Prod.lex_def.2 h

/-- In the blocks the work is at most one more than twice the bits. -/
theorem workLeft_le_of_rank {s : State} (h : s.phase.rank = 2) : s.workLeft ≤ 2 * s.bitsLeft + 1 := by
  unfold State.workLeft
  cases hp : s.phase <;> simp [hp, Phase.rank] at h ⊢

/-! ## Every step brings a run nearer to its end -/

theorem expected_inWindow {s : State} {f : Format} (he : expected s = some f) (hf : f.inWindow = true) :
    s.phase.rank = 2 ∧ s.workLeft = 2 * s.bitsLeft := by
  cases f
  case bh | st | dh | cl =>
    have hp : s.phase = _ := expected_some he
    simp [Phase.rank, State.workLeft, hp]
  case ll | d =>
    obtain ⟨hp, -⟩ := expected_some he
    simp [Phase.rank, State.workLeft, hp]
  case zHdr | zTrl | row => simp [Format.inWindow] at hf

/-- An element read from the window raises, or leaves the run in the blocks with the window as it was and the cursor no further back. -/
theorem ElementEffect.stays_in_blocks {s t : State} {f : Format} (h : ElementEffect s f t) (hf : f.inWindow = true)
    (hp : s.phase.rank = 2) (hb : t.busy = true) :
    t.phase.rank = 2 ∧ t.winEnd = s.winEnd ∧ s.pos ≤ t.pos ∧ t.pos ≤ max s.pos (8 * s.winEnd) := by
  have hs : s.pos ≤ s.pos ∧ s.pos ≤ max s.pos (8 * s.winEnd) := ⟨le_rfl, le_max_left _ _⟩
  cases h
  case block ph hph => exact ⟨by rcases hph with rfl | rfl | rfl <;> rfl, rfl, hs⟩
  case stored m p _ _ _ h1 h2 =>
    have hpos : (s.setPos p).pos = p := pos_setPos s p
    exact ⟨rfl, rfl, hpos.symm ▸ h1, hpos.symm ▸ h2⟩
  case dynamic => exact ⟨rfl, rfl, hs⟩
  case lengths => exact ⟨by dsimp only; split_ifs <;> rfl, rfl, hs⟩
  case blockDone => exact ⟨rfl, rfl, hs⟩
  case literal | length | copied => exact ⟨hp, rfl, hs⟩
  case header | trailer | row | lastRow | rowError | filterError => simp [Format.inWindow] at hf
  all_goals simp at hb

theorem bitsLeft_lt {s t : State} (hw : t.winEnd = s.winEnd) (h1 : s.pos < t.pos)
    (h2 : t.pos ≤ max (alignUp s.pos) (8 * s.winEnd)) : t.bitsLeft < s.bitsLeft := by
  have ha := alignUp_le_max (by omega : 8 * s.winEnd % 8 = 0) h2
  unfold State.bitsLeft
  rw [hw]
  omega

/-- An element of the blocks consumes at least one bit of the window (70_reset_and_hazards.md R356). -/
theorem nearer_of_windowElement {s t : State} {f : Format} {p : Nat} (he : expected s = some f) (hf : f.inWindow = true)
    (h1 : s.pos + 1 ≤ p) (h2 : p ≤ max (alignUp s.pos) (8 * s.winEnd)) (ht : ElementEffect (s.setPos p) f t)
    (hb : t.busy = true) : Nearer t s := by
  obtain ⟨hr, hw⟩ := expected_inWindow he hf
  obtain ⟨hr', hwin, hp1, hp2⟩ := ht.stays_in_blocks hf hr hb
  rw [pos_setPos] at hp1 hp2
  rw [State.setPos_winEnd] at hwin hp2
  have hbits : t.bitsLeft < s.bitsLeft := bitsLeft_lt hwin (by omega) (by omega)
  have hwork := workLeft_le_of_rank hr'
  exact .inr ⟨hr'.trans hr.symm, by omega⟩

theorem nearer_of_header {s t : State} (he : expected s = some .zHdr) (ht : ElementEffect s .zHdr t) : Nearer t s := by
  obtain ⟨hp, -, hh⟩ := expected_some he
  cases ht
  exact .inr ⟨rfl, by simp [State.workLeft, hp, hh]⟩

theorem nearer_of_trailer {s t : State} (he : expected s = some .zTrl) (ht : ElementEffect s .zTrl t) : Nearer t s := by
  obtain ⟨hp, -⟩ := expected_some he
  cases ht
  exact .inl (by simp [Phase.rank, hp])

/-- A row whose filter byte was there begins within `INF`, and the next one begins at least a byte later (45_unfilter.md R273). -/
theorem nearer_of_row {s t : State} (he : expected s = some .row) (hr : s.rowBase < s.infLen) (ht : ElementEffect s .row t)
    (hb : t.busy = true) : Nearer t s := by
  have hp : s.phase = .unfRow := expected_some he
  have hrow : s.row < s.infLen := (Nat.le_mul_of_pos_right s.row s.cols.succ_pos).trans_lt hr
  cases ht
  case row => exact .inr ⟨rfl, by simp only [State.workLeft, hp]; omega⟩
  all_goals simp at hb

/-- A phase without an element goes on to a later stage of the run, or reads bits next. -/
theorem PhaseEffect.nearer {s t : State} (h : PhaseEffect s t) (hs : s.phase.running = true) (hb : t.busy = true) : Nearer t s := by
  cases h
  case rest hp => rcases hp with hp | hp | hp <;> simp [hp, Phase.running, Phase.code] at hs
  case raw hp _ => exact .inl (by simp [hp, Phase.rank])
  case built hp _ _ =>
    exact .inr ⟨by simp [hp, Phase.rank], by simp only [State.workLeft, hp]; exact Nat.lt_succ_self _⟩
  case nextBlock hp _ => exact .inr ⟨by simp [hp, Phase.rank], by simp only [State.workLeft, hp]; exact Nat.lt_succ_self _⟩
  case toUnfilter hp _ _ => exact .inl (by simp [hp, Phase.rank])
  case rows hp _ _ _ => exact .inl (by simp [hp, Phase.rank])
  all_goals simp at hb

theorem CoreEffect.nearer {s t : State} (h : CoreEffect s t) (hs : LeftToRun s) (hb : s.busy = true) (hb' : t.busy = true) :
    Nearer t s := by
  cases h with
  | idle hi => simp [hi] at hb
  | phase _ _ ht => exact ht.nearer (hs.running hb) hb'
  | short => simp at hb'
  | stop => simp at hb'
  | element f i p _ _ he _ _ h1 h2 ht =>
    cases f
    case zHdr => exact nearer_of_header he ht
    case zTrl => exact nearer_of_trailer he ht
    case row =>
      have hstart : alignUp (8 * s.rowBase) = 8 * s.rowBase := alignUp_of_aligned _
      simp only [startOf, limitFor, hstart] at h1 h2
      exact nearer_of_row he (by omega) ht hb'
    case bh | st | dh | cl | ll | d => exact nearer_of_windowElement he rfl h1 h2 ht hb'

/-! ## The run -/

theorem step_of_no_host {s : State} (h : s.host = []) : step s = coreStep s := by
  simp [step, h]

theorem run_succ_of_step {s t : State} (h : step s = .next t) (n : Nat) :
    Host.Core.run core (n + 1) s = Host.Core.run core n t := by
  have hc : core.step s = .next t := h
  simp only [Host.Core.run, hc]

theorem LeftToRun.ends {s : State} (hs : LeftToRun s) : ∃ n t, Host.Core.run core n s = .next t ∧ t.busy = false := by
  by_cases hb : s.busy = true
  · obtain ⟨t, hst⟩ := coreStep_next_of_symbolsOk hs.symbols
    have heff := coreStep_effect hst
    have hrun := run_succ_of_step ((step_of_no_host hs.host).trans hst)
    by_cases hb' : t.busy = true
    · have hnear := heff.nearer hs hb hb'
      obtain ⟨n, u, hu, hidle⟩ := (hs.of_coreEffect heff).ends
      exact ⟨n + 1, u, (hrun n).trans hu, hidle⟩
    · exact ⟨1, t, hrun 0, by simpa using hb'⟩
  · exact ⟨0, s, rfl, by simpa using hb⟩
termination_by (s.phase.rank, s.workLeft)
decreasing_by exact hnear.lex

end Sys2Proof.Machine

section

open Sys2Proof Sys2Proof.Machine

/-- Settles O51, by induction on the rank of the phase and the work left in it: every step of a run answers and lowers the pair. -/
theorem everyRunEnds : Obligations.EveryRunEnds := by
  unfold Obligations.EveryRunEnds
  intro s hT hS hh
  exact (LeftToRun.of_statusOk hT hS hh).ends

end

/-! PROOF. The invariants of one register group each: the memories' form, `STATUS`, the cursor and its window, the output lengths
(10_state.md R12, R18, R22, R33). What a step of the core can do is said once, in `CoreEffect.keeps`; each invariant then splits on the
effects of an element, of a phase and of a move of the host. -/

namespace Sys2Proof.Machine

/-! ## What a fetch that gave an element has found -/

/-- The control state in which an element of a format has been fetched, with the cursor after it: what the step checked before and
what the read found there. -/
structure FetchedIn (f : Format) (s : State) : Prop where
  busy : s.busy = true
  expects : expected s = some f
  header : f = .zHdr → 6 ≤ s.inLen
  row : f = .row → s.rowBase < s.infLen

theorem advance_of_inWindow {f : Format} (h : f.inWindow = true) (p : Nat) (s : State) : advance f p s = s.setPos p := by
  cases f
  case bh | st | dh | cl | ll | d => rfl
  case zHdr | zTrl | row => simp [Format.inWindow] at h

theorem advance_of_not_inWindow {f : Format} (h : f.inWindow = false) (p : Nat) (s : State) : advance f p s = s := by
  cases f
  case bh | st | dh | cl | ll | d => simp [Format.inWindow] at h
  case zHdr | zTrl | row => rfl

theorem startOf_of_inWindow {f : Format} (h : f.inWindow = true) (s : State) : startOf f s = s.pos := by
  cases f
  case bh | st | dh | cl | ll | d => rfl
  case zHdr | zTrl | row => simp [Format.inWindow] at h

theorem sourceFor_of_inWindow {f : Format} (h : f.inWindow = true) (s : State) : sourceFor f s = windowSrc s := by
  cases f
  case bh | st | dh | cl | ll | d => rfl
  case zHdr | zTrl | row => simp [Format.inWindow] at h

theorem limitFor_of_inWindow {f : Format} (h : f.inWindow = true) (s : State) : limitFor f s = 8 * s.winEnd := by
  cases f
  case bh | st | dh | cl | ll | d => rfl
  case zHdr | zTrl | row => simp [Format.inWindow] at h

theorem not_envelope_of_inWindow {f : Format} {s : State} (hf : f.inWindow = true) (he : expected s = some f) :
    s.phase ≠ .envelope := fun h => by
  obtain ⟨hr, -⟩ := expected_inWindow he hf
  simp [h, Phase.rank] at hr

/-- An element was fetched, so its first bit was there. -/
theorem FetchedIn.of_element {f : Format} {s : State} {p : Nat} (hb : s.busy = true) (he : expected s = some f)
    (hl : ¬ (f = .zHdr ∧ s.inLen < 6)) (h1 : startOf f s + 1 ≤ p) (h2 : p ≤ max (alignUp (startOf f s)) (limitFor f s)) :
    FetchedIn f (advance f p s) := by
  cases f
  case zHdr => exact ⟨hb, he, fun _ => Nat.le_of_not_lt fun h => hl ⟨rfl, h⟩, nofun⟩
  case row =>
    have hstart : alignUp (8 * s.rowBase) = 8 * s.rowBase := alignUp_of_aligned _
    simp only [startOf, limitFor, hstart] at h1 h2
    exact ⟨hb, he, nofun, fun _ => by simp only [advance]; omega⟩
  case zTrl | bh | st | dh | cl | ll | d => exact ⟨hb, he, nofun, nofun⟩

/-! ## What a step of the core keeps -/

theorem stage_ne_none_of_errorPair {e : ErrCode} {st : Stage} (h : errorPair e st = true) : st ≠ .none := by
  rintro rfl
  cases e <;> simp [errorPair] at h

/-- What a read of the window does to the cursor: outside the envelope it moves forward to `p`, within the window or to the next byte
boundary. -/
def ReadsTo (s : State) (p : Nat) : Prop :=
  s.phase ≠ .envelope ∧ s.pos ≤ p ∧ p ≤ max (alignUp s.pos) (8 * s.winEnd)

/-- The cursor after a fetch is the one before, or has been moved by a read of the window. -/
theorem advance_keeps {P : State → Prop} {s : State} (hs : P s) (hread : ∀ p, ReadsTo s p → P (s.setPos p)) {f : Format} {p : Nat}
    (he : expected s = some f) (h1 : startOf f s ≤ p) (h2 : p ≤ max (alignUp (startOf f s)) (limitFor f s)) :
    P (advance f p s) := by
  cases hf : f.inWindow with
  | false => rwa [advance_of_not_inWindow hf]
  | true =>
    rw [startOf_of_inWindow hf] at h1 h2
    rw [limitFor_of_inWindow hf] at h2
    rw [advance_of_inWindow hf]
    exact hread p ⟨not_envelope_of_inWindow hf he, h1, h2⟩

/-- A step of the core keeps what a read of the window, a latched register, an error entry, each phase without an element and each
element keep. -/
theorem CoreEffect.keeps {P : State → Prop} {s t : State} (h : CoreEffect s t) (hs : P s)
    (hread : ∀ p, ReadsTo s p → P (s.setPos p))
    (hlatch : ∀ u a b c d e v w, P u → P { u with bfinal := a, hlit := b, hdist := c, hclen := d, cllen := e, sym := v, dsym := w })
    (hraise : ∀ u e st k, st ≠ .none → P u → P (raise e st k u))
    (hphase : s.busy = true → PhaseEffect s t → P t)
    (helem : ∀ f u, FetchedIn f u → P u → ElementEffect u f t → P t) : P t := by
  cases h with
  | idle => exact hs
  | phase hb _ ht => exact hphase hb ht
  | short => exact hraise _ _ _ _ nofun hs
  | stop f e st p got _ he _ hd h1 h2 =>
    obtain ⟨_, _, _, _, _, _, _, hl⟩ := latch_eq f got (advance f p s)
    rw [hl]
    exact hraise _ _ _ _ (stage_ne_none_of_errorPair (decode_stop hd).1) (hlatch _ _ _ _ _ _ _ _ (advance_keeps hs hread he h1 h2))
  | element f i p _ hb he hl _ h1 h2 ht =>
    exact helem f _ (.of_element hb he hl h1 h2) (advance_keeps hs hread he (by omega) h2) ht

/-! ## The memories -/

theorem MemoriesOk.raise {s : State} (h : MemoriesOk s) (e : ErrCode) (st : Stage) (k : Nat) : MemoriesOk (raise e st k s) :=
  ⟨h.1, rfl, rfl⟩

theorem MemoriesOk.writeByte {s : State} (h : MemoriesOk s) (sp : Space) (a : Nat) (v : Byte) : MemoriesOk (s.writeByte sp a v) := by
  obtain ⟨hin, hinf, hpix⟩ := h
  cases sp
  · exact ⟨Memory.wf_write a v hin, hinf, hpix⟩
  · exact ⟨hin, Memory.wf_write a v hinf, hpix⟩
  · exact ⟨hin, hinf, Memory.wf_write a v hpix⟩

theorem MemoriesOk.of_elementEffect {f : Format} {s t : State} (hs : MemoriesOk s) (h : ElementEffect s f t) : MemoriesOk t := by
  obtain ⟨hin, hinf, hpix⟩ := id hs
  cases h
  case stored hw _ _ _ _ => exact ⟨hin, hw hinf, hpix⟩
  case copied hw _ _ => exact ⟨hin, hw hinf, hpix⟩
  case literal => exact ⟨hin, Memory.wf_write _ _ hinf, hpix⟩
  case row hw _ _ _ _ => exact ⟨hin, hinf, hw hpix⟩
  case lastRow hw _ _ _ _ => exact ⟨hin, hinf, hw hpix⟩
  case header | trailer | block | dynamic | lengths | blockDone | length => exact hs
  all_goals exact ⟨hin, rfl, rfl⟩

theorem MemoriesOk.of_phaseEffect {s t : State} (hs : MemoriesOk s) (h : PhaseEffect s t) : MemoriesOk t := by
  cases h
  case badLL | badD | badColor | badDepth => exact ⟨hs.1, rfl, rfl⟩
  all_goals exact hs

theorem MemoriesOk.of_coreEffect {s t : State} (hs : MemoriesOk s) (h : CoreEffect s t) : MemoriesOk t :=
  h.keeps hs (fun _ _ => hs) (fun _ _ _ _ _ _ _ _ hu => hu) (fun _ _ _ _ _ hu => hu.raise ..)
    (fun _ => hs.of_phaseEffect) fun _ _ _ hu => MemoriesOk.of_elementEffect hu

theorem MemoriesOk.of_hostEffect {s t : State} (hs : MemoriesOk s) (h : HostEffect s t) : MemoriesOk t := by
  cases h
  case write sp a v _ _ => exact hs.writeByte sp a v
  case reset => exact ⟨rfl, rfl, rfl⟩
  case startError => exact ⟨hs.1, rfl, rfl⟩
  all_goals exact hs

/-! ## `STATUS` -/

/-- In a run `STATUS` shows `BUSY` alone, and there is no error. -/
structure InRun (s : State) : Prop where
  busy : s.busy = true
  done : s.done = false
  err : s.err = false
  phase : s.phase.running = true
  clean : s.errCode = none ∧ s.errStage = .none ∧ s.errPos = 0

theorem StatusOk.inRun {s : State} (h : StatusOk s) (hb : s.busy = true) : InRun s := by
  obtain ⟨⟨-, hd, he, hp⟩ | ⟨hi, -⟩ | ⟨hi, -⟩ | ⟨hi, -⟩, hc, -⟩ := h
  · exact ⟨hb, hd, he, hp, hc he⟩
  all_goals simp [hi] at hb

theorem InRun.statusOk {s : State} (h : InRun s) : StatusOk s :=
  ⟨.inl ⟨h.busy, h.done, h.err, h.phase⟩, fun _ => h.clean, fun he => by simp [h.err] at he⟩

/-- A step of a run to another phase of a run. -/
theorem InRun.statusOk_of_phase {s : State} (h : InRun s) {ph : Phase} (hp : ph.running = true) : StatusOk { s with phase := ph } :=
  InRun.statusOk ⟨h.busy, h.done, h.err, hp, h.clean⟩

theorem InRun.statusOk_enterDone {s : State} (h : InRun s) : StatusOk (enterDone s) :=
  ⟨.inr (.inr (.inl ⟨rfl, rfl, h.err, rfl⟩)), fun _ => h.clean, fun he => by simp [enterDone, h.err] at he⟩

theorem statusOk_raise (e : ErrCode) {st : Stage} (hst : st ≠ .none) (k : Nat) (s : State) : StatusOk (raise e st k s) :=
  ⟨.inr (.inr (.inr ⟨rfl, rfl, rfl, rfl⟩)), nofun, fun _ => ⟨nofun, hst⟩⟩

theorem StatusOk.of_elementEffect {f : Format} {s t : State} (hs : InRun s) (h : ElementEffect s f t) : StatusOk t := by
  cases h
  case block ph hp => exact hs.statusOk_of_phase (by rcases hp with rfl | rfl | rfl <;> rfl)
  case trailer | stored | dynamic | blockDone => exact hs.statusOk_of_phase rfl
  case lengths => exact hs.statusOk_of_phase (by split_ifs <;> rfl)
  case lastRow => exact hs.statusOk_enterDone
  case header | literal | length | copied | row => exact hs.statusOk
  all_goals exact statusOk_raise _ (by decide) _ _

theorem StatusOk.of_phaseEffect {s t : State} (hs : InRun s) (h : PhaseEffect s t) : StatusOk t := by
  cases h
  case rest => exact hs.statusOk
  case raw | built | nextBlock | toUnfilter | rows => exact hs.statusOk_of_phase rfl
  case finished | noRows => exact hs.statusOk_enterDone
  all_goals exact statusOk_raise _ (by decide) _ _

theorem StatusOk.of_coreEffect {s t : State} (hs : StatusOk s) (h : CoreEffect s t) : StatusOk t :=
  h.keeps hs (fun _ _ => hs) (fun _ _ _ _ _ _ _ _ hu => hu) (fun u e _ k hst _ => statusOk_raise e hst k u)
    (fun hb => of_phaseEffect (hs.inRun hb)) fun _ _ hf hu => of_elementEffect (hu.inRun hf.busy)

theorem StatusOk.of_hostEffect {s t : State} (hs : StatusOk s) (h : HostEffect s t) : StatusOk t := by
  cases h
  case clear hb => exact ⟨.inr (.inl ⟨hb, rfl, rfl, rfl⟩), fun _ => ⟨rfl, rfl, rfl⟩, nofun⟩
  case reset => exact ⟨.inr (.inl ⟨rfl, rfl, rfl, rfl⟩), fun _ => ⟨rfl, rfl, rfl⟩, nofun⟩
  case startInflate | startUnfilter => exact InRun.statusOk ⟨rfl, rfl, rfl, rfl, rfl, rfl, rfl⟩
  case startError => exact statusOk_raise _ (by decide) _ _
  case write sp _ _ _ _ => cases sp <;> exact hs
  all_goals exact hs

/-! ## The lengths -/

theorem LengthsOk.of_elementEffect {f : Format} {s t : State} (hb : s.busy = true) (hs : LengthsOk s) (h : ElementEffect s f t) :
    LengthsOk t := by
  obtain ⟨hinf, hpix⟩ := id hs
  have hinf := hinf hb
  cases h
  case stored hl _ _ => exact ⟨fun _ => hl.trans (max_le hinf le_rfl), hpix⟩
  case literal hl => exact ⟨fun _ => hl, hpix⟩
  case copied hl => exact ⟨fun _ => hl.trans (max_le hinf le_rfl), hpix⟩
  case row hl _ _ => exact ⟨fun _ => hinf, hl.trans (max_le hpix le_rfl)⟩
  case lastRow hl _ _ => exact ⟨nofun, hl.trans (max_le hpix le_rfl)⟩
  case header | trailer | block | dynamic | lengths | blockDone | length => exact hs
  all_goals exact ⟨nofun, Nat.zero_le _⟩

theorem LengthsOk.of_phaseEffect {s t : State} (hs : LengthsOk s) (h : PhaseEffect s t) : LengthsOk t := by
  cases h
  case badLL | badD | badColor | badDepth => exact ⟨nofun, Nat.zero_le _⟩
  case finished | noRows => exact ⟨nofun, hs.2⟩
  all_goals exact hs

theorem LengthsOk.of_coreEffect {s t : State} (hs : LengthsOk s) (h : CoreEffect s t) : LengthsOk t :=
  h.keeps hs (fun _ _ => hs) (fun _ _ _ _ _ _ _ _ hu => hu) (fun _ _ _ _ _ _ => ⟨nofun, Nat.zero_le _⟩)
    (fun _ => hs.of_phaseEffect) fun _ _ hf => of_elementEffect hf.busy

theorem inflates_of_op_three {s : State} (h : s.op = 3) : s.inflates = false := by
  simp [State.inflates, h]

/-- A run starts with nothing in `PIX`, and with nothing in `INF` unless it reads it (44_inflate_engine.md R242). -/
theorem LengthsOk.of_hostEffect {s t : State} (hs : LengthsOk s) (h : HostEffect s t) : LengthsOk t := by
  cases h
  case infLen hb _ => exact ⟨fun hb' => absurd hb' (by simp [hb]), hs.2⟩
  case clear | startError | reset => exact ⟨fun _ => Nat.zero_le _, Nat.zero_le _⟩
  case startInflate hi _ =>
    have h0 : (startClear s).infLen = 0 := if_pos hi
    exact ⟨fun _ => h0.le.trans (Nat.zero_le _), Nat.zero_le _⟩
  case startUnfilter ho hl =>
    have h0 : (startClear s).infLen = s.infLen := if_neg (by simp [inflates_of_op_three ho])
    exact ⟨fun _ => h0.le.trans hl, Nat.zero_le _⟩
  case write sp _ _ _ _ => cases sp <;> exact hs
  all_goals exact hs

/-! ## The cursor and the window -/

/-- A cursor in its window and in normal form is at most at the window's end, and so is the byte boundary after it. -/
theorem CursorOk.alignUp_pos_le {s : State} (h : CursorOk s) : alignUp s.pos ≤ 8 * s.winEnd := by
  obtain ⟨-, hend, hnorm, -⟩ := h
  have hbb := s.bb.isLt
  unfold alignUp State.pos
  rcases Nat.lt_or_eq_of_le hend with hlt | heq
  · omega
  · have hb0 : s.bb.toNat = 0 := congrArg BitVec.toNat (hnorm heq)
    omega

theorem bb_setPos_of_aligned {s : State} {p : Nat} (h : p % 8 = 0) : (s.setPos p).bb = 0 := by
  apply BitVec.eq_of_toNat_eq
  simpa using h

/-- A position in the window is the cursor in normal form. -/
theorem setPos_normal {s : State} {p : Nat} (hlo : s.winLo ≤ s.bp) (h1 : s.pos ≤ p) (h2 : p ≤ 8 * s.winEnd) :
    (s.setPos p).winLo ≤ (s.setPos p).bp ∧ (s.setPos p).bp ≤ (s.setPos p).winEnd ∧
      ((s.setPos p).bp = (s.setPos p).winEnd → (s.setPos p).bb = 0) := by
  have hbp : 8 * s.bp ≤ p := (Nat.le_add_right _ _).trans h1
  simp only [State.setPos_winLo, State.setPos_bp, State.setPos_winEnd]
  exact ⟨by omega, by omega, fun h => bb_setPos_of_aligned (by omega)⟩

theorem CursorOk.setPos {s : State} (h : CursorOk s) {p : Nat} (hp : ReadsTo s p) : CursorOk (s.setPos p) := by
  obtain ⟨hph, h1, h2⟩ := hp
  have hpos := h.alignUp_pos_le
  obtain ⟨hlo, hend, hnorm⟩ := setPos_normal h.1 h1 (by omega)
  obtain ⟨-, -, -, hrun, -⟩ := h
  exact ⟨hlo, hend, hnorm, hrun, fun _ he => absurd he hph⟩

/-- The cursor of a run that is over needs only its window. -/
theorem CursorOk.of_not_busy {s : State} (h : s.winLo ≤ s.bp ∧ s.bp ≤ s.winEnd ∧ (s.bp = s.winEnd → s.bb = 0))
    (hb : s.busy = false) : CursorOk s := by
  obtain ⟨hlo, hend, hnorm⟩ := h
  exact ⟨hlo, hend, hnorm, fun hb' => by simp [hb] at hb', fun hb' => by simp [hb] at hb'⟩

theorem CursorOk.raise {s : State} (h : CursorOk s) (e : ErrCode) (st : Stage) (k : Nat) : CursorOk (raise e st k s) :=
  of_not_busy ⟨h.1, h.2.1, h.2.2.1⟩ rfl

theorem CursorOk.enterDone {s : State} (h : CursorOk s) : CursorOk (enterDone s) := of_not_busy ⟨h.1, h.2.1, h.2.2.1⟩ rfl

theorem CursorOk.enterPhase {s : State} (h : CursorOk s) {ph : Phase} (hp : ph ≠ .envelope) : CursorOk { s with phase := ph } := by
  obtain ⟨hlo, hend, hnorm, hrun, -⟩ := h
  exact ⟨hlo, hend, hnorm, hrun, fun _ he => absurd he hp⟩

/-- Only the envelope's trailer sets the window, and its header has found the six bytes that the window needs
(44_inflate_engine.md R248). -/
theorem CursorOk.of_elementEffect {f : Format} {s t : State} (hf : FetchedIn f s) (hs : CursorOk s) (h : ElementEffect s f t) :
    CursorOk t := by
  obtain ⟨hlo, hend, hnorm, hrun, henv⟩ := id hs
  cases h
  case header =>
    obtain ⟨hwin, hcap, -⟩ := hrun hf.busy
    exact ⟨hlo, hend, hnorm, fun _ => ⟨hwin, hcap, fun _ => hf.header rfl⟩, henv⟩
  case trailer =>
    obtain ⟨-, -, hseen⟩ := expected_some hf.expects
    obtain ⟨-, hcap, hlen⟩ := hrun hf.busy
    have h6 := hlen hseen
    exact ⟨le_rfl, by dsimp only; omega, fun _ => rfl, fun _ => ⟨Nat.sub_le _ _, hcap, nofun⟩, nofun⟩
  case block ph hph => exact hs.enterPhase (by rcases hph with rfl | rfl | rfl <;> decide)
  case stored p _ _ _ h1 h2 =>
    have hpos := hs.alignUp_pos_le
    have hle := le_alignUp s.pos
    obtain ⟨hlo', hend', hnorm'⟩ := setPos_normal hlo h1 (by omega)
    exact ⟨hlo', hend', hnorm', hrun, nofun⟩
  case storedError p _ h1 h2 =>
    have hpos := hs.alignUp_pos_le
    have hnormal := setPos_normal hlo h1 (by omega)
    exact of_not_busy hnormal rfl
  case dynamic | blockDone => exact hs.enterPhase (by decide)
  case lengths => exact hs.enterPhase (by split_ifs <;> decide)
  case lastRow => exact hs.enterDone
  case literal | length | copied | row => exact hs
  all_goals exact of_not_busy ⟨hlo, hend, hnorm⟩ rfl

theorem CursorOk.of_phaseEffect {s t : State} (hb : s.busy = true) (hs : CursorOk s) (h : PhaseEffect s t) : CursorOk t := by
  cases h
  case rest => exact hs
  case raw =>
    obtain ⟨-, hcap, hlen⟩ := hs.2.2.2.1 hb
    exact ⟨le_rfl, Nat.zero_le _, fun _ => rfl, fun _ => ⟨le_rfl, hcap, hlen⟩, nofun⟩
  case built | nextBlock | toUnfilter | rows => exact hs.enterPhase (by decide)
  case finished | noRows => exact hs.enterDone
  all_goals exact of_not_busy ⟨hs.1, hs.2.1, hs.2.2.1⟩ rfl

theorem CursorOk.of_coreEffect {s t : State} (hs : CursorOk s) (h : CoreEffect s t) : CursorOk t :=
  h.keeps hs (fun _ => hs.setPos) (fun _ _ _ _ _ _ _ _ hu => hu) (fun _ _ _ _ _ hu => hu.raise ..)
    (fun hb => of_phaseEffect hb hs) fun _ _ hf => of_elementEffect hf

theorem CursorOk.of_hostEffect {s t : State} (hs : CursorOk s) (h : HostEffect s t) : CursorOk t := by
  have hzero : (0 : Nat) ≤ 0 ∧ (0 : Nat) ≤ 0 ∧ ((0 : Nat) = 0 → (0 : BitVec 3) = 0) := ⟨le_rfl, le_rfl, fun _ => rfl⟩
  cases h
  case op hb => exact of_not_busy ⟨hs.1, hs.2.1, hs.2.2.1⟩ hb
  case inLen hb _ => exact of_not_busy ⟨hs.1, hs.2.1, hs.2.2.1⟩ hb
  case clear hb => exact of_not_busy hzero hb
  case startInflate hl =>
    exact ⟨le_rfl, le_rfl, fun _ => rfl, fun _ => ⟨Nat.zero_le _, fun _ => hl, nofun⟩, fun _ _ => ⟨rfl, rfl⟩⟩
  case startUnfilter ho _ =>
    have hi := inflates_of_op_three ho
    exact ⟨le_rfl, le_rfl, fun _ => rfl, fun _ => ⟨Nat.zero_le _, fun hi' => absurd (hi'.symm.trans hi) (by decide), nofun⟩, nofun⟩
  case startError | reset => exact of_not_busy hzero rfl
  case write sp _ _ _ _ => cases sp <;> exact hs
  all_goals exact hs

end Sys2Proof.Machine

section

open Sys2Proof Sys2Proof.Machine

/-- Settles O53: a memory is only ever written, which keeps its form, or emptied. -/
theorem stepKeepsMemories : Obligations.StepKeepsMemories := by
  unfold Obligations.StepKeepsMemories
  intro s t hs h
  exact keeps_of_effects (fun _ _ hs => hs) (fun _ _ => MemoriesOk.of_coreEffect) (fun _ _ => MemoriesOk.of_hostEffect) hs h

/-- Settles O54: a run stays in its phases with `BUSY` alone, or ends in `DONE` or in an error with its code and stage. -/
theorem stepKeepsStatus : Obligations.StepKeepsStatus := by
  unfold Obligations.StepKeepsStatus
  intro s t hs h
  exact keeps_of_effects (fun _ _ hs => hs) (fun _ _ => StatusOk.of_coreEffect) (fun _ _ => StatusOk.of_hostEffect) hs h

/-- Settles O55: no read goes past the window's end, and the two phases that set the window set it in the valid bytes. -/
theorem stepKeepsCursor : Obligations.StepKeepsCursor := by
  unfold Obligations.StepKeepsCursor
  intro s t hs h
  exact keeps_of_effects (fun _ _ hs => hs) (fun _ _ => CursorOk.of_coreEffect) (fun _ _ => CursorOk.of_hostEffect) hs h

/-- Settles O56: each append was checked against the capacity, and START checks the length that a run begins with. -/
theorem stepKeepsLengths : Obligations.StepKeepsLengths := by
  unfold Obligations.StepKeepsLengths
  intro s t hs h
  exact keeps_of_effects (fun _ _ hs => hs) (fun _ _ => LengthsOk.of_coreEffect) (fun _ _ => LengthsOk.of_hostEffect) hs h

end

/-! PROOF. No code of a built table begins another (41_huffman.md R112, R113): each triple's code is the first code of its length plus the
number of earlier symbols of that length, and the codes of a length end before the first of a longer one begins. The dynamic
tables are built, so every step keeps them so (10_state.md R30). -/

namespace Sys2Proof

/-! ## The first codes of the lengths -/

/-- The first code of a length (41_huffman.md R112). -/
def firstCode (lengths : List Nat) (n : Nat) : Nat := (startCodes lengths).getD n 0

theorem startCodesFrom_length (lengths : List Nat) (n len c : Nat) : (startCodesFrom lengths n len c).length = n := by
  induction n generalizing len c with
  | zero => rfl
  | succ n ih => simp [startCodesFrom, ih]

theorem startCodes_length (lengths : List Nat) : (startCodes lengths).length = 16 := startCodesFrom_length ..

theorem startCodesFrom_getD_succ (lengths : List Nat) {n k : Nat} (len c : Nat) (hk : k + 1 < n) :
    (startCodesFrom lengths n len c).getD (k + 1) 0 =
      ((startCodesFrom lengths n len c).getD k 0 + blCount lengths (len + k)) * 2 := by
  induction n generalizing len c k with
  | zero => omega
  | succ n ih =>
    rw [startCodesFrom, List.getD_cons_succ]
    cases k with
    | zero =>
      obtain ⟨m, rfl⟩ : ∃ m, n = m + 1 := ⟨n - 1, by omega⟩
      rfl
    | succ k =>
      rw [ih (len + 1) _ (by omega), List.getD_cons_succ, show len + 1 + k = len + (k + 1) by omega]

theorem firstCode_succ (lengths : List Nat) {n : Nat} (hn : n < 15) :
    firstCode lengths (n + 1) = (firstCode lengths n + blCount lengths n) * 2 := by
  have h := startCodesFrom_getD_succ lengths 0 0 (by omega : n + 1 < 16)
  rwa [Nat.zero_add] at h

/-- The codes of a length, continued to a longer length, end before the first code of that. -/
theorem lastCode_le_firstCode (lengths : List Nat) {m n : Nat} (hmn : m < n) (hn : n ≤ 15) :
    (firstCode lengths m + blCount lengths m) * 2 ^ (n - m) ≤ firstCode lengths n := by
  induction n, hmn using Nat.le_induction with
  | base => rw [show m.succ - m = 1 by omega, pow_one, firstCode_succ lengths (by omega)]
  | succ n hmn ih =>
    have ih := ih (by omega)
    rw [firstCode_succ lengths (by omega), Nat.succ_sub (by omega), pow_succ, ← Nat.mul_assoc]
    exact Nat.mul_le_mul_right 2 (ih.trans (Nat.le_add_right _ _))

theorem lengthsFit_le {lengths : List Nat} (h : lengthsFit lengths = true) {n : Nat} (hn : n ≤ 15) :
    firstCode lengths n + blCount lengths n ≤ 2 ^ n := by
  simp only [lengthsFit, List.all_eq_true, List.mem_range, decide_eq_true_eq] at h
  exact h n (by omega)

/-! ## The codes assigned -/

/-- A triple that the insertions of R112 make for symbol `sym + k`: its length is that symbol's, and its code is the next code of
that length after the symbols before. -/
structure AssignedAt (lengths : List Nat) (sym : Nat) (next : List Nat) (e : Entry) (k : Nat) : Prop where
  sym_eq : e.sym = sym + k
  len_ne : e.len ≠ 0
  len_eq : lengths[k]? = some e.len
  code_eq : e.code = next.getD e.len 0 + (lengths.take k).count e.len

theorem getD_set_succ {next : List Nat} {len : Nat} (h : len < next.length) (n : Nat) :
    (next.set len (next.getD len 0 + 1)).getD n 0 = next.getD n 0 + if len = n then 1 else 0 := by
  by_cases hn : len = n
  · subst hn
    simp [List.getD_eq_getElem?_getD, h]
  · simp [List.getD_eq_getElem?_getD, List.getElem?_set_ne hn, hn]

theorem assignCodes_assignedAt {lengths : List Nat} {sym : Nat} {next : List Nat} (hl : ∀ l ∈ lengths, l < next.length)
    {e : Entry} (he : e ∈ assignCodes lengths sym next) : ∃ k, AssignedAt lengths sym next e k := by
  induction lengths generalizing sym next with
  | nil => cases he
  | cons len rest ih =>
    have hlen : len < next.length := hl len List.mem_cons_self
    have hrest : ∀ l ∈ rest, l < next.length := fun l h => hl l (List.mem_cons_of_mem _ h)
    rw [assignCodes] at he
    split_ifs at he with h0
    · obtain ⟨k, hk⟩ := ih hrest he
      refine ⟨k + 1, by rw [hk.sym_eq]; omega, hk.len_ne, hk.len_eq, ?_⟩
      have hne : len ≠ e.len := fun h => hk.len_ne (h ▸ h0)
      rw [hk.code_eq, List.take_succ_cons, List.count_cons_of_ne hne]
    · rcases List.mem_cons.1 he with rfl | he
      · exact ⟨0, rfl, h0, rfl, rfl⟩
      · obtain ⟨k, hk⟩ := ih (by simpa using hrest) he
        refine ⟨k + 1, by rw [hk.sym_eq]; omega, hk.len_ne, hk.len_eq, ?_⟩
        rw [hk.code_eq, getD_set_succ hlen, List.take_succ_cons, List.count_cons]
        simp only [beq_iff_eq]
        omega

/-- The triples stand in the order of their symbols. -/
theorem assignCodes_sorted (lengths : List Nat) (sym : Nat) (next : List Nat) :
    (∀ e ∈ assignCodes lengths sym next, sym ≤ e.sym) ∧ (assignCodes lengths sym next).Pairwise (fun e f => e.sym < f.sym) := by
  induction lengths generalizing sym next with
  | nil => exact ⟨nofun, .nil⟩
  | cons len rest ih =>
    rw [assignCodes]
    split_ifs
    · obtain ⟨hle, hsorted⟩ := ih (sym + 1) next
      exact ⟨fun e he => (Nat.le_succ sym).trans (hle e he), hsorted⟩
    · obtain ⟨hle, hsorted⟩ := ih (sym + 1) (next.set len (next.getD len 0 + 1))
      refine ⟨fun e he => ?_, List.pairwise_cons.2 ⟨fun e he => hle e he, hsorted⟩⟩
      rcases List.mem_cons.1 he with rfl | he
      · exact le_rfl
      · exact (Nat.le_succ sym).trans (hle e he)

/-! ## A built table -/

/-- What `build` makes of lengths that fit: each triple's code is counted from the first code of its length. -/
theorem build_assignedAt {lengths : List Nat} {T : Table} (hl : ∀ l ∈ lengths, l ≤ 15) (h : build lengths = some T) {e : Entry}
    (he : e ∈ T) : AssignedAt lengths 0 (startCodes lengths) e e.sym := by
  unfold build at h
  split_ifs at h
  cases h
  obtain ⟨k, hk⟩ := assignCodes_assignedAt (fun l hm => by rw [startCodes_length]; exact Nat.lt_succ_of_le (hl l hm)) he
  have hsym : e.sym = k := by rw [hk.sym_eq, Nat.zero_add]
  rwa [hsym]

theorem build_sorted {lengths : List Nat} {T : Table} (h : build lengths = some T) : T.Pairwise (fun e f => e.sym < f.sym) := by
  unfold build at h
  split_ifs at h
  cases h
  exact (assignCodes_sorted ..).2

theorem build_fits {lengths : List Nat} {T : Table} (h : build lengths = some T) : lengthsFit lengths = true := by
  unfold build at h
  split_ifs at h with hf
  exact hf

section

variable {lengths : List Nat} {next : List Nat} {e f : Entry} {j k : Nat}

theorem AssignedAt.sym_lt (he : AssignedAt lengths 0 next e k) : e.sym < lengths.length := by
  obtain ⟨hk, -⟩ := List.getElem?_eq_some_iff.1 he.len_eq
  rw [he.sym_eq]
  omega

theorem AssignedAt.len_le (hl : ∀ l ∈ lengths, l ≤ 15) (he : AssignedAt lengths 0 next e k) : e.len ≤ 15 :=
  hl _ (List.mem_of_getElem? he.len_eq)

/-- The symbols before a later one of the same length are one more at least. -/
theorem AssignedAt.count_lt (he : AssignedAt lengths 0 next e j) (hjk : j < k) :
    (lengths.take j).count e.len < (lengths.take k).count e.len := by
  have hstep : (lengths.take (j + 1)).count e.len = (lengths.take j).count e.len + 1 := by
    rw [List.take_add_one, he.len_eq, Option.toList_some, List.count_append, List.count_singleton_self]
  have hmono : (lengths.take (j + 1)).count e.len ≤ (lengths.take k).count e.len :=
    (List.take_sublist_take_left hjk).count_le e.len
  omega

theorem AssignedAt.code_lt (he : AssignedAt lengths 0 (startCodes lengths) e k) :
    e.code < firstCode lengths e.len + blCount lengths e.len := by
  have hk := he.sym_lt
  have hs := he.sym_eq
  have hcount := he.count_lt (k := lengths.length) (by omega)
  rw [List.take_length] at hcount
  rw [he.code_eq, blCount, if_neg he.len_ne]
  exact Nat.add_lt_add_left hcount _

theorem AssignedAt.firstCode_le (he : AssignedAt lengths 0 (startCodes lengths) e k) : firstCode lengths e.len ≤ e.code := by
  rw [he.code_eq]
  exact Nat.le_add_right _ _

/-- Codes of one length rise with the symbol (41_huffman.md R115). -/
theorem AssignedAt.code_lt_of_sym_lt (he : AssignedAt lengths 0 next e e.sym) (hf : AssignedAt lengths 0 next f f.sym)
    (hlen : e.len = f.len) (hsym : e.sym < f.sym) : e.code < f.code := by
  rw [he.code_eq, hf.code_eq, ← hlen]
  exact Nat.add_lt_add_left (he.count_lt hsym) _

/-- A shorter code precedes a longer one, also when it is continued (41_huffman.md R115). -/
theorem AssignedAt.shorter_precedes (hl : ∀ l ∈ lengths, l ≤ 15) (he : AssignedAt lengths 0 (startCodes lengths) e j)
    (hf : AssignedAt lengths 0 (startCodes lengths) f k) (hlen : e.len < f.len) :
    (e.code + 1) * 2 ^ (f.len - e.len) ≤ f.code :=
  calc (e.code + 1) * 2 ^ (f.len - e.len)
      ≤ (firstCode lengths e.len + blCount lengths e.len) * 2 ^ (f.len - e.len) := Nat.mul_le_mul_right _ he.code_lt
    _ ≤ firstCode lengths f.len := lastCode_le_firstCode lengths hlen (hf.len_le hl)
    _ ≤ f.code := hf.firstCode_le

end

namespace Machine

/-- No code of a built table begins another: among codes of one length they differ, and of two lengths the shorter precedes. -/
theorem not_codesClash_of_assignedAt {lengths : List Nat} (hl : ∀ l ∈ lengths, l ≤ 15) {e f : Entry}
    (he : AssignedAt lengths 0 (startCodes lengths) e e.sym) (hf : AssignedAt lengths 0 (startCodes lengths) f f.sym)
    (hsym : e.sym < f.sym) : ¬ codesClash e f := by
  have hapart {a b : Entry} (h : (a.code + 1) * 2 ^ (b.len - a.len) ≤ b.code) : b.code / 2 ^ (b.len - a.len) ≠ a.code := by
    have := (Nat.le_div_iff_mul_le (Nat.two_pow_pos _)).2 h
    omega
  rcases Nat.lt_trichotomy e.len f.len with hlt | heq | hgt
  · have hne := hapart (he.shorter_precedes hl hf hlt)
    rintro (⟨-, h⟩ | ⟨h, -⟩)
    · exact hne h
    · omega
  · have hlt := he.code_lt_of_sym_lt hf heq hsym
    rintro (⟨-, h⟩ | ⟨-, h⟩) <;> simp [heq] at h <;> omega
  · have hne := hapart (hf.shorter_precedes hl he hgt)
    rintro (⟨h, -⟩ | ⟨-, h⟩)
    · omega
    · exact hne h

theorem TableOk.nil (n : Nat) : TableOk n [] := ⟨nofun, .nil⟩

theorem TableOk.mono {m n : Nat} {T : Table} (h : TableOk m T) (hmn : m ≤ n) : TableOk n T :=
  ⟨fun e he => have ⟨h1, h2, h3, h4⟩ := h.1 e he; ⟨h1, h2, h3, h4.trans_le hmn⟩, h.2⟩

/-- A built table is as R30 describes it, over the symbols that have a length (41_huffman.md R113). -/
theorem tableOk_of_build {lengths : List Nat} {T : Table} (hl : ∀ l ∈ lengths, l ≤ 15) (h : build lengths = some T) :
    TableOk lengths.length T := by
  refine ⟨fun e he => ?_, (build_sorted h).imp_of_mem fun he hf hsym =>
    not_codesClash_of_assignedAt hl (build_assignedAt hl h he) (build_assignedAt hl h hf) hsym⟩
  have hassign := build_assignedAt hl h he
  have hlen := hassign.len_le hl
  exact ⟨Nat.one_le_iff_ne_zero.2 hassign.len_ne, hlen, hassign.code_lt.trans_le (lengthsFit_le (build_fits h) hlen),
    hassign.sym_lt⟩

/-! ## The tables held in the state -/

theorem toNat_le_of_mem_map {w : Nat} {l : List (BitVec w)} {m : Nat} (hw : 2 ^ w ≤ m + 1) :
    ∀ n ∈ l.map BitVec.toNat, n ≤ m := by
  intro n hn
  obtain ⟨v, -, rfl⟩ := List.mem_map.1 hn
  have := v.isLt
  omega

theorem tableOk_clT {c : Vector (BitVec 3) 19} {T : Table} (h : build (c.toList.map BitVec.toNat) = some T) : TableOk 19 T :=
  (tableOk_of_build (toNat_le_of_mem_map (by decide)) h).mono (by simp)

theorem tableOk_dynLL {s : State} {T : Table} (h : build (llLengths s) = some T) : TableOk 288 T :=
  (tableOk_of_build (toNat_le_of_mem_map (by decide)) h).mono (llLengths_length_le s)

theorem tableOk_dynD {s : State} {T : Table} (h : build (dLengths s) = some T) : TableOk 32 T :=
  (tableOk_of_build (toNat_le_of_mem_map (by decide)) h).mono (dLengths_length_le s)

theorem TablesOk.of_elementEffect {f : Format} {s t : State} (hs : TablesOk s) (h : ElementEffect s f t) : TablesOk t := by
  cases h
  case dynamic hT => exact ⟨tableOk_clT hT, hs.2⟩
  all_goals exact hs

theorem TablesOk.of_phaseEffect {s t : State} (hs : TablesOk s) (h : PhaseEffect s t) : TablesOk t := by
  cases h
  case built hT hU => exact ⟨hs.1, tableOk_dynLL hT, tableOk_dynD hU⟩
  case badD hT _ => exact ⟨hs.1, tableOk_dynLL hT, hs.2.2⟩
  all_goals exact hs

theorem TablesOk.of_coreEffect {s t : State} (hs : TablesOk s) (h : CoreEffect s t) : TablesOk t :=
  h.keeps hs (fun _ _ => hs) (fun _ _ _ _ _ _ _ _ hu => hu) (fun _ _ _ _ _ hu => hu) (fun _ => hs.of_phaseEffect)
    fun _ _ _ hu => of_elementEffect hu

theorem TablesOk.of_hostEffect {s t : State} (hs : TablesOk s) (h : HostEffect s t) : TablesOk t := by
  cases h
  case reset => exact ⟨.nil _, .nil _, .nil _⟩
  case write sp _ _ _ _ => cases sp <;> exact hs
  all_goals exact hs

end Machine

end Sys2Proof

section

open Sys2Proof Sys2Proof.Machine

/-- Settles O58: a table of the state is written by a build only, whose codes do not begin one another. -/
theorem stepKeepsTables : Obligations.StepKeepsTables := by
  unfold Obligations.StepKeepsTables
  intro s t hs h
  exact keeps_of_effects (fun _ _ hs => hs) (fun _ _ => TablesOk.of_coreEffect) (fun _ _ => TablesOk.of_hostEffect) hs h

end

/-! PROOF. Every register stays within its width (10_state.md R11, R13, R15; 46_arithmetic_control_access.md R260): each value that an
element or a phase writes is bounded by a register that another invariant bounds. -/

namespace Sys2Proof.Machine

/-! ## Writes of one register -/

section

variable {s : State} {v n p : Nat}

theorem WidthsOk.raise (h : WidthsOk s) (e : ErrCode) (st : Stage) (hk : n < 2 ^ 32) : WidthsOk (raise e st n s) := by
  obtain ⟨hcap, ⟨hin, -, -, -⟩, hrest⟩ := h
  exact ⟨hcap, ⟨hin, Nat.two_pow_pos 32, Nat.two_pow_pos 32, hk⟩, hrest⟩

theorem WidthsOk.withInfLen (h : WidthsOk s) (hn : n < 2 ^ 32) : WidthsOk { s with infLen := n } := by
  obtain ⟨hcap, ⟨hin, -, hlen⟩, hrest⟩ := h
  exact ⟨hcap, ⟨hin, hn, hlen⟩, hrest⟩

theorem WidthsOk.withPixLen (h : WidthsOk s) (hn : n < 2 ^ 32) : WidthsOk { s with pixLen := n } := by
  obtain ⟨hcap, ⟨hin, hinf, -, hpos⟩, hrest⟩ := h
  exact ⟨hcap, ⟨hin, hinf, hn, hpos⟩, hrest⟩

theorem WidthsOk.setPos (h : WidthsOk s) (hp : p / 8 < 2 ^ 32) : WidthsOk (s.setPos p) := by
  obtain ⟨hcap, hlen, ⟨-, hwin⟩, hrest⟩ := h
  exact ⟨hcap, hlen, ⟨hp, hwin⟩, hrest⟩

theorem WidthsOk.withNlens (h : WidthsOk s) (hn : n < 2 ^ 9) : WidthsOk { s with nlens := n } := by
  obtain ⟨hcap, hlen, hcur, ⟨hbpp, -, hsyms⟩, hrow⟩ := h
  exact ⟨hcap, hlen, hcur, ⟨hbpp, hn, hsyms⟩, hrow⟩

theorem WidthsOk.withSym (h : WidthsOk s) (hv : v < 2 ^ 9) : WidthsOk { s with sym := v } := by
  obtain ⟨hcap, hlen, hcur, ⟨hbpp, hnlens, -, hmatch⟩, hrow⟩ := h
  exact ⟨hcap, hlen, hcur, ⟨hbpp, hnlens, hv, hmatch⟩, hrow⟩

theorem WidthsOk.withMlen (h : WidthsOk s) (hn : n < 2 ^ 9) : WidthsOk { s with mlen := n } := by
  obtain ⟨hcap, hlen, hcur, ⟨hbpp, hnlens, hsym, -, hdist⟩, hrow⟩ := h
  exact ⟨hcap, hlen, hcur, ⟨hbpp, hnlens, hsym, hn, hdist⟩, hrow⟩

theorem WidthsOk.withDsym (h : WidthsOk s) (hv : v < 2 ^ 5) : WidthsOk { s with dsym := v } := by
  obtain ⟨hcap, hlen, hcur, ⟨hbpp, hnlens, hsym, hmlen, -, hmdist⟩, hrow⟩ := h
  exact ⟨hcap, hlen, hcur, ⟨hbpp, hnlens, hsym, hmlen, hv, hmdist⟩, hrow⟩

theorem WidthsOk.withMdist (h : WidthsOk s) (hn : n < 2 ^ 16) : WidthsOk { s with mdist := n } := by
  obtain ⟨hcap, hlen, hcur, ⟨hbpp, hnlens, hsym, hmlen, hdsym, -⟩, hrow⟩ := h
  exact ⟨hcap, hlen, hcur, ⟨hbpp, hnlens, hsym, hmlen, hdsym, hn⟩, hrow⟩

theorem WidthsOk.withRow (h : WidthsOk s) (hn : n < 2 ^ 32) : WidthsOk { s with row := n } := by
  obtain ⟨hcap, hlen, hcur, hblk, hcols, -⟩ := h
  exact ⟨hcap, hlen, hcur, hblk, hcols, hn⟩

end

/-! ## What bounds the registers -/

/-- The invariants that bound what a step writes. -/
structure Bounded (s : State) : Prop where
  cursor : CursorOk s
  lengths : LengthsOk s
  count : CountOk s
  tables : TablesOk s
  row : RowOk s
  widths : WidthsOk s

theorem Bounded.withHost {s : State} (h : Bounded s) (q : List HostMove) : Bounded { s with host := q } :=
  ⟨h.cursor, h.lengths, h.count, h.tables, h.row, h.widths⟩

theorem Bounded.setPos {s : State} (h : Bounded s) {p : Nat} (hp : ReadsTo s p) : Bounded (s.setPos p) := by
  have hcur := h.cursor.setPos hp
  obtain ⟨-, -, ⟨-, -, hend⟩, -⟩ := id h.widths
  exact ⟨hcur, h.lengths, h.count, h.tables, h.row, h.widths.setPos (hcur.2.1.trans_lt hend)⟩

theorem lt_of_le_capMax {n c : Nat} (h : n ≤ c) (hc : c ≤ Config.capMax) : n < 2 ^ 32 :=
  Nat.lt_succ_of_le (h.trans hc)

/-- An append that fits the capacity leaves the length in its width. -/
theorem lt_of_le_max_cap {m n c : Nat} (h : m ≤ max n c) (hn : n < 2 ^ 32) (hc : c ≤ Config.capMax) : m < 2 ^ 32 :=
  h.trans_lt (max_lt hn (lt_of_le_capMax le_rfl hc))

/-- A cursor within the window is within its width. -/
theorem Bounded.div_lt {s : State} (h : Bounded s) {p : Nat} (hp : p ≤ max (alignUp s.pos) (8 * s.winEnd)) : p / 8 < 2 ^ 32 := by
  have ha := h.cursor.alignUp_pos_le
  obtain ⟨-, -, ⟨-, -, hend⟩, -⟩ := h.widths
  omega

/-! ## Elements -/

/-- The byte of `INF` at which a row raises is the length at most: the bytes before it were there (45_unfilter.md R274, R282). -/
theorem row_error_index_le {s : State} {k : Nat} (hrow : s.rowBase < s.infLen)
    (hb : ∀ i, i < k → s.rowBase + 1 + i < s.infLen ∧ s.pixLen + i < s.pixCap) : s.rowBase + 1 + k ≤ s.infLen := by
  cases k with
  | zero => exact hrow
  | succ k => exact (hb k (Nat.lt_succ_self k)).1

/-- The code lengths of a block are at most 320 (42_block_decoder.md R139). -/
theorem total_le (s : State) : s.total ≤ 320 := by
  have h1 := s.hlit.isLt
  have h2 := s.hdist.isLt
  unfold State.total
  omega

theorem WidthsOk.of_elementEffect {f : Format} {s t : State} (hf : FetchedIn f s) (hs : Bounded s) (h : ElementEffect s f t) :
    WidthsOk t := by
  have hw := hs.widths
  obtain ⟨⟨-, hinfCap, hpixCap⟩, ⟨hin, hinf, hpix, -⟩, ⟨hbp, -, -⟩, -⟩ := id hw
  cases h
  case header | block => exact hw
  case trailer =>
    obtain ⟨hcap, hlen, -, hrest⟩ := hw
    have h2 : 2 < 2 ^ 32 := by decide
    exact ⟨hcap, hlen, ⟨h2, h2, (Nat.sub_le _ _).trans_lt hin⟩, hrest⟩
  case stored p _ _ hl h1 h2 =>
    have hle := le_alignUp s.pos
    exact (hw.setPos (hs.div_lt (p := p) (by omega))).withInfLen (lt_of_le_max_cap hl hinf hinfCap)
  case storedError e p _ _ h2 => exact (hw.setPos (hs.div_lt h2)).raise e .stored (hs.div_lt h2)
  case dynamic => exact hw.withNlens (Nat.two_pow_pos 9)
  case lengths r v h1 hr =>
    have hp : s.phase = .dynLengths := expected_some hf.expects
    have hcount := hs.count.1 hf.busy hp
    have htotal := total_le s
    exact hw.withNlens (by omega)
  case literal b hl => exact (hw.withSym (b.isLt.trans (by decide))).withInfLen (lt_of_le_capMax hl hinfCap)
  case literalError b _ => exact (hw.withSym (b.isLt.trans (by decide))).raise _ _ hbp
  case blockDone => exact hw.withSym (by decide)
  case length v n h1 h2 h3 h4 => exact (hw.withSym (v := v) (by omega)).withMlen (by omega)
  case symbolError v hv => exact (hw.withSym (v := v) (by omega)).raise _ _ hbp
  case copied v d _ hv _ hd _ _ _ hl =>
    exact ((hw.withDsym (v := v) (by omega)).withMdist (n := d) (by omega)).withInfLen (lt_of_le_max_cap hl hinf hinfCap)
  case matchError v d e hv hd _ => exact ((hw.withDsym (v := v) (by omega)).withMdist (n := d) (by omega)).raise e .matching hbp
  case distanceError v hv => exact (hw.withDsym (v := v) (by omega)).raise _ _ hbp
  case row hl _ _ | lastRow hl _ _ =>
    obtain ⟨-, hheight, -⟩ := hs.row.2 hf.busy (expected_some hf.expects)
    exact (hw.withPixLen (lt_of_le_max_cap hl hpix hpixCap)).withRow ((Nat.succ_le_of_lt hheight).trans_lt s.height.isLt)
  case rowError e k _ _ hb => exact hw.raise e .unfRow ((row_error_index_le (hf.row rfl) hb).trans_lt hinf)
  case filterError => exact hw.raise .filter .unfRow ((hf.row rfl).trans hinf)
  case blockReserved => exact hw.raise .btype .blockHeader hbp
  case dynamicError => exact hw.raise .codeLen .tableBuild hbp
  case lengthsError => exact hw.raise .codeLen .dynLengths hbp

/-! ## Phases -/

/-- A row of `WIDTH` pixels of at most 128 bytes (45_unfilter.md R271). -/
theorem cols_lt (w : Word) {n : Nat} (hn : n ≤ 128) : w.toNat * n < 2 ^ 40 :=
  calc w.toNat * n ≤ 2 ^ 32 * 128 := Nat.mul_le_mul w.isLt.le hn
    _ < 2 ^ 40 := by decide

theorem WidthsOk.latchGeometry {s : State} (h : WidthsOk s) {n : Nat} (hn : n ≤ 128) : WidthsOk (latchGeometry n s) := by
  obtain ⟨hcap, hlen, hcur, ⟨-, hblk⟩, -⟩ := h
  exact ⟨hcap, hlen, hcur, ⟨hn.trans_lt (by decide), hblk⟩, cols_lt s.width hn, Nat.two_pow_pos 32⟩

theorem WidthsOk.of_phaseEffect {s t : State} (hw : WidthsOk s) (h : PhaseEffect s t) : WidthsOk t := by
  obtain ⟨-, ⟨hin, -⟩, ⟨hbp, -, -⟩, -⟩ := id hw
  cases h
  case raw =>
    obtain ⟨hcap, hlen, -, hrest⟩ := hw
    exact ⟨hcap, hlen, ⟨Nat.two_pow_pos 32, Nat.two_pow_pos 32, hin⟩, hrest⟩
  case badLL | badD => exact hw.raise .codeLen .tableBuild hbp
  case badColor | badDepth => exact hw.raise _ _ (Nat.two_pow_pos 32)
  case noRows hn _ | rows hn _ => exact hw.latchGeometry hn
  case rest | built | nextBlock | toUnfilter | finished => exact hw

/-! ## Reads that stop -/

/-- The registers that a stopped fetch latches are those of one format (log entry 23): of a Huffman-coded one the symbol. -/
theorem latch_symbols (f : Format) (got : List Nat) (s : State) :
    ((latch f got s).sym = s.sym ∨ f = .ll ∧ (latch f got s).sym ∈ got) ∧
      ((latch f got s).dsym = s.dsym ∨ f = .d ∧ (latch f got s).dsym ∈ got) := by
  unfold latch
  split
  case h_5 => exact ⟨.inr ⟨rfl, List.mem_cons_self⟩, .inl rfl⟩
  case h_6 => exact ⟨.inl rfl, .inr ⟨rfl, List.mem_cons_self⟩⟩
  all_goals exact ⟨.inl rfl, .inl rfl⟩

/-- A symbol that a stopped fetch remembers is one of the table's, and so of the alphabet. -/
theorem symbol_lt_of_stop {s : State} (hT : TablesOk s) {f : Format} {p q : Nat} {e : ErrCode} {st : Stage} {got : List Nat}
    {get : Src} (hd : decode f (tableFor f s) get p = .stop e st q got) (hf : f = .ll ∨ f = .d) {v : Nat} (hv : v ∈ got) :
    v < alphabetOf f := by
  obtain ⟨-, -, -, -, -, -, hsyms⟩ := decode_stop hd
  obtain ⟨x, hx, rfl⟩ := hsyms hf v hv
  exact tableFor_symbolsBelow (symbolsOk_of_tablesOk hT) f x hx

theorem WidthsOk.latch {s : State} (h : WidthsOk s) (f : Format) (got : List Nat)
    (hll : f = .ll → ∀ v ∈ got, v < 2 ^ 9) (hd : f = .d → ∀ v ∈ got, v < 2 ^ 5) : WidthsOk (latch f got s) := by
  obtain ⟨-, -, -, ⟨-, -, hsym, -, hdsym, -⟩, -⟩ := id h
  obtain ⟨hs, hds⟩ := latch_symbols f got s
  have hsym' : (Machine.latch f got s).sym < 2 ^ 9 := by
    rcases hs with hs | ⟨hf, hm⟩
    · exact hs.trans_lt hsym
    · exact hll hf _ hm
  have hdsym' : (Machine.latch f got s).dsym < 2 ^ 5 := by
    rcases hds with hs | ⟨hf, hm⟩
    · exact hs.trans_lt hdsym
    · exact hd hf _ hm
  obtain ⟨_, _, _, _, _, _, _, hl⟩ := latch_eq f got s
  rw [hl] at hsym' hdsym' ⊢
  exact (h.withSym hsym').withDsym hdsym'

/-- A read stops at a byte of its source, or at the byte where that ends. -/
theorem stop_index_lt {s : State} (hs : Bounded s) {f : Format} {p : Nat} (hb : s.busy = true) (he : expected s = some f)
    (hp : p ≤ max (alignUp (startOf f s)) (limitFor f s)) : p / 8 < 2 ^ 32 := by
  obtain ⟨-, ⟨hin, hinf, -, -⟩, -, -⟩ := hs.widths
  cases f
  case zHdr | zTrl =>
    simp only [startOf, limitFor, alignUp] at hp
    omega
  case row =>
    obtain ⟨-, -, -, -, -, hbase⟩ := hs.row.2 hb (expected_some he)
    simp only [startOf, limitFor, alignUp_of_aligned] at hp
    omega
  case bh | st | dh | cl | ll | d => exact hs.div_lt hp

/-! ## Steps -/

theorem WidthsOk.of_coreEffect {s t : State} (hs : Bounded s) (h : CoreEffect s t) : WidthsOk t := by
  cases h with
  | idle => exact hs.widths
  | phase _ _ ht => exact of_phaseEffect hs.widths ht
  | short =>
    obtain ⟨-, -, ⟨hbp, -, -⟩, -⟩ := id hs.widths
    exact hs.widths.raise _ _ hbp
  | stop f e st p got hb he _ hd h1 h2 =>
    have hw := (advance_keeps hs (fun _ => hs.setPos) he h1 h2).widths
    have hll : f = .ll → ∀ v ∈ got, v < 2 ^ 9 := by
      rintro rfl v hv
      exact (symbol_lt_of_stop hs.tables hd (.inl rfl) hv).trans (by decide)
    have hds : f = .d → ∀ v ∈ got, v < 2 ^ 5 := by
      rintro rfl v hv
      exact symbol_lt_of_stop hs.tables hd (.inr rfl) hv
    exact (hw.latch f got hll hds).raise _ _ (stop_index_lt hs hb he h2)
  | element f i p _ hb he hl _ h1 h2 ht =>
    exact of_elementEffect (.of_element hb he hl h1 h2) (advance_keeps hs (fun _ => hs.setPos) he (by omega) h2) ht

theorem widthsOk_reset : WidthsOk State.reset := by decide

theorem WidthsOk.of_hostEffect {s t : State} (hw : WidthsOk s) (h : HostEffect s t) : WidthsOk t := by
  obtain ⟨hcap, ⟨hin, hinf, hpix, hpos⟩, hcur, hblk, hrow⟩ := id hw
  have h0 : 0 < 2 ^ 32 := Nat.two_pow_pos 32
  have hstart : (startClear s).infLen < 2 ^ 32 := by
    simp only [startClear]
    split_ifs
    · exact h0
    · exact hinf
  cases h
  case inLen hn => exact ⟨hcap, ⟨hn, hinf, hpix, hpos⟩, hcur, hblk, hrow⟩
  case infLen hn => exact hw.withInfLen hn
  case clear => exact ⟨hcap, ⟨hin, h0, h0, h0⟩, ⟨h0, h0, h0⟩, hblk, hrow⟩
  case startInflate | startUnfilter => exact ⟨hcap, ⟨hin, hstart, h0, h0⟩, ⟨h0, h0, h0⟩, hblk, hrow⟩
  case startError => exact ⟨hcap, ⟨hin, h0, h0, h0⟩, ⟨h0, h0, h0⟩, hblk, hrow⟩
  case reset => exact ⟨hcap, widthsOk_reset.2⟩
  case write sp _ _ _ _ => cases sp <;> exact hw
  case same | op | width | height | fmt | read => exact hw

end Sys2Proof.Machine

section

open Sys2Proof Sys2Proof.Machine

/-- Settles O60: what a step writes into a register is bounded by its window, its capacity, its alphabet or its image. -/
theorem stepKeepsWidths : Obligations.StepKeepsWidths := by
  unfold Obligations.StepKeepsWidths
  intro s t hcur hlen hcount htab hrow hw h
  have hs : Bounded s := ⟨hcur, hlen, hcount, htab, hrow, hw⟩
  rcases step_effect h with ⟨q, h⟩ | ⟨q, -, rfl⟩ | ⟨m, q, -, -, h⟩
  · exact WidthsOk.of_coreEffect (hs.withHost q) h
  · exact (hs.withHost q).widths
  · exact WidthsOk.of_hostEffect (hs.withHost q).widths h

end

/-! PROOF. What every step of the core leaves alone: the host's inputs (10_state.md R22, R33), the output already produced
(20_memory.md R47), the window, and the bits before the cursor (10_state.md R13, 40_bitreader.md R105). -/

namespace Sys2Proof.Machine

/-! ## The host's inputs -/

/-- What the host sets before a run, its moves to come, and what it has read, are in `t` as in `s` (20_memory.md R55). -/
def SameInputs (s t : State) : Prop :=
  (t.inMem = s.inMem ∧ t.inGen = s.inGen ∧ t.inLen = s.inLen ∧ t.op = s.op) ∧
  (t.width = s.width ∧ t.height = s.height ∧ t.bitDepth = s.bitDepth ∧ t.colorType = s.colorType) ∧
  (t.inCap = s.inCap ∧ t.infCap = s.infCap ∧ t.pixCap = s.pixCap) ∧
  t.host = s.host ∧ t.rdata = s.rdata ∧ t.freeCtr = s.freeCtr

theorem SameInputs.refl (s : State) : SameInputs s s :=
  ⟨⟨rfl, rfl, rfl, rfl⟩, ⟨rfl, rfl, rfl, rfl⟩, ⟨rfl, rfl, rfl⟩, rfl, rfl, rfl⟩

/-- No element has one of the host's registers, or a byte of `IN`, among its results. -/
theorem SameInputs.of_elementEffect {f : Format} {s u t : State} (hs : SameInputs s u) (h : ElementEffect u f t) :
    SameInputs s t := by
  cases h <;> exact hs

theorem SameInputs.of_phaseEffect {s u t : State} (hs : SameInputs s u) (h : PhaseEffect u t) : SameInputs s t := by
  cases h <;> exact hs

theorem CoreEffect.sameInputs {s t : State} (h : CoreEffect s t) : SameInputs s t :=
  have hs := SameInputs.refl s
  h.keeps hs (fun _ _ => hs) (fun _ _ _ _ _ _ _ _ hu => hu) (fun _ _ _ _ _ hu => hu) (fun _ => hs.of_phaseEffect)
    fun _ _ _ hu => hu.of_elementEffect

/-! ## The output -/

/-- The bytes of `INF` and of `PIX` below their lengths in `s` are in `t` as in `s` (20_memory.md R47). -/
def Extends (s t : State) : Prop :=
  s.infLen ≤ t.infLen ∧ s.pixLen ≤ t.pixLen ∧
  (∀ a, a < s.infLen → t.infByte a = s.infByte a) ∧ (∀ a, a < s.pixLen → t.pixByte a = s.pixByte a)

theorem Extends.refl (s : State) : Extends s s := ⟨le_rfl, le_rfl, fun _ _ => rfl, fun _ _ => rfl⟩

theorem Extends.trans {s u t : State} (h : Extends s u) (h' : Extends u t) : Extends s t := by
  obtain ⟨hinf, hpix, hib, hpb⟩ := h
  obtain ⟨hinf', hpix', hib', hpb'⟩ := h'
  exact ⟨hinf.trans hinf', hpix.trans hpix', fun a ha => (hib' a (ha.trans_le hinf)).trans (hib a ha),
    fun a ha => (hpb' a (ha.trans_le hpix)).trans (hpb a ha)⟩

theorem Memory.byte_congr {sp : Space} {g : Nat} {m n : Memory} {a : Nat} (h : Memory.read m a = Memory.read n a) :
    Memory.byte sp g m a = Memory.byte sp g n a := by
  simp only [Memory.byte, h]

/-- An element appends to `INF` or to `PIX`, or raises. -/
theorem ElementEffect.raises_or_extends {f : Format} {s t : State} (h : ElementEffect s f t) : t.err = true ∨ Extends s t := by
  cases h
  case stored hm _ _ _ =>
    exact .inr ⟨Nat.le_add_right _ _, le_rfl, fun a ha => Memory.byte_congr (hm a ha), fun _ _ => rfl⟩
  case literal =>
    exact .inr ⟨Nat.le_succ _, le_rfl, fun a ha => Memory.byte_write_other _ _ _ _ ha.ne, fun _ _ => rfl⟩
  case copied hm _ =>
    exact .inr ⟨Nat.le_add_right _ _, le_rfl, fun a ha => Memory.byte_congr (hm a ha), fun _ _ => rfl⟩
  case row hm _ _ _ | lastRow hm _ _ _ =>
    exact .inr ⟨le_rfl, Nat.le_add_right _ _, fun _ _ => rfl, fun a ha => Memory.byte_congr (hm a ha)⟩
  case header | trailer | block | dynamic | lengths | blockDone | length => exact .inr (Extends.refl s)
  all_goals exact .inl rfl

theorem ElementEffect.err_of_err {f : Format} {s t : State} (h : ElementEffect s f t) (he : s.err = true) : t.err = true := by
  cases h
  case blockReserved | storedError | dynamicError | lengthsError | literalError | symbolError | matchError | distanceError |
    rowError | filterError => rfl
  all_goals exact he

theorem PhaseEffect.raises_or_extends {s t : State} (h : PhaseEffect s t) : t.err = true ∨ Extends s t := by
  cases h
  case badLL | badD | badColor | badDepth => exact .inl rfl
  all_goals exact .inr (Extends.refl s)

theorem CoreEffect.raises_or_extends {s t : State} (h : CoreEffect s t) : t.err = true ∨ Extends s t :=
  have hs : s.err = true ∨ Extends s s := .inr (.refl s)
  h.keeps (P := fun u => u.err = true ∨ Extends s u) hs (fun _ _ => hs) (fun _ _ _ _ _ _ _ _ hu => hu)
    (fun _ _ _ _ _ _ => .inl rfl) (fun _ => PhaseEffect.raises_or_extends) fun _ _ _ hu ht =>
      hu.elim (fun he => .inl (ht.err_of_err he)) fun hx => ht.raises_or_extends.imp_right hx.trans

/-! ## The cursor -/

/-- The cursor of `t` is not before that of `s`, and the window is the same. -/
def MovesForward (s t : State) : Prop := s.pos ≤ t.pos ∧ t.winLo = s.winLo ∧ t.winEnd = s.winEnd

theorem MovesForward.refl (s : State) : MovesForward s s := ⟨le_rfl, rfl, rfl⟩

/-- Only the trailer of an envelope sets the cursor and the window (44_inflate_engine.md R248). -/
theorem ElementEffect.movesForward {f : Format} {s t : State} (h : ElementEffect s f t) (hf : f ≠ .zTrl) : MovesForward s t := by
  have hread {p : Nat} (hp : s.pos ≤ p) : MovesForward s (s.setPos p) := ⟨(pos_setPos s p).symm ▸ hp, rfl, rfl⟩
  cases h
  case trailer => exact absurd rfl hf
  case stored h1 _ => exact hread h1
  case storedError h1 _ => exact hread h1
  all_goals exact .refl s

/-- The phases whose steps decode the bits of a block (70_reset_and_hazards.md R356). -/
def Phase.decodesBits (p : Phase) : Bool := decide (p ∈ [Phase.blockHeader, .stored, .dynHeader, .dynLengths, .symbol])

/-- Only the raw window sets the cursor and the window; a phase without an element decodes no bits. -/
theorem PhaseEffect.movesForward {s t : State} (h : PhaseEffect s t) (hp : s.phase ≠ .envelope) :
    MovesForward s t ∧ s.phase.decodesBits = false := by
  have hs := MovesForward.refl s
  cases h
  case raw he _ => exact absurd he hp
  case rest he => exact ⟨hs, by rcases he with he | he | he <;> rw [he] <;> rfl⟩
  all_goals exact ⟨hs, by simp [*, Phase.decodesBits]⟩

/-- Outside the envelope a format is read from the window, or it is a row, which is no bits of a block. -/
theorem inWindow_or_row {s : State} {f : Format} (he : expected s = some f) (hp : s.phase ≠ .envelope) :
    f.inWindow = true ∨ f = .row ∧ s.phase.decodesBits = false := by
  cases f
  case zHdr | zTrl => exact absurd (expected_some he).1 hp
  case row =>
    have hrow : s.phase = .unfRow := expected_some he
    exact .inr ⟨rfl, hrow ▸ rfl⟩
  case bh | st | dh | cl | ll | d => exact .inl rfl

theorem CoreEffect.movesForward {s t : State} (h : CoreEffect s t) (hp : s.phase ≠ .envelope) :
    MovesForward s t ∧ (s.busy = true → s.phase.decodesBits = true → s.pos < t.pos ∨ t.phase = .error) := by
  cases h with
  | idle hi => exact ⟨.refl s, fun hb => by simp [hi] at hb⟩
  | phase _ _ ht =>
    obtain ⟨hm, hd⟩ := ht.movesForward hp
    exact ⟨hm, fun _ hd' => by simp [hd] at hd'⟩
  | short _ he _ => exact absurd (expected_some he).1 hp
  | stop f e st p got _ he _ _ h1 _ =>
    obtain ⟨_, _, _, _, _, _, _, hl⟩ := latch_eq f got (advance f p s)
    refine ⟨?_, fun _ _ => .inr rfl⟩
    rw [hl]
    rcases inWindow_or_row he hp with hf | ⟨rfl, -⟩
    · rw [advance_of_inWindow hf]
      rw [startOf_of_inWindow hf] at h1
      exact ⟨(pos_setPos s p).symm ▸ h1, rfl, rfl⟩
    · exact .refl s
  | element f i p _ _ he _ _ h1 _ ht =>
    rcases inWindow_or_row he hp with hf | ⟨rfl, hd⟩
    · rw [advance_of_inWindow hf] at ht
      rw [startOf_of_inWindow hf] at h1
      obtain ⟨hpos, hlo, hend⟩ := ht.movesForward (by rintro rfl; simp [Format.inWindow] at hf)
      rw [pos_setPos] at hpos
      exact ⟨⟨by omega, hlo, hend⟩, fun _ _ => .inl (by omega)⟩
    · exact ⟨ht.movesForward (by decide), fun _ hd' => by simp [hd] at hd'⟩

end Sys2Proof.Machine

section

open Sys2Proof Sys2Proof.Machine

/-- Settles O47: no element and no phase of the core has an input of the host among its results. -/
theorem coreLeavesHostInputs : Obligations.CoreLeavesHostInputs := by
  unfold Obligations.CoreLeavesHostInputs
  intro s t hh h
  rw [step_of_no_host hh] at h
  obtain ⟨hin, hgeo, hcap, hhost, hread, hctr⟩ := (coreStep_effect h).sameInputs
  exact ⟨hin, hgeo, hcap, hhost.trans hh, hread, hctr⟩

/-- Settles O48: a step that does not raise appends to the output or leaves it alone. -/
theorem outputIsAppendOnly : Obligations.OutputIsAppendOnly := by
  unfold Obligations.OutputIsAppendOnly
  intro s t hh _ h ht
  rw [step_of_no_host hh] at h
  exact (coreStep_effect h).raises_or_extends.resolve_left (by simp [ht])

/-- Settles O49: a read of the window ends at least one bit on, and no element moves the cursor back. -/
theorem cursorMovesForward : Obligations.CursorMovesForward := by
  unfold Obligations.CursorMovesForward
  intro s t hh hp h
  rw [step_of_no_host hh] at h
  obtain ⟨⟨hpos, hlo, hend⟩, hbits⟩ := (coreStep_effect h).movesForward hp
  exact ⟨hpos, hlo, hend, fun hb hm => hbits hb (decide_eq_true hm)⟩

end

/-! PROOF. Every error is a raise site of 60_exceptions.md R302, with the position that R302 and 10_state.md R20 give it. A step that
raises is the error entry on some state; what is said of it is gathered in `RaisesAsTabled`, and shown once for the raises of the
blocks, the configuration and the command, the rows, and the envelope. -/

namespace Sys2Proof.Machine

/-! ## What R302 says of a raise -/

/-- In a step from `s`, raising `e` at stage `st` and position `k` in the state `u` is as R302 lists it. -/
structure RaisesAsTabled (s u : State) (e : ErrCode) (st : Stage) (k : Nat) : Prop where
  pair : errorPair e st = true
  cursor : 2 ≤ stageValue st → stageValue st ≤ 9 → k = u.bp
  envelope : e = .bounds → st = .envelope → k = 0
  window : e = .bounds → st ∈ [Stage.blockHeader, .stored, .dynHeader, .dynLengths, .symbol, .matching] →
    u.bp = s.winEnd ∧ u.bb = 0 ∧ u.winEnd = s.winEnd
  empty : e = .emptyTable → u.bp = s.bp ∧ u.bb = s.bb
  outside : st = .cmd ∨ st = .unfCfg → k = 0
  row : st = .unfRow → (e = .bounds → k = s.infLen) ∧ (e = .filter → k = s.row * (s.cols + 1)) ∧
    (e = .overflow → k = s.row * (s.cols + 1) + 1 + (s.pixCap - s.pixLen))

/-- The step to `t` raised, and as R302 lists it. -/
def ErrorTabled (s t : State) : Prop := ∃ e st k u, t = raise e st k u ∧ RaisesAsTabled s u e st k

section

variable {s u : State} {e : ErrCode} {st : Stage}

/-- A raise in the blocks, at the byte cursor. -/
theorem RaisesAsTabled.at_cursor (hp : errorPair e st = true) (hst : st ∉ [Stage.cmd, .envelope, .unfCfg, .unfRow])
    (hb : e = .bounds → u.bp = s.winEnd ∧ u.bb = 0 ∧ u.winEnd = s.winEnd) (he : e = .emptyTable → u.bp = s.bp ∧ u.bb = s.bb) :
    RaisesAsTabled s u e st u.bp := by
  simp only [List.mem_cons, List.not_mem_nil, or_false, not_or] at hst
  obtain ⟨hcmd, henv, hcfg, hrow⟩ := hst
  exact ⟨hp, fun _ _ => rfl, fun _ h => absurd h henv, fun h _ => hb h, he, fun h => absurd h (not_or.2 ⟨hcmd, hcfg⟩),
    fun h => absurd h hrow⟩

/-- A raise of the command or of the configuration. -/
theorem RaisesAsTabled.at_zero (hp : errorPair e st = true) (hst : st = .cmd ∨ st = .unfCfg) : RaisesAsTabled s u e st 0 := by
  rcases hst with rfl | rfl
  · have he : e = .cmd := by cases e <;> simp [errorPair] at hp; rfl
    subst he
    exact ⟨hp, by simp [stageValue], nofun, nofun, nofun, fun _ => rfl, nofun⟩
  · have he : e ≠ .bounds ∧ e ≠ .emptyTable := by constructor <;> rintro rfl <;> simp [errorPair] at hp
    exact ⟨hp, by simp [stageValue], fun h => absurd h he.1, fun h => absurd h he.1, fun h => absurd h he.2, fun _ => rfl, nofun⟩

/-- A raise in a row, at an index of `INF`. -/
theorem RaisesAsTabled.in_row {k : Nat} (hp : errorPair e .unfRow = true) (hb : e = .bounds → k = s.infLen)
    (hf : e = .filter → k = s.row * (s.cols + 1))
    (ho : e = .overflow → k = s.row * (s.cols + 1) + 1 + (s.pixCap - s.pixLen)) : RaisesAsTabled s u e .unfRow k := by
  have he : e ≠ .emptyTable := by rintro rfl; simp [errorPair] at hp
  exact ⟨hp, by simp [stageValue], nofun, by simp, fun h => absurd h he, by simp, fun _ => ⟨hb, hf, ho⟩⟩

/-- A raise of an element is as R302 lists it also seen from before the fetch: only an empty table's position would differ. -/
theorem RaisesAsTabled.of_advance {f : Format} {p k : Nat} (h : RaisesAsTabled (advance f p s) u e st k) (he : e ≠ .emptyTable) :
    RaisesAsTabled s u e st k := by
  have hempty : e = .emptyTable → u.bp = s.bp ∧ u.bb = s.bb := fun h => absurd h he
  cases f <;> exact ⟨h.pair, h.cursor, h.envelope, h.window, hempty, h.outside, h.row⟩

end

/-! ## Where a read of the window stops -/

theorem setPos_pos (s : State) : s.setPos s.pos = s := by
  have hlt := s.bb.isLt
  have hbp : s.pos / 8 = s.bp := by unfold State.pos; omega
  have hbb : BitVec.ofNat 3 s.pos = s.bb := BitVec.eq_of_toNat_eq (by simp [State.pos]; omega)
  rw [State.setPos, hbp, hbb]

/-- With the cursor in its window, a read can only run out at the window's end. -/
theorem setPos_at_windowEnd {s : State} (hc : CursorOk s) {p : Nat} (h1 : s.winEnd ≤ p / 8)
    (h2 : p ≤ max (alignUp s.pos) (8 * s.winEnd)) : (s.setPos p).bp = s.winEnd ∧ (s.setPos p).bb = 0 := by
  have ha := hc.alignUp_pos_le
  exact ⟨by rw [State.setPos_bp]; omega, bb_setPos_of_aligned (by omega)⟩

/-! ## The envelope's bytes are there -/

theorem readByte_inputSrc (st : Stage) (s : State) {limit k : Nat} (h : k < limit) :
    readByte st (inputSrc s limit) (8 * k) = .ok (s.inByte k).toNat (8 * (k + 1)) := by
  rw [readByte, alignUp_of_aligned]
  refine readBits_field st (by simpa using (s.inByte k).isLt) fun j hj => ?_
  rw [inputSrc, show (8 * k + j) / 8 = k by omega, show (8 * k + j) % 8 = j by omega, if_pos h]
  rfl

/-- Two bytes for the header, and the last four of six for the trailer (44_inflate_engine.md R248). -/
theorem envelope_decodes {f : Format} {s : State} (hf : f = .zHdr ∨ f = .zTrl) (hl : 6 ≤ s.inLen) :
    ∃ i p, decode f (tableFor f s) (sourceFor f s) (startOf f s) = .ok i p := by
  have hbyte (k : Nat) (h : k < s.inLen) := readByte_inputSrc .envelope s h
  rcases hf with rfl | rfl
  · have h0 := hbyte 0 (by omega)
    have h1 := hbyte 1 (by omega)
    exact ⟨_, _, by simp only [decode, sourceFor, startOf, readZHdr, h0, h1, Read.field]; rfl⟩
  · obtain ⟨m, hm⟩ : ∃ m, s.inLen = m + 4 := ⟨s.inLen - 4, by omega⟩
    have h0 := hbyte m (by omega)
    have h1 := hbyte (m + 1) (by omega)
    have h2 := hbyte (m + 2) (by omega)
    have h3 := hbyte (m + 3) (by omega)
    rw [hm] at h0 h1 h2 h3
    exact ⟨_, _, by simp only [decode, sourceFor, startOf, hm, Nat.add_sub_cancel, readZTrl, h0, h1, h2, h3, Read.field]; rfl⟩

/-! ## Elements -/

/-- An element leaves `ERR` as it is, or raises as R302 lists it. -/
theorem ElementEffect.err_or_tabled {f : Format} {s t : State} (hf : FetchedIn f s) (hc : CursorOk s) (h : ElementEffect s f t) :
    t.err = s.err ∨ ∃ e st k u, t = raise e st k u ∧ e ≠ .emptyTable ∧ RaisesAsTabled s u e st k := by
  have cursor {e : ErrCode} {st : Stage} (u : State) (hp : errorPair e st = true)
      (hst : st ∉ [Stage.cmd, .envelope, .unfCfg, .unfRow]) (hb : e ≠ .bounds) (he : e ≠ .emptyTable) :
      RaisesAsTabled s u e st u.bp :=
    .at_cursor hp hst (fun h => absurd h hb) fun h => absurd h he
  cases h
  case blockReserved | dynamicError | lengthsError | literalError | symbolError | distanceError =>
    exact .inr ⟨_, _, _, _, rfl, nofun, cursor _ rfl (by decide) nofun nofun⟩
  case matchError he =>
    rcases he with rfl | rfl
    · exact .inr ⟨_, _, _, _, rfl, nofun, cursor _ rfl (by decide) nofun nofun⟩
    · exact .inr ⟨_, _, _, _, rfl, nofun, cursor _ rfl (by decide) nofun nofun⟩
  case storedError he h1 h2 =>
    rcases he with ⟨rfl, hend⟩ | rfl
    · obtain ⟨hbp, hbb⟩ := setPos_at_windowEnd hc hend h2
      exact .inr ⟨_, _, _, _, rfl, nofun, .at_cursor rfl (by decide) (fun _ => ⟨hbp, hbb, rfl⟩) nofun⟩
    · exact .inr ⟨_, _, _, _, rfl, nofun, cursor _ rfl (by decide) nofun nofun⟩
  case rowError k _ he hb =>
    have hrow := row_error_index_le (hf.row rfl) hb
    rcases he with ⟨rfl, hend⟩ | ⟨rfl, hfull⟩
    · exact .inr ⟨_, _, _, _, rfl, nofun, .in_row rfl (fun _ => by omega) nofun nofun⟩
    · have hroom : k = s.pixCap - s.pixLen := by
        cases k with
        | zero => omega
        | succ k => have := (hb k (Nat.lt_succ_self k)).2; omega
      exact .inr ⟨_, _, _, _, rfl, nofun, .in_row rfl nofun nofun fun _ => by rw [← hroom, State.rowBase]⟩
  case filterError => exact .inr ⟨_, _, _, _, rfl, nofun, .in_row rfl nofun (fun _ => rfl) nofun⟩
  all_goals exact .inl rfl

/-! ## Reads that stop -/

theorem bp_latch (f : Format) (got : List Nat) (s : State) :
    (latch f got s).bp = s.bp ∧ (latch f got s).bb = s.bb ∧ (latch f got s).winEnd = s.winEnd := by
  obtain ⟨_, _, _, _, _, _, _, hl⟩ := latch_eq f got s
  rw [hl]
  exact ⟨rfl, rfl, rfl⟩

theorem stop_tabled {s : State} {f : Format} {e : ErrCode} {st : Stage} {p : Nat} {got : List Nat} (hc : CursorOk s)
    (hr : RowOk s) (hb : s.busy = true) (he : expected s = some f) (hl : ¬ (f = .zHdr ∧ s.inLen < 6))
    (hd : decode f (tableFor f s) (sourceFor f s) (startOf f s) = .stop e st p got)
    (h2 : p ≤ max (alignUp (startOf f s)) (limitFor f s)) :
    RaisesAsTabled s (latch f got (advance f p s)) e st (p / 8) := by
  obtain ⟨hpair, hcmd, hcfg, henv, hrow, hrowb, -⟩ := decode_stop hd
  have hat := decode_stop_at hd
  obtain ⟨hbp, hbb, hwin⟩ := bp_latch f got (advance f p s)
  have henvelope (hf : f = .zHdr ∨ f = .zTrl) (h6 : 6 ≤ s.inLen) : False := by
    obtain ⟨i, q, hok⟩ := envelope_decodes hf h6
    rw [hd] at hok
    cases hok
  cases hf : f.inWindow with
  | true =>
    rw [startOf_of_inWindow hf, sourceFor_of_inWindow hf] at hat
    rw [startOf_of_inWindow hf, limitFor_of_inWindow hf] at h2
    rw [advance_of_inWindow hf] at hbp hbb hwin ⊢
    have hst : st ∉ [Stage.cmd, .envelope, .unfCfg, .unfRow] := by
      have hz : ¬ (f = .zHdr ∨ f = .zTrl) := by rintro (rfl | rfl) <;> simp [Format.inWindow] at hf
      have hro : f ≠ .row := by rintro rfl; simp [Format.inWindow] at hf
      simp [hcmd, hcfg, henv, hrow, hz, hro]
    have hk : p / 8 = (latch f got (s.setPos p)).bp := hbp.symm
    rw [hk]
    refine .at_cursor hpair hst (fun hbounds => ?_) fun hempty => ?_
    · obtain ⟨-, hnone⟩ : e = .bounds ∧ windowSrc s p = none := by simpa [hbounds] using hat
      obtain ⟨hbp', hbb'⟩ := setPos_at_windowEnd hc ((windowSrc_none s p).1 hnone) h2
      exact ⟨hbp.trans hbp', hbb.trans hbb', hwin⟩
    · obtain rfl : p = s.pos := by simpa [hempty] using hat
      rw [setPos_pos] at hbp hbb ⊢
      exact ⟨hbp, hbb⟩
  | false =>
    cases f
    case zHdr => exact (henvelope (.inl rfl) (Nat.le_of_not_lt fun h => hl ⟨rfl, h⟩)).elim
    case zTrl =>
      obtain ⟨-, -, hseen⟩ := expected_some he
      exact (henvelope (.inr rfl) ((hc.2.2.2.1 hb).2.2 hseen)).elim
    case row =>
      obtain rfl := hrow.2 rfl
      obtain rfl := hrowb rfl
      obtain ⟨-, -, -, -, -, hbase⟩ := hr.2 hb (expected_some he)
      obtain ⟨-, hnone⟩ : ErrCode.bounds = .bounds ∧ infSrc s p = none := by simpa [sourceFor] using hat
      have hend := (infSrc_none s p).1 hnone
      simp only [startOf, limitFor, alignUp_of_aligned] at h2
      exact .in_row rfl (fun _ => by omega) nofun nofun
    case bh | st | dh | cl | ll | d => simp [Format.inWindow] at hf

/-! ## Steps -/

theorem PhaseEffect.err_or_tabled {s t : State} (h : PhaseEffect s t) : t.err = s.err ∨ ErrorTabled s t := by
  cases h
  case badLL | badD => exact .inr ⟨_, _, _, _, rfl, .at_cursor rfl (by decide) nofun nofun⟩
  case badColor | badDepth => exact .inr ⟨_, _, _, _, rfl, .at_zero rfl (.inr rfl)⟩
  all_goals exact .inl rfl

theorem CoreEffect.err_or_tabled {s t : State} (hc : CursorOk s) (hr : RowOk s) (h : CoreEffect s t) :
    t.err = s.err ∨ ErrorTabled s t := by
  cases h with
  | idle => exact .inl rfl
  | phase _ _ ht => exact ht.err_or_tabled
  | short hb he _ =>
    obtain ⟨hbp, -⟩ := hc.2.2.2.2 hb (expected_some he).1
    exact .inr ⟨_, _, _, _, rfl, rfl, fun _ _ => rfl, fun _ _ => hbp, by simp, nofun, by simp, nofun⟩
  | stop f e st p got hb he hl hd _ h2 => exact .inr ⟨_, _, _, _, rfl, stop_tabled hc hr hb he hl hd h2⟩
  | element f i p _ hb he hl _ h1 h2 ht =>
    have hadv : CursorOk (advance f p s) := advance_keeps hc (fun _ => hc.setPos) he (by omega) h2
    rcases ht.err_or_tabled (.of_element hb he hl h1 h2) hadv with herr | ⟨e, st, k, u, rfl, hne, htab⟩
    · exact .inl (herr.trans (by cases f <;> rfl))
    · exact .inr ⟨e, st, k, u, rfl, htab.of_advance hne⟩

theorem HostEffect.err_or_tabled {s t : State} (h : HostEffect s t) : t.err = s.err ∨ t.err = false ∨ ErrorTabled s t := by
  cases h
  case startError => exact .inr (.inr ⟨_, _, _, _, rfl, .at_zero rfl (.inl rfl)⟩)
  case clear | startInflate | startUnfilter | reset => exact .inr (.inl rfl)
  case write sp _ _ _ _ => cases sp <;> exact .inl rfl
  all_goals exact .inl rfl

/-- What R302 says of a raise does not depend on the host's moves to come. -/
theorem ErrorTabled.of_withHost {s t : State} {q : List HostMove} (h : ErrorTabled { s with host := q } t) : ErrorTabled s t := by
  obtain ⟨e, st, k, u, rfl, htab⟩ := h
  exact ⟨e, st, k, u, rfl, htab.pair, htab.cursor, htab.envelope, htab.window, htab.empty, htab.outside, htab.row⟩

/-- A step into an error is a raise that R302 lists. -/
theorem step_error_tabled {s t : State} (hc : CursorOk s) (hr : RowOk s) (hs : s.err = false) (h : step s = .next t)
    (ht : t.err = true) : ErrorTabled s t := by
  have hne : t.err ≠ s.err := by simp [hs, ht]
  rcases step_effect h with ⟨q, h⟩ | ⟨q, -, rfl⟩ | ⟨m, q, -, -, h⟩
  · exact .of_withHost ((CoreEffect.err_or_tabled (s := { s with host := q }) hc hr h).resolve_left hne)
  · exact absurd rfl hne
  · exact .of_withHost ((h.err_or_tabled.resolve_left hne).resolve_left (by simp [ht]))

end Sys2Proof.Machine

section

open Sys2Proof Sys2Proof.Machine

/-- Settles O36: a step into an error is an error entry at one of the raise sites, and at the position that belongs to it. -/
theorem errorsAreThoseOfTheTable : Obligations.ErrorsAreThoseOfTheTable := by
  unfold Obligations.ErrorsAreThoseOfTheTable
  intro s t hc hr hs h ht
  obtain ⟨e, st, k, u, rfl, htab⟩ := step_error_tabled hc hr hs h ht
  exact ⟨e, rfl, htab.pair, htab.cursor, htab.envelope, htab.window, htab.empty, htab.outside, htab.row⟩

end

/-! PROOF. The host's side: what it reads of each register and what its writes leave (10_state.md R15 to R25), its accesses to the
memories (20_memory.md R52), START and CLEAR (10_state.md R17), and the reset values (10_state.md R36). -/

namespace Sys2Proof

/-! ## Words made of fields -/

theorem toNat_zero_append {m n : Nat} (x : BitVec n) : ((0 : BitVec m) ++ x).toNat = x.toNat := by
  rw [BitVec.toNat_append, ← Nat.shiftLeft_add_eq_or_of_lt x.isLt]
  simp

theorem toNat_append_eq_add {m n : Nat} (x : BitVec m) (y : BitVec n) : (x ++ y).toNat = x.toNat * 2 ^ n + y.toNat := by
  rw [BitVec.toNat_append, ← Nat.shiftLeft_add_eq_or_of_lt y.isLt, Nat.shiftLeft_eq]

/-- A register of three bits as it is read (10_state.md R12, R16). -/
theorem setWidth_three (x : BitVec 3) : x.setWidth 32 = (0 : BitVec 29) ++ x := by
  have hx := x.isLt
  apply BitVec.eq_of_toNat_eq
  rw [BitVec.toNat_setWidth, toNat_zero_append]
  omega

/-- A register of two bytes as it is read, the first in bits [7:0] (10_state.md R19, R23, R25). -/
theorem ofNat_two_bytes (hi lo : Byte) : BitVec.ofNat 32 (lo.toNat + 256 * hi.toNat) = (0 : BitVec 16) ++ hi ++ lo := by
  have hh := hi.isLt
  have hl := lo.isLt
  apply BitVec.eq_of_toNat_eq
  rw [BitVec.toNat_ofNat, toNat_append_eq_add, toNat_zero_append]
  omega

/-- The value of one field of a word. -/
theorem extractLsb'_eq_of_toNat {w : Word} {i n : Nat} {x : BitVec n} (h : w.toNat / 2 ^ i % 2 ^ n = x.toNat) :
    w.extractLsb' i n = x := by
  apply BitVec.eq_of_toNat_eq
  rw [BitVec.extractLsb'_toNat, Nat.shiftRight_eq_div_pow, h]

theorem and_mask_toNat (v : Word) {m : Word} {k : Nat} (h : m.toNat = 2 ^ k - 1) : (v &&& m).toNat = v.toNat % 2 ^ k := by
  rw [BitVec.toNat_and, h, Nat.and_two_pow_sub_one_eq_mod]

end Sys2Proof

namespace Sys2Proof.Machine

/-! ## Reads and writes of registers, while not busy and while busy -/

theorem hostRead_idle {s : State} (hb : s.busy = false) (r : HostReg) : hostRead r s = { s with rdata := regValue r s } := by
  simp [hostRead, hb]

theorem hostMove_readReg_idle {s : State} (hb : s.busy = false) (r : HostReg) :
    hostMove (.readReg r) s = .next { s with rdata := regValue r s } := by
  rw [hostMove, hostRead_idle hb]

/-- A write of `CTRL` alone can start a run. -/
theorem busy_hostWrite {r : HostReg} (hr : r ≠ .ctrl) (v : Word) (s : State) : (hostWrite r v s).busy = s.busy := by
  unfold hostWrite
  split_ifs
  · rfl
  · cases r
    case ctrl => exact absurd rfl hr
    all_goals rfl

/-- The registers that the host may write, but for `CTRL`, with the bits that are not reserved (10_state.md R15). -/
def writableRegs : List (HostReg × Word) :=
  [(.cmd, 7), (.inLen, 0xFFFFFFFF), (.infLen, 0xFFFFFFFF), (.width, 0xFFFFFFFF), (.height, 0xFFFFFFFF), (.fmt, 0xFFFF)]

theorem ne_ctrl_of_writable {r : HostReg} {m : Word} (h : (r, m) ∈ writableRegs) : r ≠ .ctrl := by
  rintro rfl
  simp [writableRegs] at h

theorem regValue_cmd_hostWrite {s : State} (hb : s.busy = false) (v : Word) : regValue .cmd (hostWrite .cmd v s) = v &&& 7 := by
  apply BitVec.eq_of_toNat_eq
  rw [and_mask_toNat v (k := 3) rfl]
  simp [hostWrite, hb, regValue]
  omega

theorem regValue_fmt_hostWrite {s : State} (hb : s.busy = false) (v : Word) :
    regValue .fmt (hostWrite .fmt v s) = v &&& 0xFFFF := by
  apply BitVec.eq_of_toNat_eq
  rw [and_mask_toNat v (k := 16) rfl]
  simp [hostWrite, hb, regValue, fmtWord, Nat.shiftRight_eq_div_pow]
  omega

theorem regValue_hostWrite_self {s : State} (hb : s.busy = false) {r : HostReg} {m : Word} (h : (r, m) ∈ writableRegs) (v : Word) :
    regValue r (hostWrite r v s) = v &&& m := by
  have hall : v &&& 0xFFFFFFFF = v := BitVec.and_allOnes
  have hlen : BitVec.ofNat 32 v.toNat = v := by simp
  simp only [writableRegs, List.mem_cons, Prod.mk.injEq, List.not_mem_nil, or_false] at h
  rcases h with ⟨rfl, rfl⟩ | ⟨rfl, rfl⟩ | ⟨rfl, rfl⟩ | ⟨rfl, rfl⟩ | ⟨rfl, rfl⟩ | ⟨rfl, rfl⟩
  · exact regValue_cmd_hostWrite hb v
  · simp only [hostWrite, hb, regValue, hall]; exact hlen
  · simp only [hostWrite, hb, regValue, hall]; exact hlen
  · simp only [hostWrite, hb, regValue, hall]; rfl
  · simp only [hostWrite, hb, regValue, hall]; rfl
  · exact regValue_fmt_hostWrite hb v

/-- A write of one register changes none of the others. -/
theorem regValue_hostWrite_other {r r' : HostReg} (hr : r ≠ .ctrl) (hne : r' ≠ r) (v : Word) (s : State) :
    regValue r' (hostWrite r v s) = regValue r' s := by
  unfold hostWrite
  split_ifs
  · rfl
  · cases r
    case ctrl => exact absurd rfl hr
    case cmd => cases r' with | cmd => exact absurd rfl hne | _ => rfl
    case inLen => cases r' with | inLen => exact absurd rfl hne | _ => rfl
    case infLen => cases r' with | infLen => exact absurd rfl hne | _ => rfl
    case width => cases r' with | width => exact absurd rfl hne | _ => rfl
    case height => cases r' with | height => exact absurd rfl hne | _ => rfl
    case fmt => cases r' with | fmt => exact absurd rfl hne | _ => rfl
    case status | err | errPos | curBp | curBb | pixLen | bpp | zhdr | zadler => rfl

/-! ## `STATUS` -/

/-- A word with three status bits in [2:0], the phase in [11:8], and nothing else (10_state.md R18). -/
def StatusShape (w : Word) (b : BitVec 3) (p : BitVec 4) : Prop := w.toNat = b.toNat + 256 * p.toNat

section

variable {w : Word} {b : BitVec 3} {p : BitVec 4}

theorem StatusShape.getLsbD (h : StatusShape w b p) {i : Nat} (hi : i < 3) : w.getLsbD i = b.getLsbD i := by
  have hlow : w.extractLsb' 0 3 = b := extractLsb'_eq_of_toNat (by rw [h]; have := b.isLt; omega)
  rw [← hlow, BitVec.getLsbD_extractLsb']
  simp [hi]

theorem StatusShape.reserved (h : StatusShape w b p) : w.extractLsb' 3 5 = 0 ∧ w.extractLsb' 12 20 = 0 := by
  have hb := b.isLt
  have hp := p.isLt
  exact ⟨extractLsb'_eq_of_toNat (by rw [h]; simp; omega), extractLsb'_eq_of_toNat (by rw [h]; simp; omega)⟩

theorem StatusShape.phase (h : StatusShape w b p) : w.extractLsb' 8 4 = p :=
  extractLsb'_eq_of_toNat (by rw [h]; have := b.isLt; have := p.isLt; omega)

end

theorem statusBits_getLsbD (s : State) : (BitVec.ofNat 3 (statusBits s)).getLsbD 0 = s.busy ∧
    (BitVec.ofNat 3 (statusBits s)).getLsbD 1 = s.done ∧ (BitVec.ofNat 3 (statusBits s)).getLsbD 2 = s.err := by
  unfold statusBits
  cases s.busy <;> cases s.done <;> cases s.err <;> decide

theorem statusBits_lt (s : State) : statusBits s < 8 := by
  have h1 := s.busy.toNat_le
  have h2 := s.done.toNat_le
  have h3 := s.err.toNat_le
  unfold statusBits
  omega

theorem phase_code_lt (p : Phase) : p.code < 16 := by cases p <;> decide

theorem statusWord_shape (s : State) : StatusShape (statusWord s) (BitVec.ofNat 3 (statusBits s)) (BitVec.ofNat 4 s.phase.code) := by
  have hs := statusBits_lt s
  have hp := phase_code_lt s.phase
  simp only [StatusShape, statusWord, BitVec.toNat_ofNat]
  omega

theorem busyStatus_shape (free : Word) (s : State) :
    StatusShape (busyStatus free s) (BitVec.ofNat 3 (statusBits s)) (free.extractLsb' 8 4) := by
  simp only [StatusShape, busyStatus, toNat_append_eq_add, BitVec.ofNat_eq_ofNat, BitVec.toNat_zero]
  omega

/-- `STATUS`, busy or not, has its shape; its phase is the state's while not busy. -/
theorem hostRead_status (s : State) : ∃ w n p, hostRead .status s = { s with rdata := w, freeCtr := n } ∧
    StatusShape w (BitVec.ofNat 3 (statusBits s)) p ∧ (s.busy = false → p = BitVec.ofNat 4 s.phase.code) := by
  by_cases hb : s.busy = true
  · exact ⟨_, _, _, if_pos hb, busyStatus_shape (Config.freeWord s.freeCtr) s, fun hb' => by simp [hb] at hb'⟩
  · exact ⟨_, s.freeCtr, _, if_neg hb, statusWord_shape s, fun _ => rfl⟩

/-! ## The registers while not busy -/

/-- The value of `ERR.CODE`, 0 where there is no error (10_state.md R19). -/
def codeNumber : Option ErrCode → Nat
  | some e => errCodeValue e
  | none => 0

theorem errWord_eq (s : State) :
    errWord s = (0 : BitVec 16) ++ BitVec.ofNat 8 (stageValue s.errStage) ++ BitVec.ofNat 8 (codeNumber s.errCode) := by
  have hc : codeNumber s.errCode < 256 := by
    cases s.errCode with
    | none => decide
    | some e => cases e <;> decide
  have hst : stageValue s.errStage < 256 := by cases s.errStage <;> decide
  have hword : errWord s = BitVec.ofNat 32 (codeNumber s.errCode + 256 * stageValue s.errStage) := by
    unfold errWord codeNumber
    cases s.errCode <;> rfl
  rw [hword, ← ofNat_two_bytes, BitVec.toNat_ofNat, BitVec.toNat_ofNat, Nat.mod_eq_of_lt hc, Nat.mod_eq_of_lt hst]

/-- The numbers of the phases (10_state.md R34). -/
def phaseNumbers : List (Phase × BitVec 4) :=
  [(.idle, 0), (.envelope, 1), (.blockHeader, 2), (.stored, 3), (.dynHeader, 4), (.dynLengths, 5), (.dynBuild, 6), (.symbol, 7),
    (.blockEnd, 8), (.unfCfg, 9), (.unfRow, 10), (.done, 11), (.error, 12)]

/-- The numbers of the error codes, 0 for none (60_exceptions.md R300). -/
def codeNumbers : List (Option ErrCode × BitVec 8) :=
  [(none, 0), (some .bounds, 1), (some .btype, 2), (some .emptyTable, 3), (some .noLeaf, 4), (some .symbol, 5),
    (some .codeLen, 6), (some .dist, 7), (some .filter, 8), (some .color, 9), (some .overflow, 10), (some .geom, 11),
    (some .cmd, 12)]

/-- The numbers of the stages (60_exceptions.md R301). -/
def stageNumbers : List (Stage × BitVec 8) :=
  [(.none, 0), (.cmd, 1), (.envelope, 2), (.blockHeader, 3), (.stored, 4), (.dynHeader, 5), (.dynLengths, 6), (.tableBuild, 7),
    (.symbol, 8), (.matching, 9), (.unfCfg, 10), (.unfRow, 11)]

theorem phase_number : ∀ x ∈ phaseNumbers, BitVec.ofNat 4 x.1.code = x.2 := by decide

theorem code_number : ∀ x ∈ codeNumbers, BitVec.ofNat 8 (codeNumber x.1) = x.2 := by decide

theorem stage_number : ∀ x ∈ stageNumbers, BitVec.ofNat 8 (stageValue x.1) = x.2 := by decide

/-- The registers but `CTRL`, `STATUS` and `ERR`, with the fields they are read from (10_state.md R15 to R25). -/
def registerFields (s : State) : List (HostReg × Word) :=
  [(.errPos, BitVec.ofNat 32 s.errPos), (.curBp, BitVec.ofNat 32 s.bp), (.curBb, (0 : BitVec 29) ++ s.bb),
    (.inLen, BitVec.ofNat 32 s.inLen), (.infLen, BitVec.ofNat 32 s.infLen), (.pixLen, BitVec.ofNat 32 s.pixLen),
    (.bpp, BitVec.ofNat 32 s.bpp), (.zhdr, (0 : BitVec 16) ++ s.flg ++ s.cmf), (.zadler, s.adler),
    (.cmd, (0 : BitVec 29) ++ s.op), (.width, s.width), (.height, s.height),
    (.fmt, (0 : BitVec 16) ++ s.colorType ++ s.bitDepth)]

theorem regValue_of_field (s : State) : ∀ x ∈ registerFields s, regValue x.1 s = x.2 := by
  have hbb : regValue .curBb s = (0 : BitVec 29) ++ s.bb := setWidth_three s.bb
  have hop : regValue .cmd s = (0 : BitVec 29) ++ s.op := setWidth_three s.op
  have hzhdr : regValue .zhdr s = (0 : BitVec 16) ++ s.flg ++ s.cmf := ofNat_two_bytes s.flg s.cmf
  have hfmt : regValue .fmt s = (0 : BitVec 16) ++ s.colorType ++ s.bitDepth := ofNat_two_bytes s.colorType s.bitDepth
  simp only [registerFields, List.forall_mem_cons]
  exact ⟨rfl, rfl, hbb, rfl, rfl, rfl, rfl, hzhdr, rfl, hop, rfl, rfl, hfmt, nofun⟩

/-! ## START and CLEAR -/

theorem hostWrite_ctrl {s : State} (hb : s.busy = false) (v : Word) : hostWrite .ctrl v s = writeCtrl v s := by
  simp [hostWrite, hb]

theorem inflates_iff (s : State) : s.inflates = true ↔ s.op = 1 ∨ s.op = 2 ∨ s.op = 4 := by
  simp [State.inflates, or_assoc]

/-- START makes the core busy only with an operation it has, in that operation's first phase (44_inflate_engine.md R242). -/
theorem start_begins {s : State} (hb : (start s).busy = true) :
    (s.op = 1 ∨ s.op = 2 ∨ s.op = 3 ∨ s.op = 4) ∧ (start s).phase = if s.op = 3 then .unfCfg else .envelope := by
  rcases start_cases s with ⟨hi, -, hr⟩ | ⟨ho, -, hr⟩ | hr <;> rw [hr] at hb ⊢
  · have hne : s.op ≠ 3 := fun h => by simp [inflates_of_op_three h] at hi
    have hop := (inflates_iff s).1 hi
    exact ⟨by tauto, (if_neg hne).symm⟩
  · exact ⟨by simp [ho], (if_pos ho).symm⟩
  · simp at hb

/-- A write of `CTRL` that makes the core busy is a START. -/
theorem writeCtrl_begins {s : State} {v : Word} (hs : s.busy = false) (hb : (writeCtrl v s).busy = true) :
    v.getLsbD 0 = true ∧ v.getLsbD 1 = false ∧ writeCtrl v s = start s := by
  unfold writeCtrl at hb ⊢
  split_ifs at hb ⊢ with hclear hstart
  · simp [hs] at hb
  · exact ⟨hstart, by simpa using hclear, rfl⟩
  · simp [hs] at hb

/-- A move of the host that makes the core busy is a write of `CTRL`. -/
theorem hostMove_begins {s t : State} {m : HostMove} (hs : s.busy = false) (h : hostMove m s = .next t) (hb : t.busy = true) :
    ∃ v, m = .writeReg .ctrl v ∧ t = writeCtrl v s := by
  have hne : t.busy ≠ s.busy := by simp [hs, hb]
  have hread (r : HostReg) : (hostRead r s).busy = s.busy := by rw [hostRead_idle hs]
  have hmem (sp : Space) (a : Nat) : (hostReadMem sp a s).busy = s.busy := by
    unfold hostReadMem
    split_ifs <;> rfl
  cases m <;> simp only [hostMove] at h
  case writeReg r v =>
    cases h
    by_cases hr : r = .ctrl
    · subst hr
      exact ⟨v, rfl, hostWrite_ctrl hs v⟩
    · exact absurd (busy_hostWrite hr v s) hne
  case readReg r => cases h; exact absurd (hread r) hne
  case writeMem sp a v =>
    split_ifs at h
    cases h
    cases sp <;> exact absurd rfl hne
  case readMem sp a =>
    split_ifs at h
    cases h
    exact absurd (hmem sp a) hne
  case rst => cases h; simp at hb
  case pass | wait => cases h; exact absurd rfl hne

/-- The core does not make itself busy. -/
theorem coreStep_idle {s : State} (hb : s.busy = false) : coreStep s = .next s := by
  simp [coreStep, hb]

/-! ## Reset -/

/-- What power-on and `rst` have in common: the reset state, but for what is the machine's, the host's, and the generations of the
memories (70_reset_and_hazards.md R340, R341). -/
theorem reset_shape {s t : State} (h : t = State.reset ∨ hostMove .rst s = .next t) : ∃ a b c d e f g q w, t = { State.reset with
    inCap := a, infCap := b, pixCap := c, inGen := d, infGen := e, pixGen := f, freeCtr := g, host := q, rdata := w } := by
  rcases h with rfl | h
  · exact ⟨_, _, _, _, _, _, _, _, _, rfl⟩
  · cases h
    exact ⟨_, _, _, _, _, _, _, _, _, rfl⟩

end Sys2Proof.Machine

section

open Sys2Proof Sys2Proof.Machine

/-- Settles O38: an idle core rests, and of the host's moves only a START leaves it busy. -/
theorem onlyStartBeginsARun : Obligations.OnlyStartBeginsARun := by
  unfold Obligations.OnlyStartBeginsARun
  intro s t hs h hb
  have hne : t.busy ≠ s.busy := by simp [hs, hb]
  rcases step_cases s with ⟨-, hr⟩ | ⟨q, -, hr⟩ | ⟨q, -, hi, -⟩ | ⟨q, -, -, hr⟩ | ⟨m, q, hh, -, -, hr⟩
  · rw [hr, coreStep_idle hs] at h
    cases h; exact absurd rfl hne
  · rw [hr, coreStep_idle (s := { s with host := q }) hs] at h
    cases h; exact absurd rfl hne
  · simp [hs] at hi
  · rw [hr] at h
    cases h; exact absurd rfl hne
  · rw [hr] at h
    obtain ⟨v, rfl, rfl⟩ := hostMove_begins (s := { s with host := q }) hs h hb
    obtain ⟨h0, h1, hstart⟩ := writeCtrl_begins (s := { s with host := q }) hs hb
    rw [hstart] at hb ⊢
    obtain ⟨hop, hphase⟩ := start_begins hb
    exact ⟨v, q, hh, h0, h1, hop, hphase⟩

/-- Settles O43: a write latches its bits in the fields that the register is read from, and in no others. -/
theorem registersReadBack : Obligations.RegistersReadBack := by
  unfold Obligations.RegistersReadBack
  intro v s hb r m hr
  have hctrl := ne_ctrl_of_writable hr
  have hb' : (hostWrite r v s).busy = false := (busy_hostWrite hctrl v s).trans hb
  refine ⟨?_, fun r' hne => ?_⟩
  · rw [hostRead_idle hb']
    exact regValue_hostWrite_self hb hr v
  · rw [hostRead_idle hb', hostRead_idle hb]
    exact regValue_hostWrite_other hctrl hne v s

/-- Settles O44: `STATUS` is a word of its three bits and the phase, and every other register is read from its own fields. -/
theorem statusReads : Obligations.StatusReads := by
  unfold Obligations.StatusReads
  refine ⟨fun s t h => ?_, fun s hb => ⟨fun e c hc st n hn he hst => ?_, fun r v hr => ?_⟩⟩
  · obtain ⟨w, n, p, hread, hw, hp⟩ := hostRead_status s
    rw [hostMove, hread] at h
    cases h
    obtain ⟨hbusy, hdone, herr⟩ := statusBits_getLsbD s
    refine ⟨⟨?_, ?_, ?_⟩, hw.reserved, fun hb q k hk hq => ?_, rfl⟩
    · exact (hw.getLsbD (by decide)).trans hbusy
    · exact (hw.getLsbD (by decide)).trans hdone
    · exact (hw.getLsbD (by decide)).trans herr
    · rw [hw.phase, hp hb, hq]
      exact phase_number (q, k) hk
  · rw [hostMove_readReg_idle hb, regValue, errWord_eq, he, hst, code_number (e, c) hc, stage_number (st, n) hn]
  · rw [hostMove_readReg_idle hb, regValue_of_field s (r, v) hr]

/-- Settles O45: a byte written is read back from its own space, and the length decides whether the host sees it. -/
theorem hostMemoryReadBack : Obligations.HostMemoryReadBack := by
  unfold Obligations.HostMemoryReadBack
  intro sp a v s hb ha
  have hself : (s.writeByte sp a v).byte sp a = v := byte_writeByte_self s sp a v
  have hcap : (s.writeByte sp a v).cap sp = s.cap sp := by cases sp <;> rfl
  have hlen : (s.writeByte sp a v).len sp = s.len sp := by cases sp <;> rfl
  have hbusy : (s.writeByte sp a v).busy = false := by cases sp <;> exact hb
  refine ⟨s.writeByte sp a v, ?_, by cases sp <;> rfl, hself, fun q b h => ?_, fun hl => ?_⟩
  · rw [hostMove, if_neg (by omega), if_neg (by simp [hb])]
  · exact byte_writeByte_other s sp q a b v (by tauto)
  · rw [hostMove, hcap, if_neg (by omega), hostReadMem, if_neg (by simp [hbusy, hlen]; omega), hself]

/-- Settles O39: CLEAR is looked at first, then START. -/
theorem controlWrites : Obligations.ControlWrites := by
  unfold Obligations.ControlWrites
  intro v s
  have hwrite (hb : s.busy = false) : hostMove (.writeReg .ctrl v) s = .next (writeCtrl v s) := by
    rw [hostMove, hostWrite_ctrl hb]
  refine ⟨fun hb hclear => ?_, fun hb hclear hstart => ?_, fun hb hclear hstart => ?_, fun hb => ?_, fun hb => ?_⟩
  · rw [hwrite hb, writeCtrl, if_pos hclear]
  · rw [hwrite hb, writeCtrl, if_neg (ne_true_of_eq_false hclear), if_pos hstart]
  · rw [hwrite hb, writeCtrl, if_neg (ne_true_of_eq_false hclear), if_neg (ne_true_of_eq_false hstart)]
  · rw [hostMove, hostWrite_busy _ _ hb]
  · exact hostMove_readReg_idle hb .ctrl

/-- Settles O42: a busy core ignores every write, and a read-only register has no write. -/
theorem hostWritesIgnored : Obligations.HostWritesIgnored := by
  unfold Obligations.HostWritesIgnored
  intro r v s h
  have hignored : hostWrite r v s = s := by
    rcases h with hb | hr
    · exact hostWrite_busy r v hb
    · unfold hostWrite
      split_ifs
      · rfl
      · cases r
        case cmd | ctrl | inLen | infLen | width | height | fmt => simp at hr
        all_goals rfl
  rw [hostMove, hignored]

/-- Settles O46: both resets are the reset state in everything that a register shows. -/
theorem resetValues : Obligations.ResetValues := by
  unfold Obligations.ResetValues
  intro s t h
  obtain ⟨a, b, c, d, e, f, g, q, w, rfl⟩ := reset_shape h
  exact ⟨fun r => by cases r <;> rfl, ⟨rfl, rfl, rfl, rfl, rfl, rfl, rfl⟩, ⟨rfl, rfl, rfl⟩, rfl, coreStep_idle rfl⟩

/-- Settles O52: at reset every register is 0, every table is empty and nothing is listed in a memory. -/
theorem resetMeetsInvariants : Obligations.ResetMeetsInvariants := by
  unfold Obligations.ResetMeetsInvariants
  exact ⟨reset_memories, by decide, by decide, by decide, by decide, ⟨.nil _, .nil _, .nil _⟩, by decide, widthsOk_reset⟩

end

/-! PROOF. The encoder's bits read back (30_encoding.md R71 to R85): in a table in which no code begins another, a walk of the bits of a
code returns its symbol, and the fields after it are read one by one. The fixed codes are those of R81. -/

namespace Sys2Proof

/-! ## The bits of a code -/

theorem Entry.getElem?_bits (e : Entry) {k : Nat} (hk : k < e.len) : e.bits[k]? = some (e.code.testBit (e.len - 1 - k)) := by
  rw [Entry.bits, bitsMSB, List.getElem?_reverse (by rwa [bitsLSB_length]), bitsLSB_length]
  simp only [bitsLSB, List.getElem?_map, List.getElem?_range (by omega : e.len - 1 - k < e.len), Option.map_some]

theorem Entry.bits_length (e : Entry) : e.bits.length = e.len := by
  rw [Entry.bits, bitsMSB, List.length_reverse, bitsLSB_length]

/-- The number that the first `k` bits of a code make, most significant bit first (41_huffman.md R118). -/
def Entry.start (e : Entry) (k : Nat) : Nat := e.code / 2 ^ (e.len - k)

theorem Entry.start_zero {e : Entry} (h : e.code < 2 ^ e.len) : e.start 0 = 0 := Nat.div_eq_of_lt h

theorem Entry.start_succ (e : Entry) {k : Nat} (hk : k < e.len) :
    e.start (k + 1) = 2 * e.start k + (e.code.testBit (e.len - 1 - k)).toNat := by
  obtain ⟨m, hm⟩ : ∃ m, e.len = k + 1 + m := ⟨e.len - (k + 1), by omega⟩
  rw [Nat.toNat_testBit, Entry.start, Entry.start, show e.len - (k + 1) = m by omega, show e.len - k = m + 1 by omega,
    show e.len - 1 - k = m by omega, pow_succ, ← Nat.div_div_eq_div_mul]
  omega

/-- A symbol's code is that of a triple of the table. -/
theorem codeBits_some {T : Table} {v : Nat} {bits : List Bool} (h : codeBits T v = some bits) :
    ∃ e ∈ T, e.sym = v ∧ bits = e.bits := by
  obtain ⟨e, he, rfl⟩ := Option.map_eq_some_iff.1 h
  exact ⟨e, List.mem_of_find?_eq_some he, by simpa using List.find?_some he, rfl⟩

/-- An element of a Huffman-coded format is written as its code, then its extra bits (30_encoding.md R76, R78, R79). -/
theorem encode_of_code {T : Table} {p : Nat} {i : Instr} (v : Nat) {code : List Bool} (hf : i.format ∈ [Format.cl, .ll, .d])
    (hv : i.selector = v) (hc : codeBits T v = some code) : encode T p i = some (code ++ i.operandBits) := by
  subst hv
  simp only [List.mem_cons, List.not_mem_nil, or_false] at hf
  rcases hf with hf | hf | hf <;> simp only [encode, hf, hc, Option.map_some]

/-! ## The fields of a format without a code -/

theorem operandBits_length {i : Instr} :
    match i.format with
    | .bh => i.operandBits.length = 1
    | .zHdr => i.operandBits.length = 16
    | .st | .zTrl => i.operandBits.length = 32
    | .dh | .cl | .ll | .d | .row => True := by
  cases i <;> simp [Instr.format, Instr.operandBits, bitsLSB_length]

/-- A list of bits, as a source, holds these bits where it begins. -/
theorem Holds.of_srcOf (bits : List Bool) (p : Nat) : Holds (srcOf bits p) p bits := by
  intro k _
  rw [srcOf, if_neg (by omega), Nat.add_sub_cancel_left]

/-- The padding before a byte ends at the next byte boundary (40_bitreader.md R103). -/
theorem Holds.of_padding {get : Src} {p : Nat} {bits : List Bool} (h : Holds get p (List.replicate (alignUp p - p) false ++ bits)) :
    Holds get (alignUp p) bits := by
  have hp := (Laws.Holds_append h).2
  rwa [List.length_replicate, Nat.add_sub_cancel' (le_alignUp p)] at hp

theorem length_padding_append (p : Nat) (bits : List Bool) :
    p + (List.replicate (alignUp p - p) false ++ bits).length = alignUp p + bits.length := by
  have := le_alignUp p
  rw [List.length_append, List.length_replicate]
  omega

/-- Each element is read back from its selecting value and its fields. -/
theorem Laws.Selector.all : (i : Instr) → Selector.Statement i
  | .blkStored b => blkStored b | .blkFixed b => blkFixed b | .blkDyn b => blkDyn b | .blkRsvd b => blkRsvd b
  | .stBody a b => stBody a b | .dynHdr a b c l => dynHdr a b c l
  | .clLen v => clLen v | .clRep x => clRep x | .clZ3 x => clZ3 x | .clZ11 x => clZ11 x
  | .lit b => lit b | .eob => eob
  | .len257 => len257 | .len258 => len258 | .len259 => len259 | .len260 => len260 | .len261 => len261 | .len262 => len262
  | .len263 => len263 | .len264 => len264 | .len265 x => len265 x | .len266 x => len266 x | .len267 x => len267 x
  | .len268 x => len268 x | .len269 x => len269 x | .len270 x => len270 x | .len271 x => len271 x | .len272 x => len272 x
  | .len273 x => len273 x | .len274 x => len274 x | .len275 x => len275 x | .len276 x => len276 x | .len277 x => len277 x
  | .len278 x => len278 x | .len279 x => len279 x | .len280 x => len280 x | .len281 x => len281 x | .len282 x => len282 x
  | .len283 x => len283 x | .len284 x => len284 x | .len285 => len285 | .llIll k => llIll k
  | .dist0 => dist0 | .dist1 => dist1 | .dist2 => dist2 | .dist3 => dist3 | .dist4 x => dist4 x | .dist5 x => dist5 x
  | .dist6 x => dist6 x | .dist7 x => dist7 x | .dist8 x => dist8 x | .dist9 x => dist9 x | .dist10 x => dist10 x
  | .dist11 x => dist11 x | .dist12 x => dist12 x | .dist13 x => dist13 x | .dist14 x => dist14 x | .dist15 x => dist15 x
  | .dist16 x => dist16 x | .dist17 x => dist17 x | .dist18 x => dist18 x | .dist19 x => dist19 x | .dist20 x => dist20 x
  | .dist21 x => dist21 x | .dist22 x => dist22 x | .dist23 x => dist23 x | .dist24 x => dist24 x | .dist25 x => dist25 x
  | .dist26 x => dist26 x | .dist27 x => dist27 x | .dist28 x => dist28 x | .dist29 x => dist29 x | .dIll k => dIll k
  | .ftNone => ftNone | .ftSub => ftSub | .ftUp => ftUp | .ftAvg => ftAvg | .ftPaeth => ftPaeth | .ftIll v => ftIll v
  | .zHdr a b => zHdr a b | .zTrl a => zTrl a

end Sys2Proof

namespace Sys2Proof.Machine

/-! ## The walk of a code -/

theorem codesClash_symm {e f : Entry} (h : codesClash e f) : codesClash f e := Or.symm h

/-- Two triples of a table, one of whose codes begins with the other, are one triple. -/
theorem TableOk.eq_of_codesClash {n : Nat} {T : Table} (hT : TableOk n T) {e f : Entry} (he : e ∈ T) (hf : f ∈ T)
    (h : codesClash e f) : e = f := by
  have hsymm : Std.Symm fun e f => ¬ codesClash e f := ⟨fun _ _ hxy hyx => hxy (codesClash_symm hyx)⟩
  by_contra hne
  exact hT.2.forall he hf hne h

/-- From `k` bits of a triple's code on, the loop of the walk follows the rest of the code and returns the symbol: no shorter code
ends on the way. -/
theorem TableOk.walkFrom_code {n : Nat} {T : Table} (hT : TableOk n T) {e : Entry} (he : e ∈ T) (st : Stage) {get : Src} {p : Nat}
    (h : Holds get p e.bits) {fuel k : Nat} (hk : k < e.len) (hfuel : e.len ≤ k + fuel) :
    walkFrom st T get fuel (e.start k) k (p + k) = .ok e.sym (p + e.len) := by
  induction fuel generalizing k with
  | zero => omega
  | succ fuel ih =>
    have hbit : get (p + k) = some (e.code.testBit (e.len - 1 - k)) :=
      (h k (by rwa [e.bits_length])).trans (e.getElem?_bits hk)
    rw [walkFrom, readBit_some st hbit]
    simp only [Read.bind, ← e.start_succ hk]
    cases hleaf : leafAt T (e.start (k + 1)) (k + 1) with
    | some f =>
      obtain ⟨hf, hlen, hcode⟩ := leafAt_spec hleaf
      have hclash : codesClash f e := .inl ⟨by omega, by rw [hcode, hlen, Entry.start]⟩
      obtain rfl := hT.eq_of_codesClash hf he hclash
      simp only [hlen, Nat.add_assoc]
    | none =>
      have hlong : k + 1 < e.len := by
        by_contra hle
        have hend : e.len = k + 1 := by omega
        have hself := List.find?_eq_none.1 hleaf e he
        simp [Entry.start, hend] at hself
      have hinner : innerAt T (e.start (k + 1)) (k + 1) = true :=
        List.any_eq_true.2 ⟨e, he, by simp [Entry.start, hlong]⟩
      simpa only [hinner, if_true, Nat.add_assoc] using ih hlong (by omega)

/-- A walk of the bits of a code returns its symbol and ends after them (41_huffman.md R118). -/
theorem TableOk.walk_code {n : Nat} {T : Table} (hT : TableOk n T) {e : Entry} (he : e ∈ T) (st : Stage) {get : Src} {p : Nat}
    (h : Holds get p e.bits) : walk st T get p = .ok e.sym (p + e.len) := by
  obtain ⟨h1, h15, hcode, -⟩ := hT.1 e he
  have hne : T.isEmpty = false := by simpa using List.ne_nil_of_mem he
  have hwalk := hT.walkFrom_code he st h (fuel := maxBits) (k := 0) (by omega) (by simp only [maxBits]; omega)
  rw [Entry.start_zero hcode] at hwalk
  rwa [walk, hne, if_neg Bool.false_ne_true]

/-- An element of a Huffman-coded format: the walk returns its selecting value, and what reads the rest gives the element. -/
theorem TableOk.field_of_encoded {n : Nat} {T : Table} (hT : TableOk n T) {i : Instr} (st : Stage) {get : Src} {p : Nat}
    {bits : List Bool} (hbits : (codeBits T i.selector).map (· ++ i.operandBits) = some bits) (h : Holds get p bits)
    {k : Nat → Nat → Read Instr}
    (hk : ∀ q, Holds get q i.operandBits → k i.selector q = .ok i (q + i.operandBits.length)) :
    (walk st T get p).field k = .ok i (p + bits.length) := by
  obtain ⟨code, hcode, rfl⟩ := Option.map_eq_some_iff.1 hbits
  obtain ⟨e, he, hsym, rfl⟩ := codeBits_some hcode
  obtain ⟨hc, ho⟩ := Laws.Holds_append h
  refine Read.field_ok.2 ⟨_, _, hT.walk_code he st hc, ?_⟩
  rw [hsym, List.length_append, ← Nat.add_assoc, e.bits_length]
  exact hk _ (by rwa [e.bits_length] at ho)

/-- Decoding what the encoder wrote, format by format. -/
theorem decode_encode {n : Nat} {T : Table} {i : Instr} {p : Nat} {bits : List Bool} {get : Src} (hT : TableOk n T)
    (hw : i.wf = true) (hbits : encode T p i = some bits) (h : Holds get p bits) :
    decode i.format T get p = .ok i (p + bits.length) := by
  have hread := Laws.Selector.all i hw get
  have hlen := operandBits_length (i := i)
  unfold encode at hbits
  cases hf : i.format with
  | zHdr | st | zTrl =>
    simp only [hf] at hread hbits hlen
    cases hbits
    rw [length_padding_append, hlen]
    exact hread p h.of_padding
  | row =>
    simp only [hf] at hread hbits
    cases hbits
    rw [length_padding_append, bitsLSB_length]
    exact hread p h.of_padding
  | bh =>
    simp only [hf] at hread hbits hlen
    cases hbits
    rw [List.length_append, hlen, bitsLSB_length]
    exact hread p h
  | dh =>
    simp only [hf] at hread hbits
    cases hbits
    exact hread p h
  | cl | ll | d =>
    simp only [hf] at hread hbits
    exact hT.field_of_encoded _ hbits h hread

end Sys2Proof.Machine

section

open Sys2Proof Sys2Proof.Machine

/-- Settles O1: a walk returns the symbol whose code the encoder wrote, and each element's fields are read back as written. -/
theorem decodeEncodeRoundTrip : Obligations.DecodeEncodeRoundTrip := by
  unfold Obligations.DecodeEncodeRoundTrip
  intro n T i p bits get hT hw hbits h
  exact decode_encode hT hw hbits h

end

namespace Sys2Proof

/-! ## The codes of a built table -/

theorem assignCodes_has {lengths : List Nat} {k len : Nat} (hk : lengths[k]? = some len) (h0 : len ≠ 0) (sym : Nat)
    (next : List Nat) : ∃ e ∈ assignCodes lengths sym next, e.sym = sym + k := by
  induction lengths generalizing sym next k with
  | nil => simp at hk
  | cons l rest ih =>
    rw [assignCodes]
    cases k with
    | zero =>
      obtain rfl : l = len := by simpa using hk
      exact ⟨_, by rw [if_neg h0]; exact List.mem_cons_self, rfl⟩
    | succ k =>
      have hrest (next : List Nat) : ∃ e ∈ assignCodes rest (sym + 1) next, e.sym = sym + (k + 1) := by
        obtain ⟨e, he, hsym⟩ := ih (by simpa using hk) (sym + 1) next
        exact ⟨e, he, by omega⟩
      split_ifs
      · exact hrest _
      · obtain ⟨e, he, hsym⟩ := hrest (next.set l (next.getD l 0 + 1))
        exact ⟨e, List.mem_cons_of_mem _ he, hsym⟩

/-- The code of a symbol with a length: the first code of that length plus the earlier symbols of that length (41_huffman.md R112). -/
theorem codeBits_of_build {lengths : List Nat} {T : Table} (hl : ∀ l ∈ lengths, l ≤ 15) (h : build lengths = some T) {v len : Nat}
    (hv : lengths[v]? = some len) (h0 : len ≠ 0) :
    codeBits T v = some (bitsMSB len (firstCode lengths len + (lengths.take v).count len)) := by
  have hT : T = assignCodes lengths 0 (startCodes lengths) := by
    unfold build at h
    split_ifs at h
    exact (Option.some.inj h).symm
  cases hfind : T.find? fun e => e.sym == v with
  | none =>
    obtain ⟨e, he, hsym⟩ := assignCodes_has hv h0 0 (startCodes lengths)
    exact absurd (List.find?_eq_none.1 hfind e (hT ▸ he)) (by simp [hsym])
  | some e =>
    obtain rfl : e.sym = v := by simpa using List.find?_some hfind
    have hassign := build_assignedAt hl h (List.mem_of_find?_eq_some hfind)
    obtain rfl : e.len = len := Option.some.inj (hassign.len_eq.symm.trans hv)
    rw [codeBits, hfind, Option.map_some, hassign.code_eq, firstCode]

/-- A symbol beyond the alphabet has no code. -/
theorem codeBits_of_symbolsBelow {T : Table} {n v : Nat} (hT : SymbolsBelow n T) (hv : n ≤ v) : codeBits T v = none := by
  rw [codeBits, Option.map_eq_none_iff, List.find?_eq_none]
  intro e he
  have := hT e he
  simp only [beq_iff_eq]
  omega

/-! ## The fixed tables -/

theorem fixLLLengths_le : ∀ l ∈ fixLLLengths, l ≤ 15 := by
  simp only [fixLLLengths, List.mem_append, List.mem_replicate]
  omega

theorem fixDLengths_le : ∀ l ∈ fixDLengths, l ≤ 15 := by
  simp only [fixDLengths, List.mem_replicate]
  omega

/-- How many of the first `v` fixed literal/length symbols have a length (30_encoding.md R80). -/
theorem count_take_fixLLLengths (v len : Nat) : (fixLLLengths.take v).count len =
    (if len = 8 then min v 144 + min (v - 280) 8 else 0) + (if len = 9 then min (v - 144) 112 else 0) +
      (if len = 7 then min (v - 256) 24 else 0) := by
  simp only [fixLLLengths, List.take_append, List.take_replicate, List.length_append, List.length_replicate, List.count_append,
    List.count_replicate, beq_iff_eq, Nat.reduceAdd, eq_comm (b := len)]
  split_ifs <;> omega

theorem blCount_fixLLLengths (len : Nat) :
    blCount fixLLLengths len = if len = 7 then 24 else if len = 8 then 152 else if len = 9 then 112 else 0 := by
  have h := count_take_fixLLLengths fixLLLengths.length len
  rw [List.take_length, fixLLLengths_length] at h
  rw [blCount, h]
  split_ifs <;> omega

theorem blCount_fixDLengths (len : Nat) : blCount fixDLengths len = if len = 5 then 32 else 0 := by
  simp only [blCount, fixDLengths, List.count_replicate, beq_iff_eq]
  split_ifs <;> omega

/-- The first codes of the fixed literal/length lengths: 24 codes of length 7, then 152 of length 8, then 112 of length 9. -/
theorem startCodes_fixLLLengths :
    startCodes fixLLLengths = [0, 0, 0, 0, 0, 0, 0, 0, 48, 400, 1024, 2048, 4096, 8192, 16384, 32768] := by
  simp only [startCodes, startCodesFrom, blCount_fixLLLengths]
  rfl

theorem startCodes_fixDLengths :
    startCodes fixDLengths = [0, 0, 0, 0, 0, 0, 64, 128, 256, 512, 1024, 2048, 4096, 8192, 16384, 32768] := by
  simp only [startCodes, startCodesFrom, blCount_fixDLengths]
  rfl

theorem build_fixLLLengths : build fixLLLengths = some fixLL := by
  have hfit : lengthsFit fixLLLengths = true := by
    simp only [lengthsFit, startCodes_fixLLLengths, blCount_fixLLLengths]
    decide
  rw [fixLL, build, if_pos hfit, Option.getD_some]

theorem build_fixDLengths : build fixDLengths = some fixD := by
  have hfit : lengthsFit fixDLengths = true := by
    simp only [lengthsFit, startCodes_fixDLengths, blCount_fixDLengths]
    decide
  rw [fixD, build, if_pos hfit, Option.getD_some]

theorem getElem?_fixLLLengths (v : Nat) : fixLLLengths[v]? =
    if v < 144 then some 8 else if v < 256 then some 9 else if v < 280 then some 7 else if v < 288 then some 8 else none := by
  simp only [fixLLLengths, List.getElem?_append, List.length_append, List.length_replicate, List.getElem?_replicate]
  grind

/-- The code of a literal/length symbol of a length, counted from the first code of that length. -/
theorem codeBits_fixLL {v len c : Nat} (hlen : fixLLLengths[v]? = some len) (h0 : len ≠ 0)
    (hc : firstCode fixLLLengths len + (fixLLLengths.take v).count len = c) : codeBits fixLL v = some (bitsMSB len c) := by
  rw [codeBits_of_build fixLLLengths_le build_fixLLLengths hlen h0, hc]

theorem firstCode_fixLLLengths :
    firstCode fixLLLengths 7 = 0 ∧ firstCode fixLLLengths 8 = 48 ∧ firstCode fixLLLengths 9 = 400 := by
  simp only [firstCode, startCodes_fixLLLengths]
  decide

theorem codeBits_fixD {v : Nat} (hv : v < 32) : codeBits fixD v = some (bitsMSB 5 v) := by
  have hlen : fixDLengths[v]? = some 5 := by rw [fixDLengths, List.getElem?_replicate, if_pos hv]
  have hc : (fixDLengths.take v).count 5 = v := by
    rw [fixDLengths, List.take_replicate, List.count_replicate_self]
    omega
  rw [codeBits_of_build fixDLengths_le build_fixDLengths hlen (by decide), hc, firstCode, startCodes_fixDLengths]
  simp

end Sys2Proof

section

open Sys2Proof Sys2Proof.Machine

/-- Settles O4: the code of a symbol is the first code of its length plus the number of earlier symbols of that length. -/
theorem fixedCodes : Obligations.FixedCodes := by
  unfold Obligations.FixedCodes
  obtain ⟨h7, h8, h9⟩ := firstCode_fixLLLengths
  refine ⟨fun v h => ?_, fun v h1 h2 => ?_, fun v h1 h2 => ?_, fun v h1 h2 => ?_, fun v h => codeBits_fixD h, fun v h => ?_,
    fun v h => ?_⟩
  · refine codeBits_fixLL ?_ (by decide) ?_
    · rw [getElem?_fixLLLengths, if_pos h]
    · rw [h8, count_take_fixLLLengths]; simp only [Nat.reduceEqDiff, reduceIte]; omega
  · refine codeBits_fixLL ?_ (by decide) ?_
    · rw [getElem?_fixLLLengths, if_neg (by omega), if_pos h2]
    · rw [h9, count_take_fixLLLengths]; simp only [Nat.reduceEqDiff, reduceIte]; omega
  · refine codeBits_fixLL ?_ (by decide) ?_
    · rw [getElem?_fixLLLengths, if_neg (by omega), if_neg (by omega), if_pos h2]
    · rw [h7, count_take_fixLLLengths]; simp only [Nat.reduceEqDiff, reduceIte]; omega
  · refine codeBits_fixLL ?_ (by decide) ?_
    · rw [getElem?_fixLLLengths, if_neg (by omega), if_neg (by omega), if_neg (by omega), if_pos h2]
    · rw [h8, count_take_fixLLLengths]; simp only [Nat.reduceEqDiff, reduceIte]; omega
  · exact codeBits_of_symbolsBelow (build_symbolsBelow build_fixLLLengths fixLLLengths_length.le) h
  · exact codeBits_of_symbolsBelow (build_symbolsBelow build_fixDLengths fixDLengths_length.le) h

/-- Settles O3: each word is what the encoder writes for its element, so decoding it gives the element back. -/
theorem sampleWordsDecode : Obligations.SampleWordsDecode := by
  unfold Obligations.SampleWordsDecode
  obtain ⟨hlit, -, heob, hlen, hdist, -⟩ := fixedCodes
  have hread {n : Nat} {T : Table} (hT : TableOk n T) {i : Instr} (hw : i.wf = true) {p : Nat} {bits : List Bool}
      (he : encode T p i = some bits) : decode i.format T (srcOf bits p) p = .ok i (p + bits.length) :=
    decode_encode hT hw he (Holds.of_srcOf bits p)
  have hnone : TableOk 0 [] := .nil 0
  have hll : TableOk 288 fixLL := (tableOk_of_build fixLLLengths_le build_fixLLLengths).mono fixLLLengths_length.le
  have hd : TableOk 32 fixD := (tableOk_of_build fixDLengths_le build_fixDLengths).mono fixDLengths_length.le
  refine ⟨?_, ?_, ?_, ?_, ?_, ?_, ?_, ?_, ?_, ?_, ?_⟩
  · exact hread hnone (i := .blkStored true) rfl (by decide)
  · exact hread hnone (i := .blkFixed false) rfl (by decide)
  · exact hread hnone (i := .blkDyn true) rfl (by decide)
  · exact hread hnone (i := .stBody 4 0xFFFB) rfl (by decide)
  · exact hread hnone (i := .dynHdr 4 0 0 [4, 2, 2, 1]) rfl (by decide)
  · exact hread hll (i := .lit 65) rfl (by rw [encode_of_code 65 (by decide) rfl (hlit 65 (by decide))]; decide)
  · exact hread hll (i := .eob) rfl (by rw [encode_of_code 256 (by decide) rfl (heob 256 (by decide) (by decide))]; decide)
  · exact hread hll (i := .len257) rfl (by rw [encode_of_code 257 (by decide) rfl (heob 257 (by decide) (by decide))]; decide)
  · exact hread hll (i := .len284 31) rfl (by rw [encode_of_code 284 (by decide) rfl (hlen 284 (by decide) (by decide))]; decide)
  · exact hread hd (i := .dist29 8191) rfl (by rw [encode_of_code 29 (by decide) rfl (hdist 29 (by decide))]; decide)
  · exact hread hnone (i := .ftPaeth) rfl (by decide)

end

/-! PROOF. Steps that read an element from the window (30_encoding.md R89, 60_exceptions.md R302): a field is read where its bits are
left, and where the window cuts it off the read stops at the window's end. What each step then does is its element's meaning, or
the error entry with the fields read before the cut latched. -/

namespace Sys2Proof

/-! ## Reads that a limit cuts off -/

/-- The read takes exactly `n` bits from `p` on, or, where fewer are left before the limit, stops there for want of a bit. -/
def Read.Takes {α : Type} (st : Stage) (lim p n : Nat) (r : Read α) : Prop :=
  (p + n ≤ lim ∧ ∃ v, r = .ok v (p + n)) ∨ (lim < p + n ∧ ∃ got, r = .stop .bounds st lim got)

section

variable {st : Stage} {lim p m n : Nat}

theorem Read.Takes.cut {α : Type} {r : Read α} (h : r.Takes st lim p n) (hlim : lim < p + n) :
    ∃ got, r = .stop .bounds st lim got := by
  rcases h with ⟨hle, -⟩ | ⟨-, hr⟩
  · omega
  · exact hr

theorem Read.Takes.pure {α : Type} (v : α) (hp : p ≤ lim) : (Read.ok v p).Takes st lim p 0 := .inl ⟨hp, v, rfl⟩

/-- One read after the other takes the bits of both. -/
theorem Read.Takes.bind {α β : Type} {r : Read α} {k : α → Nat → Read β} (hr : r.Takes st lim p m)
    (hk : ∀ v, p + m ≤ lim → r = .ok v (p + m) → (k v (p + m)).Takes st lim (p + m) n) : (r.bind k).Takes st lim p (m + n) := by
  rcases hr with ⟨hle, v, rfl⟩ | ⟨hlt, got, rfl⟩
  · have hv := hk v hle rfl
    rwa [Read.Takes, Nat.add_assoc] at hv
  · exact .inr ⟨by omega, got, rfl⟩

theorem Read.Takes.field {β : Type} {r : Read Nat} {k : Nat → Nat → Read β} (hr : r.Takes st lim p m)
    (hk : ∀ v, p + m ≤ lim → r = .ok v (p + m) → (k v (p + m)).Takes st lim (p + m) n) : (r.field k).Takes st lim p (m + n) := by
  rcases hr with ⟨hle, v, rfl⟩ | ⟨hlt, got, rfl⟩
  · rcases hk v hle rfl with ⟨hle', w, hw⟩ | ⟨hlt', got, hw⟩
    · exact .inl ⟨by omega, w, by simp only [Read.field, hw, Nat.add_assoc]⟩
    · exact .inr ⟨by omega, v :: got, by simp only [Read.field, hw]⟩
  · exact .inr ⟨by omega, got, rfl⟩

end

/-! ## Codes and their extra bits -/

section

variable {st st' : Stage} {T : Table} {get : Src} {p q : Nat} {k : Nat → Nat → Read Instr}

/-- A code whose walk stops: no field has been read. -/
theorem field_of_walk_stop {e : ErrCode} {g : List Nat} (h : walk st T get p = .stop e st' q g) :
    (walk st T get p).field k = .stop e st q [] := by
  obtain ⟨-, rfl, rfl⟩ := walk_stop h
  exact Read.field_stop.2 (.inl h)

/-- A code whose extra bits are cut off: its symbol has been read. -/
theorem field_of_walk_cut {v lim : Nat} (h : walk st T get p = .ok v q) (hk : k v q = .stop .bounds st' lim []) :
    (walk st T get p).field k = .stop .bounds st' lim [v] :=
  Read.field_stop.2 (.inr ⟨v, q, [], h, hk, rfl⟩)

end

/-- The number of extra bits of the length symbols that have any (30_encoding.md R83). -/
theorem lExt_getD {v : Nat} (h1 : 265 ≤ v) (h2 : v ≤ 284) : lExt.getD (v - 257) 0 = (v - 261) / 4 := by
  interval_cases v <;> rfl

/-- The number of extra bits of the distance symbols that have any (30_encoding.md R84). -/
theorem dExt_getD {v : Nat} (h1 : 4 ≤ v) (h2 : v ≤ 29) : dExt.getD v 0 = (v - 2) / 2 := by
  interval_cases v <;> rfl

/-- The bytes of a stored body's lengths begin at the next byte boundary (30_encoding.md R73). -/
theorem readST_alignUp (get : Src) (p : Nat) : readST get (alignUp p) = readST get p := by
  simp only [readST, readByte, alignUp_alignUp]

end Sys2Proof

namespace Sys2Proof.Machine

/-! ## The bits of the window -/

section

variable {s : State} {p n : Nat}

theorem windowSrc_some (h : p < 8 * s.winEnd) : windowSrc s p = some (s.inBit p) := by
  rw [windowSrc_eq, if_pos (by omega)]
  rfl

theorem windowSrc_ends (s : State) : Ends (windowSrc s) (8 * s.winEnd) := sourceFor_ends .bh s

/-- A field of the window: its value is made of the bits there, or the read stops at the window's end (40_bitreader.md R102). -/
theorem readBits_window (st : Stage) (n : Nat) (hp : p ≤ 8 * s.winEnd) :
    (p + n ≤ 8 * s.winEnd ∧ ∃ v, v < 2 ^ n ∧ (∀ k, k < n → v.testBit k = s.inBit (p + k)) ∧
        readBits st (windowSrc s) n p = .ok v (p + n)) ∨
      (8 * s.winEnd < p + n ∧ readBits st (windowSrc s) n p = .stop .bounds st (8 * s.winEnd) []) := by
  have hlt {k : Nat} (h : windowSrc s k ≠ none) : k < 8 * s.winEnd := by
    rw [Ne, windowSrc_none] at h
    omega
  rcases readBits_cases st (windowSrc s) n p with ⟨v, hv, hbits, hr⟩ | ⟨k, hk, hbefore, hnone, hr⟩
  · have hle : p + n ≤ 8 * s.winEnd := by
      rcases Nat.eq_zero_or_pos n with rfl | hn
      · exact hp
      · have := hlt (k := p + (n - 1)) (by rw [hbits _ (by omega)]; exact Option.some_ne_none _)
        omega
    refine .inl ⟨hle, v, hv, fun k hk => ?_, hr⟩
    have hb := (hbits k hk).symm.trans (windowSrc_some (by omega))
    exact Option.some.inj hb
  · have hend : p + k = 8 * s.winEnd := by
      rw [windowSrc_none] at hnone
      rcases Nat.eq_zero_or_pos k with rfl | hpos
      · omega
      · have := hlt (hbefore (k - 1) (by omega))
        omega
    rw [hend] at hr
    exact .inr ⟨by omega, hr⟩

theorem readBits_cut (st : Stage) (hp : p ≤ 8 * s.winEnd) (hn : 8 * s.winEnd < p + n) :
    readBits st (windowSrc s) n p = .stop .bounds st (8 * s.winEnd) [] := by
  rcases readBits_window st n hp with ⟨hle, -⟩ | ⟨-, hr⟩
  · omega
  · exact hr

theorem readBits_one (st : Stage) (h : p + 1 ≤ 8 * s.winEnd) :
    readBits st (windowSrc s) 1 p = .ok (s.inBit p).toNat (p + 1) := by
  simp only [readBits, readBit_some st (windowSrc_some (by omega : p < 8 * s.winEnd)), Read.bind, Nat.mul_zero, Nat.add_zero]

theorem readBits_two (st : Stage) (h : p + 2 ≤ 8 * s.winEnd) :
    readBits st (windowSrc s) 2 p = .ok ((s.inBit p).toNat + 2 * (s.inBit (p + 1)).toNat) (p + 2) := by
  rw [readBits, readBit_some st (windowSrc_some (by omega)), Read.bind, readBits_one st (by omega)]
  rfl

theorem readBits_takes (st : Stage) (n : Nat) (hp : p ≤ 8 * s.winEnd) :
    (readBits st (windowSrc s) n p).Takes st (8 * s.winEnd) p n := by
  rcases readBits_window st n hp with ⟨hle, v, -, -, hr⟩ | ⟨hlt, hr⟩
  · exact .inl ⟨hle, v, hr⟩
  · exact .inr ⟨hlt, [], hr⟩

theorem readByte_takes (st : Stage) (ha : p % 8 = 0) (hp : p ≤ 8 * s.winEnd) :
    (readByte st (windowSrc s) p).Takes st (8 * s.winEnd) p 8 := by
  have halign : alignUp p = p := by unfold alignUp; omega
  rw [readByte, halign]
  exact readBits_takes st 8 hp

/-- The four length bytes of a stored body (30_encoding.md R73). -/
theorem readST_takes (ha : p % 8 = 0) (hp : p ≤ 8 * s.winEnd) :
    (readST (windowSrc s) p).Takes .stored (8 * s.winEnd) p 32 :=
  .field (n := 24) (readByte_takes _ ha hp) fun _ h1 _ => .field (n := 16) (readByte_takes _ (by omega) h1) fun _ h2 _ =>
    .field (n := 8) (readByte_takes _ (by omega) h2) fun _ h3 _ => .field (n := 0) (readByte_takes _ (by omega) h3) fun _ h4 _ =>
      .pure _ h4

theorem readLens_takes (n : Nat) (hp : p ≤ 8 * s.winEnd) :
    (readLens (windowSrc s) n p).Takes .dynHeader (8 * s.winEnd) p (3 * n) := by
  induction n generalizing p with
  | zero => exact .pure _ hp
  | succ n ih =>
    rw [Nat.mul_succ, Nat.add_comm (3 * n)]
    exact .field (readBits_takes _ _ hp) fun _ h1 _ => .bind (n := 0) (ih h1) fun _ h2 _ => .pure _ h2

/-- The value of a field of four bits. -/
theorem eq_of_four_bits {v : Nat} (hv : v < 2 ^ 4) (hbits : ∀ k, k < 4 → v.testBit k = s.inBit (p + k)) :
    v = (s.inBit p).toNat + 2 * (s.inBit (p + 1)).toNat + 4 * (s.inBit (p + 2)).toNat + 8 * (s.inBit (p + 3)).toNat := by
  have hbit (k : Nat) (hk : k < 4) : v / 2 ^ k % 2 = (s.inBit (p + k)).toNat := by rw [← hbits k hk, Nat.toNat_testBit]
  have h0 := hbit 0 (by omega)
  have h1 := hbit 1 (by omega)
  have h2 := hbit 2 (by omega)
  have h3 := hbit 3 (by omega)
  simp only [pow_zero, Nat.div_one, Nat.reducePow, Nat.add_zero] at h0 h1 h2 h3 hv
  omega

/-- A dynamic header: 14 bits of counts, then `HCLEN + 4` lengths of three bits (30_encoding.md R74). -/
theorem readDH_takes (hp : p ≤ 8 * s.winEnd)
    (hn : n = (s.inBit (p + 10)).toNat + 2 * (s.inBit (p + 11)).toNat + 4 * (s.inBit (p + 12)).toNat + 8 * (s.inBit (p + 13)).toNat) :
    (readDH (windowSrc s) p).Takes .dynHeader (8 * s.winEnd) p (5 + (5 + (4 + (3 * (n + 4) + 0)))) := by
  refine .field (readBits_takes _ _ hp) fun _ h1 _ => .field (readBits_takes _ _ h1) fun _ h2 _ =>
    .field (readBits_takes _ _ h2) fun c h3 hc => ?_
  have hcn : c = n := by
    rcases readBits_window (s := s) .dynHeader 4 h2 with ⟨-, v, hv, hbits, hr⟩ | ⟨-, hr⟩ <;> rw [hr] at hc <;> cases hc
    exact (eq_of_four_bits hv hbits).trans hn.symm
  subst hcn
  exact .bind (readLens_takes _ h3) fun _ h4 _ => .pure _ h4

/-- A walk ends in the window. -/
theorem walk_end_le {st : Stage} {T : Table} {v q : Nat} (hp : p ≤ 8 * s.winEnd)
    (h : walk st T (windowSrc s) p = .ok v q) : q ≤ 8 * s.winEnd := by
  have hw := walk_within (windowSrc_ends s) st T p
  rw [h] at hw
  have ha : alignUp p ≤ alignUp (8 * s.winEnd) := alignUp_mono hp
  rw [alignUp_of_aligned] at ha
  exact hw.2.trans (max_le ha le_rfl)

/-- The header that three bits of the window make (30_encoding.md R72). -/
theorem readBH_window (h : p + 3 ≤ 8 * s.winEnd) : readBH (windowSrc s) p =
    .ok (blockInstr (s.inBit p) ((s.inBit (p + 1)).toNat + 2 * (s.inBit (p + 2)).toNat)) (p + 3) := by
  have hflag : ((s.inBit p).toNat == 1) = s.inBit p := by cases s.inBit p <;> rfl
  simp only [readBH, readBits_one (s := s) _ (by omega : p + 1 ≤ 8 * s.winEnd),
    readBits_two (s := s) _ (by omega : p + 1 + 2 ≤ 8 * s.winEnd), Read.field, hflag, Nat.add_assoc, Nat.reduceAdd]

/-- A header cut off: in front of the flag, or after it. -/
theorem readBH_cut (hp : p ≤ 8 * s.winEnd) (h : 8 * s.winEnd < p + 3) : readBH (windowSrc s) p =
    .stop .bounds .blockHeader (8 * s.winEnd) (if p < 8 * s.winEnd then [(s.inBit p).toNat] else []) := by
  split_ifs with hlt
  · simp only [readBH, readBits_one (s := s) _ (by omega : p + 1 ≤ 8 * s.winEnd),
      readBits_cut (s := s) (n := 2) _ (by omega : p + 1 ≤ 8 * s.winEnd) (by omega), Read.field]
  · simp only [readBH, readBits_cut (s := s) (n := 1) _ hp (by omega), Read.field]

end

/-! ## The cursor at a byte boundary -/

theorem setPos_byte (s : State) (k : Nat) : s.setPos (8 * k) = { s with bp := k, bb := 0 } := by
  have hbb : BitVec.ofNat 3 (8 * k) = 0 := BitVec.eq_of_toNat_eq (by simp)
  rw [State.setPos, hbb, Nat.mul_div_cancel_left k (by decide)]

theorem alignUp_pos (s : State) : alignUp s.pos = 8 * s.byteCursor := by
  have hlt := s.bb.isLt
  have hzero : s.bb = 0 ↔ s.bb.toNat = 0 := by rw [← BitVec.toNat_inj]; rfl
  simp only [State.byteCursor, hzero]
  unfold alignUp State.pos
  split_ifs <;> omega

/-- `nextByte` in the terms of 40_bitreader.md R103. -/
theorem nextByte_of_left (st : Stage) {s : State} (h : s.byteCursor < s.winEnd) :
    nextByte st s = .ok (s.inByte s.byteCursor).toNat { s with bp := s.byteCursor + 1, bb := 0 } := by
  have hdiv : alignUp s.pos / 8 = s.byteCursor := by rw [alignUp_pos]; omega
  rw [nextByte_ok st (by rwa [hdiv]), hdiv, alignUp_pos, ← setPos_byte, Nat.mul_succ]

theorem nextByte_of_none_left (st : Stage) {s : State} (h : s.winEnd ≤ s.byteCursor) :
    nextByte st s = .trap (raise .bounds st s.byteCursor { s with bp := s.byteCursor, bb := 0 }) := by
  have hdiv : alignUp s.pos / 8 = s.byteCursor := by rw [alignUp_pos]; omega
  rw [nextByte_trap st (by rwa [hdiv]), hdiv, alignUp_pos, setPos_byte]

/-! ## Steps -/

section

variable {s : State} {f : Format} {i : Instr} {e : ErrCode} {st : Stage} {p : Nat} {got : List Nat}

/-- Where an element is found, a step of the core is its meaning, with the cursor after it (30_encoding.md R89). -/
theorem coreStep_of_decode_ok (hb : s.busy = true) (he : expected s = some f) (hl : ¬ (f = .zHdr ∧ s.inLen < 6))
    (hd : decode f (tableFor f s) (sourceFor f s) (startOf f s) = .ok i p) : coreStep s = exec i (advance f p s) := by
  simp only [coreStep, hb, he, runElement, fetchElement, if_neg hl, hd, Bool.not_true, if_neg Bool.false_ne_true]

/-- Where the read stops, a step of the core enters the error at the byte it stopped at (60_exceptions.md R302). -/
theorem coreStep_of_decode_stop (hb : s.busy = true) (he : expected s = some f) (hl : ¬ (f = .zHdr ∧ s.inLen < 6))
    (hd : decode f (tableFor f s) (sourceFor f s) (startOf f s) = .stop e st p got) :
    coreStep s = .next (raise e st (p / 8) (latch f got (advance f p s))) := by
  simp only [coreStep, hb, he, runElement, fetchElement, if_neg hl, hd, Bool.not_true, if_neg Bool.false_ne_true]

theorem not_short_of_inWindow (hf : f.inWindow = true) : ¬ (f = .zHdr ∧ s.inLen < 6) := by
  rintro ⟨rfl, -⟩
  cases hf

/-- A step that finds an element in the window. -/
theorem step_of_window_ok (hh : s.host = []) (hb : s.busy = true) (he : expected s = some f) (hf : f.inWindow = true)
    (hd : decode f (tableFor f s) (windowSrc s) s.pos = .ok i p) : step s = exec i (s.setPos p) := by
  rw [step_of_no_host hh, ← advance_of_inWindow hf]
  exact coreStep_of_decode_ok hb he (not_short_of_inWindow hf) (by rwa [sourceFor_of_inWindow hf, startOf_of_inWindow hf])

/-- A step whose read of the window stops. -/
theorem step_of_window_stop (hh : s.host = []) (hb : s.busy = true) (he : expected s = some f) (hf : f.inWindow = true)
    (hd : decode f (tableFor f s) (windowSrc s) s.pos = .stop e st p got) :
    step s = .next (raise e st (p / 8) (latch f got (s.setPos p))) := by
  rw [step_of_no_host hh, ← advance_of_inWindow hf]
  exact coreStep_of_decode_stop hb he (not_short_of_inWindow hf) (by rwa [sourceFor_of_inWindow hf, startOf_of_inWindow hf])

/-- A step whose element the window cuts off. -/
theorem step_of_window_cut (hh : s.host = []) (hb : s.busy = true) (he : expected s = some f) (hf : f.inWindow = true)
    (hd : decode f (tableFor f s) (windowSrc s) s.pos = .stop .bounds st (8 * s.winEnd) got) :
    step s = .next (raise .bounds st s.winEnd (latch f got { s with bp := s.winEnd, bb := 0 })) := by
  rw [step_of_window_stop hh hb he hf hd, setPos_byte, Nat.mul_div_cancel_left _ (by decide)]

end

end Sys2Proof.Machine

section

open Sys2Proof Sys2Proof.Machine

/-- Settles O2: a step of the core is its fetch and what the fetch gave, and the host's queue is not read by either. -/
theorem stepRunsDecodedElement : Obligations.StepRunsDecodedElement := by
  unfold Obligations.StepRunsDecodedElement
  intro s q f hb he hl
  have hpass (h : s.host = .pass :: q) : step s = coreStep { s with host := q } := by simp only [step, h]
  have hwait (h : s.host = .wait :: q) : step s = coreStep s := by simp only [step, h, hb, if_true]
  refine ⟨fun i p hd => ?_, fun e st p got hd => ?_⟩
  · have hcore := coreStep_of_decode_ok hb he hl hd
    exact ⟨fun h => (step_of_no_host h).trans hcore,
      fun h => (hpass h).trans (coreStep_of_decode_ok (s := { s with host := q }) hb he hl hd), fun h => (hwait h).trans hcore⟩
  · have hcore := coreStep_of_decode_stop hb he hl hd
    exact ⟨fun h => (step_of_no_host h).trans hcore,
      fun h => (hpass h).trans (coreStep_of_decode_stop (s := { s with host := q }) hb he hl hd), fun h => (hwait h).trans hcore⟩

end

/-! PROOF. The elements and what stops them (42_block_decoder.md, 43_symbols_lz77.md, 45_unfilter.md R271): block headers, stored bodies,
dynamic headers, code lengths, matches, and the unfilter's configuration. -/

namespace Sys2Proof

/-! ## Fields -/

theorem bitsLSB_succ (n v : Nat) : bitsLSB (n + 1) v = v.testBit 0 :: bitsLSB n (v / 2) := by
  simp only [bitsLSB, List.range_succ_eq_map, List.map_cons, List.map_map, List.cons.injEq, true_and]
  exact List.map_congr_left fun k _ => Nat.testBit_succ ..

/-- The value of a field's bits is the low part of the number they were taken from. -/
theorem fieldValue_bitsLSB (n v : Nat) : fieldValue (bitsLSB n v) = v % 2 ^ n := by
  induction n generalizing v with
  | zero => rw [pow_zero, Nat.mod_one]; rfl
  | succ n ih => rw [bitsLSB_succ, fieldValue, ih, Nat.toNat_testBit, pow_zero, Nat.div_one, pow_succ', Nat.mod_mul]

theorem fieldValue_bitsLSB_toNat {n : Nat} (x : BitVec n) : fieldValue (bitsLSB n x.toNat) = x.toNat := by
  rw [fieldValue_bitsLSB, Nat.mod_eq_of_lt x.isLt]

end Sys2Proof

namespace Sys2Proof.Machine

/-! ## Block headers -/

theorem eq_of_ofNat_two {v k : Nat} (hv : v < 4) (hk : k < 4) (h : BitVec.ofNat 2 v = BitVec.ofNat 2 k) : v = k := by
  have hmod : v % 4 = k % 4 := by simpa using congrArg BitVec.toNat h
  omega

/-- What a block element does, told by the type it latches (42_block_decoder.md R131). -/
theorem exec_blockInstr (final : Bool) {v : Nat} (hv : v < 4) {s t : State}
    (ht : t = { s with bfinal := final, btype := BitVec.ofNat 2 v }) :
    (t.btype = 0 → exec (blockInstr final v) s = .next { t with phase := .stored }) ∧
    (t.btype = 1 → exec (blockInstr final v) s = .next { t with llSel := .fixed, dSel := .fixed, phase := .symbol }) ∧
    (t.btype = 2 → exec (blockInstr final v) s = .next { t with phase := .dynHeader }) ∧
    (t.btype = 3 → exec (blockInstr final v) s = .next (raise .btype .blockHeader t.bp t)) := by
  subst ht
  refine ⟨fun h => ?_, fun h => ?_, fun h => ?_, fun h => ?_⟩
  · obtain rfl := eq_of_ofNat_two (k := 0) hv (by decide) h; rfl
  · obtain rfl := eq_of_ofNat_two (k := 1) hv (by decide) h; rfl
  · obtain rfl := eq_of_ofNat_two (k := 2) hv (by decide) h; rfl
  · obtain rfl := eq_of_ofNat_two (k := 3) hv (by decide) h; rfl

/-! ## Stored bodies -/

/-- The state after one byte of a stored body has been copied (42_block_decoder.md R133). -/
def storedByte (s : State) : State := appendInf (s.inByte s.byteCursor) { s with bp := s.byteCursor + 1, bb := 0 }

@[simp] theorem storedByte_byteCursor (s : State) : (storedByte s).byteCursor = s.byteCursor + 1 := rfl
@[simp] theorem storedByte_winEnd (s : State) : (storedByte s).winEnd = s.winEnd := rfl
@[simp] theorem storedByte_infLen (s : State) : (storedByte s).infLen = s.infLen + 1 := rfl
@[simp] theorem storedByte_infCap (s : State) : (storedByte s).infCap = s.infCap := rfl

/-- An error after a byte has been copied is the error from the state before, with the cursor where the error put it. -/
theorem raise_storedByte (e : ErrCode) (st : Stage) (k b : Nat) (c : BitVec 3) (s : State) :
    raise e st k { storedByte s with bp := b, bb := c } = raise e st k { s with bp := b, bb := c } := rfl

/-- The copy goes on after a byte that is left and fits. -/
theorem copyStored_succ {s : State} (hw : s.byteCursor < s.winEnd) (hc : s.infLen < s.infCap) (n : Nat) :
    copyStored (n + 1) s = copyStored n (storedByte s) := by
  rw [copyStored, nextByte_of_left _ hw, Run.bind_ok, put, if_neg (by exact Nat.not_le_of_lt hc), Run.bind_ok, BitVec.ofNat_toNat,
    BitVec.setWidth_eq, storedByte]

/-- The window ends before the body does, and no byte before that fails to fit: `E_BOUNDS` where the first byte is missing. -/
theorem copyStored_missing {s : State} {n left : Nat} (hleft : left = s.winEnd - s.byteCursor) (hroom : left ≤ s.infCap - s.infLen)
    (hn : left < n) : copyStored n s =
      .trap (raise .bounds .stored (s.byteCursor + left) { s with bp := s.byteCursor + left, bb := 0 }) := by
  obtain ⟨n, rfl⟩ : ∃ m, n = m + 1 := ⟨n - 1, by omega⟩
  induction left generalizing s n with
  | zero => rw [copyStored, nextByte_of_none_left _ (by omega), Run.bind_trap]; rfl
  | succ left ih =>
    obtain ⟨n, rfl⟩ : ∃ m, n = m + 1 := ⟨n - 1, by omega⟩
    rw [copyStored_succ (by omega) (by omega), ih (by simp only [storedByte_byteCursor, storedByte_winEnd]; omega)
      (by simp only [storedByte_infLen, storedByte_infCap]; omega) n (by omega), raise_storedByte, storedByte_byteCursor,
      Nat.add_right_comm]
    rfl

/-- A byte of the body does not fit, and none before it is missing: `E_OVERFLOW` after it has been read. -/
theorem copyStored_full {s : State} {n room : Nat} (hroom : room = s.infCap - s.infLen) (hleft : room < s.winEnd - s.byteCursor)
    (hn : room < n) : copyStored n s =
      .trap (raise .overflow .stored (s.byteCursor + room + 1) { s with bp := s.byteCursor + room + 1, bb := 0 }) := by
  obtain ⟨n, rfl⟩ : ∃ m, n = m + 1 := ⟨n - 1, by omega⟩
  induction room generalizing s n with
  | zero =>
    rw [copyStored, nextByte_of_left _ (by omega), Run.bind_ok, put, if_pos (by exact Nat.le_of_sub_eq_zero hroom.symm), Run.bind_trap]
  | succ room ih =>
    obtain ⟨n, rfl⟩ : ∃ m, n = m + 1 := ⟨n - 1, by omega⟩
    rw [copyStored_succ (by omega) (by omega), ih (by simp only [storedByte_infLen, storedByte_infCap]; omega)
      (by simp only [storedByte_byteCursor, storedByte_winEnd]; omega) n (by omega), raise_storedByte, storedByte_byteCursor,
      Nat.add_right_comm _ 1]
    rfl

/-- A stored body whose copy enters an error. -/
theorem exec_stBody_of_trap {len nlen : BitVec 16} {s t : State}
    (h : copyStored len.toNat { s with stlen := len, stnlen := nlen } = .trap t) : exec (.stBody len nlen) s = .next t := by
  simp only [exec, execStBody, h, Run.bind_trap, Run.outcome_trap]

/-! ## Dynamic headers -/

section

variable {n w : Nat} {ord : List Nat} {k : Nat}

theorem getD_setIfInBounds_self (c : Vector (BitVec w) n) (x : BitVec w) (hk : k < n) :
    (c.setIfInBounds k x).toList.getD k 0 = x := by
  simp [Vector.toList_setIfInBounds, hk]

theorem getD_setIfInBounds_other (c : Vector (BitVec w) n) (x : BitVec w) {j : Nat} (h : j ≠ k) :
    (c.setIfInBounds j x).toList.getD k 0 = c.toList.getD k 0 := by
  simp only [Vector.toList_setIfInBounds, List.getD_eq_getElem?_getD, List.getElem?_set_ne h]

/-- Writing values to the places of a list leaves the other places alone. -/
theorem getD_writeAll_other (hk : k ∉ ord) (cls : List (BitVec w)) (c : Vector (BitVec w) n) :
    ((ord.zip cls).foldl (fun t e => t.setIfInBounds e.1 e.2) c).toList.getD k 0 = c.toList.getD k 0 := by
  induction ord generalizing cls c with
  | nil => rfl
  | cons a ord ih =>
    rw [List.mem_cons, not_or] at hk
    cases cls with
    | nil => rfl
    | cons x cls => rw [List.zip_cons_cons, List.foldl_cons, ih hk.2, getD_setIfInBounds_other c x (Ne.symm hk.1)]

/-- Where the places were 0, each holds the value written to it, or 0 if there is none. -/
theorem getD_writeAll (hord : ord.Nodup) (hn : ∀ j ∈ ord, j < n) (cls : List (BitVec w)) (c : Vector (BitVec w) n)
    (hc : ∀ j ∈ ord, c.toList.getD j 0 = 0) (hk : k < ord.length) :
    ((ord.zip cls).foldl (fun t e => t.setIfInBounds e.1 e.2) c).toList.getD (ord.getD k 0) 0 = cls.getD k 0 := by
  induction ord generalizing cls c k with
  | nil => cases hk
  | cons a ord ih =>
    obtain ⟨ha, hord⟩ := List.nodup_cons.1 hord
    cases cls with
    | nil => exact (hc _ (by rw [List.getD_eq_getElem _ _ hk]; exact List.getElem_mem hk)).trans rfl
    | cons x cls =>
      rw [List.zip_cons_cons, List.foldl_cons]
      cases k with
      | zero =>
        rw [List.getD_cons_zero, List.getD_cons_zero, getD_writeAll_other ha, getD_setIfInBounds_self c x (hn a List.mem_cons_self)]
      | succ k =>
        rw [List.getD_cons_succ, List.getD_cons_succ]
        refine ih hord (fun j hj => hn j (List.mem_cons_of_mem _ hj)) cls _ (fun j hj => ?_) (Nat.lt_of_succ_lt_succ hk)
        have hne : a ≠ j := fun h => ha (h ▸ hj)
        rw [getD_setIfInBounds_other c x hne]
        exact hc j (List.mem_cons_of_mem _ hj)

end

/-- The transmitted lengths, each at its place in the order of 30_encoding.md R77. -/
theorem cllenOf_getD (cls : List (BitVec 3)) {k : Nat} (hk : k < 19) : (cllenOf cls).toList.getD (clOrd.getD k 0) 0 = cls.getD k 0 :=
  getD_writeAll (by decide) (by decide) cls _ (by decide) hk

theorem latch_dh (got : List Nat) (s : State) : ∃ a b c d,
    latch .dh got s = { s with hlit := a, hdist := b, hclen := c, cllen := d } := by
  rcases got with _ | ⟨h, _ | ⟨d, _ | ⟨c, ls⟩⟩⟩ <;> exact ⟨_, _, _, _, rfl⟩

/-! ## Code lengths -/

/-- A run of code lengths that is appended, told entry by entry (42_block_decoder.md R140). -/
theorem appendsLengths_of_exec {i : Instr} {r : Nat} {v : BitVec 4} {s : State}
    (h : exec i s = .next (nextLength (appendLens r v s))) : AppendsLengths i r v s :=
  ⟨fillLens v r s.nlens s.lens, h, fun j hj => fillLens_get v r s.nlens s.lens j hj⟩

theorem lengthRun_of_fits {r : Nat} (v : BitVec 4) {s : State} (h : s.nlens + r ≤ s.total) :
    lengthRun r v s = nextLength (appendLens r v s) := by
  rw [lengthRun, if_neg (by omega)]

/-- The extra bits of a repeat that the window cuts off (30_encoding.md R76). -/
theorem readCL_cut {s : State} {v q n : Nat} (hv : (v = 16 ∧ n = 2) ∨ (v = 17 ∧ n = 3) ∨ (v = 18 ∧ n = 7)) (hq : q ≤ 8 * s.winEnd)
    (hn : 8 * s.winEnd < q + n) : readCL (windowSrc s) v q = .stop .bounds .dynLengths (8 * s.winEnd) [] := by
  have hbits := readBits_cut .dynLengths hq hn
  rcases hv with ⟨rfl, rfl⟩ | ⟨rfl, rfl⟩ | ⟨rfl, rfl⟩ <;> rw [readCL, hbits] <;> rfl

/-! ## Matches -/

/-- The extra bits of a length that the window cuts off (30_encoding.md R78). -/
theorem readLL_cut {s : State} {v q : Nat} (h1 : 265 ≤ v) (h2 : v ≤ 284) (hq : q ≤ 8 * s.winEnd)
    (hn : 8 * s.winEnd < q + (v - 261) / 4) : readLL (windowSrc s) v q = .stop .bounds .matching (8 * s.winEnd) [] := by
  rw [readLL, if_neg (by omega), if_neg (by omega), if_neg (by omega), lExt_getD h1 h2, readBits_cut .matching hq hn]
  rfl

/-- The extra bits of a distance that the window cuts off (30_encoding.md R79). -/
theorem readD_cut {s : State} {v q : Nat} (h1 : 4 ≤ v) (h2 : v ≤ 29) (hq : q ≤ 8 * s.winEnd)
    (hn : 8 * s.winEnd < q + (v - 2) / 2) : readD (windowSrc s) v q = .stop .bounds .matching (8 * s.winEnd) [] := by
  rw [readD, if_neg (by omega), dExt_getD h1 h2, readBits_cut .matching hq hn]
  rfl

/-- The next byte of a pattern of period `d`: either the pattern goes on, or it begins again. -/
theorem succ_mod_cases {d : Nat} (hd : 1 ≤ d) (k : Nat) :
    (k % d + 1 < d ∧ (k + 1) % d = k % d + 1) ∨ (k % d + 1 = d ∧ (k + 1) % d = 0) := by
  have hlt := Nat.mod_lt k hd
  have hstep : (k + 1) % d = (k % d + 1) % d := by rw [Nat.mod_add_mod]
  rcases Nat.lt_or_ge (k % d + 1) d with h | h
  · exact .inl ⟨h, hstep.trans (Nat.mod_eq_of_lt h)⟩
  · have heq : k % d + 1 = d := by omega
    exact .inr ⟨heq, by rw [hstep, heq, Nat.mod_self]⟩

/-- The bytes of a match copy: the `MDIST` bytes before it, repeated (43_symbols_lz77.md R202). -/
theorem copyMatch_bytes {n : Nat} {s : State} (h1 : 1 ≤ s.mdist) (hd : s.mdist ≤ s.infLen) (hcap : s.infLen + n ≤ s.infCap) :
    ∃ m : Memory, copyMatch n s = .ok () { s with infMem := m, infLen := s.infLen + n } ∧
      (∀ k, k < n → Memory.byte .inf s.infGen m (s.infLen + k) = s.infByte (s.infLen - s.mdist + k % s.mdist)) ∧
      (∀ a, a < s.infLen ∨ s.infLen + n ≤ a → Memory.byte .inf s.infGen m a = s.infByte a) := by
  induction n generalizing s with
  | zero => exact ⟨s.infMem, rfl, nofun, fun _ _ => rfl⟩
  | succ n ih =>
    generalize hb : s.infByte (s.infLen - s.mdist) = b
    obtain ⟨m, hcopy, hnew, hold⟩ := ih (s := appendInf b s) h1 (by simp only [appendInf_mdist, appendInf_infLen]; omega)
      (by simp only [appendInf_infLen, appendInf_infCap]; omega)
    simp only [appendInf_infLen, appendInf_infGen, appendInf_mdist] at hnew hold
    have hlast : (appendInf b s).infByte s.infLen = b := infByte_appendInf_self s b
    have hfront {a : Nat} (ha : a ≠ s.infLen) : (appendInf b s).infByte a = s.infByte a := infByte_appendInf_other s b ha
    refine ⟨m, ?_, fun k hk => ?_, fun a ha => ?_⟩
    · rw [copyMatch, hb, put, if_neg (by omega), Run.bind_ok, hcopy, appendInf_infLen, Nat.add_right_comm]
      rfl
    · cases k with
      | zero => rw [Nat.add_zero, hold _ (.inl (Nat.lt_succ_self _)), hlast, Nat.zero_mod, Nat.add_zero, hb]
      | succ k =>
        rw [← Nat.add_assoc, Nat.add_right_comm, hnew k (by omega)]
        rcases succ_mod_cases h1 k with ⟨hlt, hmod⟩ | ⟨hend, hmod⟩
        · rw [hfront (by omega), hmod]
          congr 1
          omega
        · rw [show s.infLen + 1 - s.mdist + k % s.mdist = s.infLen by omega, hlast, hmod, Nat.add_zero, hb]
    · rw [hold a (by omega), hfront (by omega)]

theorem copiesMatch_of_exec {i : Instr} {v d : Nat} (hexec : ∀ s, exec i s = distanceElement v d s) (h1 : 1 ≤ d) :
    CopiesMatch i v d := by
  intro s hd hcap
  obtain ⟨m, hcopy, hnew, hold⟩ := copyMatch_bytes (n := s.mlen) (s := latchDistance v d s) h1 hd hcap
  refine ⟨m, ?_, hnew, hold⟩
  rw [hexec, distanceElement, if_neg (Nat.not_lt_of_le hd), hcopy]
  rfl

/-- The distance of an element is the base of 30_encoding.md R84 plus its extra value. -/
theorem exec_distance_eq {i : Instr} (hf : i.format = .d) (hv : i.selector ≤ 29) :
    ∃ d, d = dBase.getD i.selector 0 + fieldValue i.operandBits ∧ ∀ s, exec i s = distanceElement i.selector d s := by
  cases i <;> simp only [Instr.format, reduceCtorEq] at hf <;> simp only [Instr.selector] at hv <;> try omega
  case dist0 | dist1 | dist2 | dist3 => exact ⟨_, rfl, fun _ => rfl⟩
  all_goals exact ⟨_, (congrArg _ (fieldValue_bitsLSB_toNat _)).symm, fun _ => rfl⟩

/-! ## The configuration of the unfilter -/

/-- With a colour type that has channels, the bit depth is looked at, then the height (45_unfilter.md R271, R272). -/
theorem unfConfig_of_channels {s : State} {ch : Nat} (h : channels s.colorType = some ch) :
    unfConfig s = if s.bitDepth = 0 then raise .geom .unfCfg 0 s
      else if s.height = 0 then enterDone (latchGeometry (ch * ((s.bitDepth.toNat + 7) / 8)) s)
      else { latchGeometry (ch * ((s.bitDepth.toNat + 7) / 8)) s with phase := .unfRow } := by
  rw [unfConfig, h]

end Sys2Proof.Machine

section

open Sys2Proof Sys2Proof.Machine

/-- Settles O14: three bits make a block element, which is told by the type it latches; fewer are cut off before or after the flag. -/
theorem blockHeaderStep : Obligations.BlockHeaderStep := by
  unfold Obligations.BlockHeaderStep
  intro s hh hb hp
  have he : expected s = some .bh := by simp only [expected, hp]
  refine ⟨fun hle t ht => ?_, fun hle hlt => ?_⟩
  · rw [step_of_window_ok hh hb he rfl (readBH_window hle)]
    refine exec_blockInstr _ ?_ ht
    have h1 := (s.inBit (s.pos + 1)).toNat_le
    have h2 := (s.inBit (s.pos + 2)).toNat_le
    omega
  · rw [step_of_window_cut hh hb he rfl (readBH_cut hle hlt)]
    split_ifs
    · cases s.inBit s.pos <;> rfl
    · rfl

/-- Settles O18: the copy stops at the first byte missing or not fitting; the four length bytes are read before either is latched. -/
theorem storedBodyRaises : Obligations.StoredBodyRaises := by
  unfold Obligations.StoredBodyRaises
  refine ⟨fun len nlen s left room hleft hroom => ⟨fun h hn => ?_, fun h hn => ?_⟩, fun s hh hb hp hle hlt => ?_⟩
  · exact exec_stBody_of_trap (copyStored_missing (s := { s with stlen := len, stnlen := nlen }) hleft (hroom ▸ h) hn)
  · exact exec_stBody_of_trap (copyStored_full (s := { s with stlen := len, stnlen := nlen }) hroom (hleft ▸ h) hn)
  · have ha := alignUp_pos s
    have hmono : alignUp s.pos ≤ alignUp (8 * s.winEnd) := alignUp_mono hle
    rw [alignUp_of_aligned] at hmono
    obtain ⟨got, hd⟩ := (readST_takes (s := s) (p := alignUp s.pos) (by omega) hmono).cut (by omega)
    rw [readST_alignUp] at hd
    exact step_of_window_cut (f := .st) hh hb (by simp only [expected, hp]) rfl hd

/-- Settles O19: the lengths are written in the order of R77 over zeros, and the header's bits are counted by its own `HCLEN`. -/
theorem dynamicHeaderBuilds : Obligations.DynamicHeaderBuilds := by
  unfold Obligations.DynamicHeaderBuilds
  refine ⟨fun hlit hdist hclen cls s => ⟨cllenOf cls, fun k hk => cllenOf_getD cls hk, ?_⟩, fun s n hh hb hp hle hn hlt => ?_⟩
  · rcases buildCL_cases (latchDyn hlit hdist hclen cls s) with ⟨T, hT, hr⟩ | ⟨hT, hr⟩ <;>
      rw [latchDyn_cllen] at hT <;> rw [hT] <;> exact congrArg _ hr
  · obtain ⟨got, hd⟩ := (readDH_takes hle hn).cut (by omega)
    obtain ⟨a, b, c, d, hl⟩ := latch_dh got { s with bp := s.winEnd, bb := 0 }
    exact ⟨a, b, c, d, by rw [step_of_window_cut (f := .dh) hh hb (by simp only [expected, hp]) rfl hd, hl]⟩

/-- Settles O20: a run that fits writes its entries one by one; a walk that stops has latched nothing, and neither have bits cut off. -/
theorem codeLengthElementsAppend : Obligations.CodeLengthElementsAppend := by
  unfold Obligations.CodeLengthElementsAppend
  refine ⟨fun s => ⟨fun v => appendsLengths_of_exec rfl, fun x h0 hx => ?_, fun x hx => ?_, fun x hx => ?_⟩, fun s hh hb hp => ?_⟩
  · exact appendsLengths_of_exec (by rw [exec, execClRep, if_neg h0, lengthRun_of_fits _ hx]; rfl)
  · exact appendsLengths_of_exec (by rw [exec, execClZ3, lengthRun_of_fits _ hx])
  · exact appendsLengths_of_exec (by rw [exec, execClZ11, lengthRun_of_fits _ hx])
  · have he : expected s = some .cl := by simp only [expected, hp]
    exact ⟨fun e st q g hw => step_of_window_stop hh hb he rfl (field_of_walk_stop hw),
      fun v q n hw hv hle hlt =>
        step_of_window_cut hh hb he rfl (field_of_walk_cut hw (readCL_cut hv (walk_end_le hle hw) hlt))⟩

/-- Settles O24: each length element is `lengthElement` of its numbers; bits cut off leave the symbol latched. -/
theorem lengthElements : Obligations.LengthElements := by
  unfold Obligations.LengthElements
  refine ⟨fun s v q hh hb hp hd hw h1 h2 hle hlt => ?_, fun s t ht => ?_⟩
  · have he : expected s = some .ll := by simp [expected, hp, hd]
    exact step_of_window_cut hh hb he rfl (field_of_walk_cut hw (readLL_cut h1 h2 (walk_end_le hle hw) hlt))
  · simp only [ht]
    exact ⟨⟨rfl, rfl, rfl, rfl, rfl, rfl, rfl, rfl⟩, fun x => ⟨rfl, rfl, rfl, rfl⟩, fun x => ⟨rfl, rfl, rfl, rfl⟩,
      fun x => ⟨rfl, rfl, rfl, rfl⟩, fun x => ⟨rfl, rfl, rfl, rfl⟩, fun x => ⟨rfl, rfl, rfl, rfl⟩, rfl⟩

/-- Settles O25: the copy appends byte after byte, and each distance element is that copy with its own numbers. -/
theorem distanceElementsCopy : Obligations.DistanceElementsCopy := by
  unfold Obligations.DistanceElementsCopy
  refine ⟨⟨?_, ?_, ?_, ?_⟩, fun x => ⟨?_, ?_⟩, fun x => ⟨?_, ?_⟩, fun x => ⟨?_, ?_⟩, fun x => ⟨?_, ?_⟩, fun x => ⟨?_, ?_⟩,
    fun x => ⟨?_, ?_⟩, fun x => ⟨?_, ?_⟩, fun x => ⟨?_, ?_⟩, fun x => ⟨?_, ?_⟩, fun x => ⟨?_, ?_⟩, fun x => ⟨?_, ?_⟩, fun x => ⟨?_, ?_⟩,
    fun x => ⟨?_, ?_⟩⟩ <;> exact copiesMatch_of_exec (fun _ => rfl) (by omega)

/-- Settles O26: the distance is checked first, then the room; a walk or extra bits that stop are the fetch's errors. -/
theorem distanceElementsRaise : Obligations.DistanceElementsRaise := by
  unfold Obligations.DistanceElementsRaise
  refine ⟨fun i s d hf hv hd t ht => ?_, fun s T hh hb hp hdn hT => ?_⟩
  · subst ht
    obtain ⟨_, rfl, hexec⟩ := exec_distance_eq hf hv
    rw [← hd] at hexec
    refine ⟨fun hfar => ?_, fun hnear hle hlt => ?_⟩
    · rw [hexec, distanceElement, if_pos hfar]; rfl
    · rw [hexec, distanceElement, if_neg (Nat.not_lt_of_le hnear)]
      rcases copyMatch_cases s.mlen (latchDistance i.selector d s) with ⟨hfit, -⟩ | ⟨-, hr⟩
      · simp only [latchDistance_infLen, latchDistance_infCap] at hfit
        omega
      · rw [hr]; rfl
  · have he : expected s = some .d := by simp [expected, hp, hdn]
    have hdec (p : Nat) : decode .d (tableFor .d s) (windowSrc s) p = (walk .matching T (windowSrc s) p).field (readD (windowSrc s)) := by
      subst hT; rfl
    exact ⟨fun e st q g hw => step_of_window_stop hh hb he rfl ((hdec _).trans (field_of_walk_stop hw)),
      fun v q hw h1 h2 hle hlt =>
        step_of_window_cut hh hb he rfl ((hdec _).trans (field_of_walk_cut hw (readD_cut h1 h2 (walk_end_le hle hw) hlt)))⟩

/-- Settles O50: with the tables' symbols in their alphabets, every fetch finds an element, and every element answers. -/
theorem coreStepAnswers : Obligations.CoreStepAnswers := by
  unfold Obligations.CoreStepAnswers
  intro s hT hh
  rw [step_of_no_host hh]
  exact coreStep_next_of_symbolsOk (symbolsOk_of_tablesOk hT)

/-- Settles O16: the four illegal elements raise at once, each with its own operand latched. -/
theorem illegalElementsRaise : Obligations.IllegalElementsRaise := by
  unfold Obligations.IllegalElementsRaise
  exact fun s => ⟨fun _ => rfl, fun _ => rfl, fun _ => rfl, fun _ => rfl⟩

/-- Settles O31: the colour type decides the channels, then the bit depth is looked at, and the height last. -/
theorem unfilterConfiguration : Obligations.UnfilterConfiguration := by
  unfold Obligations.UnfilterConfiguration
  intro s hh hb hp
  have hstep : step s = .next (unfConfig s) := by
    simp only [step_of_no_host hh, coreStep, hb, expected, hp, phaseStep, Bool.not_true, if_neg Bool.false_ne_true]
  rw [hstep]
  refine ⟨fun ⟨h0, h2, h4, h6⟩ => ?_, fun ch hch => ?_⟩
  · have hc : channels s.colorType = none := by simp only [channels, h0, h2, h4, h6, if_false]
    rw [unfConfig, hc]
  · have hc : channels s.colorType = some ch := by
      rcases hch with ⟨h, rfl⟩ | ⟨h, rfl⟩ | ⟨h, rfl⟩ | ⟨h, rfl⟩ <;> rw [h] <;> rfl
    rw [unfConfig_of_channels hc]
    refine ⟨fun hd => by rw [if_pos hd], fun hd n hn => ?_⟩
    subst hn
    rw [if_neg hd]
    rfl

end

/-! PROOF. The BitReader's three reads (40_bitreader.md R101 to R103): a bit, a field of `n` bits, and a whole byte after the unread
bits of the current one. -/

namespace Sys2Proof.Machine

/-! ## The bit under the cursor -/

theorem pos_div_eight (s : State) : s.pos / 8 = s.bp := by
  have hlt := s.bb.isLt
  unfold State.pos
  omega

theorem inBit_pos (s : State) : s.inBit s.pos = (s.inByte s.bp).getLsbD s.bb.toNat := by
  have hmod : s.pos % 8 = s.bb.toNat := by
    have hlt := s.bb.isLt
    unfold State.pos
    omega
  rw [State.inBit, pos_div_eight, hmod]

/-- The cursor one bit on, in normal form: after the last bit of a byte it stands at the next byte (40_bitreader.md R100). -/
theorem setPos_succ (s : State) :
    s.setPos (s.pos + 1) = if s.bb = 7 then { s with bp := s.bp + 1, bb := 0 } else { s with bb := s.bb + 1 } := by
  have hbb : BitVec.ofNat 3 (s.pos + 1) = s.bb + 1 := BitVec.eq_of_toNat_eq (by simp [State.pos]; omega)
  split_ifs with h7
  · have h7n : s.bb.toNat = 7 := congrArg BitVec.toNat h7
    have hbp : (s.pos + 1) / 8 = s.bp + 1 := by unfold State.pos; omega
    rw [State.setPos, hbb, hbp, h7]
    rfl
  · have hlt := s.bb.isLt
    have hne : s.bb.toNat ≠ 7 := fun h => h7 (BitVec.eq_of_toNat_eq h)
    have hbp : (s.pos + 1) / 8 = s.bp := by unfold State.pos; omega
    rw [State.setPos, hbb, hbp]

end Sys2Proof.Machine

section

open Sys2Proof Sys2Proof.Machine

/-- Settles O11: a byte left at the cursor has the bit, and with none left the read stops where it stands. -/
theorem nextBitReads : Obligations.NextBitReads := by
  unfold Obligations.NextBitReads
  intro st s
  refine ⟨fun hlt => ?_, fun hle => ?_⟩
  · have hpos := pos_div_eight s
    have hsome : windowSrc s s.pos = some (s.inBit s.pos) := windowSrc_some (by omega)
    rw [← inBit_pos, ← setPos_succ]
    exact readWindow_ok (readBit_some st hsome)
  · have hnone : windowSrc s s.pos = none := (windowSrc_none s _).2 (hle.trans_eq (pos_div_eight s).symm)
    rw [nextBit, readWindow_stop (readBit_none st hnone), pos_div_eight, setPos_pos]

/-- Settles O12: a field is read where its bits are left in the window, and else the read stops at the window's end. -/
theorem nextBitsReads : Obligations.NextBitsReads := by
  unfold Obligations.NextBitsReads
  intro st n s
  refine ⟨fun hle => ?_, fun hle hlt => ?_, ?_⟩
  · rcases readBits_window st n ((Nat.le_add_right _ _).trans hle) with ⟨-, v, hv, hbits, hr⟩ | ⟨hlt, -⟩
    · exact ⟨v, hv, hbits, readWindow_ok hr⟩
    · omega
  · rw [nextBits, readWindow_stop (readBits_cut st hle hlt), setPos_byte, Nat.mul_div_cancel_left _ (by decide)]
  · have hzero : readBits st (windowSrc s) 0 s.pos = .ok 0 s.pos := rfl
    rw [nextBits, readWindow_ok hzero, setPos_pos]

/-- Settles O13: the byte is the one at the next boundary, where the cursor stands after the discard whether or not it is there. -/
theorem nextByteReads : Obligations.NextByteReads := by
  unfold Obligations.NextByteReads
  exact fun st _ => ⟨nextByte_of_left st, nextByte_of_none_left st⟩

end

/-! PROOF. The construction of a table (41_huffman.md R110 to R116): the codes that `build` gives are counted from the first codes of
R112, so they are canonical and none begins another; the lengths refused are those whose Kraft sum exceeds 1. -/

namespace Sys2Proof

/-! ## The triples of a built table -/

/-- R112's recurrence with R111's count determines the first codes. -/
theorem eq_firstCode_of_recurrence {lengths : List Nat} {count code : Nat → Nat}
    (hcount : ∀ n, count n = if n = 0 then 0 else lengths.count n) (h0 : code 0 = 0)
    (hsucc : ∀ n, code (n + 1) = 2 * (code n + count n)) {n : Nat} (hn : n ≤ 15) : code n = firstCode lengths n := by
  induction n with
  | zero => exact h0
  | succ n ih => rw [hsucc, firstCode_succ lengths hn, ih (by omega), hcount, blCount, Nat.mul_comm]

/-- Every symbol with a length has a triple. -/
theorem build_has {lengths : List Nat} {T : Table} (h : build lengths = some T) {v len : Nat} (hv : lengths[v]? = some len)
    (h0 : len ≠ 0) : ∃ e ∈ T, e.sym = v := by
  unfold build at h
  split_ifs at h
  cases h
  simpa only [Nat.zero_add] using assignCodes_has hv h0 0 (startCodes lengths)

/-- The length and the symbol of a triple determine its code. -/
theorem AssignedAt.ext {lengths next : List Nat} {e f : Entry} {k : Nat} (he : AssignedAt lengths 0 next e k)
    (hf : AssignedAt lengths 0 next f k) : e = f := by
  have hlen : e.len = f.len := Option.some.inj (he.len_eq.symm.trans hf.len_eq)
  have hcode : e.code = f.code := by rw [he.code_eq, hf.code_eq, hlen]
  have hsym : e.sym = f.sym := he.sym_eq.trans hf.sym_eq.symm
  cases e
  cases f
  simp_all only

/-- The triples of a built table are all those whose code is counted from the first code of their length. -/
theorem mem_build_iff {lengths : List Nat} {T : Table} (hl : ∀ l ∈ lengths, l ≤ 15) (h : build lengths = some T) {e : Entry} :
    e ∈ T ↔ AssignedAt lengths 0 (startCodes lengths) e e.sym := by
  refine ⟨build_assignedAt hl h, fun he => ?_⟩
  obtain ⟨f, hf, hsym⟩ := build_has h he.len_eq he.len_ne
  have hassign := build_assignedAt hl h hf
  rw [hsym] at hassign
  rwa [he.ext hassign]

/-! ## The Kraft sum -/

/-- What the codes of the lengths 1 to `n` take of the `2 ^ 15` codes of length 15 (41_huffman.md R113). -/
def kraftUpTo (n : Nat) (lengths : List Nat) : Nat := (lengths.map fun l => if l = 0 ∨ n < l then 0 else 2 ^ (15 - l)).sum

theorem kraftUpTo_zero (lengths : List Nat) : kraftUpTo 0 lengths = 0 := by
  refine List.sum_eq_zero fun x hx => ?_
  obtain ⟨l, -, rfl⟩ := List.mem_map.1 hx
  exact if_pos (Nat.eq_zero_or_pos l)

theorem kraftUpTo_succ (n : Nat) (lengths : List Nat) :
    kraftUpTo (n + 1) lengths = kraftUpTo n lengths + lengths.count (n + 1) * 2 ^ (15 - (n + 1)) := by
  induction lengths with
  | nil => simp [kraftUpTo]
  | cons l rest ih =>
    simp only [kraftUpTo, List.map_cons, List.sum_cons, List.count_cons, beq_iff_eq] at ih ⊢
    rw [ih, Nat.add_mul]
    by_cases hl : l = n + 1
    · subst hl
      simp only [Nat.add_one_ne_zero, Nat.lt_irrefl, Nat.lt_succ_self, or_false, or_true, if_true, if_false]
      omega
    · have hcond : (l = 0 ∨ n + 1 < l) ↔ (l = 0 ∨ n < l) := by omega
      simp only [hcond, if_neg hl]
      omega

theorem kraftUpTo_of_le {lengths : List Nat} (hl : ∀ l ∈ lengths, l ≤ 15) :
    kraftUpTo 15 lengths = (lengths.map fun l => if l = 0 then 0 else 2 ^ (15 - l)).sum := by
  refine congrArg List.sum (List.map_congr_left fun l hm => ?_)
  simp only [Nat.not_lt_of_le (hl l hm), or_false]

/-- The first value after the last code of a length, continued to length 15, is the Kraft sum so far. -/
theorem lastCode_eq_kraftUpTo (lengths : List Nat) {n : Nat} (hn : n ≤ 15) :
    (firstCode lengths n + blCount lengths n) * 2 ^ (15 - n) = kraftUpTo n lengths := by
  induction n with
  | zero => rw [kraftUpTo_zero]; exact Nat.zero_mul _
  | succ n ih =>
    have hpow : 2 ^ (15 - n) = 2 * 2 ^ (15 - (n + 1)) := by rw [← pow_succ']; congr 1; omega
    have hcount : blCount lengths (n + 1) = lengths.count (n + 1) := if_neg (Nat.add_one_ne_zero n)
    rw [kraftUpTo_succ, ← ih (by omega), firstCode_succ lengths hn, Nat.add_mul, hcount, hpow, Nat.mul_assoc]

/-- The codes of every length fit exactly where those of length 15 do: a shorter length's continue to them. -/
theorem lengthsFit_iff (lengths : List Nat) : lengthsFit lengths = true ↔ kraftUpTo 15 lengths ≤ 2 ^ 15 := by
  have h15 : firstCode lengths 15 + blCount lengths 15 = kraftUpTo 15 lengths := by
    simpa using lastCode_eq_kraftUpTo lengths (n := 15) le_rfl
  refine ⟨fun h => h15 ▸ lengthsFit_le h le_rfl, fun h => ?_⟩
  simp only [lengthsFit, List.all_eq_true, List.mem_range, decide_eq_true_eq]
  intro n hn
  rcases Nat.lt_or_eq_of_le (Nat.le_of_lt_succ hn) with hlt | rfl
  · have hpow : 2 ^ n * 2 ^ (15 - n) = 2 ^ 15 := by rw [← pow_add, Nat.add_sub_cancel' hlt.le]
    have hle := lastCode_le_firstCode lengths hlt le_rfl
    exact Nat.le_of_mul_le_mul_right (hle.trans (by omega)) (Nat.two_pow_pos _)
  · exact h15 ▸ h

theorem build_eq_none_iff (lengths : List Nat) : build lengths = none ↔ ¬ lengthsFit lengths = true := by
  unfold build
  split_ifs with h <;> simp [h]

end Sys2Proof

section

open Sys2Proof Sys2Proof.Machine

/-- Settles O5: the insertions count from the first codes, and R112's recurrence determines those. -/
theorem buildAssignsCodes : Obligations.BuildAssignsCodes := by
  unfold Obligations.BuildAssignsCodes
  intro lengths T count code hl h hcount h0 hsucc e
  have hcode (hlen : lengths[e.sym]? = some e.len) : code e.len = (startCodes lengths).getD e.len 0 :=
    eq_firstCode_of_recurrence hcount h0 hsucc (hl _ (List.mem_of_getElem? hlen))
  rw [mem_build_iff hl h]
  constructor
  · intro he
    exact ⟨he.len_ne, he.len_eq, by rw [hcode he.len_eq, he.code_eq]⟩
  · rintro ⟨hne, hlen, he⟩
    exact ⟨(Nat.zero_add _).symm, hne, hlen, by rw [he, hcode hlen]⟩

/-- Settles O6: codes are counted by symbol in a length, and the codes of a length end before those of a longer one. -/
theorem buildGivesPrefixCode : Obligations.BuildGivesPrefixCode := by
  unfold Obligations.BuildGivesPrefixCode
  intro lengths T hl h
  refine ⟨tableOk_of_build hl h, fun e he f hf => ?_⟩
  have hea := build_assignedAt hl h he
  have hfa := build_assignedAt hl h hf
  exact ⟨hea.code_lt_of_sym_lt hfa, hea.shorter_precedes hl hfa⟩

/-- Settles O7: the codes continued to length 15 count the Kraft sum, so they fit exactly where it is at most 1. -/
theorem buildRefusesOverSubscribed : Obligations.BuildRefusesOverSubscribed := by
  unfold Obligations.BuildRefusesOverSubscribed
  intro lengths hl
  rw [build_eq_none_iff, lengthsFit_iff, Nat.not_le, kraftUpTo_of_le hl]

end

/-! PROOF. The walk as a walk of the trie (41_huffman.md R114, R118, R119): the bits read so far either lead to an inner node, where a
longer code begins with them, or end at the leaf of a code, or leave the trie. The fixed tables are complete (R120, R121): every
nine bits begin with a code. -/

namespace Sys2Proof

/-! ## The number that bits make, most significant bit first -/

theorem bitsLSB_fieldValue (bits : List Bool) : bitsLSB bits.length (fieldValue bits) = bits := by
  induction bits with
  | nil => rfl
  | cons b rest ih =>
    have hhalf : (b.toNat + 2 * fieldValue rest) / 2 = fieldValue rest := by
      have := b.toNat_le
      omega
    have hbit : (b.toNat + 2 * fieldValue rest).testBit 0 = b := by cases b <;> simp [Nat.testBit_zero]
    rw [List.length_cons, fieldValue, bitsLSB_succ, hhalf, hbit, ih]

theorem fieldValue_lt (bits : List Bool) : fieldValue bits < 2 ^ bits.length := by
  induction bits with
  | nil => exact Nat.one_pos
  | cons b rest ih =>
    have := b.toNat_le
    rw [fieldValue, List.length_cons, pow_succ]
    omega

theorem fieldValue_drop (k : Nat) (bits : List Bool) : fieldValue (bits.drop k) = fieldValue bits / 2 ^ k := by
  induction k generalizing bits with
  | zero => simp
  | succ k ih =>
    cases bits with
    | nil => simp [fieldValue]
    | cons b rest =>
      have := b.toNat_le
      rw [List.drop_succ_cons, ih, fieldValue, pow_succ', ← Nat.div_div_eq_div_mul]
      congr 1
      omega

/-- The number that the bits read so far make (41_huffman.md R118). -/
def codeValue (bits : List Bool) : Nat := fieldValue bits.reverse

theorem codeValue_concat (bits : List Bool) (b : Bool) : codeValue (bits ++ [b]) = 2 * codeValue bits + b.toNat := by
  rw [codeValue, List.reverse_concat, fieldValue, Nat.add_comm, codeValue]

theorem codeValue_lt (bits : List Bool) : codeValue bits < 2 ^ bits.length := by
  have h := fieldValue_lt bits.reverse
  rwa [List.length_reverse] at h

theorem codeValue_take (bits : List Bool) (k : Nat) :
    codeValue (bits.take k) = codeValue bits / 2 ^ (bits.length - k) := by
  rw [codeValue, List.reverse_take, fieldValue_drop, codeValue]

theorem bitsMSB_codeValue (bits : List Bool) : bitsMSB bits.length (codeValue bits) = bits := by
  have h := bitsLSB_fieldValue bits.reverse
  rw [List.length_reverse] at h
  rw [bitsMSB, codeValue, h, List.reverse_reverse]

theorem eq_of_codeValue_eq {a b : List Bool} (hlen : a.length = b.length) (h : codeValue a = codeValue b) : a = b := by
  rw [← bitsMSB_codeValue a, ← bitsMSB_codeValue b, hlen, h]

/-- Bits begin others where they make the higher part of the number (41_huffman.md R114). -/
theorem prefix_iff_codeValue {a b : List Bool} :
    a <+: b ↔ a.length ≤ b.length ∧ codeValue b / 2 ^ (b.length - a.length) = codeValue a := by
  constructor
  · intro h
    refine ⟨h.length_le, ?_⟩
    rw [← codeValue_take, ← List.prefix_iff_eq_take.1 h]
  · rintro ⟨hle, h⟩
    rw [List.prefix_iff_eq_take]
    refine eq_of_codeValue_eq (by rw [List.length_take, Nat.min_eq_left hle]) ?_
    rw [codeValue_take, h]

theorem codeValue_bitsMSB (n c : Nat) : codeValue (bitsMSB n c) = c % 2 ^ n := by
  rw [codeValue, bitsMSB, List.reverse_reverse, fieldValue_bitsLSB]

theorem Entry.codeValue_bits {e : Entry} (h : e.code < 2 ^ e.len) : codeValue e.bits = e.code := by
  rw [Entry.bits, codeValue_bitsMSB, Nat.mod_eq_of_lt h]

/-- The first bits of others are as many of the higher bits of the number. -/
theorem take_eq_bitsMSB {bits : List Bool} {k : Nat} (hk : k ≤ bits.length) :
    bits.take k = bitsMSB k (codeValue bits / 2 ^ (bits.length - k)) := by
  have h := bitsMSB_codeValue (bits.take k)
  rw [List.length_take, Nat.min_eq_left hk, codeValue_take] at h
  exact h.symm

/-- Bits that begin others are those, or begin them without the last. -/
theorem eq_or_prefix_dropLast {a b : List Bool} (hb : b ≠ []) (h : a <+: b) : a = b ∨ a <+: b.dropLast := by
  rwa [← List.dropLast_concat_getLast hb, List.prefix_concat_iff, List.dropLast_concat_getLast hb] at h

/-! ## Bits that a source holds -/

theorem Holds.prefix_of_length_le {get : Src} {p : Nat} {a b : List Bool} (ha : Holds get p a) (hb : Holds get p b)
    (hlen : a.length ≤ b.length) : a <+: b := by
  rw [List.prefix_iff_getElem?]
  intro k hk
  rw [← hb k (by omega), ha k hk, List.getElem?_eq_getElem hk]

/-- One more bit read. -/
theorem Holds.concat {get : Src} {p : Nat} {bits : List Bool} {b : Bool} (h : Holds get p bits) (hb : get (p + bits.length) = some b) :
    Holds get p (bits ++ [b]) := by
  intro k hk
  rw [List.length_append, List.length_singleton] at hk
  rcases Nat.lt_or_eq_of_le (Nat.le_of_lt_succ hk) with hlt | rfl
  · rw [h k hlt, List.getElem?_append_left hlt]
  · rw [hb, List.getElem?_concat_length]

/-- Bits held end before the first that is missing. -/
theorem Holds.length_le {get : Src} {p k : Nat} {bits : List Bool} (h : Holds get p bits) (hk : get (p + k) = none) :
    bits.length ≤ k := by
  by_contra hlt
  have hnone := (h k (by omega)).symm.trans hk
  exact hlt (List.getElem?_eq_none_iff.1 hnone)

end Sys2Proof

namespace Sys2Proof.Machine

/-! ## The trie of a table -/

/-- The bits lead to an inner node of the trie: a longer code begins with them (41_huffman.md R114). -/
def InnerNode (T : Table) (bits : List Bool) : Prop := ∃ e ∈ T, bits.length < e.len ∧ bits <+: e.bits

section

variable {n : Nat} {T : Table} {bits : List Bool} {e f : Entry}

theorem TableOk.codeValue_bits (hT : TableOk n T) (he : e ∈ T) : codeValue e.bits = e.code := by
  obtain ⟨-, -, hcode, -⟩ := hT.1 e he
  exact e.codeValue_bits hcode

/-- No code of the table begins another (10_state.md R30). -/
theorem TableOk.eq_of_prefix (hT : TableOk n T) (he : e ∈ T) (hf : f ∈ T) (h : e.bits <+: f.bits) : e = f := by
  obtain ⟨hlen, hvalue⟩ := prefix_iff_codeValue.1 h
  rw [hT.codeValue_bits he, hT.codeValue_bits hf, e.bits_length, f.bits_length] at hvalue
  rw [e.bits_length, f.bits_length] at hlen
  exact hT.eq_of_codesClash he hf (.inl ⟨hlen, hvalue⟩)

/-- The first bits of a code lead to no leaf of another. -/
theorem TableOk.not_prefix_inner (hT : TableOk n T) (hi : InnerNode T bits) (he : e ∈ T) : ¬ e.bits <+: bits := by
  intro h
  obtain ⟨f, hf, hlt, hpre⟩ := hi
  obtain rfl := hT.eq_of_prefix he hf (h.trans hpre)
  have hle := h.length_le
  rw [e.bits_length] at hle
  omega

theorem TableOk.innerNode_nil (hT : TableOk n T) (hne : T ≠ []) : InnerNode T [] := by
  obtain ⟨e, he⟩ := List.exists_mem_of_ne_nil T hne
  exact ⟨e, he, (hT.1 e he).1, List.nil_prefix⟩

theorem TableOk.length_lt_of_inner (hT : TableOk n T) (hi : InnerNode T bits) : bits.length < 15 := by
  obtain ⟨e, he, hlt, -⟩ := hi
  exact hlt.trans_le (hT.1 e he).2.1

/-- A leaf reached by bits is that of the code which they are. -/
theorem TableOk.bits_of_leafAt (hT : TableOk n T) (h : leafAt T (codeValue bits) bits.length = some e) : e ∈ T ∧ e.bits = bits := by
  obtain ⟨he, hlen, hcode⟩ := leafAt_spec h
  exact ⟨he, eq_of_codeValue_eq (e.bits_length.trans hlen) ((hT.codeValue_bits he).trans hcode)⟩

theorem TableOk.bits_ne_of_leafAt (hT : TableOk n T) (h : leafAt T (codeValue bits) bits.length = none) (he : e ∈ T) :
    e.bits ≠ bits := by
  rintro rfl
  refine List.find?_eq_none.1 h e he ?_
  rw [e.bits_length, hT.codeValue_bits he]
  simp

theorem TableOk.innerAt_iff (hT : TableOk n T) : innerAt T (codeValue bits) bits.length = true ↔ InnerNode T bits := by
  rw [innerAt, List.any_eq_true]
  refine exists_congr fun e => and_congr_right fun he => ?_
  rw [prefix_iff_codeValue, hT.codeValue_bits he, e.bits_length]
  simp only [Bool.and_eq_true, decide_eq_true_eq, beq_iff_eq]
  exact and_congr_right fun hlt => (and_iff_right hlt.le).symm

/-- The bits leave the trie with the last of them (41_huffman.md R119). -/
structure LeavesTrie (T : Table) (bits : List Bool) : Prop where
  ne_nil : bits ≠ []
  inner : InnerNode T bits.dropLast
  not_begins : ∀ e ∈ T, ¬ bits <+: e.bits

theorem LeavesTrie.not_prefix_inner {bits' : List Bool} (h : LeavesTrie T bits) (hi : InnerNode T bits') : ¬ bits <+: bits' := by
  obtain ⟨e, he, -, hpre⟩ := hi
  exact fun hbits => h.not_begins e he (hbits.trans hpre)

/-- No code stands at bits that leave the trie. -/
theorem LeavesTrie.not_prefix (h : LeavesTrie T bits) (hT : TableOk n T) (he : e ∈ T) : ¬ e.bits <+: bits := by
  intro hpre
  rcases eq_or_prefix_dropLast h.ne_nil hpre with heq | hpre
  · exact h.not_begins e he (heq ▸ List.prefix_rfl)
  · exact hT.not_prefix_inner h.inner he hpre

/-- Bits leave the trie at one place only. -/
theorem LeavesTrie.eq_of_prefix {bits' : List Bool} (h : LeavesTrie T bits) (h' : LeavesTrie T bits') (hpre : bits <+: bits') :
    bits = bits' :=
  (eq_or_prefix_dropLast h'.ne_nil hpre).resolve_right (h.not_prefix_inner h'.inner)

theorem TableOk.leavesTrie_iff (hT : TableOk n T) : LeavesTrie T bits ↔
    bits ≠ [] ∧ (∃ e ∈ T, bits.length ≤ e.len ∧ bits.dropLast <+: e.bits) ∧ (∀ e ∈ T, ¬ bits <+: e.bits) ∧
      ∀ e ∈ T, ¬ e.bits <+: bits := by
  have hinner (hne : bits ≠ []) :
      InnerNode T bits.dropLast ↔ ∃ e ∈ T, bits.length ≤ e.len ∧ bits.dropLast <+: e.bits := by
    have hpos := List.length_pos_iff.2 hne
    refine exists_congr fun e => and_congr_right fun _ => and_congr_left fun _ => ?_
    rw [List.length_dropLast]
    omega
  constructor
  · intro h
    exact ⟨h.ne_nil, (hinner h.ne_nil).1 h.inner, h.not_begins, fun e he => h.not_prefix hT he⟩
  · rintro ⟨hne, hi, hnot, -⟩
    exact ⟨hne, (hinner hne).2 hi, hnot⟩

/-! ## What a walk answers -/

/-- The answers of a walk that starts at `p`: the symbol of a code that stands there, `E_BOUNDS` at an inner node where no bit is
left, or `E_NOLEAF` at the bit that leaves the trie (41_huffman.md R118). -/
inductive WalkAnswer (st : Stage) (T : Table) (get : Src) (p : Nat) : Read Nat → Prop where
  | symbol (e : Entry) (he : e ∈ T) (hbits : Holds get p e.bits) : WalkAnswer st T get p (.ok e.sym (p + e.len))
  | cut (bits : List Bool) (hi : InnerNode T bits) (hbits : Holds get p bits) (hend : get (p + bits.length) = none) :
    WalkAnswer st T get p (.stop .bounds st (p + bits.length) [])
  | off (bits : List Bool) (hl : LeavesTrie T bits) (hbits : Holds get p bits) :
    WalkAnswer st T get p (.stop .noLeaf st (p + bits.length) [])

/-- From an inner node on, the loop of the walk follows the trie to one of its answers. -/
theorem TableOk.walkFrom_answer (hT : TableOk n T) (st : Stage) {get : Src} {p fuel : Nat} (hi : InnerNode T bits)
    (hbits : Holds get p bits) (hfuel : 15 ≤ bits.length + fuel) :
    WalkAnswer st T get p (walkFrom st T get fuel (codeValue bits) bits.length (p + bits.length)) := by
  induction fuel generalizing bits with
  | zero =>
    have := hT.length_lt_of_inner hi
    omega
  | succ fuel ih =>
    rcases readBit_cases st get (p + bits.length) with ⟨b, hb, hr⟩ | ⟨hb, hr⟩
    · have hlen : (bits ++ [b]).length = bits.length + 1 := by rw [List.length_append, List.length_singleton]
      have hheld := hbits.concat hb
      rw [walkFrom, hr]
      simp only [Read.bind, ← codeValue_concat, Nat.add_assoc, ← hlen]
      cases hleaf : leafAt T (codeValue (bits ++ [b])) (bits ++ [b]).length with
      | some e =>
        obtain ⟨he, hcode⟩ := hT.bits_of_leafAt hleaf
        rw [← hcode, e.bits_length]
        exact .symbol e he (hcode ▸ hheld)
      | none =>
        simp only
        split_ifs with hinner
        · exact ih (hT.innerAt_iff.1 hinner) hheld (by omega)
        · refine .off _ ⟨by simp, by rwa [List.dropLast_concat], fun e he hpre => ?_⟩ hheld
          refine hinner (hT.innerAt_iff.2 ⟨e, he, ?_, hpre⟩)
          rw [← e.bits_length]
          exact hpre.length_le.lt_of_ne fun heq => hT.bits_ne_of_leafAt hleaf he (hpre.eq_of_length heq).symm
    · rw [walkFrom, hr]
      exact .cut bits hi hbits hb

theorem TableOk.walk_answer (hT : TableOk n T) (hne : T ≠ []) (st : Stage) (get : Src) (p : Nat) :
    WalkAnswer st T get p (walk st T get p) := by
  rw [walk, if_neg (by simpa using hne)]
  exact hT.walkFrom_answer st (hT.innerNode_nil hne) nofun (Nat.le_add_left 15 _)

theorem walk_nil (st : Stage) (get : Src) (p : Nat) : walk st [] get p = .stop .emptyTable st p [] := rfl

/-- A symbol returned is that of a code which stands at the cursor. -/
theorem TableOk.code_of_walk_ok (hT : TableOk n T) {st : Stage} {get : Src} {p v q : Nat} (h : walk st T get p = .ok v q) :
    ∃ e ∈ T, e.sym = v ∧ q = p + e.len ∧ Holds get p e.bits := by
  have hne : T ≠ [] := by
    rintro rfl
    cases (walk_nil st get p).symm.trans h
  have ha := hT.walk_answer hne st get p
  rw [h] at ha
  cases ha with
  | symbol e he hbits => exact ⟨e, he, rfl, rfl, hbits⟩

theorem TableOk.leavesTrie_of_walk (hT : TableOk n T) (hne : T ≠ []) {st : Stage} {get : Src} {p q : Nat}
    (h : walk st T get p = .stop .noLeaf st q []) : ∃ bits, LeavesTrie T bits ∧ Holds get p bits ∧ q = p + bits.length := by
  have ha := hT.walk_answer hne st get p
  rw [h] at ha
  cases ha with
  | off bits hl hbits => exact ⟨bits, hl, hbits, rfl⟩

/-- Where bits stand that leave the trie, the walk stops with them: no code stands there, and the walk does not end at an inner node
before. -/
theorem TableOk.walk_of_leavesTrie (hT : TableOk n T) (hne : T ≠ []) (st : Stage) {get : Src} {p : Nat} (hl : LeavesTrie T bits)
    (hbits : Holds get p bits) : walk st T get p = .stop .noLeaf st (p + bits.length) [] := by
  have ha := hT.walk_answer hne st get p
  generalize walk st T get p = r at ha ⊢
  cases ha with
  | symbol e he hcode =>
    rcases Nat.le_total e.bits.length bits.length with hle | hle
    · exact absurd (hcode.prefix_of_length_le hbits hle) (hl.not_prefix hT he)
    · exact absurd (hbits.prefix_of_length_le hcode hle) (hl.not_begins e he)
  | cut bits' hi hbits' hend =>
    exact absurd (hbits.prefix_of_length_le hbits' (hbits.length_le hend)) (hl.not_prefix_inner hi)
  | off bits' hl' hbits' =>
    rcases Nat.le_total bits.length bits'.length with hle | hle
    · rw [hl.eq_of_prefix hl' (hbits.prefix_of_length_le hbits' hle)]
    · rw [hl'.eq_of_prefix hl (hbits'.prefix_of_length_le hbits hle)]

/-! ## Complete tables -/

/-- Every `m` bits begin with a code of the table (41_huffman.md R119, R120). -/
def Complete (m : Nat) (T : Table) : Prop := ∀ bits : List Bool, bits.length = m → ∃ e ∈ T, e.bits <+: bits

variable {m : Nat}

theorem Complete.ne_nil (hc : Complete m T) : T ≠ [] := by
  obtain ⟨e, he, -⟩ := hc (List.replicate m false) List.length_replicate
  exact List.ne_nil_of_mem he

theorem Complete.length_lt_of_inner (hc : Complete m T) (hT : TableOk n T) (hi : InnerNode T bits) : bits.length < m := by
  by_contra hle
  obtain ⟨e, he, hpre⟩ := hc (bits.take m) (by rw [List.length_take]; omega)
  exact hT.not_prefix_inner hi he (hpre.trans (List.take_prefix m bits))

/-- No bits leave the trie of a complete table: continued to `m` bits, they would begin with a code. -/
theorem Complete.not_leavesTrie (hc : Complete m T) (hT : TableOk n T) : ¬ LeavesTrie T bits := by
  intro hl
  have hlen := hc.length_lt_of_inner hT hl.inner
  rw [List.length_dropLast] at hlen
  obtain ⟨e, he, hpre⟩ := hc (bits ++ List.replicate (m - bits.length) false)
    (by rw [List.length_append, List.length_replicate]; omega)
  rcases List.prefix_or_prefix_of_prefix hpre (List.prefix_append bits _) with h | h
  · exact hl.not_prefix hT he h
  · exact hl.not_begins e he h

/-- A walk of a complete table returns a symbol or runs out of bits. -/
theorem Complete.walk_cases (hc : Complete m T) (hT : TableOk n T) (st : Stage) (get : Src) (p : Nat) :
    (∃ v q, walk st T get p = .ok v q) ∨ (∃ k, k < m ∧ get (p + k) = none ∧ walk st T get p = .stop .bounds st (p + k) []) := by
  have ha := hT.walk_answer hc.ne_nil st get p
  generalize walk st T get p = r at ha ⊢
  cases ha with
  | symbol e => exact .inl ⟨_, _, rfl⟩
  | cut bits hi _ hend => exact .inr ⟨bits.length, hc.length_lt_of_inner hT hi, hend, rfl⟩
  | off bits hl => exact absurd hl (hc.not_leavesTrie hT)

end

/-! ## The fixed tables -/

theorem tableOk_fixLL : TableOk 288 fixLL := (tableOk_of_build fixLLLengths_le build_fixLLLengths).mono fixLLLengths_length.le

theorem tableOk_fixD : TableOk 32 fixD := (tableOk_of_build fixDLengths_le build_fixDLengths).mono fixDLengths_length.le

/-- Bits begin with a code whose number is their higher part. -/
theorem exists_prefix_of_codeBits {T : Table} {bits : List Bool} (v : Nat) {k : Nat} (hk : k ≤ bits.length)
    (h : codeBits T v = some (bitsMSB k (codeValue bits / 2 ^ (bits.length - k)))) : ∃ e ∈ T, e.bits <+: bits := by
  obtain ⟨e, he, -, hbits⟩ := codeBits_some h
  refine ⟨e, he, ?_⟩
  rw [← hbits, ← take_eq_bitsMSB hk]
  exact List.take_prefix k bits

/-- Nine bits begin with a code of seven below 24, of eight from 48 to 199, or of nine from 400 on (30_encoding.md R81). -/
theorem complete_fixLL : Complete 9 fixLL := by
  intro bits hlen
  obtain ⟨h8, h9, h7, h8', -⟩ := fixedCodes
  have hlt := codeValue_lt bits
  have hbegins (v k c : Nat) (hk : k ≤ 9) (hc : codeValue bits / 2 ^ (9 - k) = c) (h : codeBits fixLL v = some (bitsMSB k c)) :
      ∃ e ∈ fixLL, e.bits <+: bits :=
    exists_prefix_of_codeBits v (hk.trans_eq hlen.symm) (by rw [hlen, hc, h])
  rw [hlen] at hlt
  rcases Nat.lt_or_ge (codeValue bits) 96 with h | h
  · exact hbegins (256 + codeValue bits / 4) 7 _ (by omega) (by omega) (h7 _ (by omega) (by omega))
  rcases Nat.lt_or_ge (codeValue bits) 384 with h' | h'
  · exact hbegins (codeValue bits / 2 - 48) 8 _ (by omega) (by omega) (h8 _ (by omega))
  rcases Nat.lt_or_ge (codeValue bits) 400 with h'' | h''
  · exact hbegins (280 + (codeValue bits / 2 - 192)) 8 _ (by omega) (by omega) (h8' _ (by omega) (by omega))
  · exact hbegins (144 + (codeValue bits - 400)) 9 _ (by omega) (by omega) (h9 _ (by omega) (by omega))

/-- Every five bits are a code, which nine bits begin with (30_encoding.md R81). -/
theorem complete_fixD : Complete 9 fixD := by
  intro bits hlen
  have hlt := codeValue_lt bits
  rw [hlen] at hlt
  refine exists_prefix_of_codeBits (codeValue bits / 2 ^ 4) (k := 5) (by omega) ?_
  rw [hlen]
  exact codeBits_fixD (by omega)

end Sys2Proof.Machine

section

open Sys2Proof Sys2Proof.Machine

/-- Settles O8: a code that stands at the cursor is followed to its leaf, and a symbol is returned at no other place. -/
theorem walkDecodesCodes : Obligations.WalkDecodesCodes := by
  unfold Obligations.WalkDecodesCodes
  intro n T st get p v q hT
  constructor
  · exact hT.code_of_walk_ok
  · rintro ⟨e, he, rfl, rfl, hbits⟩
    exact hT.walk_code he st hbits

/-- Settles O9: a walk that leaves the trie has read such bits, and where such bits stand it can stop at no other place. -/
theorem walkLeavesTheTrie : Obligations.WalkLeavesTheTrie := by
  unfold Obligations.WalkLeavesTheTrie
  refine ⟨fun n T st get p q hT hne => ⟨fun h => ?_, ?_⟩, walk_nil⟩
  · obtain ⟨bits, hl, hbits, hq⟩ := hT.leavesTrie_of_walk hne h
    obtain ⟨hbne, hrest⟩ := hT.leavesTrie_iff.1 hl
    exact ⟨bits, hbne, hq, hbits, hrest⟩
  · rintro ⟨bits, hbne, rfl, hbits, hrest⟩
    exact hT.walk_of_leavesTrie hne st (hT.leavesTrie_iff.2 ⟨hbne, hrest⟩) hbits

/-- Settles O10: no bits leave the trie of a complete table, and the fixed tables are complete. -/
theorem fixedTablesComplete : Obligations.FixedTablesComplete := by
  unfold Obligations.FixedTablesComplete
  intro T st get p hT
  rcases hT with hT | hT <;> rw [hT]
  · exact complete_fixLL.walk_cases tableOk_fixLL st get p
  · exact complete_fixD.walk_cases tableOk_fixD st get p

end

/-! PROOF. A literal, the end of a block, and a walk that finds neither (43_symbols_lz77.md R160 to R163). -/

section

open Sys2Proof Sys2Proof.Machine

/-- Settles O23: a literal is the append or its overflow, and a walk that stops has latched nothing. -/
theorem literalAndEndOfBlock : Obligations.LiteralAndEndOfBlock := by
  unfold Obligations.LiteralAndEndOfBlock
  intro s
  refine ⟨fun b hroom => ⟨Memory.write s.infMem s.infLen b, ?_, Memory.byte_write_self ..,
    fun a => Memory.byte_write_other _ _ _ _⟩, fun b hfull => ?_, rfl, fun hh hb hp hd e st q g hw => ?_⟩
  · rw [exec, execLit, put, if_neg (Nat.not_le_of_lt hroom)]
    rfl
  · rw [exec, execLit, put, if_pos hfull]
    rfl
  · have he : expected s = some .ll := by simp [expected, hp, hd]
    obtain ⟨-, rfl, -⟩ := walk_stop hw
    exact step_of_window_stop hh hb he rfl (field_of_walk_stop hw)

end

/-! PROOF. The rest of the block decoder (42_block_decoder.md): the count of code lengths through every step (R140, R145), the stored body
(R133), the split of the code lengths at the table build (R147), and the block headers (R131, R132, R135). -/

namespace Sys2Proof.Machine

/-! ## The count of code lengths -/

/-- Outside the two phases of R140 the count is free. -/
theorem CountOk.of_phase {s : State} (h : s.phase ≠ .dynLengths ∧ s.phase ≠ .dynBuild) : CountOk s :=
  ⟨fun _ hp => absurd hp h.1, fun _ hp => absurd hp h.2⟩

theorem CountOk.of_not_busy {s : State} (h : s.busy = false) : CountOk s :=
  ⟨fun hb => absurd hb (by simp [h]), fun hb => absurd hb (by simp [h])⟩

theorem total_pos (s : State) : 0 < s.total := Nat.succ_pos _

/-- A block has at least 258 code lengths, so a sequence begins below its total; one length, or a run that was checked, takes a
count below the total at most to it. -/
theorem CountOk.of_elementEffect {f : Format} {s t : State} (hf : FetchedIn f s) (hs : CountOk s) (h : ElementEffect s f t) :
    CountOk t := by
  cases h
  case lengths r v _ hr =>
    have hlt : s.nlens < s.total := hs.1 hf.busy (expected_some hf.expects)
    refine ⟨fun _ hp => ?_, fun _ hp => ?_⟩ <;> dsimp only at hp <;> split_ifs at hp with hn
    · have hbelow : s.nlens + r < s.total := by omega
      exact hbelow
    · exact hn
  case dynamic => exact ⟨fun _ _ => total_pos _, nofun⟩
  case block ph hph => exact .of_phase (by rcases hph with rfl | rfl | rfl <;> exact ⟨nofun, nofun⟩)
  case trailer | stored | blockDone => exact .of_phase ⟨nofun, nofun⟩
  case header | literal | length | copied | row => exact hs
  all_goals exact .of_not_busy rfl

theorem CountOk.of_phaseEffect {s t : State} (hs : CountOk s) (h : PhaseEffect s t) : CountOk t := by
  cases h
  case rest => exact hs
  case raw | built | nextBlock | toUnfilter | rows => exact .of_phase ⟨nofun, nofun⟩
  all_goals exact .of_not_busy rfl

/-- A fetch that stops may have latched the header's counts, and so another total, but it ends the run. -/
theorem CountOk.of_coreEffect {s t : State} (hs : CountOk s) (h : CoreEffect s t) : CountOk t := by
  cases h with
  | idle => exact hs
  | phase _ _ ht => exact hs.of_phaseEffect ht
  | short | stop => exact .of_not_busy rfl
  | element f i p _ hb he hl _ h1 h2 ht =>
    exact of_elementEffect (.of_element hb he hl h1 h2) (advance_keeps hs (fun _ _ => hs) he (by omega) h2) ht

theorem CountOk.of_hostEffect {s t : State} (hs : CountOk s) (h : HostEffect s t) : CountOk t := by
  cases h
  case clear | startInflate | startUnfilter | reset => exact .of_phase ⟨nofun, nofun⟩
  case startError => exact .of_not_busy rfl
  case write sp _ _ _ _ => cases sp <;> exact hs
  all_goals exact hs

/-! ## The copy of a stored body -/

@[simp] theorem storedByte_infGen (s : State) : (storedByte s).infGen = s.infGen := rfl
@[simp] theorem inByte_storedByte (s : State) (a : Nat) : (storedByte s).inByte a = s.inByte a := rfl

theorem infByte_storedByte_self (s : State) : (storedByte s).infByte s.infLen = s.inByte s.byteCursor :=
  infByte_appendInf_self _ _

theorem infByte_storedByte_other (s : State) {a : Nat} (h : a ≠ s.infLen) : (storedByte s).infByte a = s.infByte a :=
  infByte_appendInf_other _ _ h

/-- After a first byte has been copied, the cursor ends at a byte boundary whether or not more bytes follow. -/
theorem storedByte_bp_after (n : Nat) (s : State) :
    (if n = 0 then (storedByte s).bp else (storedByte s).byteCursor + n) = s.byteCursor + (n + 1) := by
  split_ifs with h
  · rw [h]; rfl
  · rw [storedByte_byteCursor]; omega

theorem storedByte_bb_after (n : Nat) (s : State) : (if n = 0 then (storedByte s).bb else 0) = 0 := by
  split_ifs <;> rfl

/-- Bytes that are left and fit are appended in order; the cursor moves to a byte boundary only with the first of them. -/
theorem copyStored_bytes {n : Nat} {s : State} (hleft : s.byteCursor + n ≤ s.winEnd ∨ n = 0)
    (hroom : s.infLen + n ≤ s.infCap ∨ n = 0) :
    ∃ m : Memory, copyStored n s = .ok () { s with
        infMem := m, infLen := s.infLen + n
        bp := if n = 0 then s.bp else s.byteCursor + n, bb := if n = 0 then s.bb else 0 } ∧
      (∀ k, k < n → Memory.byte .inf s.infGen m (s.infLen + k) = s.inByte (s.byteCursor + k)) ∧
      (∀ a, a < s.infLen ∨ s.infLen + n ≤ a → Memory.byte .inf s.infGen m a = s.infByte a) := by
  induction n generalizing s with
  | zero => exact ⟨s.infMem, rfl, nofun, fun _ _ => rfl⟩
  | succ n ih =>
    obtain ⟨m, hcopy, hnew, hold⟩ := ih (s := storedByte s) (.inl (by simp only [storedByte_byteCursor, storedByte_winEnd]; omega))
      (.inl (by simp only [storedByte_infLen, storedByte_infCap]; omega))
    simp only [storedByte_infLen, storedByte_infGen, storedByte_byteCursor, inByte_storedByte] at hnew hold
    refine ⟨m, ?_, fun k hk => ?_, fun a ha => ?_⟩
    · rw [copyStored_succ (by omega) (by omega), hcopy, storedByte_bp_after, storedByte_bb_after, storedByte_infLen,
        Nat.add_right_comm, if_neg (Nat.succ_ne_zero n), if_neg (Nat.succ_ne_zero n)]
      rfl
    · cases k with
      | zero => rw [Nat.add_zero, hold _ (.inl (Nat.lt_succ_self _)), infByte_storedByte_self, Nat.add_zero]
      | succ k => rw [← Nat.add_assoc, Nat.add_right_comm, hnew k (by omega), Nat.add_right_comm, Nat.add_assoc]
    · rw [hold a (by omega), infByte_storedByte_other s (by omega)]

/-! ## Runs of code lengths -/

theorem lengthRun_of_exceeds {r : Nat} (v : BitVec 4) {s : State} (h : s.total < s.nlens + r) :
    lengthRun r v s = raise .codeLen .dynLengths s.bp s := by
  rw [lengthRun, if_pos h]

/-! ## The table build -/

/-- The lengths of a slice, told entry by entry. -/
theorem lensSlice_eq_map {k n : Nat} (s : State) (h : k + n ≤ 320) :
    lensSlice k n s = (List.range n).map fun j => (s.lens.toList.getD (k + j) 0).toNat := by
  have hlen : (s.lens.toList.drop k).length = 320 - k := by rw [List.length_drop, Vector.length_toList]
  refine List.ext_getElem (by simp [lensSlice]; omega) fun j h1 h2 => ?_
  have hj : k + j < s.lens.toList.length := by
    rw [List.length_map, List.length_range] at h2
    rw [Vector.length_toList]
    omega
  simp only [lensSlice, List.getElem_map, List.getElem_take, List.getElem_drop, List.getElem_range, List.getD_eq_getElem _ _ hj]

theorem llLengths_eq_map (s : State) :
    llLengths s = (List.range (s.hlit.toNat + 257)).map fun k => (s.lens.toList.getD k 0).toNat := by
  have htotal := total_le s
  unfold State.total at htotal
  rw [llLengths, lensSlice_eq_map s (by omega)]
  simp only [Nat.zero_add]

theorem dLengths_eq_map (s : State) :
    dLengths s = (List.range (s.hdist.toNat + 1)).map fun k => (s.lens.toList.getD (s.hlit.toNat + 257 + k) 0).toNat :=
  lensSlice_eq_map s (total_le s)

/-- A step in a phase that performs no stream element (44_inflate_engine.md R240). -/
theorem step_of_phase {s : State} (hh : s.host = []) (hb : s.busy = true) (he : expected s = none) :
    step s = .next (phaseStep s) := by
  simp only [step_of_no_host hh, coreStep, hb, he, Bool.not_true, if_neg Bool.false_ne_true]

end Sys2Proof.Machine

section

open Sys2Proof Sys2Proof.Machine

/-- Settles O57: a sequence starts at 0 below its total, a run is checked before it is appended, and the build is entered at the total. -/
theorem stepKeepsCount : Obligations.StepKeepsCount := by
  unfold Obligations.StepKeepsCount
  intro s t hs h
  exact keeps_of_effects (fun _ _ hs => hs) (fun _ _ => CountOk.of_coreEffect) (fun _ _ => CountOk.of_hostEffect) hs h

/-- Settles O17: the body is the copy of its bytes, by induction on their number, after which the block is complete. -/
theorem storedBodyCopies : Obligations.StoredBodyCopies := by
  unfold Obligations.StoredBodyCopies
  intro len nlen s hleft hroom
  have hzero : len = 0 ↔ len.toNat = 0 := by rw [← BitVec.toNat_inj]; rfl
  simp only [hzero] at hleft hroom ⊢
  obtain ⟨m, hcopy, hnew, hold⟩ := copyStored_bytes (s := { s with stlen := len, stnlen := nlen }) hleft hroom
  refine ⟨m, ?_, hnew, hold⟩
  rw [exec, execStBody, hcopy]
  rfl

/-- Settles O22: the two slices of the code lengths are built in order, and the second build is entered with the first table latched. -/
theorem dynamicTablesBuilt : Obligations.DynamicTablesBuilt := by
  unfold Obligations.DynamicTablesBuilt
  intro s hh hb hp ll dd hll hdd
  rw [← llLengths_eq_map] at hll
  rw [← dLengths_eq_map] at hdd
  subst hll hdd
  have hstep : step s = .next (dynBuild s) := by
    rw [step_of_phase hh hb (by simp only [expected, hp]), phaseStep, hp]
  have hd (T : Table) : dLengths { s with dynLL := T } = dLengths s := rfl
  rw [hstep]
  refine ⟨fun hT => ?_, fun T hT hU => ?_, fun T U hT hU => ?_⟩
  · simp only [dynBuild, hT]
  · simp only [dynBuild, hT, buildD, hd, hU]
  · simp only [dynBuild, hT, buildD, hd, hU]

/-- Settles O15: each block element is an update of the registers it latches. -/
theorem blockHeaderElements : Obligations.BlockHeaderElements := by
  unfold Obligations.BlockHeaderElements
  exact fun _ _ => ⟨rfl, rfl, rfl⟩

/-- Settles O21: the three repeats are runs, which are checked against the total, and `CL.REP` looks for a previous length first. -/
theorem codeLengthRunsMustFit : Obligations.CodeLengthRunsMustFit := by
  unfold Obligations.CodeLengthRunsMustFit
  refine fun s => ⟨fun x hx => ?_, fun x hx => ?_, fun x hx => ?_⟩
  · rw [exec, execClRep]
    split_ifs with h0
    · rfl
    · rw [lengthRun_of_exceeds _ (hx.resolve_left h0)]
  · rw [exec, execClZ3, lengthRun_of_exceeds _ hx]
  · rw [exec, execClZ11, lengthRun_of_exceeds _ hx]

end

/-! PROOF. The run (44_inflate_engine.md): START and CLEAR (R242, R243), the zlib envelope and the raw window (R246, R248), and the end
of a block (R244, R251). -/

namespace Sys2Proof.Machine

/-! ## START -/

/-- The clearing before START's checks, with the inflating operations written out (44_inflate_engine.md R242). -/
theorem startClear_eq (s : State) : startClear s = { s with
    done := false, err := false, busy := true, errCode := none, errStage := .none, errPos := 0
    bp := 0, bb := 0, winLo := 0, winEnd := 0, bfinal := false, btype := 0, cmf := 0, flg := 0, adler := 0, pixLen := 0
    infLen := if s.op = 1 ∨ s.op = 2 ∨ s.op = 4 then 0 else s.infLen, hdrSeen := false, distNext := false } := by
  simp only [startClear, inflates_iff]

theorem start_of_inflates {s : State} (h : s.inflates = true) :
    start s = if s.inCap < s.inLen then raise .cmd .cmd 0 (startClear s) else { startClear s with phase := .envelope } := by
  have hop : (s.op == 3) = false := beq_false_of_ne fun ho => by simp [inflates_of_op_three ho] at h
  simp only [start, h, hop, Bool.or_false, Bool.not_true, Bool.true_and, Bool.false_and, Bool.false_eq_true, if_false,
    decide_eq_true_eq]

theorem start_of_unfilter {s : State} (h : s.op = 3) :
    start s = if s.infCap < s.infLen then raise .cmd .cmd 0 (startClear s) else { startClear s with phase := .unfCfg } := by
  have hop : (s.op == 3) = true := beq_of_eq h
  simp only [start, hop, inflates_of_op_three h, Bool.or_true, Bool.not_true, Bool.true_and, Bool.false_and, Bool.false_eq_true,
    if_false, if_true, decide_eq_true_eq]

theorem start_of_illegal {s : State} (h : s.op = 0 ∨ s.op = 5 ∨ s.op = 6 ∨ s.op = 7) :
    start s = raise .cmd .cmd 0 (startClear s) := by
  have hillegal : (!(s.inflates || s.op == 3)) = true := by
    rcases h with h | h | h | h <;> rw [State.inflates, h] <;> rfl
  rw [start, if_pos hillegal]

/-! ## The envelope -/

/-- Four bytes as one word, first byte most significant (20_memory.md R43). -/
theorem ofNat_four_bytes (a b c d : Byte) :
    BitVec.ofNat 32 (a.toNat * 16777216 + b.toNat * 65536 + c.toNat * 256 + d.toNat) = a ++ b ++ c ++ d := by
  have happend : (a ++ b ++ c ++ d).toNat = a.toNat * 16777216 + b.toNat * 65536 + c.toNat * 256 + d.toNat := by
    simp only [toNat_append_eq_add]
    omega
  rw [← happend, BitVec.ofNat_toNat, BitVec.setWidth_eq]

/-- Reading the header from an input that has its two bytes (30_encoding.md R71). -/
theorem readZHdr_input {s : State} {limit : Nat} (h : 2 ≤ limit) :
    readZHdr (inputSrc s limit) 0 = .ok (.zHdr (s.inByte 0) (s.inByte 1)) 16 := by
  have h0 := readByte_inputSrc .envelope s (by omega : 0 < limit)
  have h1 := readByte_inputSrc .envelope s (by omega : 1 < limit)
  simp only [readZHdr, h0, h1, Read.field, BitVec.ofNat_toNat, BitVec.setWidth_eq]

/-- Reading the trailer from an input that has its four bytes (30_encoding.md R71). -/
theorem readZTrl_input {s : State} {limit k : Nat} (h : k + 4 ≤ limit) : readZTrl (inputSrc s limit) (8 * k) =
    .ok (.zTrl (s.inByte k ++ s.inByte (k + 1) ++ s.inByte (k + 2) ++ s.inByte (k + 3))) (8 * (k + 4)) := by
  have hbyte (j : Nat) (hj : j < 4) := readByte_inputSrc .envelope s (by omega : k + j < limit)
  have h0 := hbyte 0 (by omega)
  have h1 := hbyte 1 (by omega)
  have h2 := hbyte 2 (by omega)
  have h3 := hbyte 3 (by omega)
  simp only [readZTrl, Nat.add_zero] at h0 h1 h2 h3 ⊢
  simp only [h0, h1, h2, h3, Read.field, ofNat_four_bytes]

section

variable {s : State}

/-- An input shorter than the envelope (44_inflate_engine.md R248). -/
theorem step_of_short_envelope (hh : s.host = []) (hb : s.busy = true) (he : expected s = some .zHdr) (hl : s.inLen < 6) :
    step s = .next (raise .bounds .envelope s.bp s) := by
  simp [step_of_no_host hh, coreStep, hb, he, runElement, fetchElement, hl]

theorem step_of_header (hh : s.host = []) (hb : s.busy = true) (he : expected s = some .zHdr) (hl : 6 ≤ s.inLen) :
    step s = .next { s with cmf := s.inByte 0, flg := s.inByte 1, hdrSeen := true } :=
  (step_of_no_host hh).trans (coreStep_of_decode_ok hb he (by omega) (readZHdr_input (by omega)))

theorem step_of_trailer (hh : s.host = []) (hb : s.busy = true) (he : expected s = some .zTrl) (hl : 4 ≤ s.inLen) :
    step s = .next { s with
      adler := s.inByte (s.inLen - 4) ++ s.inByte (s.inLen - 3) ++ s.inByte (s.inLen - 2) ++ s.inByte (s.inLen - 1)
      hdrSeen := false, winLo := 2, winEnd := s.inLen - 4, bp := 2, bb := 0, phase := .blockHeader } := by
  have hread := readZTrl_input (s := s) (by omega : s.inLen - 4 + 4 ≤ s.inLen)
  rw [show s.inLen - 4 + 1 = s.inLen - 3 by omega, show s.inLen - 4 + 2 = s.inLen - 2 by omega,
    show s.inLen - 4 + 3 = s.inLen - 1 by omega] at hread
  exact (step_of_no_host hh).trans (coreStep_of_decode_ok hb he nofun hread)

end

/-! ## The end of a block -/

theorem blockEnd_of_more {s : State} (hf : s.bfinal = false) : blockEnd s = { s with phase := .blockHeader } := by
  rw [blockEnd, hf]
  rfl

theorem blockEnd_of_final {s : State} (hf : s.bfinal = true) :
    blockEnd s = if s.op = 4 then { s with phase := .unfCfg } else enterDone s := by
  simp only [blockEnd, hf, Bool.not_true, Bool.false_eq_true, if_false, beq_iff_eq]

theorem step_of_blockEnd {s : State} (hh : s.host = []) (hb : s.busy = true) (hp : s.phase = .blockEnd) :
    step s = .next (blockEnd s) := by
  rw [step_of_phase hh hb (by simp only [expected, hp]), phaseStep, hp]

end Sys2Proof.Machine

section

open Sys2Proof Sys2Proof.Machine

/-- Settles O33: the first step reads the header, after which the second reads the trailer; a short input never gets that far. -/
theorem envelopeSteps : Obligations.EnvelopeSteps := by
  unfold Obligations.EnvelopeSteps
  intro s hh hb hp hop hseen
  have hraw : (s.op == 1) = false := by rcases hop with h | h <;> rw [h] <;> rfl
  have he : expected s = some .zHdr := by simp only [expected, hp, hraw, hseen, Bool.false_eq_true, if_false]
  refine ⟨fun hl => ?_, step_of_short_envelope hh hb he⟩
  have hheader := step_of_header hh hb he hl
  have htrailer := step_of_trailer (s := { s with cmf := s.inByte 0, flg := s.inByte 1, hdrSeen := true }) hh hb
    (by simp only [expected, hp, hraw, Bool.false_eq_true, if_false, if_true]) (Nat.le_trans (by decide) hl)
  -- the mark of the first half is cleared again, so it is as it was
  rw [run_succ_of_step hheader, run_succ_of_step htrailer, ← hseen]
  rfl

/-- Settles O40: the operation decides which length is checked, and the checks come after the clearing. -/
theorem startBeginsARun : Obligations.StartBeginsARun := by
  unfold Obligations.StartBeginsARun
  intro v s t hb hstart hclear ht
  rw [← startClear_eq] at ht
  subst ht
  obtain ⟨-, hwrite, -⟩ := controlWrites v s
  rw [hwrite hb hclear hstart, ← inflates_iff]
  refine ⟨fun hi hl => ?_, fun hi hl => ?_, fun ho hl => ?_, fun ho hl => ?_, fun ho => ?_⟩
  · rw [start_of_inflates hi, if_neg (Nat.not_lt.2 hl)]
  · rw [start_of_inflates hi, if_pos hl]
  · rw [start_of_unfilter ho, if_neg (Nat.not_lt.2 hl)]
  · rw [start_of_unfilter ho, if_pos hl]
  · rw [start_of_illegal ho]

/-- Settles O32: each half of the envelope is an update of the registers it latches. -/
theorem envelopeElements : Obligations.EnvelopeElements := by
  unfold Obligations.EnvelopeElements
  exact fun _ => ⟨fun _ _ => rfl, fun _ => rfl⟩

/-- Settles O34: with `OP = 1` the envelope phase has no element, and the end of a block looks at `BFINAL` first, then at `OP`. -/
theorem windowAndBlockEnd : Obligations.WindowAndBlockEnd := by
  unfold Obligations.WindowAndBlockEnd
  intro s hh hb
  refine ⟨fun hp ho => ?_, fun hp hf => ?_, fun hp hf ho => ?_, fun hp hf ho => ?_⟩
  · rw [step_of_phase hh hb (by simp [expected, hp, ho]), phaseStep, hp]
    rfl
  · rw [step_of_blockEnd hh hb hp, blockEnd_of_more hf]
  · rw [step_of_blockEnd hh hb hp, blockEnd_of_final hf, if_pos ho]
  · rw [step_of_blockEnd hh hb hp, blockEnd_of_final hf, if_neg ho]
    rfl

/-- Settles O41: the listed registers are those that `clear` updates, and a busy core ignores the write. -/
theorem clearReturnsToIdle : Obligations.ClearReturnsToIdle := by
  unfold Obligations.ClearReturnsToIdle
  intro v s hclear
  obtain ⟨hidle, -, -, hbusy, -⟩ := controlWrites v s
  exact ⟨fun hb => hidle hb hclear, hbusy⟩

end

/-! PROOF. The unfilter (45_unfilter.md): where it stands between steps (R270, R275), the bytes of a row (R273 to R282), and filtering
undone (R284). -/

namespace Sys2Proof.Machine

/-! ## The unfilter's place -/

theorem RowOk.of_not_busy {s : State} (h : s.busy = false) : RowOk s :=
  ⟨fun hb => absurd hb (by simp [h]), fun hb => absurd hb (by simp [h])⟩

/-- Before the rows nothing is in `PIX`, and there is no row yet. -/
theorem RowOk.of_pixLen {s : State} (hp : s.phase ≠ .unfRow) (h : s.pixLen = 0) : RowOk s :=
  ⟨fun _ _ => h, fun _ hrow => absurd hrow hp⟩

/-- Only a row element is expected in phase `UNF_ROW`. -/
theorem phase_ne_unfRow_of_expected {s : State} {f : Format} (he : expected s = some f) (hf : f ≠ .row) : s.phase ≠ .unfRow :=
  fun hp => hf (Option.some.inj (he.symm.trans (by simp only [expected, hp])))

/-- The next row begins in the valid bytes of `INF`: with columns its last byte was read, without any its filter byte was. -/
theorem rowBase_succ_le {s : State} (hfilter : s.rowBase < s.infLen) (hbytes : 0 < s.cols → s.rowBase + 1 + s.cols ≤ s.infLen) :
    (s.row + 1) * (s.cols + 1) ≤ s.infLen := by
  have hnext : (s.row + 1) * (s.cols + 1) = s.rowBase + 1 + s.cols := by
    rw [Nat.succ_mul, State.rowBase, Nat.add_right_comm, Nat.add_assoc]
  rcases Nat.eq_zero_or_pos s.cols with h0 | hpos
  · omega
  · exact hnext.le.trans (hbytes hpos)

/-- A row moves on with its `COLS` bytes; no other element stays in the rows or writes `PIX`. -/
theorem RowOk.of_elementEffect {f : Format} {s t : State} (hf : FetchedIn f s) (hs : RowOk s) (h : ElementEffect s f t) : RowOk t := by
  have hbefore (hrow : f ≠ .row) : s.phase ≠ .unfRow ∧ s.pixLen = 0 :=
    have hp := phase_ne_unfRow_of_expected hf.expects hrow
    ⟨hp, hs.1 hf.busy hp⟩
  cases h
  case row hbytes hnext =>
    have hp : s.phase = .unfRow := expected_some hf.expects
    obtain ⟨hpix, hheight, hbpp, hbpp', hcols, -⟩ := hs.2 hf.busy hp
    exact ⟨fun _ hne => absurd hp hne, fun _ _ => ⟨by rw [hpix, Nat.succ_mul], Nat.lt_of_le_of_ne hheight hnext, hbpp, hbpp', hcols,
      rowBase_succ_le (hf.row rfl) hbytes⟩⟩
  case block ph hph => exact .of_pixLen (by rcases hph with rfl | rfl | rfl <;> nofun) (hbefore nofun).2
  case lengths => exact .of_pixLen (by dsimp only; split_ifs <;> nofun) (hbefore nofun).2
  case trailer | stored | dynamic | blockDone => exact .of_pixLen nofun (hbefore nofun).2
  case header | literal | length | copied => exact .of_pixLen (hbefore nofun).1 (hbefore nofun).2
  all_goals exact .of_not_busy rfl

/-- The rows are entered at the first of at least one, with nothing read of `INF` yet. -/
theorem RowOk.of_phaseEffect {s t : State} (hb : s.busy = true) (hs : RowOk s) (h : PhaseEffect s t) : RowOk t := by
  have hpix {ph : Phase} (hp : s.phase = ph) (hne : ph ≠ .unfRow) : s.pixLen = 0 := hs.1 hb (hp ▸ hne)
  cases h
  case rest => exact hs
  case raw hp _ => exact .of_pixLen nofun (hpix hp nofun)
  case built hp _ _ => exact .of_pixLen nofun (hpix hp nofun)
  case nextBlock hp _ | toUnfilter hp _ _ => exact .of_pixLen nofun (hpix hp nofun)
  case rows n hp h1 h2 hh =>
    have hpos : 0 < s.height.toNat := Nat.pos_of_ne_zero fun h0 => hh (BitVec.eq_of_toNat_eq h0)
    exact ⟨fun _ hne => absurd rfl hne, fun _ _ => ⟨(hpix hp nofun).trans (Nat.zero_mul _).symm, hpos, h1, h2, rfl,
      (Nat.zero_mul _).le.trans (Nat.zero_le _)⟩⟩
  all_goals exact .of_not_busy rfl

theorem RowOk.of_coreEffect {s t : State} (hs : RowOk s) (h : CoreEffect s t) : RowOk t :=
  h.keeps hs (fun _ _ => hs) (fun _ _ _ _ _ _ _ _ hu => hu) (fun _ _ _ _ _ _ => .of_not_busy rfl)
    (fun hb => of_phaseEffect hb hs) fun _ _ => of_elementEffect

/-- START empties `PIX`; the registers that the place is told by are the core's alone while it is busy. -/
theorem RowOk.of_hostEffect {s t : State} (hs : RowOk s) (h : HostEffect s t) : RowOk t := by
  cases h
  case startInflate | startUnfilter => exact .of_pixLen nofun rfl
  case startError | reset => exact .of_not_busy rfl
  case infLen hb _ | width hb | height hb | clear hb => exact .of_not_busy hb
  case write sp _ _ _ _ => cases sp <;> exact hs
  all_goals exact hs

/-! ## One byte of a row -/

/-- The state after byte `j` of a row has been unfiltered (45_unfilter.md R273). -/
def rowByte (f : Byte → Byte → Byte → Byte → Byte) (j : Nat) (s : State) : State :=
  appendPix (f (s.infByte (s.rowBase + 1 + j)) (neighbourA s j) (neighbourB s j) (neighbourC s j)) s

section

variable {f : Byte → Byte → Byte → Byte → Byte} {n j k : Nat} {s : State}

@[simp] theorem rowByte_rowBase : (rowByte f j s).rowBase = s.rowBase := rfl
@[simp] theorem rowByte_pixLen : (rowByte f j s).pixLen = s.pixLen + 1 := rfl
@[simp] theorem rowByte_pixCap : (rowByte f j s).pixCap = s.pixCap := rfl
@[simp] theorem rowByte_infLen : (rowByte f j s).infLen = s.infLen := rfl
@[simp] theorem rowByte_row : (rowByte f j s).row = s.row := rfl
@[simp] theorem rowByte_cols : (rowByte f j s).cols = s.cols := rfl
@[simp] theorem rowByte_pixGen : (rowByte f j s).pixGen = s.pixGen := rfl
@[simp] theorem infByte_rowByte (a : Nat) : (rowByte f j s).infByte a = s.infByte a := rfl

theorem pixByte_rowByte_self : (rowByte f j s).pixByte s.pixLen =
    f (s.infByte (s.rowBase + 1 + j)) (neighbourA s j) (neighbourB s j) (neighbourC s j) :=
  pixByte_appendPix_self s _

theorem pixByte_rowByte_other {a : Nat} (h : a ≠ s.pixLen) : (rowByte f j s).pixByte a = s.pixByte a :=
  pixByte_appendPix_other s _ h

theorem raise_rowByte (e : ErrCode) (st : Stage) (k : Nat) : raise e st k (rowByte f j s) = raise e st k s := rfl

/-- The row goes on after a byte that is there and fits. -/
theorem rowBytes_succ (hinf : s.rowBase + 1 + j < s.infLen) (hpix : s.pixLen < s.pixCap) :
    rowBytes f (n + 1) j s = rowBytes f n (j + 1) (rowByte f j s) := by
  rw [rowBytes, readInf, if_neg (Nat.not_le_of_lt hinf), Run.bind_ok, writePix, if_neg (Nat.not_le_of_lt hpix), Run.bind_ok, rowByte]

/-! ## The errors of a row -/

/-- `INF` ends before the row does, and no byte before that fails to fit: `E_BOUNDS` where the first byte is missing
(45_unfilter.md R274). -/
theorem rowBytes_missing {left : Nat} (hleft : s.rowBase + 1 + j + left = s.infLen) (hroom : left ≤ s.pixCap - s.pixLen)
    (hn : left < n) : rowBytes f n j s = .trap (raise .bounds .unfRow s.infLen s) := by
  obtain ⟨n, rfl⟩ : ∃ m, n = m + 1 := ⟨n - 1, by omega⟩
  induction left generalizing s j n with
  | zero =>
    rw [rowBytes, readInf, if_pos (by omega), Run.bind_trap, ← hleft]
    rfl
  | succ left ih =>
    obtain ⟨n, rfl⟩ : ∃ m, n = m + 1 := ⟨n - 1, by omega⟩
    rw [rowBytes_succ (by omega) (by omega), ih (by simp only [rowByte_rowBase, rowByte_infLen]; omega)
      (by simp only [rowByte_pixCap, rowByte_pixLen]; omega) n (by omega), raise_rowByte, rowByte_infLen]

/-- A byte of the row does not fit, and none up to it is missing: `E_OVERFLOW` at its index (45_unfilter.md R282). -/
theorem rowBytes_full {room : Nat} (hroom : room = s.pixCap - s.pixLen) (hinf : s.rowBase + 1 + j + room < s.infLen)
    (hn : room < n) : rowBytes f n j s = .trap (raise .overflow .unfRow (s.rowBase + 1 + j + room) s) := by
  obtain ⟨n, rfl⟩ : ∃ m, n = m + 1 := ⟨n - 1, by omega⟩
  induction room generalizing s j n with
  | zero =>
    rw [rowBytes, readInf, if_neg (by omega), Run.bind_ok, writePix, if_pos (by omega), Run.bind_trap]
    rfl
  | succ room ih =>
    obtain ⟨n, rfl⟩ : ∃ m, n = m + 1 := ⟨n - 1, by omega⟩
    rw [rowBytes_succ (by omega) (by omega), ih (by simp only [rowByte_pixCap, rowByte_pixLen]; omega)
      (by simp only [rowByte_rowBase, rowByte_infLen]; omega) n (by omega), raise_rowByte, rowByte_rowBase,
      show s.rowBase + 1 + (j + 1) + room = s.rowBase + 1 + j + (room + 1) by omega]

/-! ## The neighbours -/

/-- A byte of the row above is before the current row (45_unfilter.md R275). -/
theorem above_lt (hrow : 1 ≤ s.row) (hk : k < s.cols) : (s.row - 1) * s.cols + k < s.row * s.cols := by
  obtain ⟨r, hr⟩ : ∃ r, s.row = r + 1 := ⟨s.row - 1, by omega⟩
  rw [hr, Nat.add_sub_cancel, Nat.succ_mul]
  exact Nat.add_lt_add_left hk _

/-- The upper neighbours are in earlier rows, which unfiltering a byte leaves alone. -/
theorem neighbourB_rowByte (hpix : s.row * s.cols ≤ s.pixLen) (hk : k < s.cols) : neighbourB (rowByte f j s) k = neighbourB s k :=
  ite_congr rfl (fun hrow => pixByte_rowByte_other ((above_lt hrow hk).trans_le hpix).ne) fun _ => rfl

theorem neighbourC_rowByte (hpix : s.row * s.cols ≤ s.pixLen) (hk : k < s.cols) : neighbourC (rowByte f j s) k = neighbourC s k :=
  ite_congr rfl (fun hrow => pixByte_rowByte_other
    ((Nat.sub_le _ _).trans_lt ((above_lt hrow.1 hk).trans_le hpix)).ne) fun _ => rfl

/-- The left neighbour of the byte that comes next has been written, so it is the same in a `PIX` that only goes on from there. -/
theorem neighbourA_of_front {m : Memory} (hbpp : 1 ≤ s.bpp) (hpix : s.pixLen = s.row * s.cols + j)
    (hfront : ∀ a, a < s.pixLen → Memory.byte .pix s.pixGen m a = s.pixByte a) :
    neighbourA { s with pixMem := m } j = neighbourA s j :=
  ite_congr rfl (fun _ => hfront _ (by dsimp only; omega)) fun _ => rfl

/-! ## A row that is there and fits -/

/-- The bytes of a row from byte `j` on are appended, each formed from its filtered byte and its neighbours in the `PIX` that results. -/
theorem rowBytes_bytes (hbpp : 1 ≤ s.bpp) (hinf : s.rowBase + 1 + j + n ≤ s.infLen) (hcap : s.pixLen + n ≤ s.pixCap)
    (hpix : s.pixLen = s.row * s.cols + j) (hcols : j + n ≤ s.cols) :
    ∃ m : Memory, rowBytes f n j s = .ok () { s with pixMem := m, pixLen := s.pixLen + n } ∧
      (∀ k, j ≤ k → k < j + n → Memory.byte .pix s.pixGen m (s.row * s.cols + k) =
        f (s.infByte (s.rowBase + 1 + k)) (neighbourA { s with pixMem := m } k) (neighbourB s k) (neighbourC s k)) ∧
      (∀ a, a < s.pixLen ∨ s.pixLen + n ≤ a → Memory.byte .pix s.pixGen m a = s.pixByte a) := by
  induction n generalizing s j with
  | zero => exact ⟨s.pixMem, rfl, fun k h1 h2 => by omega, fun _ _ => rfl⟩
  | succ n ih =>
    obtain ⟨m, hrun, hnew, hold⟩ := ih (s := rowByte f j s) (j := j + 1) hbpp
      (by simp only [rowByte_rowBase, rowByte_infLen]; omega) (by simp only [rowByte_pixLen, rowByte_pixCap]; omega)
      (by simp only [rowByte_pixLen, rowByte_row, rowByte_cols]; omega) (by simp only [rowByte_cols]; omega)
    simp only [rowByte_pixLen, rowByte_pixGen, rowByte_row, rowByte_cols, rowByte_rowBase, infByte_rowByte] at hnew hold
    have hrest {a : Nat} (ha : a < s.pixLen ∨ s.pixLen + (n + 1) ≤ a) : Memory.byte .pix s.pixGen m a = s.pixByte a := by
      rw [hold a (by omega), pixByte_rowByte_other (by omega)]
    refine ⟨m, ?_, fun k h1 h2 => ?_, fun _ => hrest⟩
    · rw [rowBytes_succ (by omega) (by omega), hrun, rowByte_pixLen, Nat.add_right_comm]
      rfl
    · rcases Nat.eq_or_lt_of_le h1 with rfl | hlt
      · rw [neighbourA_of_front hbpp hpix fun a ha => hrest (.inl ha), ← hpix, hold _ (.inl (Nat.lt_succ_self _)), pixByte_rowByte_self]
      · rw [hnew k hlt (by omega), neighbourB_rowByte (by omega) (by omega), neighbourC_rowByte (by omega) (by omega)]
        rfl

end

/-! ## Row elements -/

/-- The five filter types are rows of their filter byte (30_encoding.md R85). -/
theorem exec_filter {i : Instr} (h : i ∈ [Instr.ftNone, .ftSub, .ftUp, .ftAvg, .ftPaeth]) :
    ∃ f, ∀ s, exec i s = rowElement (BitVec.ofNat 8 i.selector) f s := by
  simp only [List.mem_cons, List.not_mem_nil, or_false] at h
  rcases h with rfl | rfl | rfl | rfl | rfl <;> exact ⟨_, fun _ => rfl⟩

/-- A row whose bytes enter an error. -/
theorem rowElement_of_trap {ft : Byte} {f : Byte → Byte → Byte → Byte → Byte} {s t : State}
    (h : rowBytes f s.cols 0 { s with ft := ft } = .trap t) : rowElement ft f s = .next t := by
  rw [rowElement, h, Run.bind_trap, Run.outcome_trap]

theorem unfilters_of_exec {i : Instr} {ft : Byte} {f : Byte → Byte → Byte → Byte → Byte}
    (hexec : ∀ s, exec i s = rowElement ft f s) : Unfilters i ft f := by
  intro s hinf hpix hcap hbpp
  obtain ⟨m, hrun, hnew, hold⟩ := rowBytes_bytes (f := f) (j := 0) (n := s.cols) (s := { s with ft := ft }) hbpp hinf hcap hpix
    (Nat.zero_add _).le
  refine ⟨m, ?_, fun j hj => hnew j (Nat.zero_le j) (by simpa using hj), hold⟩
  rw [hexec, rowElement, hrun, Run.bind_ok, endRow, Run.outcome_ok]
  split_ifs <;> rfl

/-- Average in one sum (45_unfilter.md R279). -/
theorem filterAvg_eq : filterAvg = fun x a b _ => BitVec.ofNat 8 (x.toNat + (a.toNat + b.toNat) / 2) := by
  funext x a b _
  rw [filterAvg, average, BitVec.ofNat_add, BitVec.ofNat_toNat, BitVec.setWidth_eq]

/-! ## A row without its filter byte -/

/-- The filter byte of a row is missing (45_unfilter.md R274). -/
theorem readRow_missing {s : State} (h : s.infLen ≤ s.rowBase) :
    readRow (infSrc s) (8 * s.rowBase) = .stop .bounds .unfRow (8 * s.rowBase) [] := by
  have hbit : readBit .unfRow (infSrc s) (8 * s.rowBase) = .stop .bounds .unfRow (8 * s.rowBase) [] :=
    readBit_none _ ((infSrc_none s _).2 (by omega))
  simp only [readRow, readByte, alignUp_of_aligned, readBits, hbit, Read.bind, Read.field]

/-! ## Filtering undone -/

/-- Where a filter function takes back its predictor, a row filtered byte by byte from the original is unfiltered to the original: the
left neighbour is an original byte by induction along the row (45_unfilter.md R284). -/
theorem Unfilters.restores {i : Instr} {ft : Byte} {f : Byte → Byte → Byte → Byte → Byte} {pred : Byte → Byte → Byte → Byte}
    (h : Unfilters i ft f) (hinv : ∀ o a b c, f (o - pred a b c) a b c = o) {s : State} {orig : Nat → Byte}
    (hinf : s.row * (s.cols + 1) + 1 + s.cols ≤ s.infLen) (hpix : s.pixLen = s.row * s.cols) (hcap : s.pixLen + s.cols ≤ s.pixCap)
    (hbpp : 1 ≤ s.bpp)
    (hrow : ∀ j, j < s.cols → s.infByte (s.row * (s.cols + 1) + 1 + j) = orig j - pred
      (if s.bpp ≤ j then orig (j - s.bpp) else 0) (neighbourB s j) (neighbourC s j)) :
    ∃ t, exec i s = .next t ∧ t.pixLen = s.pixLen + s.cols ∧ ∀ j, j < s.cols → t.pixByte (s.row * s.cols + j) = orig j := by
  obtain ⟨m, hexec, hnew, -⟩ := h s hinf hpix hcap hbpp
  refine ⟨_, hexec, rfl, fun j => ?_⟩
  induction j using Nat.strong_induction_on with
  | _ j ih =>
    intro hj
    have hleft : (if s.bpp ≤ j then Memory.byte .pix s.pixGen m (s.row * s.cols + j - s.bpp) else 0) =
        if s.bpp ≤ j then orig (j - s.bpp) else 0 := by
      split_ifs with hle
      · rw [Nat.add_sub_assoc hle]
        exact ih (j - s.bpp) (by omega) (by omega)
      · rfl
    exact (hnew j hj).trans (by rw [hrow j hj, hleft]; exact hinv ..)

end Sys2Proof.Machine

section

open Sys2Proof Sys2Proof.Machine

/-- Settles O59: the rows are entered with nothing in `PIX`, and each row adds its bytes to `PIX` and passes its bytes of `INF`. -/
theorem stepKeepsRow : Obligations.StepKeepsRow := by
  unfold Obligations.StepKeepsRow
  intro s t hs h
  exact keeps_of_effects (fun _ _ hs => hs) (fun _ _ => RowOk.of_coreEffect) (fun _ _ => RowOk.of_hostEffect) hs h

/-- Settles O27: the bytes of a row, by induction on their number, after which the row moves on. -/
theorem rowElementsUnfilter : Obligations.RowElementsUnfilter := by
  unfold Obligations.RowElementsUnfilter
  exact ⟨unfilters_of_exec fun _ => rfl, unfilters_of_exec fun _ => rfl, unfilters_of_exec fun _ => rfl,
    filterAvg_eq ▸ unfilters_of_exec fun _ => rfl, unfilters_of_exec fun _ => rfl⟩

/-- Settles O28: of the bytes that are left and the room for them, the smaller says which error the row enters, and where. -/
theorem rowElementsRaise : Obligations.RowElementsRaise := by
  unfold Obligations.RowElementsRaise
  refine ⟨?_, fun s hh hb hp hl => ?_⟩
  · rintro i s _ room hi rfl hbase hroom
    obtain ⟨f, hexec⟩ := exec_filter hi
    rw [hexec]
    refine ⟨fun hfits hshort => ?_, fun hleft hn => ?_⟩
    · exact rowElement_of_trap (rowBytes_missing (left := s.infLen - (s.row * (s.cols + 1) + 1))
        (by simp only [State.rowBase]; omega) (by dsimp only; omega) (by omega))
    · exact rowElement_of_trap (rowBytes_full (j := 0) hroom hleft hn)
  · have he : expected s = some .row := by simp only [expected, hp]
    have hstop := coreStep_of_decode_stop hb he (by simp) (readRow_missing hl)
    rw [Nat.mul_div_cancel_left _ (by decide)] at hstop
    exact (step_of_no_host hh).trans hstop

/-- Settles O29: the cases are the branches of `paeth`; absolute values of integers compare as the natural numbers it compares. -/
theorem paethPicksClosest : Obligations.PaethPicksClosest := by
  unfold Obligations.PaethPicksClosest
  rintro a b c _ rfl
  simp only [paeth, Int.abs_eq_natAbs, Nat.cast_le, Nat.cast_lt]
  split_ifs with ha hb
  · exact .inl ⟨rfl, ha⟩
  · exact .inr (.inl ⟨rfl, by omega, hb⟩)
  · exact .inr (.inr ⟨rfl, by omega, by omega⟩)

/-- Settles O30: each filter function adds the predictor that filtering took away. -/
theorem filterThenUnfilter : Obligations.FilterThenUnfilter := by
  unfold Obligations.FilterThenUnfilter
  intro i pred s orig hi hinf hpix hcap hbpp hrow
  have restores {ft : Byte} {f : Byte → Byte → Byte → Byte → Byte} (hexec : ∀ s, exec i s = rowElement ft f s)
      (hinv : ∀ o a b c, f (o - pred a b c) a b c = o) :=
    (unfilters_of_exec hexec).restores hinv hinf hpix hcap hbpp hrow
  rcases hi with ⟨rfl, rfl⟩ | ⟨rfl, rfl⟩ | ⟨rfl, rfl⟩ | ⟨rfl, rfl⟩ | ⟨rfl, rfl⟩
  · exact restores (f := filterNone) (fun _ => rfl) fun o _ _ _ => BitVec.sub_zero o
  · exact restores (f := filterSub) (fun _ => rfl) fun o a _ _ => BitVec.sub_add_cancel o a
  · exact restores (f := filterUp) (fun _ => rfl) fun o _ b _ => BitVec.sub_add_cancel o b
  · exact restores (f := filterAvg) (fun _ => rfl) fun o a b _ => BitVec.sub_add_cancel o (average a b)
  · exact restores (f := filterPaeth) (fun _ => rfl) fun o a b c => BitVec.sub_add_cancel o (paeth a b c)

end

/-! PROOF. The outcome of a run (60_exceptions.md R310 to R316): error entry, and what a step of an idle machine leaves of it. -/

namespace Sys2Proof.Machine

/-! ## Error entry -/

/-- Phase `ERROR` performs no element (60_exceptions.md R314). -/
theorem expected_raise (e : ErrCode) (st : Stage) (k : Nat) (s : State) : expected (raise e st k s) = none := rfl

theorem coreStep_raise (e : ErrCode) (st : Stage) (k : Nat) (s : State) :
    coreStep (raise e st k s) = .next (raise e st k s) := coreStep_idle (raise_busy e st k s)

/-! ## The outcome while not busy -/

/-- What a step leaves that neither begins a run nor clears the outcome of the last one (60_exceptions.md R316). -/
structure OutcomeKept (s t : State) : Prop where
  err : t.err = s.err
  errCode : t.errCode = s.errCode
  errStage : t.errStage = s.errStage
  errPos : t.errPos = s.errPos
  done : t.done = s.done
  busy : t.busy = s.busy
  phase : t.phase = s.phase

section

variable (s : State)

theorem OutcomeKept.refl : OutcomeKept s s := ⟨rfl, rfl, rfl, rfl, rfl, rfl, rfl⟩

theorem OutcomeKept.withHost (q : List HostMove) : OutcomeKept s { s with host := q } := ⟨rfl, rfl, rfl, rfl, rfl, rfl, rfl⟩

/-- A write of `CTRL` alone can change the outcome. -/
theorem OutcomeKept.hostWrite {r : HostReg} (hr : r ≠ .ctrl) (v : Word) : OutcomeKept s (hostWrite r v s) := by
  unfold Machine.hostWrite
  split_ifs
  · exact .refl s
  · cases r
    case ctrl => exact absurd rfl hr
    all_goals exact ⟨rfl, rfl, rfl, rfl, rfl, rfl, rfl⟩

theorem OutcomeKept.hostRead (r : HostReg) : OutcomeKept s (hostRead r s) := by
  unfold Machine.hostRead
  split_ifs <;> exact ⟨rfl, rfl, rfl, rfl, rfl, rfl, rfl⟩

theorem OutcomeKept.hostReadMem (sp : Space) (a : Nat) : OutcomeKept s (hostReadMem sp a s) := by
  unfold Machine.hostReadMem
  split_ifs <;> exact ⟨rfl, rfl, rfl, rfl, rfl, rfl, rfl⟩

theorem OutcomeKept.writeByte (sp : Space) (a : Nat) (v : Byte) : OutcomeKept s (s.writeByte sp a v) := by
  cases sp <;> exact ⟨rfl, rfl, rfl, rfl, rfl, rfl, rfl⟩

end

section

variable {s t : State}

theorem OutcomeKept.trans {u : State} (h : OutcomeKept s t) (h' : OutcomeKept t u) : OutcomeKept s u :=
  ⟨h'.err.trans h.err, h'.errCode.trans h.errCode, h'.errStage.trans h.errStage, h'.errPos.trans h.errPos, h'.done.trans h.done,
    h'.busy.trans h.busy, h'.phase.trans h.phase⟩

/-- Of the host's moves while not busy, only reset and a write of `CTRL` touch the outcome. -/
theorem hostMove_outcome {m : HostMove} (hb : s.busy = false) (h : hostMove m s = .next t) :
    OutcomeKept s t ∨ (m = .rst ∧ t = hardReset s) ∨ ∃ v, m = .writeReg .ctrl v ∧ t = writeCtrl v s := by
  cases m <;> simp only [hostMove] at h
  case writeReg r v =>
    cases h
    by_cases hr : r = .ctrl
    · subst hr
      exact .inr (.inr ⟨v, rfl, hostWrite_ctrl hb v⟩)
    · exact .inl (.hostWrite s hr v)
  case readReg r => cases h; exact .inl (.hostRead s r)
  case writeMem sp a v =>
    split_ifs at h
    cases h; exact .inl (.writeByte s sp a v)
  case readMem sp a =>
    split_ifs at h
    cases h; exact .inl (.hostReadMem s sp a)
  case rst => cases h; exact .inr (.inl ⟨rfl, rfl⟩)
  case pass | wait => cases h; exact .inl (.refl s)

/-- A step of an idle machine changes nothing but the host's queue, or is a move of the host: the core rests. -/
theorem step_idle_cases (hb : s.busy = false) (h : step s = .next t) :
    (∃ q, t = { s with host := q }) ∨ ∃ m q, s.host = m :: q ∧ hostMove m { s with host := q } = .next t := by
  have hrest (q : List HostMove) := coreStep_idle (s := { s with host := q }) hb
  rcases step_cases s with ⟨-, hr⟩ | ⟨q, -, hr⟩ | ⟨q, -, hi, -⟩ | ⟨q, -, -, hr⟩ | ⟨m, q, hh, -, -, hr⟩
  · rw [hr, hrest s.host] at h
    cases h; exact .inl ⟨s.host, rfl⟩
  · rw [hr, hrest q] at h
    cases h; exact .inl ⟨q, rfl⟩
  · simp [hb] at hi
  · rw [hr] at h
    cases h; exact .inl ⟨q, rfl⟩
  · exact .inr ⟨m, q, hh, hr ▸ h⟩

/-- START clears the outcome; then the run begins, or the command error is the new outcome (44_inflate_engine.md R242). -/
theorem start_outcome (s : State) : (start s).done = false ∧ (start s).errPos = 0 ∧
    (((start s).busy = true ∧ (start s).err = false ∧ (start s).errCode = none ∧ (start s).errStage = .none) ∨
      ((start s).busy = false ∧ (start s).err = true ∧ (start s).errCode = some .cmd ∧ (start s).errStage = .cmd)) := by
  rcases start_cases s with ⟨-, -, hr⟩ | ⟨-, -, hr⟩ | hr <;> rw [hr]
  · exact ⟨rfl, rfl, .inl ⟨rfl, rfl, rfl, rfl⟩⟩
  · exact ⟨rfl, rfl, .inl ⟨rfl, rfl, rfl, rfl⟩⟩
  · exact ⟨rfl, rfl, .inr ⟨rfl, rfl, rfl, rfl⟩⟩

end

end Sys2Proof.Machine

section

open Sys2Proof Sys2Proof.Machine

/-- Settles O37: an idle core rests, and of the host's moves only reset, CLEAR and START touch the outcome. -/
theorem outcomeIsSticky : Obligations.OutcomeIsSticky := by
  unfold Obligations.OutcomeIsSticky
  intro s t hb h
  refine Or.imp_left (a := OutcomeKept s t)
    (fun hk => ⟨hk.err, hk.errCode, hk.errStage, hk.errPos, hk.done, hk.busy.trans hb, hk.phase⟩) ?_
  rcases step_idle_cases hb h with ⟨q, rfl⟩ | ⟨m, q, hh, hm⟩
  · exact .inl (.withHost s q)
  rcases hostMove_outcome (s := { s with host := q }) hb hm with hk | ⟨rfl, rfl⟩ | ⟨v, rfl, rfl⟩
  · exact .inl ((OutcomeKept.withHost s q).trans hk)
  · exact .inr (.inl ⟨.inl ⟨q, hh⟩, rfl, rfl, rfl, rfl, rfl, rfl⟩)
  · unfold writeCtrl
    split_ifs with hclear hstart
    · exact .inr (.inl ⟨.inr ⟨v, q, hh, hclear⟩, rfl, rfl, rfl, rfl, rfl, hb⟩)
    · exact .inr (.inr ⟨⟨v, q, hh, hstart, by simpa using hclear⟩, start_outcome _⟩)
    · exact .inl (.withHost s q)

/-- Settles O35: error entry writes the outcome, the lengths and the output memories, keeps the other fields, and the core rests in `ERROR`. -/
theorem errorEntry : Obligations.ErrorEntry := by
  unfold Obligations.ErrorEntry
  rintro e st k s _ rfl
  exact ⟨⟨rfl, rfl, rfl⟩, ⟨rfl, rfl⟩, ⟨rfl, rfl, rfl, rfl⟩, ⟨rfl, rfl⟩, ⟨rfl, rfl, rfl, rfl⟩, ⟨rfl, rfl, rfl, rfl⟩, ⟨rfl, rfl, rfl⟩,
    expected_raise e st k s, coreStep_raise e st k s, rfl, rfl, rfl, rfl⟩

end
